-- ==== Sys2Proof/Word.lean ====
section
/-! DEFINITION. The word types of the hardware: the 32-bit register (10_state.md R23), the 8-bit cell (R24),
and the two kinds of string the rules speak of. -/

namespace Sys2Proof

/-- A 32-bit register's contents (10_state.md R23). Bit 0 is the least significant (00_scope.md R8). -/
abbrev Word := BitVec 32

/-- A buffer cell's contents (10_state.md R24). -/
abbrev Byte := BitVec 8

/-- A character string: the first element is the leftmost character, cell 0 (10_state.md R24, 20_memory.md R54). -/
abbrev Text := List Byte

/-- A BitString, "MSB-first, fixed or variable length": the first element is the leftmost character and the most
significant bit (00_scope.md R6). -/
abbrev Bits := List Bool

end Sys2Proof
end

