-- ==== Sys2Proof/Syntax.lean ====
section
/-! DEFINITION. The sixteen operations of 30_encoding.md R80, one constructor per row of spec/opcode_table.json,
with the ARG sub-fields of R71 and R72 as operands. -/

namespace Sys2Proof

/-- `PREC` (30_encoding.md R72): 0 is single, 1 is double. -/
inductive Precision where
  | single
  | double
  deriving DecidableEq, Repr

/-- `INTYPE` (30_encoding.md R72): 0 is "Binary", 1 is hexadecimal input. -/
inductive InType where
  | binary
  | hex
  deriving DecidableEq, Repr

/-- One command (30_encoding.md R80). `w` is the field `W` and `n` the field `NVARS`, each the 8 bits of ARG (R71). -/
inductive Instr where
  /-- CRC.ENC, 0x01 -/
  | crcEnc
  /-- CRC.DEC, 0x02; `fix` is ARG[0] -/
  | crcDec (fix : Bool)
  /-- HAM.ENC, 0x03 -/
  | hamEnc
  /-- HAM.DEC, 0x04 -/
  | hamDec
  /-- F754.DEC, 0x05 -/
  | f754Dec (prec : Precision) (inType : InType)
  /-- F754.ENC, 0x06 -/
  | f754Enc (prec : Precision)
  /-- F754.ADD, 0x07 -/
  | f754Add (prec : Precision) (inType : InType)
  /-- TC.ENC, 0x08 -/
  | tcEnc (w : BitVec 8)
  /-- TC.DEC, 0x09 -/
  | tcDec (w : BitVec 8)
  /-- TC.ADD, 0x0A -/
  | tcAdd (w : BitVec 8)
  /-- TC.SUB, 0x0B -/
  | tcSub (w : BitVec 8)
  /-- GRAY.ENC, 0x0C -/
  | grayEnc
  /-- GRAY.DEC, 0x0D -/
  | grayDec
  /-- KM.EVAL, 0x0E -/
  | kmEval (n : BitVec 8)
  /-- KM.PI, 0x0F -/
  | kmPi (n : BitVec 8)
  /-- KM.COVER, 0x10 -/
  | kmCover (n : BitVec 8)
  deriving DecidableEq, Repr

end Sys2Proof
end

