-- ==== Sys2Proof/Config.lean ====
section
/-! DEFINITION. The parameters of 00_scope.md R5 that an implementation fixes, with the defaults the spec uses, and the
free values of the two choices the spec leaves open (43_crc.md R176, 46_kmap.md R233). BUS_BINDING has no default and
the model does not use it (20_memory.md R51; log entry 11). -/

namespace Sys2Proof

/-- Parameter `CRC_FIX_ORDER` (43_crc.md R176). -/
inductive CrcFixOrder where
  /-- the least admissible position, scanning from index 0 (the default) -/
  | leftmostFirst
  /-- any admissible position -/
  | any
  deriving DecidableEq, Repr

/-- Parameter `KM_GREEDY_TIE` (46_kmap.md R233). -/
inductive KmGreedyTie where
  /-- the least index among the implicants of maximal gain (the default) -/
  | lowestIndex
  /-- any implicant of maximal gain -/
  | any
  deriving DecidableEq, Repr

/-- Parameter `F754_ADD_ROUND_RULE` (42_ieee754_add.md R158). -/
inductive AddRoundRule where
  /-- round up iff `G and (R or S or L)` (the default) -/
  | nearestEvenGrs
  /-- round up iff `R and (S or L)` -/
  | literalRs
  deriving DecidableEq, Repr

/-- The open parameters of 00_scope.md R5. They are arguments of the model: every definition that needs one reads it
from here, so a claim over every state is a claim over every configuration (log entry 2). -/
structure Config where
  /-- `BUFMAX`, the capacity in cells of every string buffer -/
  bufmax : Nat
  /-- `TCW_MAX`, the largest two's-complement width -/
  tcwMax : Nat
  /-- `PIMAX`, the capacity of the prime-implicant table -/
  pimax : Nat
  /-- `KM_LAYOUT`, `(row_bits, col_bits)` for 1, 2, 3, 4, 5 variables in turn -/
  kmLayout : List (Nat × Nat)
  /-- `CRC_FIX_ORDER` -/
  crcFixOrder : CrcFixOrder
  /-- `KM_GREEDY_TIE` -/
  kmGreedyTie : KmGreedyTie
  /-- `F754_ADD_ROUND_RULE` -/
  addRoundRule : AddRoundRule
  /-- `F754_CANONICAL_NAN` in single precision -/
  nanSingle : BitVec 32
  /-- `F754_CANONICAL_NAN` in double precision -/
  nanDouble : BitVec 64
  deriving DecidableEq, Repr

/-- The defaults of 00_scope.md R5. KM_LAYOUT and the NaN patterns are general knowledge of the spec's own
(93_implementation_defined.md G4, G7; log entries 2 and 10). -/
def Config.default : Config where
  bufmax := 2048
  tcwMax := 64
  pimax := 64
  kmLayout := [(0, 1), (1, 1), (1, 2), (2, 2), (2, 3)]
  crcFixOrder := .leftmostFirst
  kmGreedyTie := .lowestIndex
  addRoundRule := .nearestEvenGrs
  nanSingle := 0x7FC00000#32
  nanDouble := 0x7FF8000000000000#64

/-- The bounds 00_scope.md R5 puts on the parameters: BUFMAX at least 1077, TCW_MAX and PIMAX from 1 to 255, a layout
for each of 1 to 5 variables with `row_bits + col_bits = n` (46_kmap.md R226), and NaN patterns of class NaN
(41_ieee754_convert.md R132: exponent field all ones, mantissa not zero). -/
def Config.wf (c : Config) : Bool :=
  decide (1077 ≤ c.bufmax)
    && decide (1 ≤ c.tcwMax) && decide (c.tcwMax ≤ 255)
    && decide (1 ≤ c.pimax) && decide (c.pimax ≤ 255)
    && decide (c.kmLayout.map (fun p => p.1 + p.2) = [1, 2, 3, 4, 5])
    && decide (c.nanSingle.extractLsb' 23 8 = BitVec.allOnes 8)
    && decide (c.nanSingle.extractLsb' 0 23 ≠ 0#23)
    && decide (c.nanDouble.extractLsb' 52 11 = BitVec.allOnes 11)
    && decide (c.nanDouble.extractLsb' 0 52 ≠ 0#52)

/-- FREE VALUE (log entry 3). Which admissible position CRC.DEC reports under `CRC_FIX_ORDER = any`
(43_crc.md R176): applied to State.freeCount, and reduced to an index of the admissible set by its user. It has no body,
so a claim holds for every choice. -/
opaque Config.crcFixPick : Nat → Nat

/-- FREE VALUE (log entry 3). Which implicant of maximal gain KM.COVER takes under `KM_GREEDY_TIE = any`
(46_kmap.md R233): applied to State.freeCount and to the number of picks made before, and reduced to an index of the tied
set by its user. It has no body, so a claim holds for every choice. -/
opaque Config.greedyPick : Nat → Nat → Nat

end Sys2Proof
end

