-- ==== Sys2Proof/WellFormed.lean ====
section
/-! DEFINITION. The legal values of the ARG sub-fields (30_encoding.md R71). -/

namespace Sys2Proof

/-- `1 ≤ W ≤ TCW_MAX` (30_encoding.md R71). -/
def legalWidth (tcwMax : Nat) (w : BitVec 8) : Bool :=
  decide (1 ≤ w.toNat) && decide (w.toNat ≤ tcwMax)

/-- `1 ≤ NVARS ≤ 5` (30_encoding.md R71). -/
def legalNvars (n : BitVec 8) : Bool :=
  decide (1 ≤ n.toNat) && decide (n.toNat ≤ 5)

/-- The sub-fields of a command hold legal values (30_encoding.md R71): an instruction of a legal command word. -/
def Instr.wf (tcwMax : Nat) : Instr → Bool
  | .crcEnc => true
  | .crcDec _ => true
  | .hamEnc => true
  | .hamDec => true
  | .f754Dec _ _ => true
  | .f754Enc _ => true
  | .f754Add _ _ => true
  | .tcEnc w => legalWidth tcwMax w
  | .tcDec w => legalWidth tcwMax w
  | .tcAdd w => legalWidth tcwMax w
  | .tcSub w => legalWidth tcwMax w
  | .grayEnc => true
  | .grayDec => true
  | .kmEval n => legalNvars n
  | .kmPi n => legalNvars n
  | .kmCover n => legalNvars n

end Sys2Proof
end

