-- ==== Sys2Proof/Decode.lean ====
section
/-! DEFINITION. The command word (30_encoding.md R70 to R72, R80, R82, R83): the decoder, total on all 2^32 words and
rejecting by name, the encoder beside it, and the host's reading of an opcode-table row. -/

namespace Sys2Proof

/-- Why a word is not a legal command word (30_encoding.md R82). Each is reported as E_ILLEGAL_CMD. -/
inductive DecodeError where
  /-- `CMD[31:16] ≠ 0` -/
  | reservedField
  /-- `CMD[7:0]` not in 0x01 .. 0x10 -/
  | unknownOpcode
  /-- ARG violates rule R71 for this OPC -/
  | illegalArgument
  deriving DecidableEq, Repr

/-- Field OPC, bits 7:0 (30_encoding.md R70). -/
def opcField (w : Word) : BitVec 8 := w.extractLsb' 0 8

/-- Field ARG, bits 15:8 (30_encoding.md R70). -/
def argField (w : Word) : BitVec 8 := w.extractLsb' 8 8

/-- Field RSV, bits 31:16 (30_encoding.md R70). -/
def rsvField (w : Word) : BitVec 16 := w.extractLsb' 16 16

/-- The word with RSV = 0 and the given ARG and OPC (30_encoding.md R70). -/
def commandWord (arg opc : BitVec 8) : Word := 0#16 ++ arg ++ opc

/-- PREC as a bit (30_encoding.md R72). -/
def Precision.ofBit (b : Bool) : Precision := if b then .double else .single

/-- PREC as a bit (30_encoding.md R72). -/
def Precision.toBit : Precision → Bool
  | .single => false
  | .double => true

/-- INTYPE as a bit (30_encoding.md R72). -/
def InType.ofBit (b : Bool) : InType := if b then .hex else .binary

/-- INTYPE as a bit (30_encoding.md R72). -/
def InType.toBit : InType → Bool
  | .binary => false
  | .hex => true

/-- A command whose ARG is legal iff `legal` (30_encoding.md R71). -/
def checkedArg (legal : Bool) (i : Instr) : Except DecodeError Instr :=
  if legal then .ok i else .error .illegalArgument

/-- The decoder of 30_encoding.md R82, in its order of checks: RSV, then OPC, then ARG by R71. -/
def decode (tcwMax : Nat) (w : Word) : Except DecodeError Instr :=
  let arg := argField w
  let prec := Precision.ofBit (arg.getLsbD 0)
  let inType := InType.ofBit (arg.getLsbD 1)
  if rsvField w ≠ 0#16 then .error .reservedField
  else match (opcField w).toNat with
    | 0x01 => checkedArg (arg == 0#8) .crcEnc
    | 0x02 => checkedArg (arg.extractLsb' 1 7 == 0#7) (.crcDec (arg.getLsbD 0))
    | 0x03 => checkedArg (arg == 0#8) .hamEnc
    | 0x04 => checkedArg (arg == 0#8) .hamDec
    | 0x05 => checkedArg (arg.extractLsb' 2 6 == 0#6) (.f754Dec prec inType)
    | 0x06 => checkedArg (arg.extractLsb' 1 7 == 0#7) (.f754Enc prec)
    | 0x07 => checkedArg (arg.extractLsb' 2 6 == 0#6) (.f754Add prec inType)
    | 0x08 => checkedArg (legalWidth tcwMax arg) (.tcEnc arg)
    | 0x09 => checkedArg (legalWidth tcwMax arg) (.tcDec arg)
    | 0x0A => checkedArg (legalWidth tcwMax arg) (.tcAdd arg)
    | 0x0B => checkedArg (legalWidth tcwMax arg) (.tcSub arg)
    | 0x0C => checkedArg (arg == 0#8) .grayEnc
    | 0x0D => checkedArg (arg == 0#8) .grayDec
    | 0x0E => checkedArg (legalNvars arg) (.kmEval arg)
    | 0x0F => checkedArg (legalNvars arg) (.kmPi arg)
    | 0x10 => checkedArg (legalNvars arg) (.kmCover arg)
    | _ => .error .unknownOpcode

/-- The operation code of 30_encoding.md R80. -/
def Instr.opc : Instr → BitVec 8
  | .crcEnc => 0x01#8
  | .crcDec _ => 0x02#8
  | .hamEnc => 0x03#8
  | .hamDec => 0x04#8
  | .f754Dec _ _ => 0x05#8
  | .f754Enc _ => 0x06#8
  | .f754Add _ _ => 0x07#8
  | .tcEnc _ => 0x08#8
  | .tcDec _ => 0x09#8
  | .tcAdd _ => 0x0A#8
  | .tcSub _ => 0x0B#8
  | .grayEnc => 0x0C#8
  | .grayDec => 0x0D#8
  | .kmEval _ => 0x0E#8
  | .kmPi _ => 0x0F#8
  | .kmCover _ => 0x10#8

/-- The ARG field of 30_encoding.md R71. -/
def Instr.arg : Instr → BitVec 8
  | .crcEnc => 0#8
  | .crcDec fix => 0#7 ++ BitVec.ofBool fix
  | .hamEnc => 0#8
  | .hamDec => 0#8
  | .f754Dec p t => 0#6 ++ BitVec.ofBool t.toBit ++ BitVec.ofBool p.toBit
  | .f754Enc p => 0#7 ++ BitVec.ofBool p.toBit
  | .f754Add p t => 0#6 ++ BitVec.ofBool t.toBit ++ BitVec.ofBool p.toBit
  | .tcEnc w => w
  | .tcDec w => w
  | .tcAdd w => w
  | .tcSub w => w
  | .grayEnc => 0#8
  | .grayDec => 0#8
  | .kmEval n => n
  | .kmPi n => n
  | .kmCover n => n

/-- The command word of an instruction (30_encoding.md R70, R71, R80, R85). -/
def encode (i : Instr) : Word := commandWord i.arg i.opc

/-- Every legal command, once each (30_encoding.md R83 counts them): operations without argument, then those with
flags, then every width of each two's-complement operation, then every variable count of each K-map operation. -/
def legalInstrs (tcwMax : Nat) : List Instr :=
  let precs := [Precision.single, Precision.double]
  let types := [InType.binary, InType.hex]
  let widths := (List.range tcwMax).map (fun k => BitVec.ofNat 8 (k + 1))
  let counts := (List.range 5).map (fun k => BitVec.ofNat 8 (k + 1))
  [.crcEnc, .hamEnc, .hamDec, .grayEnc, .grayDec, .crcDec false, .crcDec true]
    ++ precs.flatMap (fun p => types.map (fun t => .f754Dec p t))
    ++ precs.map (fun p => .f754Enc p)
    ++ precs.flatMap (fun p => types.map (fun t => .f754Add p t))
    ++ widths.map .tcEnc ++ widths.map .tcDec ++ widths.map .tcAdd ++ widths.map .tcSub
    ++ counts.map .kmEval ++ counts.map .kmPi ++ counts.map .kmCover

/-- What the decoder reads from an instruction whose bits are `w`, numbered as the opcode table numbers them, every
bit above `nbits` zero. The command word is one 32-bit register written whole (20_memory.md R54, R55), so no byte order
enters. TCW_MAX is the default of 00_scope.md R5, the one State.reset holds. -/
def decodeTableWord (nbits w : Nat) : Option Instr :=
  match decode Config.default.tcwMax (BitVec.ofNat 32 (w % 2 ^ nbits)) with
  | .ok i => some i
  | .error _ => none

end Sys2Proof
end

