-- ==== Sys2Proof/Machine/Chars.lean ====
section
/-! DEFINITION. The character codes of 30_encoding.md R73 (ASCII and 0xB7 for the middle dot). "Every other code,
including 0x00, is outside every alphabet." -/

namespace Sys2Proof.Machine

def chSpace : Byte := 0x20#8
def chBang : Byte := 0x21#8
def chPrime : Byte := 0x27#8
def chOpen : Byte := 0x28#8
def chClose : Byte := 0x29#8
def chPlus : Byte := 0x2B#8
def chMinus : Byte := 0x2D#8
def chPoint : Byte := 0x2E#8
def chZero : Byte := 0x30#8
def chOne : Byte := 0x31#8
def chMiddleDot : Byte := 0xB7#8

/-- The value of a decimal digit `0` .. `9` (0x30 .. 0x39). -/
def decDigit? (c : Byte) : Option Nat :=
  if 0x30 ≤ c.toNat ∧ c.toNat ≤ 0x39 then some (c.toNat - 0x30) else none

/-- The value of a hex digit, upper and lower case alike (30_encoding.md R73, R77). -/
def hexDigit? (c : Byte) : Option Nat :=
  if 0x30 ≤ c.toNat ∧ c.toNat ≤ 0x39 then some (c.toNat - 0x30)
  else if 0x41 ≤ c.toNat ∧ c.toNat ≤ 0x46 then some (c.toNat - 0x37)
  else if 0x61 ≤ c.toNat ∧ c.toNat ≤ 0x66 then some (c.toNat - 0x57)
  else none

/-- The number of a K-map variable `A` .. `E`, `a` .. `e` (46_kmap.md R220: A = 0 .. E = 4, case-insensitive). -/
def kmVar? (c : Byte) : Option Nat :=
  if 0x41 ≤ c.toNat ∧ c.toNat ≤ 0x45 then some (c.toNat - 0x41)
  else if 0x61 ≤ c.toNat ∧ c.toNat ≤ 0x65 then some (c.toNat - 0x61)
  else none

/-- The character of a bit. -/
def bitChar (b : Bool) : Byte := if b then chOne else chZero

/-- The character of a decimal digit `d < 10`. -/
def decChar (d : Nat) : Byte := BitVec.ofNat 8 (0x30 + d)

/-- The upper-case hex digit of `d < 16` (30_encoding.md R74). -/
def hexChar (d : Nat) : Byte := if d < 10 then BitVec.ofNat 8 (0x30 + d) else BitVec.ofNat 8 (0x37 + d)

/-- The upper-case letter of K-map variable `v` (46_kmap.md R236). -/
def kmVarChar (v : Nat) : Byte := BitVec.ofNat 8 (0x41 + v)

end Sys2Proof.Machine
end

