-- ==== Sys2Proof/Machine/Bits.lean ====
section
/-! DEFINITION. BitStrings, their values and their text (00_scope.md R6, R10; 30_encoding.md R74), and exact decimal
text (41_ieee754_convert.md R135). -/

namespace Sys2Proof.Machine

/-- `val(b)`, the unsigned value of a BitString (00_scope.md R6). -/
def bitsVal (b : Bits) : Nat := b.foldl (fun a x => 2 * a + x.toNat) 0

/-- `bin_L(v)`, the low `L` bits of `v`, most significant first (00_scope.md R6). -/
def binBits : Nat → Nat → Bits
  | 0, _ => []
  | L + 1, v => v.testBit L :: binBits L v

/-- `0^r` (00_scope.md R6). -/
def zeroBits (r : Nat) : Bits := List.replicate r false

/-- A BitString as text, one character per bit (30_encoding.md R74). -/
def bitsText (b : Bits) : Text := b.map bitChar

/-- The decimal digits of `v`, most significant first, put before `acc`; `fuel` above the number of digits suffices. -/
def decDigitsOnto : Nat → Nat → List Nat → List Nat
  | 0, _, acc => acc
  | fuel + 1, v, acc => if v < 10 then v :: acc else decDigitsOnto fuel (v / 10) (v % 10 :: acc)

/-- `dec(v)` of a natural number (00_scope.md R10): its digits without leading zeros, `0` for zero. -/
def decText (v : Nat) : Text := (decDigitsOnto (v + 1) v []).map decChar

/-- `dec(v)` of an integer (00_scope.md R10): `-` if `v < 0`, then the digits of `|v|`. -/
def decTextInt (v : Int) : Text := if v < 0 then chMinus :: decText v.natAbs else decText v.natAbs

/-- The value a string of decimal digits spells, leading zeros allowed. A character that is no digit counts 0; the
operand formats call this on digits only. -/
def decVal (t : Text) : Nat := t.foldl (fun a c => 10 * a + (decDigit? c).getD 0) 0

/-- The upper-case hex digits of a BitString whose length is a multiple of 4 (30_encoding.md R74, R77: most significant
digit first). -/
def hexText : Bits → Text
  | a :: b :: c :: d :: rest => hexChar (bitsVal [a, b, c, d]) :: hexText rest
  | _ => []

/-- The fractional digits of `rem / den` for `rem < den`, ending when the rest is 0 (41_ieee754_convert.md R135: the
least number of digits); `fuel` bounds their number. -/
def fracDigits : Nat → Nat → Nat → List Nat
  | 0, _, _ => []
  | fuel + 1, rem, den =>
    if rem = 0 then [] else 10 * rem / den :: fracDigits fuel (10 * rem % den) den

/-- `dectext(num / 2^k)`, the exact finite decimal expansion (41_ieee754_convert.md R135). A fraction with denominator
`2^k` has at most `k` decimal digits. -/
def decExpansion (num k : Nat) : Text :=
  let whole := decText (num / 2 ^ k)
  let rest := num % 2 ^ k
  if rest = 0 then whole else whole ++ chPoint :: (fracDigits k rest (2 ^ k)).map decChar

/-- `bitlength(T)`, the number of bits of `T` without leading zeros (42_ieee754_add.md R151). -/
def bitLength (t : Nat) : Nat := if t = 0 then 0 else Nat.log2 t + 1

/-- The number of 1 bits of a register. -/
def popcount (w : Word) : Nat := ((List.range 32).filter (fun i => w.getLsbD i)).length

end Sys2Proof.Machine
end

