-- ==== Sys2Proof/Machine/Flags.lean ====
section
/-! DEFINITION. The STATUS register (10_state.md R26 to R29): error codes, flags, IEEE-754 class codes, the layout, and
the computation of every flag that is not a plain fact of its operation. -/

namespace Sys2Proof.Machine

/-- The kinds of error (10_state.md R29, 60_exceptions.md R250). -/
inductive Err where
  | illegalCmd
  | empty
  | char
  | format
  | width
  | genMsb
  | range
  | internal
  | capacity
  deriving DecidableEq, Repr

/-- The code written to STATUS.ERR (10_state.md R29). -/
def Err.code : Err → BitVec 4
  | .illegalCmd => 1#4
  | .empty => 2#4
  | .char => 3#4
  | .format => 4#4
  | .width => 5#4
  | .genMsb => 6#4
  | .range => 7#4
  | .internal => 8#4
  | .capacity => 9#4

/-- The classes of an IEEE-754 number (41_ieee754_convert.md R132). -/
inductive FpClass where
  | zero
  | denormalized
  | normalized
  | infinity
  | nan
  deriving DecidableEq, Repr

/-- The CLASS codes (10_state.md R26, 41_ieee754_convert.md R132). -/
def FpClass.code : FpClass → BitVec 3
  | .zero => 1#3
  | .denormalized => 2#3
  | .normalized => 3#3
  | .infinity => 4#3
  | .nan => 5#3

/-- The result flags of STATUS (10_state.md R26). A flag an operation does not list is 0 (R27). -/
structure Flags where
  valid : Bool := false
  corr : Bool := false
  uncorr : Bool := false
  ovf : Bool := false
  cout : Bool := false
  sign : Bool := false
  cls : BitVec 3 := 0#3
  deriving DecidableEq, Repr

/-- STATUS laid out as 10_state.md R26; the bits not listed are 0. -/
def statusWord (busy done : Bool) (err : BitVec 4) (f : Flags) : Word :=
  0#13 ++ f.cls ++ 0#2 ++ BitVec.ofBool f.sign ++ BitVec.ofBool f.cout ++ BitVec.ofBool f.ovf
    ++ BitVec.ofBool f.uncorr ++ BitVec.ofBool f.corr ++ BitVec.ofBool f.valid ++ err ++ 0#2
    ++ BitVec.ofBool done ++ BitVec.ofBool busy

/-- `STATUS.BUSY` (10_state.md R26). -/
def statusBusy (w : Word) : Bool := w.getLsbD 0

/-- `STATUS.DONE` (10_state.md R26). -/
def statusDone (w : Word) : Bool := w.getLsbD 1

/-- `STATUS.ERR` (10_state.md R26). -/
def statusErr (w : Word) : BitVec 4 := w.extractLsb' 4 4

/-- The flags of STATUS (10_state.md R26). -/
def statusFlags (w : Word) : Flags where
  valid := w.getLsbD 8
  corr := w.getLsbD 9
  uncorr := w.getLsbD 10
  ovf := w.getLsbD 11
  cout := w.getLsbD 12
  sign := w.getLsbD 13
  cls := w.extractLsb' 16 3

/-- The bits of STATUS that 10_state.md R26 assigns to a field. -/
def statusAssigned : Word := 0x00073FF3#32

/-- STATUS after a host write of CMD: `BUSY <- 1`, `DONE <- 0`, nothing else (10_state.md R28). -/
def statusStarted (w : Word) : Word := (w ||| 0x1#32) &&& ~~~0x2#32

/-- Two's-complement overflow: `v` is outside `TMIN(w) .. TMAX(w)` (40_twos_complement.md R110, R112). -/
def tcOverflow (v : Int) (w : Nat) : Bool := decide (v < -(2 ^ (w - 1) : Int)) || decide ((2 ^ (w - 1) : Int) - 1 < v)

/-- COUT and OVF from the carries (borrows) out of every bit, most significant first: `COUT = c[w]`,
`OVF = c[w] ^ c[w-1]`, where `c[0] = 0` (40_twos_complement.md R115, R116). -/
def chainFlags : Bits → Flags
  | [] => {}
  | [c] => { cout := c, ovf := c }
  | c :: d :: _ => { cout := c, ovf := c ^^ d }

end Sys2Proof.Machine
end

