-- ==== Sys2Proof/Machine/Operands.lean ====
section
/-! DEFINITION. The operand formats (30_encoding.md R75 to R79), each with its checks in the order its rule gives. -/

namespace Sys2Proof.Machine

/-- Cleaning (30_encoding.md R75): every space deleted, order otherwise kept. -/
def clean (t : Text) : Text := t.filter (fun c => c ≠ chSpace)

/-- A check of an operand: pass, or end with the error (00_scope.md R10 `raise`). -/
def require (ok : Bool) (e : Err) : Except Err Unit := if ok then .ok () else .error e

/-- A character of the BITS alphabet (30_encoding.md R76). -/
def isBitChar (c : Byte) : Bool := c == chZero || c == chOne

/-- Format `BITS` (30_encoding.md R76) of a buffer's content: cleaned first (R75), then E_EMPTY, then E_CHAR. -/
def bitsOperand (content : Text) : Except Err Bits := do
  let t := clean content
  require (!t.isEmpty) .empty
  require (t.all isBitChar) .char
  return t.map (fun c => c == chOne)

/-- Format `BITS` of exact length `L` (30_encoding.md R76): E_WIDTH after the two checks. -/
def bitsOperandOf (L : Nat) (content : Text) : Except Err Bits := do
  let b ← bitsOperand content
  require (b.length == L) .width
  return b

/-- Format `HEX` of exactly `L` digits (30_encoding.md R77): E_EMPTY, E_CHAR, E_WIDTH; each digit its 4 bits. -/
def hexOperandOf (L : Nat) (content : Text) : Except Err Bits := do
  let t := clean content
  require (!t.isEmpty) .empty
  require (t.all (fun c => (hexDigit? c).isSome)) .char
  require (t.length == L) .width
  return t.flatMap (fun c => binBits 4 ((hexDigit? c).getD 0))

/-- A decimal digit character. -/
def isDecChar (c : Byte) : Bool := (decDigit? c).isSome

/-- `-`? split off: whether the first character is `-`, and the rest (30_encoding.md R78, R79). -/
def splitSign : Text → Bool × Text
  | [] => (false, [])
  | c :: rest => if c = chMinus then (true, rest) else (false, c :: rest)

/-- Format `DECINT` (30_encoding.md R78): E_EMPTY, E_CHAR, then E_FORMAT for a `-` past index 0 or no digit. -/
def decIntOperand (content : Text) : Except Err Int := do
  let t := clean content
  require (!t.isEmpty) .empty
  require (t.all (fun c => isDecChar c || c == chMinus)) .char
  let (neg, digits) := splitSign t
  require (digits.all isDecChar && !digits.isEmpty) .format
  return if neg then -(decVal digits : Int) else (decVal digits : Int)

/-- A value of format `DECREAL` (30_encoding.md R79): the sign, and the magnitude as the exact rational
`num / 10^scale`. -/
structure DecReal where
  neg : Bool
  num : Nat
  scale : Nat
  deriving DecidableEq, Repr

/-- Format `DECREAL` (30_encoding.md R79): E_EMPTY, E_CHAR, then E_FORMAT for a `-` past index 0, a second point, no
digit before the point, no digit after it, or no digit at all. -/
def decRealOperand (content : Text) : Except Err DecReal := do
  let t := clean content
  require (!t.isEmpty) .empty
  require (t.all (fun c => isDecChar c || c == chMinus || c == chPoint)) .char
  let (neg, body) := splitSign t
  let whole := body.takeWhile (fun c => c ≠ chPoint)
  let tail := body.dropWhile (fun c => c ≠ chPoint)
  let frac := tail.drop 1
  require (whole.all isDecChar && !whole.isEmpty) .format
  require (tail.isEmpty || (frac.all isDecChar && !frac.isEmpty)) .format
  return { neg := neg, num := decVal (whole ++ frac), scale := frac.length }

end Sys2Proof.Machine
end

