-- ==== Sys2Proof/Machine/State.lean ====
section
/-! DEFINITION. The state of the hardware (10_state.md), as plain data, and its value after reset (R41). -/

namespace Sys2Proof.Machine

/-- The cells of one string buffer (10_state.md R24): (index, byte) pairs, indices strictly rising and no byte equal to
`unlistedCell`, which is what a cell that is not listed reads as. Addressed by cell index (20_memory.md R50). -/
abbrev Memory := List Host.Cell

/-- What a cell that is not listed holds: 0x00, the reset value of every cell (10_state.md R41). -/
def unlistedCell : Byte := 0x00#8

/-- The canonical form of a buffer's cells: indices strictly rising, no listed byte equal to `unlistedCell`. -/
def Memory.wf : Memory → Bool
  | [] => true
  | [c] => decide (c.2 ≠ unlistedCell)
  | c :: d :: rest => decide (c.2 ≠ unlistedCell) && decide (c.1 < d.1) && Memory.wf (d :: rest)

/-- A string buffer `(LEN, CELL[0 .. BUFMAX-1])` (10_state.md R24). -/
structure Buffer where
  /-- `LEN`, an integer in `0 .. BUFMAX` -/
  len : Nat
  /-- the cells -/
  cells : Memory
  deriving DecidableEq, Repr

/-- The name of a string buffer (10_state.md R24). -/
inductive BufName where
  | opa
  | opb
  | ra
  | rb
  | rc
  deriving DecidableEq, Repr

/-- One entry of the prime-implicant table (10_state.md R23, R33). -/
structure PiEntry where
  /-- `PI[i].CELLS`: bit j = 1 iff minterm j is in implicant i -/
  cells : Word
  /-- `PI[i].INFO`: bit 0 ESS, bit 1 SEL, bits 15:8 RANK, other bits 0 -/
  info : Word
  deriving DecidableEq, Repr

/-- The host's actions (20_memory.md R52): "The host has these actions and no others. Each is atomic." -/
inductive HostAction where
  /-- `HostWriteReg(n, v)` -/
  | writeReg (n : Nat) (v : Word)
  /-- `HostWriteCell(B, i, c)` -/
  | writeCell (b : BufName) (i : Nat) (c : Byte)
  /-- `HostWriteLen(B, l)` -/
  | writeLen (b : BufName) (l : Nat)
  /-- `HostReadReg(n)` -/
  | readReg (n : Nat)
  /-- `HostReadLen(B)` -/
  | readLen (b : BufName)
  /-- `HostReadCell(B, i)` -/
  | readCell (b : BufName) (i : Nat)
  deriving DecidableEq, Repr

/-- One turn of one of the two agents (20_memory.md R56). -/
inductive Event where
  /-- the host performs an action -/
  | host (a : HostAction)
  /-- the engine may perform its step `Execute` -/
  | engine
  deriving DecidableEq, Repr

/-- The value a read action returns (20_memory.md R52). -/
inductive Reply where
  /-- of HostReadReg -/
  | reg (v : Word)
  /-- of HostReadLen -/
  | len (l : Nat)
  /-- of HostReadCell -/
  | cell (c : Byte)
  deriving DecidableEq, Repr

/-- The state of the block and of its surroundings. The registers and buffers are those of 10_state.md R23 and R24; the
last four fields are the model's own (log entries 1, 2, 3). -/
structure State where
  /-- register 0, the command word -/
  cmd : Word
  /-- register 1, laid out as R26 -/
  status : Word
  /-- register 2 -/
  aux0 : Word
  /-- register 3 -/
  aux1 : Word
  /-- register 4 -/
  kmOn : Word
  /-- register 5 -/
  kmDc : Word
  /-- register 6 -/
  kmTt : Word
  /-- register 7 -/
  picnt : Word
  /-- registers 8 + 2i and 9 + 2i; an entry past the end of the list reads 0 (R33) -/
  piTable : List PiEntry
  /-- first operand -/
  opa : Buffer
  /-- second operand -/
  opb : Buffer
  /-- first result -/
  ra : Buffer
  /-- second result -/
  rb : Buffer
  /-- third result -/
  rc : Buffer
  /-- MODEL: the parameters of 00_scope.md R5; no step changes them -/
  cfg : Config
  /-- MODEL: the turns still to come, in the one total order of 20_memory.md R57 -/
  schedule : List Event
  /-- MODEL: the values the host's reads have returned, newest first -/
  replies : List Reply
  /-- MODEL: the counter the free values of Config are applied to -/
  freeCount : Nat
  deriving DecidableEq, Repr

/-- Why the machine stops at an access to something the spec says does not exist. The spec calls the action refused and
gives it no step (20_memory.md R52); the model stops. Safe: no effect is invented (log entry 5). -/
inductive Fault where
  /-- raised by a host read or write of a register number at or above 8 + 2·PIMAX (10_state.md R23: those "do not
  exist"). Safe. -/
  | noSuchRegister (n : Nat)
  /-- raised by a host access to a cell index at or above BUFMAX (R24 gives cells 0 .. BUFMAX-1). Safe. -/
  | noSuchCell (b : BufName) (i : Nat)
  deriving DecidableEq, Repr

/-- Why an action is refused. All but the first are the refusals of 20_memory.md R52: "the model gives them no step (the
host is stuck at that action)". Safe: no effect is invented (log entry 5). -/
inductive Refusal where
  /-- raised by an arm of exec that has no meaning yet; no arm has it now. Safe. -/
  | notModelled (mnemonic : String)
  /-- raised by a host write, or a host read of a result, while `BUSY = 1` (U10). Safe. -/
  | busy
  /-- raised by a host write to a register that is not CMD, KM_ON or KM_DC (U11). Safe. -/
  | readOnlyRegister (n : Nat)
  /-- raised by a host write to a result buffer (U11). Safe. -/
  | readOnlyBuffer (b : BufName)
  /-- raised by HostWriteLen of a length above BUFMAX (H5 of 95_test_vectors.md). Safe. -/
  | lengthOverCapacity (b : BufName) (l : Nat)
  /-- raised by HostReadCell of a result buffer at an index at or above its LEN (U12). Safe. -/
  | pastResultLength (b : BufName) (i : Nat)
  deriving DecidableEq, Repr

/-- An empty buffer whose cells are all 0x00 (10_state.md R41). -/
def Buffer.reset : Buffer := ⟨0, []⟩

/-- The state after reset (10_state.md R41, 70_reset_and_hazards.md R271). The model's own fields: the default
parameters of 00_scope.md R5, no event, no reply, counter 0 (log entries 1, 2, 3). -/
def State.reset : State where
  cmd := 0#32
  status := 0#32
  aux0 := 0#32
  aux1 := 0#32
  kmOn := 0#32
  kmDc := 0#32
  kmTt := 0#32
  picnt := 0#32
  piTable := []
  opa := Buffer.reset
  opb := Buffer.reset
  ra := Buffer.reset
  rb := Buffer.reset
  rc := Buffer.reset
  cfg := Config.default
  schedule := []
  replies := []
  freeCount := 0

end Sys2Proof.Machine
end

