-- ==== Sys2Proof/Machine/Ops.lean ====
section
/-! DEFINITION. The named operations over cells, buffers and registers (10_state.md, 20_memory.md), and the completion of
a command: with results (R40) or with an error (60_exceptions.md R252), the one place where a command writes state. The
hardware has no trap and no return from one (R257), so error completion is its whole exception mechanism. -/

namespace Sys2Proof.Machine

/-- The byte in cell `i`. -/
def Memory.read : Memory → Nat → Byte
  | [], _ => unlistedCell
  | c :: rest, i => if c.1 = i then c.2 else Memory.read rest i

/-- Byte `b` stored in cell `i`. Keeps the canonical form: storing `unlistedCell` removes the entry. -/
def Memory.write : Memory → Nat → Byte → Memory
  | [], i, b => if b = unlistedCell then [] else [(i, b)]
  | c :: rest, i, b =>
    if i < c.1 then (if b = unlistedCell then c :: rest else (i, b) :: c :: rest)
    else if i = c.1 then (if b = unlistedCell then rest else (i, b) :: rest)
    else c :: Memory.write rest i b

/-- The characters of `t` stored in cells `i`, `i + 1`, … -/
def Memory.writeText : Memory → Nat → Text → Memory
  | m, _, [] => m
  | m, i, c :: t => Memory.writeText (m.write i c) (i + 1) t

/-- Cell `i` of a buffer (10_state.md R24). -/
def Buffer.cell (b : Buffer) (i : Nat) : Byte := b.cells.read i

/-- The content of a buffer, `CELL[0] … CELL[LEN-1]` (10_state.md R24). -/
def Buffer.content (b : Buffer) : Text := (List.range b.len).map b.cell

/-- `BUF <- text(t)` (30_encoding.md R74): `LEN <- |t|`, `CELL[i] <- t[i]`; cells at or past LEN keep what they held
(R24, R276; log entry 4). `t` empty is `LEN <- 0`. -/
def Buffer.write (b : Buffer) (t : Text) : Buffer := ⟨t.length, b.cells.writeText 0 t⟩

/-- The buffer of a name. -/
def State.buffer (s : State) : BufName → Buffer
  | .opa => s.opa
  | .opb => s.opb
  | .ra => s.ra
  | .rb => s.rb
  | .rc => s.rc

/-- The state with the buffer of a name replaced. -/
def State.setBuffer (s : State) (n : BufName) (b : Buffer) : State :=
  match n with
  | .opa => { s with opa := b }
  | .opb => { s with opb := b }
  | .ra => { s with ra := b }
  | .rb => { s with rb := b }
  | .rc => { s with rc := b }

/-- `STATUS.BUSY` of a state. -/
def State.busy (s : State) : Bool := statusBusy s.status

/-- `STATUS.DONE` of a state. -/
def State.done (s : State) : Bool := statusDone s.status

/-- `STATUS.ERR` of a state. -/
def State.err (s : State) : BitVec 4 := statusErr s.status

/-- The result flags of a state. -/
def State.flags (s : State) : Flags := statusFlags s.status

/-- Entry `i` of the prime-implicant table; an entry past the valid ones reads 0 (10_state.md R33). -/
def State.piEntry (s : State) (i : Nat) : PiEntry := s.piTable.getD i ⟨0#32, 0#32⟩

/-- Whether register number `n` exists (10_state.md R23: numbers from `8 + 2·PIMAX` upward do not). -/
def State.hasRegister (s : State) (n : Nat) : Bool := decide (n < 8 + 2 * s.cfg.pimax)

/-- Register number `n` (10_state.md R23). -/
def State.register (s : State) (n : Nat) : Word :=
  match n with
  | 0 => s.cmd
  | 1 => s.status
  | 2 => s.aux0
  | 3 => s.aux1
  | 4 => s.kmOn
  | 5 => s.kmDc
  | 6 => s.kmTt
  | 7 => s.picnt
  | k + 8 => if k % 2 = 0 then (s.piEntry (k / 2)).cells else (s.piEntry (k / 2)).info

/-- The registers a host reads only while `BUSY = 0`: 2, 3, 6, 7 and the table (20_memory.md R52). -/
def isResultRegister (n : Nat) : Bool := decide (n = 2 ∨ n = 3 ∨ 6 ≤ n)

/-- The result buffers (10_state.md R24). -/
def BufName.isResult : BufName → Bool
  | .opa => false
  | .opb => false
  | .ra => true
  | .rb => true
  | .rc => true

/-- HostWriteReg(0, v): `CMD <- v`, `BUSY <- 1`, `DONE <- 0` and nothing else (10_state.md R28, 20_memory.md R52). -/
def State.startCommand (s : State) (v : Word) : State :=
  { s with cmd := v, status := statusStarted s.status }

/-- `Execute`'s reading of CMD (20_memory.md R59: once, in `Execute`; 30_encoding.md R82). -/
def State.fetch (s : State) : Except DecodeError Instr := decode s.cfg.tcwMax s.cmd

/-- What an operation delivers when every check of its own has passed. A result the operation does not name keeps its
empty or 0 default (10_state.md R40). `selfCheck` is the outcome of the internal self-checks, made last (R81). -/
structure Results where
  ra : Text := []
  rb : Text := []
  rc : Text := []
  aux0 : Word := 0#32
  aux1 : Word := 0#32
  kmTt : Word := 0#32
  pi : List PiEntry := []
  flags : Flags := {}
  selfCheck : Bool := true
  deriving DecidableEq, Repr

/-- Completion of a command (10_state.md R28, R40): every result register written, `BUSY <- 0`, `DONE <- 1`. Operand
registers are not written (R25). -/
def State.complete (s : State) (err : BitVec 4) (r : Results) : State :=
  { s with
    status := statusWord false true err r.flags
    aux0 := r.aux0
    aux1 := r.aux1
    kmTt := r.kmTt
    picnt := BitVec.ofNat 32 r.pi.length
    piTable := r.pi
    ra := s.ra.write r.ra
    rb := s.rb.write r.rb
    rc := s.rc.write r.rc }

/-- Error completion, the meaning of `raise E` (60_exceptions.md R252): ERR is the code, every other result 0 or
empty. -/
def State.failWith (s : State) (e : Err) : State := s.complete e.code {}

/-- Successful completion: `ERR <- 0` and the results. -/
def State.deliver (s : State) (r : Results) : State := s.complete 0#4 r

/-- A result does not fit its buffer or table (30_encoding.md R74, 46_kmap.md R230). -/
def Results.overCapacity (c : Config) (r : Results) : Bool :=
  decide (c.bufmax < r.ra.length) || decide (c.bufmax < r.rb.length) || decide (c.bufmax < r.rc.length)
    || decide (c.pimax < r.pi.length)

/-- The end of every operation, in the order of 30_encoding.md R81: the checks so far, then E_CAPACITY, then E_INTERNAL,
then delivery (log entry 6). -/
def State.finish (s : State) : Except Err Results → State
  | .error e => s.failWith e
  | .ok r =>
    if r.overCapacity s.cfg then s.failWith .capacity
    else if r.selfCheck then s.deliver r
    else s.failWith .internal

/-- The state after a free value was drawn (log entry 3): the counter advances. -/
def State.drawn (s : State) : State := { s with freeCount := s.freeCount + 1 }

end Sys2Proof.Machine
end

