-- ==== Sys2Proof/Machine/Crc.lean ====
section
/-! DEFINITION. CRC.ENC and CRC.DEC (43_crc.md). -/

namespace Sys2Proof.Machine

/-- The generator XORed into the leftmost bits of the buffer (43_crc.md R171, the inner loop). -/
def xorInto : Bits → Bits → Bits
  | w :: ws, g :: gs => (w ^^ g) :: xorInto ws gs
  | ws, _ => ws

/-- The GF(2) long division of 43_crc.md R171 over exactly `k` positions, left to right: the working buffer after it. -/
def gf2Div (G : Bits) : Nat → Bits → Bits
  | 0, W => W
  | _ + 1, [] => []
  | k + 1, w :: ws =>
    match (if w then xorInto (w :: ws) G else w :: ws) with
    | [] => []
    | x :: xs => x :: gf2Div G k xs

/-- "remainder = final r bits of the working buffer" (43_crc.md R171). -/
def crcRem (W G : Bits) (k : Nat) : Bits := (gf2Div G k W).drop k

/-- All bits are 0. -/
def isZeroBits (b : Bits) : Bool := b.all (fun x => !x)

/-- The operand checks common to both operations (43_crc.md R170): OPA, then OPB, then the generator's length, then its
first bit. -/
def crcOperands (opa opb : Text) : Except Err (Bits × Bits) := do
  let M ← bitsOperand opa
  let G ← bitsOperand opb
  require (decide (2 ≤ G.length)) .range
  require (G.headD false) .genMsb
  return (M, G)

/-- CRC.ENC (43_crc.md R172). -/
def crcEncode (opa opb : Text) : Except Err Results := do
  let (M, G) ← crcOperands opa opb
  let k := M.length
  let r := G.length - 1
  let remainder := crcRem (M ++ zeroBits r) G k
  let codeword := M ++ remainder
  let verifyOk := isZeroBits (crcRem codeword G k)
  return { ra := bitsText codeword, rb := bitsText remainder,
           aux0 := BitVec.ofNat 32 k, aux1 := BitVec.ofNat 32 r,
           flags := { valid := verifyOk }, selfCheck := verifyOk }

/-- `R` with bit `p` inverted (43_crc.md R175). -/
def flipBit (b : Bits) (p : Nat) : Bits := b.modify p (fun x => !x)

/-- The admissible positions: those whose flip zeroes the syndrome, ascending (43_crc.md R176). -/
def crcFixes (R G : Bits) (k : Nat) : List Nat :=
  (List.range R.length).filter (fun p => isZeroBits (crcRem (flipBit R p) G k))

/-- The position reported among the admissible ones, by CRC_FIX_ORDER (43_crc.md R176). Under `any` it is a free value
that stays inside the set (log entry 3). -/
def chooseFix (order : CrcFixOrder) (draw : Nat) (fixes : List Nat) : Option Nat :=
  match order with
  | .leftmostFirst => fixes.head?
  | .any => fixes[Config.crcFixPick draw % fixes.length]?

/-- CRC.DEC (43_crc.md R175); `draw` is the counter the free value is applied to. -/
def crcDecode (order : CrcFixOrder) (draw : Nat) (fix : Bool) (opa opb : Text) : Except Err Results := do
  let (R, G) ← crcOperands opa opb
  let r := G.length - 1
  require (decide (r + 1 ≤ R.length)) .range
  let k := R.length - r
  let syndrome := crcRem R G k
  let valid := isZeroBits syndrome
  let pos := if !valid && fix then chooseFix order draw (crcFixes R G k) else none
  let src := match pos with
    | some p => flipBit R p
    | none => R
  return { ra := bitsText (src.take k), rb := bitsText syndrome,
           rc := if pos.isSome then bitsText src else [],
           aux0 := BitVec.ofNat 32 (pos.getD 0), aux1 := BitVec.ofNat 32 k,
           flags := { valid := valid, corr := pos.isSome, uncorr := !valid && fix && pos.isNone } }

/-- The meaning of CRC.ENC. -/
def execCrcEnc (s : State) : Host.Outcome State Fault Refusal :=
  .next (s.finish (crcEncode s.opa.content s.opb.content))

/-- The meaning of CRC.DEC. -/
def execCrcDec (fix : Bool) (s : State) : Host.Outcome State Fault Refusal :=
  .next (s.finish (crcDecode s.cfg.crcFixOrder s.freeCount fix s.opa.content s.opb.content)).drawn

end Sys2Proof.Machine
end

