-- ==== Sys2Proof/Machine/Gray.lean ====
section
/-! DEFINITION. GRAY.ENC and GRAY.DEC (45_gray.md). -/

namespace Sys2Proof.Machine

/-- The operand of GRAY.ENC (45_gray.md R210): whether it was taken as decimal, and its BitString. Decimal iff a
character `2` .. `9` occurs; a decimal value takes the least width that holds it. -/
def grayOperand (content : Text) : Except Err (Bool × Bits) := do
  let t := clean content
  require (!t.isEmpty) .empty
  require (t.all isDecChar) .char
  if t.all isBitChar then return (false, t.map (fun c => c == chOne))
  else
    let v := decVal t
    return (true, binBits (bitLength v) v)

/-- "Gray = Binary XOR (Binary right-shifted by 1, zero-filled)" (45_gray.md R211). -/
def grayOfBits (B : Bits) : Bits := List.zipWith (fun x y => x ^^ y) B (false :: B)

/-- `B[i] := G[i] ^ B[i-1]`, where `prev` is the bit of `B` before the list's first (45_gray.md R212). -/
def bitsOfGray : Bool → Bits → Bits
  | _, [] => []
  | prev, g :: rest => (g ^^ prev) :: bitsOfGray (g ^^ prev) rest

/-- GRAY.ENC (45_gray.md R211). -/
def grayEncode (opa : Text) : Except Err Results := do
  let (isDec, B) ← grayOperand opa
  return { ra := bitsText (grayOfBits B),
           aux0 := BitVec.ofNat 32 isDec.toNat, aux1 := BitVec.ofNat 32 B.length }

/-- GRAY.DEC (45_gray.md R212); there is no bit before the first, so `prev` is 0. -/
def grayDecode (opa : Text) : Except Err Results := do
  let G ← bitsOperand opa
  return { ra := bitsText (bitsOfGray false G) }

/-- The meaning of GRAY.ENC. -/
def execGrayEnc (s : State) : Host.Outcome State Fault Refusal :=
  .next (s.finish (grayEncode s.opa.content))

/-- The meaning of GRAY.DEC. -/
def execGrayDec (s : State) : Host.Outcome State Fault Refusal :=
  .next (s.finish (grayDecode s.opa.content))

end Sys2Proof.Machine
end

