-- ==== Sys2Proof/Machine/Hamming.lean ====
section
/-! DEFINITION. HAM.ENC and HAM.DEC (44_hamming.md). A codeword is a BitString whose position `j`, counted from 1, is
string index `j - 1` (R190). -/

namespace Sys2Proof.Machine

/-- `j` is a power of two, so position `j` is a parity position (44_hamming.md R190). -/
def isPow2 (j : Nat) : Bool := j != 0 && 2 ^ Nat.log2 j == j

/-- `H[r][j] = floor(j / 2^(p-r)) mod 2` (44_hamming.md R191). -/
def hamH (p r j : Nat) : Bool := j / 2 ^ (p - r) % 2 == 1

/-- The XOR of `c[j]` over the positions `j` that `sel` picks, where the list's first bit stands at position `j0`. -/
def xorSelected (sel : Nat → Bool) : Nat → Bits → Bool
  | _, [] => false
  | j0, b :: rest => (sel j0 && b) ^^ xorSelected sel (j0 + 1) rest

/-- The syndrome `syn(c, n, p)`, top row first (44_hamming.md R192). -/
def hamSyndrome (c : Bits) (p : Nat) : Bits :=
  (List.range p).map (fun t => xorSelected (hamH p (t + 1)) 1 c)

/-- The least `p` in `p0, p0 + 1, …` with `2^p ≥ k + p + 1` (44_hamming.md R193); `fuel` bounds the search. -/
def hamParityFrom (k : Nat) : Nat → Nat → Nat
  | 0, p => p
  | fuel + 1, p => if k + p + 1 ≤ 2 ^ p then p else hamParityFrom k fuel (p + 1)

/-- "choose minimal p with 2^p ≥ k+p+1" from 1 on (44_hamming.md R193). `k + 1` always satisfies it. -/
def hamParity (k : Nat) : Nat := hamParityFrom k k 1

/-- "Place data bits into non-power-of-two positions": `n` positions from `j` on, parity positions 0
(44_hamming.md R193). -/
def hamPlace : Nat → Nat → Bits → Bits
  | 0, _, _ => []
  | n + 1, j, D =>
    if isPow2 j then false :: hamPlace n (j + 1) D
    else D.headD false :: hamPlace n (j + 1) D.tail

/-- One parity equation: `c[w] := XOR over { j in sel, j ≠ w } of c[j]` with `w = 2^(p-r)` (44_hamming.md R193). -/
def hamSetParity (p : Nat) (c : Bits) (r : Nat) : Bits :=
  c.set (2 ^ (p - r) - 1) (xorSelected (fun j => hamH p r j && j != 2 ^ (p - r)) 1 c)

/-- The row condition: row `r` selects exactly one parity position (44_hamming.md R193). -/
def hamRowOk (n p r : Nat) : Bool :=
  ((List.range n).filter (fun i => hamH p r (i + 1) && isPow2 (i + 1))).length == 1

/-- The row numbers `1 .. p`. -/
def hamRows (p : Nat) : List Nat := (List.range p).map (· + 1)

/-- The codeword of data `D` (44_hamming.md R193). -/
def hamCodeword (D : Bits) : Bits :=
  let p := hamParity D.length
  (hamRows p).foldl (hamSetParity p) (hamPlace (D.length + p) 1 D)

/-- All bits are 0. -/
def hamZero (b : Bits) : Bool := b.all (fun x => !x)

/-- HAM.ENC (44_hamming.md R193). -/
def hamEncode (opa : Text) : Except Err Results := do
  let D ← bitsOperand opa
  let p := hamParity D.length
  let n := D.length + p
  let c := hamCodeword D
  return { ra := bitsText c, rb := bitsText ((List.range n).map (fun i => isPow2 (i + 1))),
           aux0 := BitVec.ofNat 32 p, aux1 := BitVec.ofNat 32 n,
           selfCheck := (hamRows p).all (hamRowOk n p) && hamZero (hamSyndrome c p) }

/-- "count of powers-of-two ≤ n" (44_hamming.md R196). -/
def hamInferParity (n : Nat) : Nat := ((List.range n).filter (fun i => isPow2 (i + 1))).length

/-- The bits at the positions that are not powers of two, ascending; the list's first bit stands at `j`. -/
def hamData : Nat → Bits → Bits
  | _, [] => []
  | j, b :: rest => if isPow2 j then hamData (j + 1) rest else b :: hamData (j + 1) rest

/-- HAM.DEC (44_hamming.md R196). -/
def hamDecode (opa : Text) : Except Err Results := do
  let c ← bitsOperand opa
  let n := c.length
  let p := hamInferParity n
  require (decide (p + 1 ≤ n)) .range
  let syndrome := hamSyndrome c p
  let S := bitsVal syndrome
  let corrected := S != 0 && decide (S ≤ n)
  let c' := if corrected then c.modify (S - 1) (fun x => !x) else c
  return { ra := bitsText (hamData 1 c'), rb := bitsText syndrome,
           rc := if corrected then bitsText c' else [],
           aux0 := BitVec.ofNat 32 S, aux1 := BitVec.ofNat 32 p,
           flags := { valid := S == 0, corr := corrected, uncorr := S != 0 && !corrected },
           selfCheck := !corrected || hamZero (hamSyndrome c' p) }

/-- The meaning of HAM.ENC. -/
def execHamEnc (s : State) : Host.Outcome State Fault Refusal :=
  .next (s.finish (hamEncode s.opa.content))

/-- The meaning of HAM.DEC. -/
def execHamDec (s : State) : Host.Outcome State Fault Refusal :=
  .next (s.finish (hamDecode s.opa.content))

end Sys2Proof.Machine
end

