-- ==== Sys2Proof/Machine/Ieee754.lean ====
section
/-! DEFINITION. The IEEE-754 formats and F754.DEC and F754.ENC (41_ieee754_convert.md). F754.ADD is in Ieee754Add.lean. -/

namespace Sys2Proof.Machine

/-- `ew`, the exponent width (30_encoding.md R72). -/
def expWidth : Precision → Nat
  | .single => 8
  | .double => 11

/-- `m`, the mantissa width (30_encoding.md R72). -/
def manWidth : Precision → Nat
  | .single => 23
  | .double => 52

/-- `bias` (30_encoding.md R72). -/
def expBias : Precision → Nat
  | .single => 127
  | .double => 1023

/-- `N = 1 + ew + m` (30_encoding.md R72). -/
def patternWidth (prec : Precision) : Nat := 1 + expWidth prec + manWidth prec

/-- `EMAX = 2^ew − 1` (30_encoding.md R72). -/
def expMax (prec : Precision) : Nat := 2 ^ expWidth prec - 1

/-- The fields of a pattern as numbers: sign, `val(E)`, `val(F)` (41_ieee754_convert.md R130). -/
structure FpFields where
  sign : Bool
  exp : Nat
  man : Nat
  deriving DecidableEq, Repr

/-- `split(P)` (41_ieee754_convert.md R130): sign first, then exponent, then mantissa. -/
def splitPattern (prec : Precision) (P : Bits) : FpFields where
  sign := P.headD false
  exp := bitsVal ((P.drop 1).take (expWidth prec))
  man := bitsVal (P.drop (1 + expWidth prec))

/-- `sign ∥ bin_ew(E) ∥ bin_m(F)`. -/
def packPattern (prec : Precision) (x : FpFields) : Bits :=
  x.sign :: (binBits (expWidth prec) x.exp ++ binBits (manWidth prec) x.man)

/-- `class(E, F)` (41_ieee754_convert.md R132). -/
def fpClass (prec : Precision) (x : FpFields) : FpClass :=
  if x.exp = expMax prec then (if x.man = 0 then .infinity else .nan)
  else if x.exp = 0 then (if x.man = 0 then .zero else .denormalized)
  else .normalized

/-- The flags of F754.*: SIGN and CLASS (10_state.md R27). -/
def fpFlags (prec : Precision) (x : FpFields) : Flags := { sign := x.sign, cls := (fpClass prec x).code }

/-- A pattern operand by INTYPE (41_ieee754_convert.md R131). -/
def patternOperand (prec : Precision) (t : InType) (content : Text) : Except Err Bits :=
  match t with
  | .binary => bitsOperandOf (patternWidth prec) content
  | .hex => hexOperandOf (patternWidth prec / 4) content

/-- The actual exponent (41_ieee754_convert.md R132): `1 − bias` for exponent field 0, else `val(E) − bias`. -/
def actualExp (prec : Precision) (x : FpFields) : Int := max (x.exp : Int) 1 - expBias prec

/-- The integer significand: `val(F)`, with the implicit leading bit `2^m` when the exponent field is not 0
(42_ieee754_add.md R150; 41_ieee754_convert.md R133 divides it by `2^m`). -/
def significand (prec : Precision) (x : FpFields) : Nat := (if x.exp ≠ 0 then 2 ^ manWidth prec else 0) + x.man

/-- The exact decimal text of a finite non-zero pattern without its sign: `dectext(sig · 2^aexp)`
(41_ieee754_convert.md R133, R135), the power of two `aexp − m` put in the numerator or the denominator. -/
def fpMagnitudeText (prec : Precision) (x : FpFields) : Text :=
  let e := actualExp prec x - manWidth prec
  if 0 ≤ e then decExpansion (significand prec x * 2 ^ e.toNat) 0
  else decExpansion (significand prec x) (-e).toNat

/-- The text a pattern decodes to, by class (41_ieee754_convert.md R133): none for Infinity and NaN. -/
def fpDecimalText (prec : Precision) (x : FpFields) : Text :=
  let signed (t : Text) : Text := if x.sign then chMinus :: t else t
  match fpClass prec x with
  | .infinity => []
  | .nan => []
  | .zero => signed [chZero]
  | .denormalized => signed (fpMagnitudeText prec x)
  | .normalized => signed (fpMagnitudeText prec x)

/-- AUX1 of F754.DEC (41_ieee754_convert.md R133, 10_state.md R32). -/
def fpAux1 (prec : Precision) (x : FpFields) : Word :=
  match fpClass prec x with
  | .infinity => 0#32
  | .nan => 0#32
  | .zero => 0#32
  | .denormalized => BitVec.ofInt 32 (actualExp prec x)
  | .normalized => BitVec.ofInt 32 (actualExp prec x)

/-- F754.DEC (41_ieee754_convert.md R133). -/
def f754Decode (prec : Precision) (t : InType) (opa : Text) : Except Err Results := do
  let P ← patternOperand prec t opa
  let x := splitPattern prec P
  return { ra := fpDecimalText prec x, rb := bitsText P,
           aux0 := BitVec.ofNat 32 x.exp, aux1 := fpAux1 prec x, flags := fpFlags prec x }

/-- The integer `e` with `2^e ≤ num/den < 2^(e+1)`, for `num` and `den` positive (41_ieee754_convert.md R136). -/
def floorLog2 (num den : Nat) : Int :=
  if den ≤ num then (Nat.log2 (num / den) : Int)
  else -((Nat.log2 ((den - 1) / num) : Int) + 1)

/-- `floor((num/den) / 2^d)` (41_ieee754_convert.md R136). -/
def floorScaled (num den : Nat) (d : Int) : Nat :=
  if 0 ≤ d then num / (den * 2 ^ d.toNat) else num * 2 ^ (-d).toNat / den

/-- The fields F754.ENC gives a magnitude `num/den` (41_ieee754_convert.md R136): zero before general processing, E_RANGE
outside the normalized range, else the truncated mantissa. -/
def encodeFields (prec : Precision) (neg : Bool) (num den : Nat) : Except Err FpFields :=
  if num = 0 then .ok ⟨neg, 0, 0⟩
  else
    let e := floorLog2 num den
    let biased := e + expBias prec
    if (expMax prec : Int) ≤ biased then .error .range
    else if biased ≤ 0 then .error .range
    else .ok ⟨neg, biased.toNat, floorScaled num den (e - manWidth prec) - 2 ^ manWidth prec⟩

/-- What F754.ENC and F754.ADD deliver for a result pattern (41_ieee754_convert.md R136, 42_ieee754_add.md R151). -/
def patternResults (prec : Precision) (x : FpFields) : Results :=
  let P := packPattern prec x
  { ra := bitsText P, rb := hexText P, aux0 := BitVec.ofNat 32 x.exp, flags := fpFlags prec x }

/-- F754.ENC (41_ieee754_convert.md R136). -/
def f754Encode (prec : Precision) (opa : Text) : Except Err Results := do
  let v ← decRealOperand opa
  let x ← encodeFields prec v.neg v.num (10 ^ v.scale)
  return patternResults prec x

/-- The meaning of F754.DEC. -/
def execF754Dec (prec : Precision) (t : InType) (s : State) : Host.Outcome State Fault Refusal :=
  .next (s.finish (f754Decode prec t s.opa.content))

/-- The meaning of F754.ENC. -/
def execF754Enc (prec : Precision) (s : State) : Host.Outcome State Fault Refusal :=
  .next (s.finish (f754Encode prec s.opa.content))

end Sys2Proof.Machine
end

