-- ==== Sys2Proof/Machine/Ieee754Add.lean ====
section
/-! DEFINITION. F754.ADD (42_ieee754_add.md R150 to R161), step by step as R151. -/

namespace Sys2Proof.Machine

/-- `F754_CANONICAL_NAN` as fields (00_scope.md R5; 42_ieee754_add.md R153). -/
def canonicalNan (c : Config) : Precision → FpFields
  | .single => ⟨c.nanSingle.getLsbD 31, (c.nanSingle.extractLsb' 23 8).toNat, (c.nanSingle.extractLsb' 0 23).toNat⟩
  | .double => ⟨c.nanDouble.getLsbD 63, (c.nanDouble.extractLsb' 52 11).toNat, (c.nanDouble.extractLsb' 0 52).toNat⟩

/-- `srs(X, d)`, the right shift that keeps the sticky bit (42_ieee754_add.md R152). -/
def stickyShift (X d : Nat) : Nat :=
  if d = 0 then X else (X / 2 ^ d) ||| (if X % 2 ^ d = 0 then 0 else 1)

/-- `ee(E) = max(val(E), 1)` (42_ieee754_add.md R150). -/
def effExp (x : FpFields) : Nat := max x.exp 1

/-- Step 1 (42_ieee754_add.md R151, R153): the results that need no arithmetic. -/
def addSpecial (c : Config) (prec : Precision) (a b : FpFields) : Option FpFields :=
  let ca := fpClass prec a
  let cb := fpClass prec b
  if ca = .nan ∨ cb = .nan then some (canonicalNan c prec)
  else if ca = .infinity ∧ cb = .infinity then some (if a.sign = b.sign then a else canonicalNan c prec)
  else if ca = .infinity then some a
  else if cb = .infinity then some b
  else if ca = .zero ∧ cb = .zero then some ⟨a.sign && b.sign, 0, 0⟩
  else if ca = .zero then some b
  else if cb = .zero then some a
  else none

/-- Step 2 (42_ieee754_add.md R154): the aligned working significands and the result exponent. -/
def addAlign (prec : Precision) (a b : FpFields) : Nat × Nat × Nat :=
  let Xa := significand prec a * 8
  let Xb := significand prec b * 8
  if effExp b ≤ effExp a then (Xa, stickyShift Xb (effExp a - effExp b), effExp a)
  else (stickyShift Xa (effExp b - effExp a), Xb, effExp b)

/-- The lexicographic order of `(ee, sig)` (42_ieee754_add.md R155): the magnitude of `a` is the larger. -/
def magnitudeGt (prec : Precision) (a b : FpFields) : Bool :=
  decide (effExp b < effExp a ∨ (effExp a = effExp b ∧ significand prec b < significand prec a))

/-- Step 3 (42_ieee754_add.md R155): the working sum and its sign; none for the exact zero. -/
def addMagnitudes (prec : Precision) (a b : FpFields) (Xa Xb : Nat) : Option (Nat × Bool) :=
  if a.sign = b.sign then some (Xa + Xb, a.sign)
  else if effExp a = effExp b ∧ significand prec a = significand prec b then none
  else if magnitudeGt prec a b then some (Xa - Xb, a.sign)
  else some (Xb - Xa, b.sign)

/-- Step 4 (42_ieee754_add.md R156): the leading 1 brought to bit `m + 3`. -/
def addNormalize (prec : Precision) (T : Nat) (er : Int) : Nat × Int :=
  let m := manWidth prec
  if 2 ^ (m + 4) ≤ T then (stickyShift T 1, er + 1)
  else if T < 2 ^ (m + 3) then
    let lz := (m + 4) - bitLength T
    (T * 2 ^ lz, er - lz)
  else (T, er)

/-- Step 5 (42_ieee754_add.md R157): below the normal range, back to the right with sticky; none is the flush to
zero. -/
def addUnderflow (prec : Precision) (T : Nat) (er : Int) : Option (Nat × Int) :=
  if er < 1 then
    if er < 1 - (manWidth prec : Int) then none
    else some (stickyShift T (1 - er).toNat, 1)
  else some (T, er)

/-- The decision of step 6 (42_ieee754_add.md R158) from the bits L, G, R, S. -/
def roundsUp (rule : AddRoundRule) (L G R S : Bool) : Bool :=
  match rule with
  | .nearestEvenGrs => G && (R || S || L)
  | .literalRs => R && (S || L)

/-- Step 6 (42_ieee754_add.md R158): the rounded mantissa and the exponent. -/
def addRound (rule : AddRoundRule) (prec : Precision) (T : Nat) (er : Int) : Nat × Int :=
  let mant := T / 8
  if roundsUp rule (mant.testBit 0) (T.testBit 2) (T.testBit 1) (T.testBit 0) then
    if mant + 1 = 2 ^ (manWidth prec + 1) then ((mant + 1) / 2, er + 1) else (mant + 1, er)
  else (mant, er)

/-- Step 7 (42_ieee754_add.md R159): packing, with signed Infinity when the exponent is at or above EMAX. -/
def addPack (prec : Precision) (sign : Bool) (mant : Nat) (er : Int) : FpFields :=
  let e : Int := if 2 ^ manWidth prec ≤ mant then er else 0
  if (expMax prec : Int) ≤ e then ⟨sign, expMax prec, 0⟩
  else ⟨sign, e.toNat, mant % 2 ^ manWidth prec⟩

/-- F754.ADD on the fields of the two operands (42_ieee754_add.md R151). -/
def addFields (c : Config) (prec : Precision) (a b : FpFields) : FpFields :=
  match addSpecial c prec a b with
  | some x => x
  | none =>
    let (Xa, Xb, e) := addAlign prec a b
    match addMagnitudes prec a b Xa Xb with
    | none => ⟨false, 0, 0⟩
    | some (T, sr) =>
      let (T, er) := addNormalize prec T e
      match addUnderflow prec T er with
      | none => ⟨sr, 0, 0⟩
      | some (T, er) =>
        let (mant, er) := addRound c.addRoundRule prec T er
        addPack prec sr mant er

/-- F754.ADD (42_ieee754_add.md R151); INTYPE applies to both operands, OPA is checked whole before OPB. -/
def f754Add (c : Config) (prec : Precision) (t : InType) (opa opb : Text) : Except Err Results := do
  let A ← patternOperand prec t opa
  let B ← patternOperand prec t opb
  return patternResults prec (addFields c prec (splitPattern prec A) (splitPattern prec B))

/-- The meaning of F754.ADD. -/
def execF754Add (prec : Precision) (t : InType) (s : State) : Host.Outcome State Fault Refusal :=
  .next (s.finish (f754Add s.cfg prec t s.opa.content s.opb.content))

end Sys2Proof.Machine
end

