-- ==== Sys2Proof/Machine/KmapExpr.lean ====
section
/-! DEFINITION. KM.EVAL (46_kmap.md R220 to R224): the expression grammar, its value, the truth table. -/

namespace Sys2Proof.Machine

/-- A symbol of the expression alphabet (46_kmap.md R222), letters folded to their variable's number. -/
inductive KmTok where
  | var (v : Nat)
  | plus
  | dot
  | bang
  | prime
  | lpar
  | rpar
  deriving DecidableEq, Repr

/-- The symbol a character stands for; none outside the alphabet (46_kmap.md R222). -/
def kmTok? (c : Byte) : Option KmTok :=
  if c = chPlus then some .plus
  else if c = chMiddleDot then some .dot
  else if c = chBang then some .bang
  else if c = chPrime then some .prime
  else if c = chOpen then some .lpar
  else if c = chClose then some .rpar
  else (kmVar? c).map .var

/-- An expression: variables, NOT, AND, OR (46_kmap.md R223). -/
inductive KmExpr where
  | var (v : Nat)
  | not (e : KmExpr)
  | and (a b : KmExpr)
  | or (a b : KmExpr)
  deriving DecidableEq, Repr

/-- Any number of postfix primes applied to an atom (46_kmap.md R222). -/
def kmPrimes (e : KmExpr) : List KmTok → KmExpr × List KmTok
  | .prime :: rest => kmPrimes (.not e) rest
  | rest => (e, rest)

/-- The symbols a factor begins with: a variable, `(` or `!` (46_kmap.md R222). -/
def startsFactor : List KmTok → Bool
  | .var _ :: _ => true
  | .lpar :: _ => true
  | .bang :: _ => true
  | _ => false

mutual

/-- `expr := term ( '+' term )*` (46_kmap.md R222): the expression read and the symbols after it. The first argument
bounds the depth of the reading; `kmParse` gives enough of it. -/
def kmParseExpr : Nat → List KmTok → Option (KmExpr × List KmTok)
  | 0, _ => none
  | fuel + 1, ts =>
    match kmParseTerm fuel ts with
    | none => none
    | some (a, rest) =>
      match rest with
      | .plus :: rest' =>
        match kmParseExpr fuel rest' with
        | none => none
        | some (b, rest'') => some (.or a b, rest'')
      | _ => some (a, rest)
termination_by structural fuel => fuel

/-- `term := factor ( '·'? factor )*` (46_kmap.md R222). -/
def kmParseTerm : Nat → List KmTok → Option (KmExpr × List KmTok)
  | 0, _ => none
  | fuel + 1, ts =>
    match kmParseFactor fuel ts with
    | none => none
    | some (a, rest) =>
      match rest with
      | .dot :: rest' =>
        match kmParseTerm fuel rest' with
        | none => none
        | some (b, rest'') => some (.and a b, rest'')
      | _ =>
        if startsFactor rest then
          match kmParseTerm fuel rest with
          | none => none
          | some (b, rest'') => some (.and a b, rest'')
        else some (a, rest)
termination_by structural fuel => fuel

/-- `factor := '!' factor | atom ( "'" )*` with `atom := VAR | '(' expr ')'` (46_kmap.md R222). -/
def kmParseFactor : Nat → List KmTok → Option (KmExpr × List KmTok)
  | 0, _ => none
  | fuel + 1, ts =>
    match ts with
    | .bang :: rest =>
      match kmParseFactor fuel rest with
      | none => none
      | some (a, rest') => some (.not a, rest')
    | .var v :: rest => some (kmPrimes (.var v) rest)
    | .lpar :: rest =>
      match kmParseExpr fuel rest with
      | some (a, .rpar :: rest') => some (kmPrimes a rest')
      | _ => none
    | _ => none
termination_by structural fuel => fuel

end

/-- The expression a whole string of symbols derives, if it derives from `expr` (46_kmap.md R222, R224). Between two
symbols read, at most three of the functions above are entered, so this much fuel is never used up. -/
def kmParse (ts : List KmTok) : Option KmExpr :=
  match kmParseExpr (3 * ts.length + 3) ts with
  | some (e, []) => some e
  | _ => none

/-- The value of variable `v` at minterm `t` of `n` variables: bit `n − 1 − v` (46_kmap.md R221). -/
def kmVarAt (n t v : Nat) : Bool := t.testBit (n - 1 - v)

/-- The value of an expression at minterm `t` (46_kmap.md R223). -/
def KmExpr.eval (n t : Nat) : KmExpr → Bool
  | .var v => kmVarAt n t v
  | .not e => !(KmExpr.eval n t e)
  | .and a b => KmExpr.eval n t a && KmExpr.eval n t b
  | .or a b => KmExpr.eval n t a || KmExpr.eval n t b

/-- Every variable of the expression has a number below `n` (46_kmap.md R224). -/
def KmExpr.varsBelow (n : Nat) : KmExpr → Bool
  | .var v => decide (v < n)
  | .not e => KmExpr.varsBelow n e
  | .and a b => KmExpr.varsBelow n a && KmExpr.varsBelow n b
  | .or a b => KmExpr.varsBelow n a && KmExpr.varsBelow n b

/-- The 32-bit map of a set of minterms (46_kmap.md R221). -/
def mintermMap (ts : List Nat) : Word := ts.foldl (fun w t => w ||| 1#32 <<< t) 0#32

/-- The truth table: bit `t` is the value at minterm `t`, `0 ≤ t < 2^n` (46_kmap.md R224). -/
def kmTruthTable (n : Nat) (e : KmExpr) : Word :=
  mintermMap ((List.range (2 ^ n)).filter (fun t => e.eval n t))

/-- The symbols of cleaned text (46_kmap.md R222), for text within the alphabet. -/
def kmTokens (t : Text) : List KmTok := t.filterMap kmTok?

/-- The outcome of reading: an expression, or E_FORMAT (46_kmap.md R224). -/
def kmParsed (ts : List KmTok) : Except Err KmExpr :=
  match kmParse ts with
  | some e => .ok e
  | none => .error .format

/-- KM.EVAL (46_kmap.md R224): E_EMPTY, E_CHAR, E_FORMAT, E_RANGE in that order. -/
def kmEval (n : Nat) (opa : Text) : Except Err Results := do
  let t := clean opa
  require (!t.isEmpty) .empty
  require (t.all (fun c => (kmTok? c).isSome)) .char
  let e ← kmParsed (kmTokens t)
  require (e.varsBelow n) .range
  let tt := kmTruthTable n e
  return { kmTt := tt, aux0 := BitVec.ofNat 32 (popcount tt) }

/-- The meaning of KM.EVAL. -/
def execKmEval (n : BitVec 8) (s : State) : Host.Outcome State Fault Refusal :=
  .next (s.finish (kmEval n.toNat s.opa.content))

end Sys2Proof.Machine
end

