-- ==== Sys2Proof/Machine/Kmap.lean ====
section
/-! DEFINITION. KM.PI and KM.COVER (46_kmap.md R226 to R237): the grid, the rectangles, the prime implicants, the cover
and the SOP text. A set of minterms is a 32-bit map (R221). -/

namespace Sys2Proof.Machine

/-- `(row_bits, col_bits)` for `n` variables (46_kmap.md R226, KM_LAYOUT). -/
def kmLayoutOf (c : Config) (n : Nat) : Nat × Nat := c.kmLayout.getD (n - 1) (0, n)

/-- `gray(x) = x ^ (x >> 1)` (46_kmap.md R227). -/
def grayCode (x : Nat) : Nat := x ^^^ (x / 2)

/-- `cell(i, j) = gray(i) · 2^col_bits + gray(j)` (46_kmap.md R227). -/
def kmCell (colBits i j : Nat) : Nat := grayCode i * 2 ^ colBits + grayCode j

/-- `cells(h, w, i0, j0)` with wrapping rows and columns, `h = 2^hb`, `w = 2^wb` (46_kmap.md R228). -/
def kmRect (layout : Nat × Nat) (hb wb i0 j0 : Nat) : Word :=
  mintermMap ((List.range (2 ^ hb)).flatMap (fun a =>
    (List.range (2 ^ wb)).map (fun b => kmCell layout.2 ((i0 + a) % 2 ^ layout.1) ((j0 + b) % 2 ^ layout.2))))

/-- The sizes `(h, w)` as exponents, by area descending and then by `h` descending (46_kmap.md R231). -/
def kmSizes (layout : Nat × Nat) : List (Nat × Nat) :=
  (List.range (layout.1 + layout.2 + 1)).reverse.flatMap (fun area =>
    (List.range (layout.1 + 1)).reverse.filterMap (fun hb =>
      if hb ≤ area ∧ area - hb ≤ layout.2 then some (hb, area - hb) else none))

/-- Every rectangle in the order of 46_kmap.md R231: sizes, then `i0`, then `j0` ascending. -/
def kmRects (layout : Nat × Nat) : List Word :=
  (kmSizes layout).flatMap (fun size =>
    (List.range (2 ^ layout.1)).flatMap (fun i0 =>
      (List.range (2 ^ layout.2)).map (fun j0 => kmRect layout size.1 size.2 i0 j0)))

/-- `A ⊆ B`. -/
def subsetMap (A B : Word) : Bool := A &&& B == A

/-- A valid implicant: inside `ON ∪ DC`, meeting `ON` (46_kmap.md R229). -/
def kmValid (on dc Q : Word) : Bool := subsetMap Q (on ||| dc) && Q &&& on != 0#32

/-- `Q` appended unless it is in the list (46_kmap.md R229 "deduplicate", R231: the first occurrence kept). -/
def appendNew (V : List Word) (Q : Word) : List Word := if V.contains Q then V else V ++ [Q]

/-- `V`, the valid implicants in enumeration order (46_kmap.md R230). -/
def kmImplicants (layout : Nat × Nat) (on dc : Word) : List Word :=
  ((kmRects layout).filter (kmValid on dc)).foldl appendNew []

/-- `P`, the prime implicants, order of `V` kept (46_kmap.md R229, R230). -/
def kmPrimeList (layout : Nat × Nat) (on dc : Word) : List Word :=
  let V := kmImplicants layout on dc
  V.filter (fun Q => !(V.any (fun Q' => subsetMap Q Q' && Q != Q')))

/-- The operand checks of KM.PI and KM.COVER (46_kmap.md R230), then the prime list. -/
def kmPrimes? (c : Config) (n : Nat) (on dc : Word) : Except Err (List Word) := do
  require (on >>> (2 ^ n) == 0#32 && dc >>> (2 ^ n) == 0#32) .range
  require (on &&& dc == 0#32) .range
  return kmPrimeList (kmLayoutOf c n) on dc

/-- KM.PI (46_kmap.md R230). -/
def kmPi (c : Config) (n : Nat) (on dc : Word) : Except Err Results := do
  let P ← kmPrimes? c n on dc
  return { pi := P.map (fun Q => ⟨Q, 0#32⟩), aux0 := BitVec.ofNat 32 P.length }

/-- The union of the implicants other than the one at index `i`. -/
def othersUnion (P : List Word) (i : Nat) : Word := (P.eraseIdx i).foldl (fun u Q => u ||| Q) 0#32

/-- `ess(i)`: some minterm of ON lies in `P[i]` and in no other (46_kmap.md R233). -/
def kmEssential (P : List Word) (on : Word) (i : Nat) : Bool :=
  on &&& P.getD i 0#32 &&& ~~~(othersUnion P i) != 0#32

/-- `gain(i) = |P[i] ∩ (ON \ covered)|` (46_kmap.md R233). -/
def kmGain (P : List Word) (on covered : Word) (i : Nat) : Nat :=
  popcount (P.getD i 0#32 &&& on &&& ~~~covered)

/-- The indices not in `sel` whose gain is maximal, ascending (46_kmap.md R233). -/
def kmBest (P : List Word) (on covered : Word) (sel : List Nat) : List Nat :=
  let free := (List.range P.length).filter (fun i => !sel.contains i)
  free.filter (fun i => free.all (fun i' => decide (kmGain P on covered i' ≤ kmGain P on covered i)))

/-- The pick among the tied indices, by KM_GREEDY_TIE (46_kmap.md R233). Under `any` it is a free value that stays inside
the tied set (log entry 3). -/
def chooseTie (tie : KmGreedyTie) (draw picks : Nat) (best : List Nat) : Option Nat :=
  match tie with
  | .lowestIndex => best.head?
  | .any => best[Config.greedyPick draw picks % best.length]?

/-- The required minterms covered by a selection: the union of `P[i] ∩ ON` (46_kmap.md R233). -/
def kmCovered (P : List Word) (on : Word) (sel : List Nat) : Word :=
  sel.foldl (fun u i => u ||| (P.getD i 0#32 &&& on)) 0#32

/-- The greedy loop (46_kmap.md R233). Every turn selects one more implicant, so `|P|` turns of fuel suffice. -/
def kmGreedy (tie : KmGreedyTie) (draw : Nat) (P : List Word) (on : Word) : Nat → List Nat → List Nat
  | 0, sel => sel
  | fuel + 1, sel =>
    let covered := kmCovered P on sel
    if covered = on then sel
    else
      match chooseTie tie draw sel.length (kmBest P on covered sel) with
      | none => sel
      | some i => kmGreedy tie draw P on fuel (sel ++ [i])

/-- `sel`, the selected indices in selection order: the essential ones ascending, then the greedy picks
(46_kmap.md R233). -/
def kmSelect (tie : KmGreedyTie) (draw : Nat) (P : List Word) (on : Word) : List Nat :=
  kmGreedy tie draw P on P.length ((List.range P.length).filter (kmEssential P on))

/-- `PI[i].INFO` (10_state.md R33, 46_kmap.md R234): bit 0 ESS, bit 1 SEL, bits 15:8 RANK. -/
def kmInfo (P : List Word) (on : Word) (sel : List Nat) (i : Nat) : Word :=
  let rank := if sel.contains i then sel.idxOf i + 1 else 0
  0#16 ++ BitVec.ofNat 8 rank ++ 0#6 ++ BitVec.ofBool (sel.contains i) ++ BitVec.ofBool (kmEssential P on i)

/-- The literal of variable `v` in the product of implicant `Q` (46_kmap.md R235, R236): complemented if the bit is 0
across the set, plain if 1, absent if it varies. -/
def kmLiteral (n : Nat) (Q : Word) (v : Nat) : Text :=
  let members := (List.range (2 ^ n)).filter (fun t => Q.getLsbD t)
  if members.all (fun t => kmVarAt n t v) then [kmVarChar v]
  else if members.all (fun t => !kmVarAt n t v) then [kmVarChar v, chPrime]
  else []

/-- The product term of an implicant (46_kmap.md R236): `1` when no literal is left. -/
def kmTerm (n : Nat) (Q : Word) : Text :=
  let lits := (List.range n).flatMap (kmLiteral n Q)
  if lits.isEmpty then [chOne] else lits

/-- Terms joined by `+` (46_kmap.md R236). -/
def joinPlus : List Text → Text
  | [] => []
  | [t] => t
  | t :: rest => t ++ chPlus :: joinPlus rest

/-- The SOP text (46_kmap.md R236): the terms in selection order, `0` for the empty cover. -/
def kmSop (n : Nat) (P : List Word) (sel : List Nat) : Text :=
  if sel.isEmpty then [chZero] else joinPlus (sel.map (fun i => kmTerm n (P.getD i 0#32)))

/-- KM.COVER (46_kmap.md R234); `draw` is the counter the free value is applied to. -/
def kmCover (c : Config) (draw n : Nat) (on dc : Word) : Except Err Results := do
  let P ← kmPrimes? c n on dc
  let sel := kmSelect c.kmGreedyTie draw P on
  return { ra := kmSop n P sel,
           pi := (List.range P.length).map (fun i => ⟨P.getD i 0#32, kmInfo P on sel i⟩),
           aux0 := BitVec.ofNat 32 P.length, aux1 := BitVec.ofNat 32 sel.length }

/-- The meaning of KM.PI. -/
def execKmPi (n : BitVec 8) (s : State) : Host.Outcome State Fault Refusal :=
  .next (s.finish (kmPi s.cfg n.toNat s.kmOn s.kmDc))

/-- The meaning of KM.COVER. -/
def execKmCover (n : BitVec 8) (s : State) : Host.Outcome State Fault Refusal :=
  .next (s.finish (kmCover s.cfg s.freeCount n.toNat s.kmOn s.kmDc)).drawn

end Sys2Proof.Machine
end

