-- ==== Sys2Proof/Machine/TwosComplement.lean ====
section
/-! DEFINITION. TC.ENC, TC.DEC, TC.ADD and TC.SUB (40_twos_complement.md). -/

namespace Sys2Proof.Machine

/-- `tc_enc(v, w) = bin_w(v mod 2^w)` (40_twos_complement.md R110). -/
def tcEncBits (v : Int) (w : Nat) : Bits := binBits w (v % (2 ^ w : Int)).toNat

/-- `tc_dec(b) = val(b) − 2^w · b[0]` (40_twos_complement.md R110). -/
def tcDecVal (b : Bits) : Int := (bitsVal b : Int) - if b.headD false then (2 ^ b.length : Int) else 0

/-- The ripple-carry adder (40_twos_complement.md R115) on bits least significant first: each element is
`(s_i, c[i+1])`. -/
def rippleAdd : Bool → List (Bool × Bool) → List (Bool × Bool)
  | _, [] => []
  | c, (a, b) :: rest =>
    let carry := (a && b) || (a && c) || (b && c)
    (a ^^ b ^^ c, carry) :: rippleAdd carry rest

/-- The ripple-borrow subtractor (40_twos_complement.md R116) on bits least significant first: each element is
`(d_i, br[i+1])`. -/
def rippleSub : Bool → List (Bool × Bool) → List (Bool × Bool)
  | _, [] => []
  | br, (a, b) :: rest =>
    let borrow := (!a && b) || (!(a ^^ b) && br)
    (a ^^ b ^^ br, borrow) :: rippleSub borrow rest

/-- What TC.ADD and TC.SUB deliver from a chain run least significant bit first: the result bits and the carries
(borrows), each most significant first (40_twos_complement.md R115, R116). -/
def tcChainResults (chain : List (Bool × Bool)) : Results :=
  let outs := chain.reverse
  let carries := outs.map (fun x => x.2)
  { ra := bitsText (outs.map (fun x => x.1)), rb := bitsText carries, flags := chainFlags carries }

/-- The two operands of TC.ADD and TC.SUB: BITS of exact length `w`, OPA checked whole before OPB, as pairs of bits
least significant first (40_twos_complement.md R115; 30_encoding.md R81). -/
def tcOperands (w : Nat) (opa opb : Text) : Except Err (List (Bool × Bool)) := do
  let a ← bitsOperandOf w opa
  let b ← bitsOperandOf w opb
  return a.reverse.zip b.reverse

/-- TC.ENC (40_twos_complement.md R112). -/
def tcEncode (w : Nat) (opa : Text) : Except Err Results := do
  let v ← decIntOperand opa
  return { ra := bitsText (tcEncBits v w), flags := { ovf := tcOverflow v w } }

/-- TC.DEC (40_twos_complement.md R113). -/
def tcDecode (w : Nat) (opa : Text) : Except Err Results := do
  let b ← bitsOperandOf w opa
  return { ra := decTextInt (tcDecVal b) }

/-- TC.ADD (40_twos_complement.md R115). -/
def tcAdd (w : Nat) (opa opb : Text) : Except Err Results := do
  let pairs ← tcOperands w opa opb
  return tcChainResults (rippleAdd false pairs)

/-- TC.SUB (40_twos_complement.md R116). -/
def tcSub (w : Nat) (opa opb : Text) : Except Err Results := do
  let pairs ← tcOperands w opa opb
  return tcChainResults (rippleSub false pairs)

/-- The meaning of TC.ENC. -/
def execTcEnc (w : BitVec 8) (s : State) : Host.Outcome State Fault Refusal :=
  .next (s.finish (tcEncode w.toNat s.opa.content))

/-- The meaning of TC.DEC. -/
def execTcDec (w : BitVec 8) (s : State) : Host.Outcome State Fault Refusal :=
  .next (s.finish (tcDecode w.toNat s.opa.content))

/-- The meaning of TC.ADD. -/
def execTcAdd (w : BitVec 8) (s : State) : Host.Outcome State Fault Refusal :=
  .next (s.finish (tcAdd w.toNat s.opa.content s.opb.content))

/-- The meaning of TC.SUB. -/
def execTcSub (w : BitVec 8) (s : State) : Host.Outcome State Fault Refusal :=
  .next (s.finish (tcSub w.toNat s.opa.content s.opb.content))

end Sys2Proof.Machine
end

