-- ==== Sys2Proof/Machine/Dispatch.lean ====
section
/-! DEFINITION. One arm per operation (30_encoding.md R80, R262: "a static table or pattern match"). -/

namespace Sys2Proof.Machine

def exec (i : Instr) (s : State) : Host.Outcome State Fault Refusal :=
  match i with
  | .crcEnc => Sys2Proof.Machine.execCrcEnc s
  | .crcDec fix => Sys2Proof.Machine.execCrcDec fix s
  | .hamEnc => Sys2Proof.Machine.execHamEnc s
  | .hamDec => Sys2Proof.Machine.execHamDec s
  | .f754Dec prec t => Sys2Proof.Machine.execF754Dec prec t s
  | .f754Enc prec => Sys2Proof.Machine.execF754Enc prec s
  | .f754Add prec t => Sys2Proof.Machine.execF754Add prec t s
  | .tcEnc w => Sys2Proof.Machine.execTcEnc w s
  | .tcDec w => Sys2Proof.Machine.execTcDec w s
  | .tcAdd w => Sys2Proof.Machine.execTcAdd w s
  | .tcSub w => Sys2Proof.Machine.execTcSub w s
  | .grayEnc => Sys2Proof.Machine.execGrayEnc s
  | .grayDec => Sys2Proof.Machine.execGrayDec s
  | .kmEval n => Sys2Proof.Machine.execKmEval n s
  | .kmPi n => Sys2Proof.Machine.execKmPi n s
  | .kmCover n => Sys2Proof.Machine.execKmCover n s

end Sys2Proof.Machine
end

