-- ==== Sys2Proof/Machine/HostActions.lean ====
section
/-! DEFINITION. The host's actions (20_memory.md R52), each atomic, with their preconditions. An action whose
precondition does not hold gets no step: it ends in a refusal, or in a fault where it names a register or a cell that does
not exist (log entry 5). -/

namespace Sys2Proof.Machine

/-- The state with a read's value recorded (20_memory.md R55: "No read has a side effect"; the record is the model's
own, log entry 1). -/
def State.reply (s : State) (r : Reply) : State := { s with replies := r :: s.replies }

/-- HostWriteReg(n, v), n ∈ {0, 4, 5}, when `BUSY = 0` (20_memory.md R52). -/
def State.hostWriteReg (s : State) (n : Nat) (v : Word) : Host.Outcome State Fault Refusal :=
  if !s.hasRegister n then .fault (.noSuchRegister n)
  else if n = 0 then (if s.busy then .refused .busy else .next (s.startCommand v))
  else if n = 4 then (if s.busy then .refused .busy else .next { s with kmOn := v })
  else if n = 5 then (if s.busy then .refused .busy else .next { s with kmDc := v })
  else .refused (.readOnlyRegister n)

/-- HostWriteCell(B, i, c), B ∈ {OPA, OPB}, `i < BUFMAX`, when `BUSY = 0` (20_memory.md R52): `B.CELL[i] <- c`. -/
def State.hostWriteCell (s : State) (b : BufName) (i : Nat) (c : Byte) : Host.Outcome State Fault Refusal :=
  if s.cfg.bufmax ≤ i then .fault (.noSuchCell b i)
  else if b.isResult then .refused (.readOnlyBuffer b)
  else if s.busy then .refused .busy
  else .next (s.setBuffer b { s.buffer b with cells := (s.buffer b).cells.write i c })

/-- HostWriteLen(B, l), B ∈ {OPA, OPB}, `l ≤ BUFMAX`, when `BUSY = 0` (20_memory.md R52): `B.LEN <- l`. -/
def State.hostWriteLen (s : State) (b : BufName) (l : Nat) : Host.Outcome State Fault Refusal :=
  if b.isResult then .refused (.readOnlyBuffer b)
  else if s.cfg.bufmax < l then .refused (.lengthOverCapacity b l)
  else if s.busy then .refused .busy
  else .next (s.setBuffer b { s.buffer b with len := l })

/-- HostReadReg(n): any time for 0, 1, 4, 5; when `BUSY = 0` for the result registers (20_memory.md R52). -/
def State.hostReadReg (s : State) (n : Nat) : Host.Outcome State Fault Refusal :=
  if !s.hasRegister n then .fault (.noSuchRegister n)
  else if isResultRegister n && s.busy then .refused .busy
  else .next (s.reply (.reg (s.register n)))

/-- HostReadLen(B): any time for an operand buffer, when `BUSY = 0` for a result buffer (20_memory.md R52). -/
def State.hostReadLen (s : State) (b : BufName) : Host.Outcome State Fault Refusal :=
  if b.isResult && s.busy then .refused .busy
  else .next (s.reply (.len (s.buffer b).len))

/-- HostReadCell(B, i): `i < BUFMAX` for an operand buffer; `BUSY = 0` and `i < B.LEN` for a result buffer
(20_memory.md R52). -/
def State.hostReadCell (s : State) (b : BufName) (i : Nat) : Host.Outcome State Fault Refusal :=
  if s.cfg.bufmax ≤ i then .fault (.noSuchCell b i)
  else if b.isResult && s.busy then .refused .busy
  else if b.isResult && decide ((s.buffer b).len ≤ i) then .refused (.pastResultLength b i)
  else .next (s.reply (.cell ((s.buffer b).cell i)))

/-- One host action (20_memory.md R52). -/
def State.hostAct (s : State) : HostAction → Host.Outcome State Fault Refusal
  | .writeReg n v => s.hostWriteReg n v
  | .writeCell b i c => s.hostWriteCell b i c
  | .writeLen b l => s.hostWriteLen b l
  | .readReg n => s.hostReadReg n
  | .readLen b => s.hostReadLen b
  | .readCell b i => s.hostReadCell b i

end Sys2Proof.Machine
end

