-- ==== Sys2Proof/Machine/Step.lean ====
section
/-! DEFINITION. One turn of the machine: the engine's `Execute`, a host action, or idling (20_memory.md R56, R57). -/

namespace Sys2Proof.Machine

/-- The engine's one step (20_memory.md R56): decode CMD, run the operation, write all result state, clear BUSY, in one
transition. An illegal word completes with E_ILLEGAL_CMD (30_encoding.md R82). -/
def execute (s : State) : Host.Outcome State Fault Refusal :=
  match s.fetch with
  | .ok i => exec i s
  | .error _ => .next (s.failWith .illegalCmd)

/-- The engine's turn: `Execute` is "enabled iff STATUS.BUSY = 1" (20_memory.md R56); otherwise the engine is idle
(70_reset_and_hazards.md R282). -/
def engineTurn (s : State) : Host.Outcome State Fault Refusal :=
  if s.busy then execute s else .next s

/-- One turn, in the order the schedule gives (20_memory.md R57). With nothing scheduled the engine takes the turn, so a
pending command is always executed in the end (70_reset_and_hazards.md R280; log entry 1). -/
def step (s : State) : Host.Outcome State Fault Refusal :=
  match s.schedule with
  | [] => engineTurn s
  | .engine :: rest => engineTurn { s with schedule := rest }
  | .host a :: rest => State.hostAct { s with schedule := rest } a

/-- The instruction whose bits are `w` put where the next step takes it from: the host's write of CMD (R28) followed by
the engine's turn (log entry 1). -/
def State.withFetchWord (s : State) (nbits w : Nat) : State :=
  { s.startCommand (BitVec.ofNat 32 (w % 2 ^ nbits)) with schedule := .engine :: s.schedule }

end Sys2Proof.Machine
end

