-- ==== Sys2Proof/Machine/Script.lean ====
section
/-! DEFINITION. The written form of a command (30_encoding.md R85), and host scripts (R86) as the host actions they stand
for. A statement that reads first (COPY, COPYR, FLIP) is given the state it is reached in, where the values it reads
stand. -/

namespace Sys2Proof.Machine

/-- The ways to write a choice of two qualifiers: the one of field value 0 may be left out (30_encoding.md R85). -/
def qualifier (isSet : Bool) (zero one : String) : List String := if isSet then [one] else ["", zero]

/-- Every written form of a command (30_encoding.md R85): dot-separated qualifiers, an absent optional one standing for
the field value 0. -/
def Instr.spellings : Instr → List String
  | .crcEnc => ["CRC.ENC"]
  | .crcDec fix => [if fix then "CRC.DEC.FIX" else "CRC.DEC"]
  | .hamEnc => ["HAM.ENC"]
  | .hamDec => ["HAM.DEC"]
  | .f754Dec p t => (qualifier p.toBit ".S" ".D").flatMap (fun a =>
      (qualifier t.toBit ".BIN" ".HEX").map (fun b => "F754.DEC" ++ a ++ b))
  | .f754Enc p => (qualifier p.toBit ".S" ".D").map (fun a => "F754.ENC" ++ a)
  | .f754Add p t => (qualifier p.toBit ".S" ".D").flatMap (fun a =>
      (qualifier t.toBit ".BIN" ".HEX").map (fun b => "F754.ADD" ++ a ++ b))
  | .tcEnc w => ["TC.ENC.W" ++ toString w.toNat]
  | .tcDec w => ["TC.DEC.W" ++ toString w.toNat]
  | .tcAdd w => ["TC.ADD.W" ++ toString w.toNat]
  | .tcSub w => ["TC.SUB.W" ++ toString w.toNat]
  | .grayEnc => ["GRAY.ENC"]
  | .grayDec => ["GRAY.DEC"]
  | .kmEval n => ["KM.EVAL.N" ++ toString n.toNat]
  | .kmPi n => ["KM.PI.N" ++ toString n.toNat]
  | .kmCover n => ["KM.COVER.N" ++ toString n.toNat]

/-- The command word a written form stands for, if it is one (30_encoding.md R85). -/
def assemble (tcwMax : Nat) (written : String) : Option Word :=
  ((legalInstrs tcwMax).find? (fun i => (Instr.spellings i).contains written)).map encode

/-- A statement of a host script (30_encoding.md R86). -/
inductive Stmt where
  /-- `SET <buf> "<text>"` -/
  | set (buf : BufName) (text : Text)
  /-- `SETR <reg> <value>` -/
  | setr (reg : Nat) (v : Word)
  /-- `RUN <mnemonic>`, with the number of polls of STATUS that still read `BUSY = 1` (70_reset_and_hazards.md R279: no
  bound is given) -/
  | run (word : Word) (polls : Nat)
  /-- `COPY <opbuf> <resbuf>` -/
  | copy (opbuf resbuf : BufName)
  /-- `COPYR <opreg> <resreg>` -/
  | copyr (opreg resreg : Nat)
  /-- `FLIP <opbuf> <i>` -/
  | flip (opbuf : BufName) (i : Nat)
  deriving DecidableEq, Repr

/-- `BUF <- t` for a host (20_memory.md R53): the cells, ascending (log entry 8), then LEN. -/
def writeActions (buf : BufName) (t : Text) : List HostAction :=
  t.zipIdx.map (fun x => HostAction.writeCell buf x.2 x.1) ++ [.writeLen buf t.length]

/-- The reads of a whole buffer of length `len`. DESIGN CHOICE (log entry 8): LEN first, then the cells ascending;
30_encoding.md R86 gives COPY's reads no order, and 20_memory.md R53 orders writes only. -/
def readActions (buf : BufName) (len : Nat) : List HostAction :=
  .readLen buf :: (List.range len).map (fun i => HostAction.readCell buf i)

/-- `0` ↔ `1` (30_encoding.md R86); another character is left as it is (log entry 8). -/
def flipChar (c : Byte) : Byte := if c = chZero then chOne else if c = chOne then chZero else c

/-- The turns a statement stands for (30_encoding.md R86), in state `s`. DESIGN CHOICE (log entry 8): the order of COPY's
reads, and that FLIP reads the cell once before it writes it. -/
def Stmt.events (s : State) : Stmt → List Event
  | .set buf t => (writeActions buf t).map .host
  | .setr reg v => [.host (.writeReg reg v)]
  | .run word polls =>
    .host (.writeReg 0 word) :: List.replicate polls (.host (.readReg 1)) ++ [.engine, .host (.readReg 1)]
  | .copy opbuf resbuf =>
    (readActions resbuf (s.buffer resbuf).len ++ writeActions opbuf (s.buffer resbuf).content).map .host
  | .copyr opreg resreg => [.host (.readReg resreg), .host (.writeReg opreg (s.register resreg))]
  | .flip opbuf i =>
    [.host (.readCell opbuf i), .host (.writeCell opbuf i (flipChar ((s.buffer opbuf).cell i)))]

end Sys2Proof.Machine
end

