-- ==== Sys2Proof/Safety.lean ====
section
/-! DEFINITION. What claims speak of: the invariant of the machine, what a completed command leaves, the grammar of the
expressions, polynomials over GF(2), the rational value of an IEEE-754 pattern, and the prime implicants as a set. -/

namespace Sys2Proof.Machine

/-- A buffer is as 10_state.md R24 says: `LEN ≤ BUFMAX`, cells below BUFMAX, in canonical form. -/
def Buffer.ok (c : Config) (b : Buffer) : Bool :=
  decide (b.len ≤ c.bufmax) && Memory.wf b.cells && b.cells.all (fun x => decide (x.1 < c.bufmax))

/-- Every result register is 0 or empty and every flag 0 (60_exceptions.md R252). -/
def State.cleared (s : State) : Bool :=
  s.flags == {} && s.aux0 == 0#32 && s.aux1 == 0#32 && s.kmTt == 0#32 && s.picnt == 0#32 && s.piTable.isEmpty
    && s.ra.len == 0 && s.rb.len == 0 && s.rc.len == 0

/-- THE INVARIANT of the machine, kept by every turn of either agent: legal parameters (00_scope.md R5); buffers as R24;
STATUS bits not assigned 0 (R26, U9); BUSY and DONE never together (R28); ERR at most 9 (R29, U8); CLASS at most 5 (R26);
at most one of VALID, CORR, UNCORR (R175, R196); PICNT the number of table entries, at most PIMAX, INFO bits not assigned 0
(R33); and with `ERR ≠ 0` everything cleared (R40, R252). -/
def State.inv (s : State) : Bool :=
  s.cfg.wf
    && s.opa.ok s.cfg && s.opb.ok s.cfg && s.ra.ok s.cfg && s.rb.ok s.cfg && s.rc.ok s.cfg
    && s.status &&& ~~~statusAssigned == 0#32
    && !(s.busy && s.done)
    && decide (s.err.toNat ≤ 9)
    && decide (s.flags.cls.toNat ≤ 5)
    && !(s.flags.valid && s.flags.corr) && !(s.flags.valid && s.flags.uncorr) && !(s.flags.corr && s.flags.uncorr)
    && decide (s.picnt.toNat = s.piTable.length) && decide (s.piTable.length ≤ s.cfg.pimax)
    && s.piTable.all (fun e => e.info &&& ~~~0x0000FF03#32 == 0#32)
    && (s.err == 0#4 || s.cleared)

/-- What the engine never writes (10_state.md R25, 70_reset_and_hazards.md R284), and the model's own fields that only
`step` and the host move. -/
structure Untouched (s t : State) : Prop where
  cmd : t.cmd = s.cmd
  opa : t.opa = s.opa
  opb : t.opb = s.opb
  kmOn : t.kmOn = s.kmOn
  kmDc : t.kmDc = s.kmDc
  cfg : t.cfg = s.cfg
  schedule : t.schedule = s.schedule
  replies : t.replies = s.replies

/-- Buffer `b'` holds `text`, written over `b` (30_encoding.md R74): the content is `text`, and every cell at or past its
length is what it was. -/
structure Holds (b b' : Buffer) (text : Text) : Prop where
  len : b'.len = text.length
  content : b'.content = text
  rest : ∀ i, text.length ≤ i → b'.cell i = b.cell i

/-- `t` shows, after a command that ran in `s`, the code `err` and exactly the results `r` (10_state.md R40):
`BUSY = 0`, `DONE = 1`, every flag, register, table entry and buffer, and no other STATUS bit. -/
structure Shows (s t : State) (err : BitVec 4) (r : Results) : Prop where
  busy : t.busy = false
  done : t.done = true
  err : t.err = err
  flags : t.flags = r.flags
  unassigned : t.status &&& ~~~statusAssigned = 0#32
  aux0 : t.aux0 = r.aux0
  aux1 : t.aux1 = r.aux1
  kmTt : t.kmTt = r.kmTt
  picnt : t.picnt = BitVec.ofNat 32 r.pi.length
  piTable : t.piTable = r.pi
  ra : Holds s.ra t.ra r.ra
  rb : Holds s.rb t.rb r.rb
  rc : Holds s.rc t.rc r.rc

/-- How many free values an operation draws (log entry 3). -/
def draws : Instr → Nat
  | .crcEnc => 0
  | .crcDec _ => 1
  | .hamEnc => 0
  | .hamDec => 0
  | .f754Dec _ _ => 0
  | .f754Enc _ => 0
  | .f754Add _ _ => 0
  | .tcEnc _ => 0
  | .tcDec _ => 0
  | .tcAdd _ => 0
  | .tcSub _ => 0
  | .grayEnc => 0
  | .grayDec => 0
  | .kmEval _ => 0
  | .kmPi _ => 0
  | .kmCover _ => 1

/-- Command `i` completes in `s` with `ERR = 0` and exactly the results `r`, and touches nothing else. -/
def Completes (i : Instr) (s : State) (r : Results) : Prop :=
  ∃ t, exec i s = .next t ∧ Untouched s t ∧ t.freeCount = s.freeCount + draws i ∧ Shows s t 0#4 r

/-- Command `i` completes in `s` with the error `e` and every result cleared (60_exceptions.md R252), and touches
nothing else. -/
def FailsWith (i : Instr) (s : State) (e : Err) : Prop :=
  ∃ t, exec i s = .next t ∧ Untouched s t ∧ t.freeCount = s.freeCount + draws i ∧ Shows s t e.code {}

/-- Two states show a host the same results (10_state.md R40): STATUS, the numeric registers, the table, the contents. -/
structure SameResults (s t : State) : Prop where
  status : s.status = t.status
  aux0 : s.aux0 = t.aux0
  aux1 : s.aux1 = t.aux1
  kmTt : s.kmTt = t.kmTt
  picnt : s.picnt = t.picnt
  piTable : s.piTable = t.piTable
  ra : s.ra.content = t.ra.content
  rb : s.rb.content = t.rb.content
  rc : s.rc.content = t.rc.content

/-- The table of 30_encoding.md R71, by the numbers of R80: ARG is legal for OPC. Written apart from the decoder. -/
abbrev argLegal (tcwMax opc arg : Nat) : Prop :=
  (opc ∈ [0x01, 0x03, 0x04, 0x0C, 0x0D] ∧ arg = 0) ∨
  (opc ∈ [0x02, 0x06] ∧ arg < 2) ∨
  (opc ∈ [0x05, 0x07] ∧ arg < 4) ∨
  (opc ∈ [0x08, 0x09, 0x0A, 0x0B] ∧ 1 ≤ arg ∧ arg ≤ tcwMax) ∨
  (opc ∈ [0x0E, 0x0F, 0x10] ∧ 1 ≤ arg ∧ arg ≤ 5)

/-- A legal command word (30_encoding.md R70, R71, R83). -/
abbrev LegalCommand (tcwMax : Nat) (w : Word) : Prop :=
  w.toNat / 2 ^ 16 = 0 ∧ argLegal tcwMax (w.toNat % 256) (w.toNat / 256 % 256)

/-- The preconditions of the host's actions (20_memory.md R52). -/
def HostMay (s : State) : HostAction → Prop
  | .writeReg n _ => (n = 0 ∨ n = 4 ∨ n = 5) ∧ s.busy = false
  | .writeCell b i _ => (b = .opa ∨ b = .opb) ∧ i < s.cfg.bufmax ∧ s.busy = false
  | .writeLen b l => (b = .opa ∨ b = .opb) ∧ l ≤ s.cfg.bufmax ∧ s.busy = false
  | .readReg n => (n = 0 ∨ n = 1 ∨ n = 4 ∨ n = 5) ∨
      ((n = 2 ∨ n = 3 ∨ n = 6 ∨ n = 7 ∨ (8 ≤ n ∧ n ≤ 7 + 2 * s.cfg.pimax)) ∧ s.busy = false)
  | .readLen b => b = .opa ∨ b = .opb ∨ s.busy = false
  | .readCell b i => ((b = .opa ∨ b = .opb) ∧ i < s.cfg.bufmax) ∨
      (s.busy = false ∧ (b = .ra ∨ b = .rb ∨ b = .rc) ∧ i < (s.buffer b).len)

/-- What a permitted action does (20_memory.md R52): the one thing its row says, and nothing else. -/
def HostDoes (s t : State) : HostAction → Prop
  | .writeReg n v => t.register n = v ∧
      (n = 0 → t = { s with cmd := v, status := t.status } ∧ t.busy = true ∧ t.done = false ∧
        ∀ k, 2 ≤ k → t.status.getLsbD k = s.status.getLsbD k) ∧
      (n = 4 → t = { s with kmOn := v }) ∧ (n = 5 → t = { s with kmDc := v })
  | .writeCell b i c => t = s.setBuffer b (t.buffer b) ∧ (t.buffer b).len = (s.buffer b).len ∧
      (t.buffer b).cell i = c ∧ ∀ j, j ≠ i → (t.buffer b).cell j = (s.buffer b).cell j
  | .writeLen b l => t = s.setBuffer b (t.buffer b) ∧ (t.buffer b).len = l ∧
      ∀ j, (t.buffer b).cell j = (s.buffer b).cell j
  | .readReg n => t = { s with replies := .reg (s.register n) :: s.replies }
  | .readLen b => t = { s with replies := .len (s.buffer b).len :: s.replies }
  | .readCell b i => t = { s with replies := .cell ((s.buffer b).cell i) :: s.replies }

/-- The polynomial of a BitString over GF(2): "coefficients of descending powers of x, MSB = highest degree"
(00_scope.md R7). -/
noncomputable def bitsPoly (b : Bits) : Polynomial (ZMod 2) :=
  b.foldl (fun p x => p * Polynomial.X + (if x then 1 else 0)) 0

/-- `j` is a power of two. Written apart from the machine's own test. -/
def isTwoPower (j : Nat) : Bool := (List.range j).any (fun e => 2 ^ e == j)

/-- Whether an odd number of the 1 bits of `c` stand at positions `j`, counted from 1, with `floor(j / weight)` odd: one
row of `H · codeword` (44_hamming.md R191, R192). -/
def oddParity (c : Bits) (weight : Nat) : Bool :=
  ((List.range c.length).filter (fun i => c.getD i false && (i + 1) / weight % 2 == 1)).length % 2 == 1

/-- The bits of `c` at the positions that are not powers of two, in increasing position order (44_hamming.md R190). -/
def dataBits (c : Bits) : Bits :=
  ((List.range c.length).filter (fun i => !isTwoPower (i + 1))).map (fun i => c.getD i false)

/-- The signed value of a w-bit string (40_twos_complement.md R110): "unsigned value minus 2^width if MSB=1". -/
def tcValue (w : Nat) (b : Bits) : Int :=
  if b.head? = some true then (bitsVal b : Int) - 2 ^ w else (bitsVal b : Int)

/-- `v` is outside `TMIN(w) .. TMAX(w)` (40_twos_complement.md R110). -/
def outOfRange (w : Nat) (v : Int) : Prop := v < -2 ^ (w - 1) ∨ 2 ^ (w - 1) - 1 < v

/-- `text` is `dec(v)` (00_scope.md R10): it reads as `v`, begins with `-` only for a negative `v`, and has no leading
zero. -/
structure IsDecText (v : Int) (text : Text) : Prop where
  value : decIntOperand text = .ok v
  sign : text.head? = some 0x2D#8 ↔ v < 0
  noLeadingZero : ∀ rest, text = 0x30#8 :: rest ∨ text = 0x2D#8 :: 0x30#8 :: rest → v = 0 ∧ rest = []
  noSpace : 0x20#8 ∉ text

/-- `text` is `dectext(v)` for `v > 0` (41_ieee754_convert.md R135): it spells exactly `v` with no sign, no leading zero
in the integer part, a fraction only when one is needed, and a last fractional digit that is not 0. -/
def IsDecExpansion (v : ℚ) (text : Text) : Prop :=
  ∃ num scale, decRealOperand text = .ok ⟨false, num, scale⟩ ∧ (num : ℚ) / 10 ^ scale = v ∧
    (scale ≠ 0 → num % 10 ≠ 0) ∧ (∀ c rest, text = 0x30#8 :: c :: rest → c = 0x2E#8) ∧ 0x20#8 ∉ text

/-- The rational magnitude of a finite pattern (42_ieee754_add.md R150): `sig · 2^(ee − bias − m)`, with the
implicit leading bit when the exponent field is not 0 and `ee = max(val(E), 1)`. Written apart from the machine. -/
def magnitude (prec : Precision) (x : FpFields) : ℚ :=
  (((if x.exp = 0 then 0 else 2 ^ manWidth prec) + x.man : Nat) : ℚ) *
    2 ^ (((max x.exp 1 : Nat) : Int) - expBias prec - manWidth prec)

/-- The rational value of a finite pattern (41_ieee754_convert.md R134). -/
def fpValue (prec : Precision) (x : FpFields) : ℚ := if x.sign then -magnitude prec x else magnitude prec x

/-- The fields fit the format: they are those of some pattern. -/
def inFormat (prec : Precision) (x : FpFields) : Prop :=
  x.exp ≤ expMax prec ∧ x.man < 2 ^ manWidth prec

/-- The pattern is finite: class Zero, Denormalized or Normalized. -/
def isFinite (prec : Precision) (x : FpFields) : Prop := x.exp < expMax prec

/-- The bit R of the exact tail `f` of a sum, `0 ≤ f < 1` counting units of its last mantissa place (42_ieee754_add.md R152,
R156): the second bit of `f`; after a left shift in step 4, which fills zeros at the right, the sticky bit stands in its
place, saying whether anything lies below the first bit. -/
def tailR (left : Prop) (f : ℚ) : Prop := (left ∧ Int.fract (2 * f) ≠ 0) ∨ (¬left ∧ ⌊4 * f⌋ % 2 = 1)

/-- The bit S of the exact tail (42_ieee754_add.md R152, R156): whether anything lies below its second bit; 0 after a left
shift. -/
def tailS (left : Prop) (f : ℚ) : Prop := ¬left ∧ Int.fract (4 * f) ≠ 0

/-- Step 6 on the exact tail (42_ieee754_add.md R158), where G says that `f` is at least one half and L that the mantissa is
odd: `G and (R or S or L)`, or `R and (S or L)`. -/
def tailUp (rule : AddRoundRule) (left odd : Prop) (f : ℚ) : Prop :=
  match rule with
  | .nearestEvenGrs => 1 / 2 ≤ f ∧ (tailR left f ∨ tailS left f ∨ odd)
  | .literalRs => tailR left f ∧ (tailS left f ∨ odd)

/-- The character `c` stands for the symbol, by its code (30_encoding.md R73; 46_kmap.md R220, R222): the letters `A` to `E`
and `a` to `e` for the variables 0 to 4, then `+`, the middle dot, `!`, `'`, `(` and `)`. Written apart from the reader. -/
def IsKmSymbol (c : Byte) : KmTok → Prop
  | .var v => v < 5 ∧ (c.toNat = 0x41 + v ∨ c.toNat = 0x61 + v)
  | .plus => c.toNat = 0x2B
  | .dot => c.toNat = 0xB7
  | .bang => c.toNat = 0x21
  | .prime => c.toNat = 0x27
  | .lpar => c.toNat = 0x28
  | .rpar => c.toNat = 0x29

/-- The syntactic sorts of 46_kmap.md R222. -/
inductive KmSort where
  | expr
  | term
  | factor
  | atom
  deriving DecidableEq, Repr

/-- The value of an expression at minterm `t` of `n` variables, 0 or 1 (46_kmap.md R221, R223): variable `v` is the bit of
weight `2^(n-1-v)` of `t`, NOT takes the value from 1, AND is the product, OR is 0 where both values are 0. Written apart
from the machine's evaluator. -/
def kmValue (n t : Nat) : KmExpr → Nat
  | .var v => t / 2 ^ (n - 1 - v) % 2
  | .not e => 1 - kmValue n t e
  | .and a b => kmValue n t a * kmValue n t b
  | .or a b => if kmValue n t a + kmValue n t b = 0 then 0 else 1

/-- `k` primes applied to an expression (46_kmap.md R222, R223). -/
def primesOf : Nat → KmExpr → KmExpr
  | 0, e => e
  | k + 1, e => primesOf k (.not e)

/-- The grammar of 46_kmap.md R222 as a relation: the symbols derive from the sort, with the expression they mean. -/
inductive KmDerives : KmSort → List KmTok → KmExpr → Prop where
  | exprOne {ts a} : KmDerives .term ts a → KmDerives .expr ts a
  | exprOr {ts us a b} : KmDerives .term ts a → KmDerives .expr us b →
      KmDerives .expr (ts ++ .plus :: us) (.or a b)
  | termOne {ts a} : KmDerives .factor ts a → KmDerives .term ts a
  | termDot {ts us a b} : KmDerives .factor ts a → KmDerives .term us b →
      KmDerives .term (ts ++ .dot :: us) (.and a b)
  | termAdjacent {ts us a b} : KmDerives .factor ts a → KmDerives .term us b →
      KmDerives .term (ts ++ us) (.and a b)
  | factorBang {ts a} : KmDerives .factor ts a → KmDerives .factor (.bang :: ts) (.not a)
  | factorAtom {ts a} (k : Nat) : KmDerives .atom ts a →
      KmDerives .factor (ts ++ List.replicate k .prime) (primesOf k a)
  | atomVar {v} : KmDerives .atom [.var v] (.var v)
  | atomGroup {ts a} : KmDerives .expr ts a → KmDerives .atom (.lpar :: ts ++ [.rpar]) a

/-- Command `i` delivers the pattern with fields `x` (42_ieee754_add.md R151, 41_ieee754_convert.md R136): RA its `N` bits,
RB its `N/4` upper-case hex digits, AUX0 the exponent field, the flags SIGN and CLASS, everything else empty or 0. -/
def DeliversPattern (i : Instr) (s : State) (prec : Precision) (x : FpFields) : Prop :=
  ∃ E F hex, E.length = expWidth prec ∧ F.length = manWidth prec ∧ bitsVal E = x.exp ∧ bitsVal F = x.man ∧
    hex.length = patternWidth prec / 4 ∧ (∀ c ∈ hex, c.toNat < 0x47) ∧
    hexOperandOf (patternWidth prec / 4) hex = .ok (x.sign :: (E ++ F)) ∧
    Completes i s { ra := bitsText (x.sign :: (E ++ F)), rb := hex, aux0 := BitVec.ofNat 32 x.exp,
                    flags := { sign := x.sign, cls := (fpClass prec x).code } }

/-- Minterm `t` is in the set with map `Q` (46_kmap.md R221). -/
abbrev mem (Q : Word) (t : Nat) : Prop := Q.getLsbD t = true

/-- `gray(i) · 2^col_bits + gray(j)` (46_kmap.md R227), where `gray(x) = x ^ (x >> 1)`. -/
def gridCell (colBits i j : Nat) : Nat := (i ^^^ i >>> 1) * 2 ^ colBits + (j ^^^ j >>> 1)

/-- A rectangle (46_kmap.md R228): height `2^hb`, width `2^wb`, start `(i0, j0)`. -/
structure Rect where
  hb : Nat
  wb : Nat
  i0 : Nat
  j0 : Nat
  deriving DecidableEq, Repr

/-- `Q` is the cell set of the rectangle `r` on the grid of `layout`, rows and columns wrapping (46_kmap.md R228). -/
def RectIs (layout : Nat × Nat) (r : Rect) (Q : Word) : Prop :=
  r.hb ≤ layout.1 ∧ r.wb ≤ layout.2 ∧ r.i0 < 2 ^ layout.1 ∧ r.j0 < 2 ^ layout.2 ∧
    ∀ t, mem Q t ↔ ∃ a b, a < 2 ^ r.hb ∧ b < 2 ^ r.wb ∧
      t = gridCell layout.2 ((r.i0 + a) % 2 ^ layout.1) ((r.j0 + b) % 2 ^ layout.2)

/-- Rectangle `r` comes before `r'` in the enumeration of 46_kmap.md R231: by area descending, then by height descending,
then by `i0`, then by `j0` ascending. -/
def Rect.before (r r' : Rect) : Prop :=
  r'.hb + r'.wb < r.hb + r.wb ∨ (r'.hb + r'.wb = r.hb + r.wb ∧
    (r'.hb < r.hb ∨ (r'.hb = r.hb ∧ (r.i0 < r'.i0 ∨ (r.i0 = r'.i0 ∧ r.j0 < r'.j0)))))

/-- `Q` is met before `Q'` in that enumeration: some rectangle of `Q` comes before every rectangle of `Q'`. -/
def metBefore (layout : Nat × Nat) (Q Q' : Word) : Prop :=
  ∃ r, RectIs layout r Q ∧ ∀ r', RectIs layout r' Q' → r.before r'

/-- `Q` is a valid implicant (46_kmap.md R229): a rectangle whose every cell is a 1 or a don't-care, at least one a 1. -/
def isImplicant (layout : Nat × Nat) (on dc Q : Word) : Prop :=
  (∃ r, RectIs layout r Q) ∧ (∀ t, mem Q t → mem on t ∨ mem dc t) ∧ ∃ t, mem Q t ∧ mem on t

/-- `Q` is prime (46_kmap.md R229): valid, and "not a proper subset of another valid rectangle". -/
def isPrimeImplicant (layout : Nat × Nat) (on dc Q : Word) : Prop :=
  isImplicant layout on dc Q ∧
    ∀ Q', isImplicant layout on dc Q' → (∀ t, mem Q t → mem Q' t) → Q' = Q

/-- `P` is the prime list of KM.PI (46_kmap.md R230, R231): every prime implicant once, in enumeration order. -/
structure IsPrimeList (layout : Nat × Nat) (on dc : Word) (P : List Word) : Prop where
  nodup : P.Nodup
  primes : ∀ Q, Q ∈ P ↔ isPrimeImplicant layout on dc Q
  order : P.Pairwise (metBefore layout)

/-- The operands of KM.PI and KM.COVER pass the checks of 46_kmap.md R230. -/
def kmOperandsLegal (n : Nat) (on dc : Word) : Prop :=
  ∀ t, (mem on t ∨ mem dc t → t < 2 ^ n) ∧ ¬(mem on t ∧ mem dc t)

/-- `ess(i)` (46_kmap.md R233): some required minterm lies in `P[i]` and in no other. -/
def isEssential (P : List Word) (on : Word) (i : Nat) : Prop :=
  i < P.length ∧ ∃ t, mem on t ∧ mem (P.getD i 0) t ∧ ∀ j, j < P.length → j ≠ i → ¬mem (P.getD j 0) t

/-- How many required minterms of `P[i]` no implicant of `sel` covers: `gain(i)` (46_kmap.md R233). -/
def newlyCovered (P : List Word) (on : Word) (sel : List Nat) (i : Nat) : Nat :=
  ((List.range 32).filter (fun t =>
    (P.getD i 0).getLsbD t && on.getLsbD t && sel.all (fun k => !(P.getD k 0).getLsbD t))).length

/-- `sel` is a cover selected as 46_kmap.md R233 says: the essential implicants ascending, then picks each of which is not
selected yet, covers at least one more required minterm and as many as any other that is not selected, the least index on a
tie under `lowest_index`; and at the end every required minterm is covered. -/
structure IsSelection (tie : KmGreedyTie) (P : List Word) (on : Word) (sel : List Nat) : Prop where
  split : ∃ ess picks, sel = ess ++ picks ∧ ess.Pairwise (· < ·) ∧ (∀ i, i ∈ ess ↔ isEssential P on i) ∧
    ∀ k i, picks[k]? = some i → i < P.length ∧ i ∉ ess ++ picks.take k ∧
      0 < newlyCovered P on (ess ++ picks.take k) i ∧
      ∀ j, j < P.length → j ∉ ess ++ picks.take k →
        newlyCovered P on (ess ++ picks.take k) j ≤ newlyCovered P on (ess ++ picks.take k) i ∧
        (tie = .lowestIndex → newlyCovered P on (ess ++ picks.take k) j = newlyCovered P on (ess ++ picks.take k) i →
          i ≤ j)
  covers : ∀ t, mem on t → ∃ i ∈ sel, mem (P.getD i 0) t

/-- `e` is the table entry of implicant `i` of `P` under the selection `sel` (10_state.md R33, 46_kmap.md R234). -/
structure IsTableEntry (P : List Word) (on : Word) (sel : List Nat) (i : Nat) (e : PiEntry) : Prop where
  cells : e.cells = P.getD i 0
  ess : e.info.getLsbD 0 = true ↔ isEssential P on i
  picked : e.info.getLsbD 1 = true ↔ i ∈ sel
  rank : e.info.toNat / 256 = if i ∈ sel then sel.idxOf i + 1 else 0
  rest : ∀ k, 2 ≤ k → k < 8 → e.info.getLsbD k = false

/-- A set of minterms is a product of literals: some bits of the index are fixed, every other bit is free. -/
def isSubcube (n : Nat) (Q : Word) : Prop :=
  ∃ care value, ∀ t, t < 2 ^ n → (mem Q t ↔ t &&& care = value)

end Sys2Proof.Machine
end

