-- ==== Sys2Proof/Certificates/Slice0/Obligations.lean ====
section
/-! DEFINITION. The statements for the provers. OBLIGATIONS.json lists them with the rules of spec/ they formalise. The
words `Completes`, `FailsWith`, `Shows`, `Untouched`, `Holds` (Safety.lean) carry the frame: every operand, every result
register and every cell. -/

open Sys2Proof Sys2Proof.Machine

/-! ## The command word (30_encoding.md) -/

/-- R70, R71, R80, R82, R83: decoding and encoding agree: no bit of an encoding is dropped, and a word has at most one
meaning; an encoding is OPC in bits 7:0, ARG in bits 15:8 and 0 above. -/
def Obligations.DecodeAndEncodeAgree : Prop :=
  (∀ i : Instr, (encode i).toNat = i.opc.toNat + 0x100 * i.arg.toNat) ∧
  ∀ tcwMax : Nat,
    (∀ i : Instr, i.wf tcwMax = true → decode tcwMax (encode i) = .ok i) ∧
    ∀ (w : Word) (i : Instr), decode tcwMax w = .ok i → i.wf tcwMax = true ∧ encode i = w

/-- R85: words written in the spec's table, one of every family, and the written forms they are assembled from. -/
def Obligations.WrittenWordsDecode : Prop :=
  (decode 64 0x00000102#32 = .ok (.crcDec true) ∧ assemble 64 "CRC.DEC.FIX" = some 0x00000102#32) ∧
  (decode 64 0x00000003#32 = .ok .hamEnc ∧ assemble 64 "HAM.ENC" = some 0x00000003#32) ∧
  (decode 64 0x00000305#32 = .ok (.f754Dec .double .hex) ∧ assemble 64 "F754.DEC.D.HEX" = some 0x00000305#32) ∧
  (decode 64 0x0000080A#32 = .ok (.tcAdd 8#8) ∧ assemble 64 "TC.ADD.W8" = some 0x0000080A#32) ∧
  (decode 64 0x0000000D#32 = .ok .grayDec ∧ assemble 64 "GRAY.DEC" = some 0x0000000D#32) ∧
  (decode 64 0x00000410#32 = .ok (.kmCover 4#8) ∧ assemble 64 "KM.COVER.N4" = some 0x00000410#32) ∧
  (assemble 64 "TC.ADD" = none ∧ assemble 64 "KM.PI" = none ∧ assemble 64 "F754.ENC" = some 0x00000006#32)

/-- R83: the legal words, their number, and the one behaviour of all the others. -/
def Obligations.LegalWordsCounted : Prop :=
  ∀ tcwMax, tcwMax ≤ 255 →
    ((legalInstrs tcwMax).map encode).Nodup ∧
    ((legalInstrs tcwMax).map encode).length = 5 * 1 + 2 + 4 + 2 + 4 + 4 * tcwMax + 3 * 5 ∧
    (∀ w, w ∈ (legalInstrs tcwMax).map encode ↔ LegalCommand tcwMax w) ∧
    (∀ w, (∃ i, decode tcwMax w = .ok i) ↔ LegalCommand tcwMax w) ∧
    ∀ s : State, s.cfg.tcwMax = tcwMax → s.busy = true → ¬LegalCommand tcwMax s.cmd →
      engineTurn s = .next (s.failWith .illegalCmd)

/-- R82: the engine decodes every word: an illegal one completes with `ERR = 1` and cleared results, a legal one runs the
operation of its OPC with its ARG. -/
def Obligations.DecodingIsTotal : Prop :=
  ∀ s : State, s.busy = true →
    (¬LegalCommand s.cfg.tcwMax s.cmd →
      ∃ t, engineTurn s = .next t ∧ Untouched s t ∧ t.freeCount = s.freeCount ∧ Shows s t 1#4 {}) ∧
    (LegalCommand s.cfg.tcwMax s.cmd →
      ∃ i : Instr, i.opc.toNat = s.cmd.toNat % 256 ∧ i.arg.toNat = s.cmd.toNat / 256 % 256 ∧ engineTurn s = exec i s)

/-! ## Steps, the handshake, completion (10_state.md, 20_memory.md, 60_exceptions.md) -/

/-- R56: when CMD decodes to `i` and a command is pending, the engine's turn is `exec i`. -/
def Obligations.StepRunsDecodedInstruction : Prop :=
  ∀ (s : State) (i : Instr), s.busy = true → decode s.cfg.tcwMax s.cmd = .ok i →
    (s.schedule = [] → step s = exec i s) ∧
    ∀ rest, s.schedule = .engine :: rest → step s = exec i { s with schedule := rest }

/-- R56, R57, R282: what every other turn is: an idle engine changes nothing but the schedule, and a host's turn is its
action. The turn of an empty schedule is the model's choice (log entry 1). -/
def Obligations.OtherTurns : Prop :=
  (∀ s : State, s.busy = false → s.schedule = [] → step s = .next s) ∧
  (∀ (s : State) (rest : List Event), s.busy = false → s.schedule = .engine :: rest →
    step s = .next { s with schedule := rest }) ∧
  ∀ (s : State) (a : HostAction) (rest : List Event), s.schedule = .host a :: rest →
    step s = ({ s with schedule := rest } : State).hostAct a

/-- R28: the handshake. The third clause says that a command writes all result state: what it shows afterwards is one code
and one set of results, whatever STATUS, the result registers, the table and the result buffers held before. -/
def Obligations.BusyDoneHandshake : Prop :=
  (∀ (s : State) (v : Word), s.busy = false →
    ∃ t, s.hostAct (.writeReg 0 v) = .next t ∧ t = { s with cmd := v, status := t.status } ∧ t.busy = true ∧
      t.done = false ∧ ∀ k, 2 ≤ k → t.status.getLsbD k = s.status.getLsbD k) ∧
  (∀ s : State, s.busy = false → engineTurn s = .next s) ∧
  (∀ s : State, ∃ err r, ∀ s' : State, s'.inv = true → s'.busy = true → s'.cmd = s.cmd →
    s'.opa.content = s.opa.content → s'.opb.content = s.opb.content → s'.kmOn = s.kmOn → s'.kmDc = s.kmDc →
    s'.cfg = s.cfg → s'.freeCount = s.freeCount → ∃ t, engineTurn s' = .next t ∧ Shows s' t err r) ∧
  ¬(State.reset.busy = true ∧ State.reset.done = true) ∧
  ∀ s t : State, ¬(s.busy = true ∧ s.done = true) → step s = .next t → ¬(t.busy = true ∧ t.done = true)

/-- R25: the engine never writes an operand register, nor CMD. -/
def Obligations.CommandKeepsOperands : Prop :=
  (∀ s t : State, engineTurn s = .next t → Untouched s t) ∧
  ∀ (i : Instr) (s t : State), exec i s = .next t → Untouched s t

/-- R27: each operation sets only its own flags, by the operation numbers of R80, and no operation reads a flag. The first
clause gives the bits of STATUS by their numbers in R26. -/
def Obligations.FlagsOfEachOperation : Prop :=
  (∀ s : State, s.busy = s.status.getLsbD 0 ∧ s.done = s.status.getLsbD 1 ∧
    s.err.toNat = s.status.toNat / 2 ^ 4 % 2 ^ 4 ∧ s.flags.valid = s.status.getLsbD 8 ∧
    s.flags.corr = s.status.getLsbD 9 ∧ s.flags.uncorr = s.status.getLsbD 10 ∧ s.flags.ovf = s.status.getLsbD 11 ∧
    s.flags.cout = s.status.getLsbD 12 ∧ s.flags.sign = s.status.getLsbD 13 ∧
    s.flags.cls.toNat = s.status.toNat / 2 ^ 16 % 2 ^ 3) ∧
  ∀ (i : Instr) (s t : State), exec i s = .next t →
    (∀ k, k = 2 ∨ k = 3 ∨ k = 14 ∨ k = 15 ∨ 19 ≤ k → t.status.getLsbD k = false) ∧
    (t.flags.valid = true → i.opc.toNat ∈ [0x01, 0x02, 0x04]) ∧
    (t.flags.corr = true → i.opc.toNat ∈ [0x02, 0x04]) ∧
    (t.flags.uncorr = true → i.opc.toNat ∈ [0x02, 0x04]) ∧
    (t.flags.sign = true → i.opc.toNat ∈ [0x05, 0x06, 0x07]) ∧
    (t.flags.cls ≠ 0#3 → i.opc.toNat ∈ [0x05, 0x06, 0x07]) ∧
    (t.flags.ovf = true → i.opc.toNat ∈ [0x08, 0x0A, 0x0B]) ∧
    (t.flags.cout = true → i.opc.toNat ∈ [0x0A, 0x0B]) ∧
    ∀ w : Word, exec i { s with status := w } = .next t

/-- R32, R33, R40, R80: a result that the operation's rule does not name is written empty or 0, and the table past PICNT
reads 0. -/
def Obligations.ResultsOfEachOperation : Prop :=
  ∀ (i : Instr) (s t : State), s.inv = true → exec i s = .next t →
    (t.ra.len ≠ 0 → i.opc.toNat ∉ [0x0E, 0x0F]) ∧
    (t.rb.len ≠ 0 → i.opc.toNat ∈ [0x01, 0x02, 0x03, 0x04, 0x05, 0x06, 0x07, 0x0A, 0x0B]) ∧
    (t.rc.len ≠ 0 → i.opc.toNat ∈ [0x02, 0x04]) ∧
    (t.kmTt ≠ 0#32 → i.opc.toNat = 0x0E) ∧
    (t.picnt ≠ 0#32 → i.opc.toNat ∈ [0x0F, 0x10]) ∧
    (t.aux0 ≠ 0#32 → i.opc.toNat ∈ [0x01, 0x02, 0x03, 0x04, 0x05, 0x06, 0x07, 0x0C, 0x0E, 0x0F, 0x10]) ∧
    (t.aux1 ≠ 0#32 → i.opc.toNat ∈ [0x01, 0x02, 0x03, 0x04, 0x05, 0x0C, 0x10]) ∧
    t.picnt.toNat ≤ s.cfg.pimax ∧
    (∀ k, t.picnt.toNat ≤ k → t.piEntry k = ⟨0#32, 0#32⟩) ∧
    (∀ k, i.opc.toNat = 0x0F → (t.piEntry k).info = 0#32) ∧
    ∀ k, (t.piEntry k).info &&& ~~~0x0000FF03#32 = 0#32

/-- R252: a command that ends with a non-zero code leaves that code, `DONE`, and every result cleared. The codes are the
numbers of R29, and no other is ever written. -/
def Obligations.ErrorCompletionClears : Prop :=
  ([Err.illegalCmd, .empty, .char, .format, .width, .genMsb, .range, .internal, .capacity].map (fun e => e.code.toNat)
    = [1, 2, 3, 4, 5, 6, 7, 8, 9]) ∧
  ∀ s t : State, s.busy = true → engineTurn s = .next t → t.err ≠ 0#4 →
    (∃ e : Err, t.err = e.code) ∧
    Untouched s t ∧ Shows s t t.err {} ∧ t.status = 0x2#32 + 0x10#32 * t.err.setWidth 32 ∧
    ∀ k, t.piEntry k = ⟨0#32, 0#32⟩

/-- R173, R194, R197, R255: the three E_INTERNAL exits are never taken, and so every step keeps STATUS free of code 8. -/
def Obligations.NoInternalError : Prop :=
  (∀ s t : State, s.busy = true → engineTurn s = .next t → t.err ≠ 8#4) ∧
  ∀ s t : State, s.err ≠ 8#4 → step s = .next t → t.err ≠ 8#4

/-- R12, R13, R40, R277: the results are a function of the command and of the operands; no result register and no flag is
read. The counter of the free values (log entry 3) matters only under the parameter values `any`. -/
def Obligations.ResultsAreFunction : Prop :=
  ∀ (i : Instr) (s s' t t' : State), s.inv = true → s'.inv = true → s.cfg = s'.cfg →
    s.opa.content = s'.opa.content → s.opb.content = s'.opb.content → s.kmOn = s'.kmOn → s.kmDc = s'.kmDc →
    (s.freeCount = s'.freeCount ∨ (s.cfg.crcFixOrder = .leftmostFirst ∧ s.cfg.kmGreedyTie = .lowestIndex)) →
    exec i s = .next t → exec i s' = .next t' → SameResults t t'

/-- R81, R224, R230: an operand that the operation does not use is not looked at. -/
def Obligations.UnusedOperandsNotRead : Prop :=
  ∀ (i : Instr) (s t : State), exec i s = .next t →
    (∀ b, i.opc.toNat ∉ [0x01, 0x02, 0x07, 0x0A, 0x0B] → exec i { s with opb := b } = .next { t with opb := b }) ∧
    (∀ b, i.opc.toNat ∈ [0x0F, 0x10] → exec i { s with opa := b } = .next { t with opa := b }) ∧
    ∀ x y, i.opc.toNat ∉ [0x0F, 0x10] →
      exec i { s with kmOn := x, kmDc := y } = .next { t with kmOn := x, kmDc := y }

/-- R41, R271: the state after reset. The last two clauses say for every operation that reads OPA, and for every one that
reads OPB, that a buffer whose LEN covers a cell that no host wrote gets E_CHAR. An operation that accepts its OPA `a` and
reads OPB is one that ends with E_EMPTY while OPB is as reset left it. -/
def Obligations.ResetValues : Prop :=
  (∀ n, State.reset.register n = 0#32) ∧
  (∀ b, (State.reset.buffer b).len = 0 ∧ ∀ k, (State.reset.buffer b).cell k = 0x00#8) ∧
  State.reset.busy = false ∧ State.reset.done = false ∧ State.reset.err = 0#4 ∧ State.reset.flags = {} ∧
  (∀ (i : Instr) (a b : Buffer), i.opc.toNat ∉ [0x0F, 0x10] → (∃ k, k < a.len ∧ a.cell k = State.reset.opa.cell k) →
    FailsWith i { State.reset with opa := a, opb := b } .char) ∧
  ∀ (i : Instr) (a b : Buffer), clean a.content ≠ [] → FailsWith i { State.reset with opa := a } .empty →
    (∃ k, k < b.len ∧ b.cell k = State.reset.opb.cell k) →
    FailsWith i { State.reset with opa := a, opb := b } .char

/-- The invariant (State.inv of Safety.lean) holds at reset. -/
def Obligations.ResetInv : Prop := State.reset.inv = true

/-- Every step of either agent keeps the invariant. -/
def Obligations.StepKeepsInv : Prop := ∀ s t : State, s.inv = true → step s = .next t → t.inv = true

/-! ## The host (20_memory.md, 30_encoding.md R86, 70_reset_and_hazards.md) -/

/-- R52: the table of the host's actions: a permitted action has the effect of its row and no other; any other action gets
no step. The first clauses say which state each register number of R23 and each buffer name of R24 stands for. -/
def Obligations.HostActionTable : Prop :=
  (∀ s : State, s.register 0 = s.cmd ∧ s.register 1 = s.status ∧ s.register 2 = s.aux0 ∧ s.register 3 = s.aux1 ∧
    s.register 4 = s.kmOn ∧ s.register 5 = s.kmDc ∧ s.register 6 = s.kmTt ∧ s.register 7 = s.picnt ∧
    (∀ i e, s.piTable[i]? = some e →
      s.register (8 + 2 * i) = e.cells ∧ s.register (9 + 2 * i) = e.info ∧ s.piEntry i = e) ∧
    ∀ i, s.piTable.length ≤ i →
      s.register (8 + 2 * i) = 0#32 ∧ s.register (9 + 2 * i) = 0#32 ∧ s.piEntry i = ⟨0#32, 0#32⟩) ∧
  (∀ s : State, s.buffer .opa = s.opa ∧ s.buffer .opb = s.opb ∧ s.buffer .ra = s.ra ∧ s.buffer .rb = s.rb ∧
    s.buffer .rc = s.rc ∧
    ∀ b, s.setBuffer .opa b = { s with opa := b } ∧ s.setBuffer .opb b = { s with opb := b }) ∧
  ∀ (s : State) (a : HostAction), s.inv = true →
    (HostMay s a → ∃ t, s.hostAct a = .next t ∧ HostDoes s t a) ∧
    (¬HostMay s a → ∀ t, s.hostAct a ≠ .next t)

/-- R57, R59, R274: whatever the host does while a command is pending, the engine finds CMD, the operands and every result
as they were; only the values read are recorded. -/
def Obligations.BusyProtectsOperands : Prop :=
  ∀ (s t : State) (acts : List HostAction) (rest : List Event), s.busy = true →
    Host.Core.run core acts.length { s with schedule := acts.map .host ++ rest } = .next t →
    t = { s with schedule := rest, replies := t.replies }

/-- R23, R259, R272: only a host write of CMD sets BUSY, and no host action writes a result register. -/
def Obligations.OnlyCommandWriteStarts : Prop :=
  (∀ s t : State, step s = .next t → s.busy = false → t.busy = true →
    ∃ v rest, s.schedule = .host (.writeReg 0 v) :: rest) ∧
  ∀ (s t : State) (a : HostAction), s.hostAct a = .next t →
    t.err = s.err ∧ t.flags = s.flags ∧ t.aux0 = s.aux0 ∧ t.aux1 = s.aux1 ∧ t.kmTt = s.kmTt ∧ t.picnt = s.picnt ∧
    t.piTable = s.piTable ∧ t.ra = s.ra ∧ t.rb = s.rb ∧ t.rc = s.rc ∧ t.cfg = s.cfg

/-- R53: a text written cell by cell, in any order, and then its length, is the content of the buffer; nothing else
changes. That SET (R86) writes the cells in ascending order is the model's choice among those orders (log entry 8); SETR
(R86) is HostWriteReg. -/
def Obligations.WriteTextAnyOrder : Prop :=
  (∀ (s : State) (b : BufName) (txt : Text) (acts : List HostAction) (rest : List Event),
    s.inv = true → s.busy = false → (b = .opa ∨ b = .opb) → txt.length ≤ s.cfg.bufmax →
    acts.Perm (txt.zipIdx.map (fun x => HostAction.writeCell b x.2 x.1)) →
    ∃ t, Host.Core.run core (txt.length + 1)
        { s with schedule := (acts ++ [HostAction.writeLen b txt.length]).map .host ++ rest } = .next t ∧
      (t.buffer b).content = txt ∧
      (∀ i, txt.length ≤ i → (t.buffer b).cell i = (s.buffer b).cell i) ∧
      t = { s.setBuffer b (t.buffer b) with schedule := rest }) ∧
  (∀ (s : State) (b : BufName) (txt : Text), (Stmt.set b txt).events s =
    ((txt.zipIdx.map (fun x => HostAction.writeCell b x.2 x.1) ++ [HostAction.writeLen b txt.length]).map
      Event.host : List Event)) ∧
  ∀ (s : State) (n : Nat) (v : Word), (Stmt.setr n v).events s = [.host (.writeReg n v)]

/-- R86, R280, R284: RUN ends: after its polls have read `BUSY = 1` and the engine has taken its turn, the last poll reads
`BUSY = 0`, and the state is the one the command leaves. -/
def Obligations.RunCompletes : Prop :=
  ∀ (s : State) (word : Word) (polls : Nat) (rest : List Event), s.inv = true → s.busy = false →
    ∃ u t, engineTurn (s.startCommand word) = .next u ∧
      Host.Core.run core (polls + 3) { s with schedule := (Stmt.run word polls).events s ++ rest } = .next t ∧
      t = { u with
            schedule := rest
            replies := .reg u.status :: List.replicate polls (.reg (s.startCommand word).status) ++ s.replies } ∧
      (s.startCommand word).busy = true ∧ u.busy = false ∧ u.done = true ∧ u.cmd = word ∧ u.opa = s.opa ∧
      u.opb = s.opb ∧ u.kmOn = s.kmOn ∧ u.kmDc = s.kmDc

/-! ## Operand formats (30_encoding.md R75 to R79, 45_gray.md R210, 43_crc.md R170) -/

/-- R75: cleaning deletes every space and nothing else, and every operand of every operation is cleaned. -/
def Obligations.CleaningDeletesSpaces : Prop :=
  (∀ a b : Text, clean (a ++ 0x20#8 :: b) = clean (a ++ b)) ∧
  (∀ t : Text, 0x20#8 ∉ t → clean t = t) ∧
  ∀ (i : Instr) (s s' t t' : State), s.inv = true → s'.inv = true → s.cfg = s'.cfg →
    clean s.opa.content = clean s'.opa.content → clean s.opb.content = clean s'.opb.content →
    s.kmOn = s'.kmOn → s.kmDc = s'.kmDc → s.freeCount = s'.freeCount →
    exec i s = .next t → exec i s' = .next t' → SameResults t t'

/-- R76: format BITS, with and without an exact length; the first clauses give the characters a result bit string is
written with (R74) and the value of a bit string, the first bit the most significant (R6). -/
def Obligations.BitsFormat : Prop :=
  (∀ b : Bits, bitsText b = b.map (fun x => if x then 0x31#8 else 0x30#8)) ∧
  (∀ b : Bits, bitsVal b = Nat.ofDigits 2 (b.map (fun x => if x then 1 else 0)).reverse) ∧
  ∀ (content : Text) (L : Nat),
    (clean content = [] → bitsOperand content = .error .empty ∧ bitsOperandOf L content = .error .empty) ∧
    ((∃ c ∈ clean content, c ≠ 0x30#8 ∧ c ≠ 0x31#8) →
      bitsOperand content = .error .char ∧ bitsOperandOf L content = .error .char) ∧
    (clean content ≠ [] → (∀ c ∈ clean content, c = 0x30#8 ∨ c = 0x31#8) →
      ∃ b : Bits, bitsOperand content = .ok b ∧ b.length = (clean content).length ∧
        (∀ (i : Nat) (c : Byte), (clean content)[i]? = some c → (b[i]? = some true ↔ c = 0x31#8)) ∧
        ((clean content).length = L → bitsOperandOf L content = .ok b) ∧
        ((clean content).length ≠ L → bitsOperandOf L content = .error .width))

/-- R77: format HEX of `L` digits; each digit is a value below 16 with its case. -/
def Obligations.HexFormat : Prop :=
  ∀ (content : Text) (L : Nat),
    (clean content = [] → hexOperandOf L content = .error .empty) ∧
    ((∃ c ∈ clean content, ¬(0x30 ≤ c.toNat ∧ c.toNat ≤ 0x39) ∧ ¬(0x41 ≤ c.toNat ∧ c.toNat ≤ 0x46) ∧
        ¬(0x61 ≤ c.toNat ∧ c.toNat ≤ 0x66)) → hexOperandOf L content = .error .char) ∧
    ∀ ds : List (Nat × Bool), ds ≠ [] → (∀ d ∈ ds, d.1 < 16) →
      clean content = ds.map (fun d => BitVec.ofNat 8
        (if d.1 < 10 then 0x30 + d.1 else if d.2 then 0x37 + d.1 else 0x57 + d.1)) →
      (ds.length ≠ L → hexOperandOf L content = .error .width) ∧
      (ds.length = L → ∃ b, hexOperandOf L content = .ok b ∧ b.length = 4 * L ∧
        bitsVal b = Nat.ofDigits 16 (ds.map (fun d => d.1)).reverse)

/-- R78: format DECINT; the grammar is an optional `-` and at least one digit. -/
def Obligations.DecIntFormat : Prop :=
  ∀ content : Text,
    (clean content = [] → decIntOperand content = .error .empty) ∧
    ((∃ c ∈ clean content, ¬(0x30 ≤ c.toNat ∧ c.toNat ≤ 0x39) ∧ c ≠ 0x2D#8) →
      decIntOperand content = .error .char) ∧
    (∀ (neg : Bool) (ds : List Nat), ds ≠ [] → (∀ d ∈ ds, d < 10) →
      clean content = (if neg then [0x2D#8] else []) ++ ds.map (fun d => BitVec.ofNat 8 (0x30 + d)) →
      decIntOperand content =
        .ok (if neg then -(Nat.ofDigits 10 ds.reverse : Int) else (Nat.ofDigits 10 ds.reverse : Int))) ∧
    (clean content ≠ [] → (∀ c ∈ clean content, (0x30 ≤ c.toNat ∧ c.toNat ≤ 0x39) ∨ c = 0x2D#8) →
      (¬∃ (neg : Bool) (ds : List Nat), ds ≠ [] ∧ (∀ d ∈ ds, d < 10) ∧
        clean content = (if neg then [0x2D#8] else []) ++ ds.map (fun d => BitVec.ofNat 8 (0x30 + d))) →
      decIntOperand content = .error .format)

/-- R79: format DECREAL; the grammar is an optional `-`, at least one digit, and optionally a point and at least one
digit. -/
def Obligations.DecRealFormat : Prop :=
  ∀ content : Text,
    (clean content = [] → decRealOperand content = .error .empty) ∧
    ((∃ c ∈ clean content, ¬(0x30 ≤ c.toNat ∧ c.toNat ≤ 0x39) ∧ c ≠ 0x2D#8 ∧ c ≠ 0x2E#8) →
      decRealOperand content = .error .char) ∧
    (∀ (neg : Bool) (whole frac : List Nat), whole ≠ [] → (∀ d ∈ whole ++ frac, d < 10) →
      clean content = (if neg then [0x2D#8] else []) ++ whole.map (fun d => BitVec.ofNat 8 (0x30 + d)) ++
        (if frac = [] then [] else 0x2E#8 :: frac.map (fun d => BitVec.ofNat 8 (0x30 + d))) →
      decRealOperand content = .ok ⟨neg, Nat.ofDigits 10 (whole ++ frac).reverse, frac.length⟩) ∧
    (clean content ≠ [] →
      (∀ c ∈ clean content, (0x30 ≤ c.toNat ∧ c.toNat ≤ 0x39) ∨ c = 0x2D#8 ∨ c = 0x2E#8) →
      (¬∃ (neg : Bool) (whole frac : List Nat), whole ≠ [] ∧ (∀ d ∈ whole ++ frac, d < 10) ∧
        clean content = (if neg then [0x2D#8] else []) ++ whole.map (fun d => BitVec.ofNat 8 (0x30 + d)) ++
          (if frac = [] then [] else 0x2E#8 :: frac.map (fun d => BitVec.ofNat 8 (0x30 + d)))) →
      decRealOperand content = .error .format)

/-- R210: the operand of GRAY.ENC: bits as they stand, or a decimal number in the least width that holds it. -/
def Obligations.GrayOperandFormat : Prop :=
  ∀ content : Text,
    (clean content = [] → grayOperand content = .error .empty) ∧
    ((∃ c ∈ clean content, ¬(0x30 ≤ c.toNat ∧ c.toNat ≤ 0x39)) → grayOperand content = .error .char) ∧
    ∀ ds : List Nat, ds ≠ [] → (∀ d ∈ ds, d < 10) → clean content = ds.map (fun d => BitVec.ofNat 8 (0x30 + d)) →
      ((∀ d ∈ ds, d < 2) → grayOperand content = .ok (false, ds.map (fun d => d == 1))) ∧
      ((∃ d ∈ ds, 2 ≤ d) → ∃ B, grayOperand content = .ok (true, B) ∧ B.head? = some true ∧
        bitsVal B = Nat.ofDigits 10 ds.reverse)

/-- R170: the operand checks of both CRC operations, in order. -/
def Obligations.CrcOperandChecks : Prop :=
  (∀ opa opb : Text,
    (∀ e, bitsOperand opa = .error e → crcOperands opa opb = .error e) ∧
    ∀ M, bitsOperand opa = .ok M →
      (∀ e, bitsOperand opb = .error e → crcOperands opa opb = .error e) ∧
      ∀ G, bitsOperand opb = .ok G →
        (G.length < 2 → crcOperands opa opb = .error .range) ∧
        (2 ≤ G.length → G.head? = some false → crcOperands opa opb = .error .genMsb) ∧
        (2 ≤ G.length → G.head? = some true → crcOperands opa opb = .ok (M, G))) ∧
  ∀ (s : State) (fix : Bool) (e : Err), crcOperands s.opa.content s.opb.content = .error e →
    FailsWith .crcEnc s e ∧ FailsWith (.crcDec fix) s e

/-! ## CRC (43_crc.md) -/

/-- R7, R171: the division clears the first `k` positions and leaves the remainder of the polynomial division over
GF(2). -/
def Obligations.CrcRemainderIsPolynomialRemainder : Prop :=
  (∀ n, zeroBits n = List.replicate n false) ∧
  ∀ (W G : Bits) (k : Nat), G.head? = some true → W.length = k + (G.length - 1) →
    (crcRem W G k).length = G.length - 1 ∧ (gf2Div G k W).take k = zeroBits k ∧
    bitsPoly (crcRem W G k) = bitsPoly W %ₘ bitsPoly G

/-- R172, R173: CRC.ENC appends the remainder, and the codeword it delivers divides with remainder 0. -/
def Obligations.CrcEncRule : Prop :=
  encode .crcEnc = 0x00000001#32 ∧
  ∀ s : State, s.inv = true →
    (∀ e, crcOperands s.opa.content s.opb.content = .error e → FailsWith .crcEnc s e) ∧
    ∀ M G, crcOperands s.opa.content s.opb.content = .ok (M, G) →
      ∃ remainder, remainder = crcRem (M ++ zeroBits (G.length - 1)) G M.length ∧
        crcRem (M ++ remainder) G M.length = zeroBits (G.length - 1) ∧
        (M.length + (G.length - 1) ≤ s.cfg.bufmax →
          Completes .crcEnc s { ra := bitsText (M ++ remainder), rb := bitsText remainder,
                                aux0 := BitVec.ofNat 32 M.length, aux1 := BitVec.ofNat 32 (G.length - 1),
                                flags := { valid := true } }) ∧
        (s.cfg.bufmax < M.length + (G.length - 1) → FailsWith .crcEnc s .capacity)

/-- R175, R176: CRC.DEC, with its four outcomes; a position that CORR reports is one whose flip zeroes the syndrome, and the
least one under `leftmost_first`. -/
def Obligations.CrcDecRule : Prop :=
  encode (.crcDec false) = 0x00000002#32 ∧ encode (.crcDec true) = 0x00000102#32 ∧
  (∀ (b : Bits) (p j : Nat), (flipBit b p)[j]? = if j = p then b[j]?.map (fun x => !x) else b[j]?) ∧
  ∀ (s : State) (fix : Bool), s.inv = true →
    (∀ e, crcOperands s.opa.content s.opb.content = .error e → FailsWith (.crcDec fix) s e) ∧
    ∀ R G, crcOperands s.opa.content s.opb.content = .ok (R, G) →
      (R.length < G.length → FailsWith (.crcDec fix) s .range) ∧
      ∀ k, 1 ≤ k → R.length = k + (G.length - 1) →
        (crcRem R G k = zeroBits (G.length - 1) →
          Completes (.crcDec fix) s { ra := bitsText (R.take k), rb := bitsText (crcRem R G k),
                                      aux1 := BitVec.ofNat 32 k, flags := { valid := true } }) ∧
        (crcRem R G k ≠ zeroBits (G.length - 1) → fix = false →
          Completes (.crcDec fix) s { ra := bitsText (R.take k), rb := bitsText (crcRem R G k),
                                      aux1 := BitVec.ofNat 32 k }) ∧
        (crcRem R G k ≠ zeroBits (G.length - 1) → fix = true →
          (∀ p, p < R.length → crcRem (flipBit R p) G k ≠ zeroBits (G.length - 1)) →
          Completes (.crcDec fix) s { ra := bitsText (R.take k), rb := bitsText (crcRem R G k),
                                      aux1 := BitVec.ofNat 32 k, flags := { uncorr := true } }) ∧
        (crcRem R G k ≠ zeroBits (G.length - 1) → fix = true →
          ∀ q, q < R.length → crcRem (flipBit R q) G k = zeroBits (G.length - 1) →
          ∃ p, p < R.length ∧ crcRem (flipBit R p) G k = zeroBits (G.length - 1) ∧
            (s.cfg.crcFixOrder = .leftmostFirst → p ≤ q) ∧
            Completes (.crcDec fix) s { ra := bitsText ((flipBit R p).take k), rb := bitsText (crcRem R G k),
                                        rc := bitsText (flipBit R p), aux0 := BitVec.ofNat 32 p,
                                        aux1 := BitVec.ofNat 32 k, flags := { corr := true } })

/-- R177 (a): decoding what CRC.ENC delivered reports valid and gives the message back. -/
def Obligations.CrcRoundTrip : Prop :=
  ∀ (s u : State) (fix : Bool) (M G : Bits), s.inv = true → u.inv = true →
    crcOperands s.opa.content s.opb.content = .ok (M, G) → M.length + (G.length - 1) ≤ s.cfg.bufmax →
    ∃ t, exec .crcEnc s = .next t ∧ t.err = 0#4 ∧
      (u.opa.content = t.ra.content → u.opb.content = s.opb.content →
        ∃ v, exec (.crcDec fix) u = .next v ∧ v.err = 0#4 ∧ v.flags = { valid := true } ∧
          v.ra.content = bitsText M ∧ v.rc.len = 0)

/-- R176, R177 (b): one flipped bit of a valid codeword is found and corrected, whatever CRC_FIX_ORDER is, where its
single-bit syndrome is not zero and is no other position's. R177 asks for pairwise distinct syndromes; one position may then
have the zero syndrome, and its flip leaves a valid word, which CRC.DEC reports as such. -/
def Obligations.CrcSingleErrorFixed : Prop :=
  ∀ (s : State) (C G : Bits) (k p : Nat) (syn : Nat → Bits), s.inv = true →
    crcOperands s.opa.content s.opb.content = .ok (flipBit C p, G) → 1 ≤ k → C.length = k + (G.length - 1) →
    p < C.length → crcRem C G k = zeroBits (G.length - 1) →
    (∀ a, a < C.length → syn a = crcRem (flipBit (zeroBits C.length) a) G k) →
    (syn p ≠ zeroBits (G.length - 1) → (∀ a, a < C.length → syn a = syn p → a = p) →
      Completes (.crcDec true) s { ra := bitsText (C.take k), rb := bitsText (syn p), rc := bitsText C,
                                   aux0 := BitVec.ofNat 32 p, aux1 := BitVec.ofNat 32 k,
                                   flags := { corr := true } }) ∧
    (syn p = zeroBits (G.length - 1) →
      Completes (.crcDec true) s { ra := bitsText ((flipBit C p).take k), rb := bitsText (syn p),
                                   aux1 := BitVec.ofNat 32 k, flags := { valid := true } })

/-! ## Hamming (44_hamming.md) -/

/-- R190 to R193: HAM.ENC delivers the one word of `k + p` bits, `p` least, whose data positions hold the data and all of
whose rows have even parity; RB marks the powers of two. -/
def Obligations.HamEncRule : Prop :=
  encode .hamEnc = 0x00000003#32 ∧
  ∀ s : State, s.inv = true →
    (∀ e, bitsOperand s.opa.content = .error e → FailsWith .hamEnc s e) ∧
    ∀ D, bitsOperand s.opa.content = .ok D →
      ∀ p, 1 ≤ p → D.length + p + 1 ≤ 2 ^ p → (∀ q, 1 ≤ q → D.length + q + 1 ≤ 2 ^ q → p ≤ q) →
      ∃ c mask : Bits,
        c.length = D.length + p ∧ dataBits c = D ∧ (∀ e, e < p → oddParity c (2 ^ e) = false) ∧
        mask.length = D.length + p ∧ (∀ i, mask[i]? = some true ↔ i < D.length + p ∧ ∃ e, i + 1 = 2 ^ e) ∧
        (D.length + p ≤ s.cfg.bufmax →
          Completes .hamEnc s { ra := bitsText c, rb := bitsText mask, aux0 := BitVec.ofNat 32 p,
                                aux1 := BitVec.ofNat 32 (D.length + p) }) ∧
        (s.cfg.bufmax < D.length + p → FailsWith .hamEnc s .capacity)

/-- R192, R196: HAM.DEC, with its three outcomes; `p` is the number of powers of two up to the length. -/
def Obligations.HamDecRule : Prop :=
  encode .hamDec = 0x00000004#32 ∧
  ∀ s : State, s.inv = true →
    (∀ e, bitsOperand s.opa.content = .error e → FailsWith .hamDec s e) ∧
    ∀ C, bitsOperand s.opa.content = .ok C →
      (C.length ≤ 2 → FailsWith .hamDec s .range) ∧
      (3 ≤ C.length → ∀ (p : Nat) (syn : Bits), 2 ^ (p - 1) ≤ C.length → C.length < 2 ^ p →
        syn = (List.range p).map (fun r => oddParity C (2 ^ (p - 1 - r))) →
        (bitsVal syn = 0 →
          Completes .hamDec s { ra := bitsText (dataBits C), rb := bitsText syn, aux1 := BitVec.ofNat 32 p,
                                flags := { valid := true } }) ∧
        (∀ S, bitsVal syn = S → S ≠ 0 → S ≤ C.length →
          Completes .hamDec s { ra := bitsText (dataBits (flipBit C (S - 1))), rb := bitsText syn,
                                rc := bitsText (flipBit C (S - 1)), aux0 := BitVec.ofNat 32 S,
                                aux1 := BitVec.ofNat 32 p, flags := { corr := true } }) ∧
        (∀ S, bitsVal syn = S → C.length < S →
          Completes .hamDec s { ra := bitsText (dataBits C), rb := bitsText syn, aux0 := BitVec.ofNat 32 S,
                                aux1 := BitVec.ofNat 32 p, flags := { uncorr := true } }))

/-- R198: what HAM.ENC delivers decodes with an all-zero syndrome and status ok to the data, and with any one bit flipped
to status corrected, the same data and the same codeword. -/
def Obligations.HamSingleErrorCorrected : Prop :=
  ∀ (s t u : State) (D : Bits), s.inv = true → u.inv = true → bitsOperand s.opa.content = .ok D →
    exec .hamEnc s = .next t → t.err = 0#4 →
    (u.opa.content = t.ra.content →
      ∃ v, exec .hamDec u = .next v ∧ v.err = 0#4 ∧ v.flags = { valid := true } ∧
        (∀ c ∈ v.rb.content, c = 0x30#8) ∧ v.ra.content = bitsText D) ∧
    ∀ j, j < t.ra.len → u.opa.content = t.ra.content.modify j (fun c => if c = 0x30#8 then 0x31#8 else 0x30#8) →
      ∃ v, exec .hamDec u = .next v ∧ v.err = 0#4 ∧ v.flags = { corr := true } ∧ v.ra.content = bitsText D ∧
        v.rc.content = t.ra.content ∧ v.aux0 = BitVec.ofNat 32 (j + 1)

/-! ## Gray code (45_gray.md) -/

/-- R211: GRAY.ENC. -/
def Obligations.GrayEncRule : Prop :=
  encode .grayEnc = 0x0000000C#32 ∧
  ∀ s : State, s.inv = true →
    (∀ e, grayOperand s.opa.content = .error e → FailsWith .grayEnc s e) ∧
    ∀ (isDec : Bool) (B : Bits), grayOperand s.opa.content = .ok (isDec, B) →
      (B.length ≤ s.cfg.bufmax → ∃ G : Bits, G.length = B.length ∧ G[0]? = B[0]? ∧
        (∀ i x y, B[i]? = some x → B[i + 1]? = some y → G[i + 1]? = some (y ^^ x)) ∧
        Completes .grayEnc s { ra := bitsText G, aux0 := if isDec then 1#32 else 0#32,
                               aux1 := BitVec.ofNat 32 B.length }) ∧
      (s.cfg.bufmax < B.length → FailsWith .grayEnc s .capacity)

/-- R212: GRAY.DEC. -/
def Obligations.GrayDecRule : Prop :=
  encode .grayDec = 0x0000000D#32 ∧
  ∀ s : State, s.inv = true →
    (∀ e, bitsOperand s.opa.content = .error e → FailsWith .grayDec s e) ∧
    ∀ G, bitsOperand s.opa.content = .ok G →
      ∃ B : Bits, B.length = G.length ∧ B[0]? = G[0]? ∧
        (∀ i x y, B[i]? = some x → G[i + 1]? = some y → B[i + 1]? = some (y ^^ x)) ∧
        Completes .grayDec s { ra := bitsText B }

/-- R213: GRAY.DEC inverts GRAY.ENC, neighbours differ in one bit, and the code as an integer. -/
def Obligations.GrayLaws : Prop :=
  (∀ B : Bits, bitsOfGray false (grayOfBits B) = B) ∧
  (∀ n i : Nat, 1 ≤ n → i < 2 ^ n →
    (List.zipWith (fun x y => x ^^ y) (grayOfBits (binBits n i)) (grayOfBits (binBits n ((i + 1) % 2 ^ n)))).count true
      = 1) ∧
  (∀ B : Bits, bitsVal (grayOfBits B) = bitsVal B ^^^ bitsVal B >>> 1) ∧
  (List.range 8).map (fun i => bitsVal (grayOfBits (binBits 3 i))) = [0, 1, 3, 2, 6, 7, 5, 4]

/-! ## Two's complement (40_twos_complement.md) -/

/-- R112: TC.ENC delivers the value modulo `2^w` and flags a value outside the range. -/
def Obligations.TcEncRule : Prop :=
  ∀ (s : State) (w : BitVec 8), s.inv = true → (Instr.tcEnc w).wf s.cfg.tcwMax = true →
    (encode (.tcEnc w)).toNat = 0x08 + 0x100 * w.toNat ∧
    (∀ e, decIntOperand s.opa.content = .error e → FailsWith (.tcEnc w) s e) ∧
    ∀ v, decIntOperand s.opa.content = .ok v →
      ∃ (b : Bits) (ovf : Bool), b.length = w.toNat ∧ (bitsVal b : Int) = v % 2 ^ w.toNat ∧
        (ovf = true ↔ outOfRange w.toNat v) ∧ Completes (.tcEnc w) s { ra := bitsText b, flags := { ovf := ovf } }

/-- R113: TC.DEC delivers the decimal text of the signed value. -/
def Obligations.TcDecRule : Prop :=
  ∀ (s : State) (w : BitVec 8), s.inv = true → (Instr.tcDec w).wf s.cfg.tcwMax = true →
    (encode (.tcDec w)).toNat = 0x09 + 0x100 * w.toNat ∧
    (∀ e, bitsOperandOf w.toNat s.opa.content = .error e → FailsWith (.tcDec w) s e) ∧
    ∀ b, bitsOperandOf w.toNat s.opa.content = .ok b →
      ∃ text, IsDecText (tcValue w.toNat b) text ∧ Completes (.tcDec w) s { ra := text }

/-- R115: TC.ADD: the sum modulo `2^w`, the carry out of every bit, COUT and OVF, each as arithmetic on the values. -/
def Obligations.TcAddRule : Prop :=
  ∀ (s : State) (w : BitVec 8), s.inv = true → (Instr.tcAdd w).wf s.cfg.tcwMax = true →
    (encode (.tcAdd w)).toNat = 0x0A + 0x100 * w.toNat ∧
    (∀ e, bitsOperandOf w.toNat s.opa.content = .error e → FailsWith (.tcAdd w) s e) ∧
    ∀ a, bitsOperandOf w.toNat s.opa.content = .ok a →
      (∀ e, bitsOperandOf w.toNat s.opb.content = .error e → FailsWith (.tcAdd w) s e) ∧
      ∀ b, bitsOperandOf w.toNat s.opb.content = .ok b →
        ∃ (sum carries : Bits) (cout ovf : Bool), sum.length = w.toNat ∧ carries.length = w.toNat ∧
          bitsVal sum = (bitsVal a + bitsVal b) % 2 ^ w.toNat ∧
          (∀ k, k < w.toNat →
            (carries[k]? = some true ↔ 2 ^ (w.toNat - k) ≤ bitsVal (a.drop k) + bitsVal (b.drop k))) ∧
          (cout = true ↔ 2 ^ w.toNat ≤ bitsVal a + bitsVal b) ∧
          (ovf = true ↔ outOfRange w.toNat (tcValue w.toNat a + tcValue w.toNat b)) ∧
          sum = tcEncBits (tcValue w.toNat a + tcValue w.toNat b) w.toNat ∧
          Completes (.tcAdd w) s { ra := bitsText sum, rb := bitsText carries, flags := { cout := cout, ovf := ovf } }

/-- R116: TC.SUB: the difference modulo `2^w`, the borrow out of every bit, COUT and OVF, each as arithmetic on the
values. -/
def Obligations.TcSubRule : Prop :=
  ∀ (s : State) (w : BitVec 8), s.inv = true → (Instr.tcSub w).wf s.cfg.tcwMax = true →
    (encode (.tcSub w)).toNat = 0x0B + 0x100 * w.toNat ∧
    (∀ e, bitsOperandOf w.toNat s.opa.content = .error e → FailsWith (.tcSub w) s e) ∧
    ∀ a, bitsOperandOf w.toNat s.opa.content = .ok a →
      (∀ e, bitsOperandOf w.toNat s.opb.content = .error e → FailsWith (.tcSub w) s e) ∧
      ∀ b, bitsOperandOf w.toNat s.opb.content = .ok b →
        ∃ (diff borrows : Bits) (cout ovf : Bool), diff.length = w.toNat ∧ borrows.length = w.toNat ∧
          (bitsVal diff : Int) = ((bitsVal a : Int) - bitsVal b) % 2 ^ w.toNat ∧
          (∀ k, k < w.toNat → (borrows[k]? = some true ↔ bitsVal (a.drop k) < bitsVal (b.drop k))) ∧
          (cout = true ↔ bitsVal a < bitsVal b) ∧
          (ovf = true ↔ outOfRange w.toNat (tcValue w.toNat a - tcValue w.toNat b)) ∧
          diff = tcEncBits (tcValue w.toNat a - tcValue w.toNat b) w.toNat ∧
          Completes (.tcSub w) s { ra := bitsText diff, rb := bitsText borrows, flags := { cout := cout, ovf := ovf } }

/-- R110, R111: encoding and decoding are inverse on the range of the width and on the strings of the width. -/
def Obligations.TcRoundTrip : Prop :=
  (∀ (v : Int) (w : Nat), 1 ≤ w → -2 ^ (w - 1) ≤ v → v ≤ 2 ^ (w - 1) - 1 → tcDecVal (tcEncBits v w) = v) ∧
  (∀ b : Bits, 1 ≤ b.length → tcEncBits (tcDecVal b) b.length = b) ∧
  (∀ b : Bits, 1 ≤ b.length → tcDecVal b = tcValue b.length b ∧ ¬outOfRange b.length (tcDecVal b)) ∧
  (∀ (v : Int) (w : Nat), (tcEncBits v w).length = w ∧ (bitsVal (tcEncBits v w) : Int) = v % 2 ^ w) ∧
  tcDecVal [true] = -1

/-! ## IEEE-754 (41_ieee754_convert.md, 42_ieee754_add.md) -/

/-- R130, R131, R132: the fields of a pattern, its operand formats, its class, and the CLASS codes. -/
def Obligations.PatternFieldsAndClasses : Prop :=
  (∀ (prec : Precision) (sign : Bool) (E F : Bits), E.length = expWidth prec → F.length = manWidth prec →
    splitPattern prec (sign :: (E ++ F)) = ⟨sign, bitsVal E, bitsVal F⟩) ∧
  (expWidth .single = 8 ∧ manWidth .single = 23 ∧ expBias .single = 127) ∧
  (expWidth .double = 11 ∧ manWidth .double = 52 ∧ expBias .double = 1023) ∧
  (patternWidth .single = 32 ∧ expMax .single = 255 ∧ patternWidth .double = 64 ∧ expMax .double = 2047) ∧
  (∀ t, patternOperand .single .binary t = bitsOperandOf 32 t ∧ patternOperand .single .hex t = hexOperandOf 8 t) ∧
  (∀ t, patternOperand .double .binary t = bitsOperandOf 64 t ∧ patternOperand .double .hex t = hexOperandOf 16 t) ∧
  ∀ (prec : Precision) (x : FpFields),
    (fpClass prec x = .infinity ↔ x.exp = 2 ^ expWidth prec - 1 ∧ x.man = 0) ∧
    (fpClass prec x = .nan ↔ x.exp = 2 ^ expWidth prec - 1 ∧ x.man ≠ 0) ∧
    (fpClass prec x = .zero ↔ x.exp = 0 ∧ x.man = 0) ∧
    (fpClass prec x = .denormalized ↔ x.exp = 0 ∧ x.man ≠ 0) ∧
    (fpClass prec x = .normalized ↔ x.exp ≠ 0 ∧ x.exp ≠ 2 ^ expWidth prec - 1) ∧
    [FpClass.zero, .denormalized, .normalized, .infinity, .nan].map (fun c => c.code.toNat) = [1, 2, 3, 4, 5]

/-- R133, R134, R135: F754.DEC delivers the exact decimal expansion of the value, the pattern, the exponent field, the actual
exponent, the sign and the class; its word has PREC at ARG[0] and INTYPE at ARG[1] (R71, R72). -/
def Obligations.F754DecRule : Prop :=
  ∀ (s : State) (prec : Precision) (ty : InType), s.inv = true →
    (encode (.f754Dec prec ty)).toNat = 0x05 + (match prec with | .single => 0 | .double => 0x100) + (match ty with | .binary => 0 | .hex => 0x200) ∧
    (∀ e, patternOperand prec ty s.opa.content = .error e → FailsWith (.f754Dec prec ty) s e) ∧
    (∀ P, patternOperand prec ty s.opa.content = .ok P → P.length = patternWidth prec) ∧
    ∀ P x, patternOperand prec ty s.opa.content = .ok P → x = splitPattern prec P →
      ∃ (text : Text) (aux1 : Word),
        Completes (.f754Dec prec ty) s
          { ra := text, rb := bitsText P, aux0 := BitVec.ofNat 32 x.exp, aux1 := aux1,
            flags := { sign := x.sign, cls := (fpClass prec x).code } } ∧
        (fpClass prec x = .infinity ∨ fpClass prec x = .nan → text = [] ∧ aux1 = 0#32) ∧
        (fpClass prec x = .zero → text = (if x.sign then [0x2D#8, 0x30#8] else [0x30#8]) ∧ aux1 = 0#32) ∧
        (fpClass prec x = .denormalized → aux1 = BitVec.ofInt 32 (1 - expBias prec)) ∧
        (fpClass prec x = .normalized → aux1 = BitVec.ofInt 32 ((x.exp : Int) - expBias prec)) ∧
        (fpClass prec x = .denormalized ∨ fpClass prec x = .normalized →
          ∃ digits, text = (if x.sign then [0x2D#8] else []) ++ digits ∧ IsDecExpansion (magnitude prec x) digits)

/-- R136: F754.ENC: zero, the two refusals, and the truncated mantissa; its word has PREC at ARG[0] (R71, R72). -/
def Obligations.F754EncRule : Prop :=
  ∀ (s : State) (prec : Precision), s.inv = true →
    (encode (.f754Enc prec)).toNat = 0x06 + (match prec with | .single => 0 | .double => 0x100) ∧
    (∀ e, decRealOperand s.opa.content = .error e → FailsWith (.f754Enc prec) s e) ∧
    ∀ (v : DecReal) (x : ℚ), decRealOperand s.opa.content = .ok v → x = (v.num : ℚ) / 10 ^ v.scale →
      (x = 0 → DeliversPattern (.f754Enc prec) s prec ⟨v.neg, 0, 0⟩) ∧
      (∀ e : Int, (2 : ℚ) ^ e ≤ x → x < 2 ^ (e + 1) →
        ((expMax prec : Int) ≤ e + expBias prec → FailsWith (.f754Enc prec) s .range) ∧
        (e + expBias prec ≤ 0 → FailsWith (.f754Enc prec) s .range) ∧
        (0 < e + expBias prec → e + expBias prec < expMax prec →
          ∃ F : Nat, F < 2 ^ manWidth prec ∧
            (F : Int) = ⌊x / (2 : ℚ) ^ (e - manWidth prec)⌋ - 2 ^ manWidth prec ∧
            DeliversPattern (.f754Enc prec) s prec ⟨v.neg, (e + expBias prec).toNat, F⟩))

/-- R138, R139: encoding what F754.DEC delivered gives the pattern back for a normalized number and for a zero, is refused
for a denormalized one, and finds no text for an Infinity or a NaN (R133). -/
def Obligations.F754RoundTrip : Prop :=
  ∀ (s u : State) (prec : Precision) (ty : InType) (P : Bits), s.inv = true → u.inv = true →
    patternOperand prec ty s.opa.content = .ok P →
    ∃ t, exec (.f754Dec prec ty) s = .next t ∧ t.err = 0#4 ∧
      (u.opa.content = t.ra.content →
        (fpClass prec (splitPattern prec P) = .normalized ∨ fpClass prec (splitPattern prec P) = .zero →
          ∃ v, exec (.f754Enc prec) u = .next v ∧ v.err = 0#4 ∧ v.ra.content = bitsText P) ∧
        (fpClass prec (splitPattern prec P) = .denormalized → FailsWith (.f754Enc prec) u .range) ∧
        (fpClass prec (splitPattern prec P) = .infinity ∨ fpClass prec (splitPattern prec P) = .nan →
          FailsWith (.f754Enc prec) u .empty))

/-- R131, R151: F754.ADD checks OPA, then OPB, and delivers the pattern of `addFields`, which the next statements
describe; its word has PREC at ARG[0] and INTYPE at ARG[1] (R71, R72). -/
def Obligations.F754AddCompletes : Prop :=
  ∀ (s : State) (prec : Precision) (ty : InType), s.inv = true →
    (encode (.f754Add prec ty)).toNat = 0x07 + (match prec with | .single => 0 | .double => 0x100) + (match ty with | .binary => 0 | .hex => 0x200) ∧
    (∀ e, patternOperand prec ty s.opa.content = .error e → FailsWith (.f754Add prec ty) s e) ∧
    ∀ A, patternOperand prec ty s.opa.content = .ok A →
      (∀ e, patternOperand prec ty s.opb.content = .error e → FailsWith (.f754Add prec ty) s e) ∧
      ∀ B, patternOperand prec ty s.opb.content = .ok B →
        inFormat prec (addFields s.cfg prec (splitPattern prec A) (splitPattern prec B)) ∧
        DeliversPattern (.f754Add prec ty) s prec (addFields s.cfg prec (splitPattern prec A) (splitPattern prec B))

/-- R160: the sum does not depend on the order of the operands, for operands of every class. -/
def Obligations.F754AddCommutes : Prop :=
  (∀ (c : Config) (prec : Precision) (a b : FpFields), addFields c prec a b = addFields c prec b a) ∧
  ∀ (s s' t t' : State) (prec : Precision) (ty : InType) (A B : Bits), s.inv = true → s'.inv = true →
    s.cfg = s'.cfg → patternOperand prec ty s.opa.content = .ok A → patternOperand prec ty s.opb.content = .ok B →
    s'.opa.content = s.opb.content → s'.opb.content = s.opa.content →
    exec (.f754Add prec ty) s = .next t → exec (.f754Add prec ty) s' = .next t' → SameResults t t'

/-- R153: the special cases of the sum; the NaN result has the bits of the parameter F754_CANONICAL_NAN (R5). -/
def Obligations.F754AddSpecials : Prop :=
  ∀ (c : Config) (prec : Precision) (a b : FpFields), c.wf = true →
    fpClass prec (canonicalNan c prec) = .nan ∧ inFormat prec (canonicalNan c prec) ∧
    ((if (canonicalNan c .single).sign then 2 ^ 31 else 0) + (canonicalNan c .single).exp * 2 ^ 23 +
      (canonicalNan c .single).man = c.nanSingle.toNat) ∧
    ((if (canonicalNan c .double).sign then 2 ^ 63 else 0) + (canonicalNan c .double).exp * 2 ^ 52 +
      (canonicalNan c .double).man = c.nanDouble.toNat) ∧
    (fpClass prec a = .nan ∨ fpClass prec b = .nan → addFields c prec a b = canonicalNan c prec) ∧
    (fpClass prec a = .infinity → fpClass prec b = .infinity →
      (a.sign = b.sign → addFields c prec a b = a) ∧ (a.sign ≠ b.sign → addFields c prec a b = canonicalNan c prec)) ∧
    (fpClass prec a = .infinity → fpClass prec b ≠ .infinity → fpClass prec b ≠ .nan →
      addFields c prec a b = a ∧ addFields c prec b a = a) ∧
    (fpClass prec a = .zero → fpClass prec b ≠ .zero → fpClass prec b ≠ .nan →
      addFields c prec a b = b ∧ addFields c prec b a = b) ∧
    (fpClass prec a = .zero → fpClass prec b = .zero → addFields c prec a b = ⟨a.sign && b.sign, 0, 0⟩)

/-- R155, R158, R159: the sum of two finite patterns. First, under `nearest_even_grs` it is the exact sum rounded to nearest,
ties to even, with signed Infinity from half an ulp above the largest finite number on. Second, under either value of
F754_ADD_ROUND_RULE: an exact zero is `sa & sb`; any other exact sum is `q + f` units of the place of its last mantissa bit,
`0 ≤ f < 1`, and the result is `q` of them, or `q + 1` as the rule says of the bits of `f` (`tailUp` of Safety.lean), with
signed Infinity from `2^(bias + 1)` on. -/
def Obligations.F754AddCorrectlyRounded : Prop :=
  (∀ (c : Config) (prec : Precision) (a b x : FpFields) (v : ℚ), c.addRoundRule = .nearestEvenGrs →
    inFormat prec a → inFormat prec b → isFinite prec a → isFinite prec b →
    v = fpValue prec a + fpValue prec b → x = addFields c prec a b →
    inFormat prec x ∧
    (v = 0 → x = ⟨a.sign && b.sign, 0, 0⟩) ∧
    (v ≠ 0 → x.sign = decide (v < 0)) ∧
    ((2 ^ (manWidth prec + 2) - 1 : ℚ) * 2 ^ ((expBias prec : Int) - manWidth prec - 1) ≤ |v| →
      x.exp = expMax prec ∧ x.man = 0) ∧
    (|v| < (2 ^ (manWidth prec + 2) - 1 : ℚ) * 2 ^ ((expBias prec : Int) - manWidth prec - 1) →
      isFinite prec x ∧
      ∀ y, inFormat prec y → isFinite prec y → |fpValue prec x - v| ≤ |fpValue prec y - v| ∧
        (|fpValue prec y - v| = |fpValue prec x - v| → fpValue prec y ≠ fpValue prec x → x.man % 2 = 0))) ∧
  ∀ (c : Config) (prec : Precision) (a b x : FpFields) (v : ℚ),
    inFormat prec a → inFormat prec b → isFinite prec a → isFinite prec b →
    v = fpValue prec a + fpValue prec b → x = addFields c prec a b →
    inFormat prec x ∧
    (v = 0 → x = ⟨a.sign && b.sign, 0, 0⟩) ∧
    (v ≠ 0 → ∀ (e q w : Int) (f ulp : ℚ), 1 - (expBias prec : Int) ≤ e → |v| < 2 ^ (e + 1) →
      (2 ^ e ≤ |v| ∨ e = 1 - (expBias prec : Int)) → ulp = 2 ^ (e - manWidth prec) → |v| = (q + f) * ulp →
      0 ≤ f → f < 1 →
      (tailUp c.addRoundRule (e < ((max (max a.exp b.exp) 1 : Nat) : Int) - expBias prec) (q % 2 = 1) f → w = q + 1) →
      (¬tailUp c.addRoundRule (e < ((max (max a.exp b.exp) 1 : Nat) : Int) - expBias prec) (q % 2 = 1) f → w = q) →
      x.sign = decide (v < 0) ∧
      (2 ^ ((expBias prec : Int) + 1) ≤ w * ulp → x.exp = expMax prec ∧ x.man = 0) ∧
      (w * ulp < 2 ^ ((expBias prec : Int) + 1) → isFinite prec x ∧ |fpValue prec x| = w * ulp))

/-! ## Karnaugh maps (46_kmap.md) -/

/-- R222: the reader accepts exactly the strings that derive from `expr`, with the expression they derive. -/
def Obligations.KmParserIsGrammar : Prop :=
  ∀ (ts : List KmTok) (e : KmExpr), kmParse ts = some e ↔ KmDerives .expr ts e

/-- R223, R224: KM.EVAL: its errors in order, and the truth table. The symbols are given by their character codes
(`IsKmSymbol` of Safety.lean: R73, R220, R222), both cases of a letter being one variable, and the value of an expression
by `kmValue` of Safety.lean (R221, R223). -/
def Obligations.KmEvalRule : Prop :=
  ∀ (s : State) (n : BitVec 8), s.inv = true → (Instr.kmEval n).wf s.cfg.tcwMax = true →
    (encode (.kmEval n)).toNat = 0x0E + 0x100 * n.toNat ∧
    (clean s.opa.content = [] → FailsWith (.kmEval n) s .empty) ∧
    ((∃ c ∈ clean s.opa.content, ∀ k, ¬IsKmSymbol c k) → FailsWith (.kmEval n) s .char) ∧
    ∀ ts, ts ≠ [] → List.Forall₂ IsKmSymbol (clean s.opa.content) ts →
      ((¬∃ e, KmDerives .expr ts e) → FailsWith (.kmEval n) s .format) ∧
      ∀ e, KmDerives .expr ts e →
        ((∃ v, KmTok.var v ∈ ts ∧ n.toNat ≤ v) → FailsWith (.kmEval n) s .range) ∧
        ((∀ v, KmTok.var v ∈ ts → v < n.toNat) → ∃ tt : Word,
          (∀ t, tt.getLsbD t = true ↔ t < 2 ^ n.toNat ∧ kmValue n.toNat t e = 1) ∧
          Completes (.kmEval n) s
            { kmTt := tt
              aux0 := BitVec.ofNat 32 ((List.range (2 ^ n.toNat)).filter (fun t => kmValue n.toNat t e = 1)).length })

/-- R226 to R231: KM.PI delivers every prime implicant once, in enumeration order. -/
def Obligations.KmPiRule : Prop :=
  ∀ (s : State) (n : BitVec 8), s.inv = true → (Instr.kmPi n).wf s.cfg.tcwMax = true →
    (encode (.kmPi n)).toNat = 0x0F + 0x100 * n.toNat ∧
    (¬kmOperandsLegal n.toNat s.kmOn s.kmDc → FailsWith (.kmPi n) s .range) ∧
    (kmOperandsLegal n.toNat s.kmOn s.kmDc →
      (∃ P, IsPrimeList (kmLayoutOf s.cfg n.toNat) s.kmOn s.kmDc P) ∧
      ∀ P, IsPrimeList (kmLayoutOf s.cfg n.toNat) s.kmOn s.kmDc P →
        (∀ t, mem s.kmOn t → ∃ Q ∈ P, mem Q t) ∧
        (P.length ≤ s.cfg.pimax →
          Completes (.kmPi n) s { pi := P.map (fun Q => ⟨Q, 0#32⟩), aux0 := BitVec.ofNat 32 P.length }) ∧
        (s.cfg.pimax < P.length → FailsWith (.kmPi n) s .capacity))

/-- R233, R234: KM.COVER delivers the prime list, the essential and greedy selection, and the SOP text. -/
def Obligations.KmCoverRule : Prop :=
  ∀ (s : State) (n : BitVec 8), s.inv = true → (Instr.kmCover n).wf s.cfg.tcwMax = true →
    (encode (.kmCover n)).toNat = 0x10 + 0x100 * n.toNat ∧
    (¬kmOperandsLegal n.toNat s.kmOn s.kmDc → FailsWith (.kmCover n) s .range) ∧
    (kmOperandsLegal n.toNat s.kmOn s.kmDc →
      (∃ P, IsPrimeList (kmLayoutOf s.cfg n.toNat) s.kmOn s.kmDc P) ∧
      ∀ P, IsPrimeList (kmLayoutOf s.cfg n.toNat) s.kmOn s.kmDc P →
        (P.length ≤ s.cfg.pimax →
          ∃ (sel : List Nat) (table : List PiEntry), IsSelection s.cfg.kmGreedyTie P s.kmOn sel ∧
            table.length = P.length ∧ (∀ i e, table[i]? = some e → IsTableEntry P s.kmOn sel i e) ∧
            Completes (.kmCover n) s { ra := kmSop n.toNat P sel, pi := table, aux0 := BitVec.ofNat 32 P.length,
                                       aux1 := BitVec.ofNat 32 sel.length }) ∧
        (s.cfg.pimax < P.length → FailsWith (.kmCover n) s .capacity))

/-- R237: the selected implicants cover the required minterms and, beyond them, don't-cares only. -/
def Obligations.KmCoverIsComplete : Prop :=
  ∀ (s t : State) (n : BitVec 8), s.inv = true → (Instr.kmCover n).wf s.cfg.tcwMax = true →
    exec (.kmCover n) s = .next t → t.err = 0#4 →
    (∀ m, mem s.kmOn m → ∃ e ∈ t.piTable, e.info.getLsbD 1 = true ∧ mem e.cells m) ∧
    (∀ m, (∃ e ∈ t.piTable, e.info.getLsbD 1 = true ∧ mem e.cells m) → mem s.kmOn m ∨ mem s.kmDc m) ∧
    (s.kmDc = 0#32 →
      ∀ m, (∃ e ∈ t.piTable, e.info.getLsbD 1 = true ∧ mem e.cells m) ↔ mem s.kmOn m)

/-- R235, R236: the literals of an implicant, its product term, and the text of the sum. -/
def Obligations.KmSopText : Prop :=
  (∀ (n v : Nat) (Q : Word), v < n → (∃ t, t < 2 ^ n ∧ mem Q t) →
    ((∀ t, t < 2 ^ n → mem Q t → t.testBit (n - 1 - v) = true) → kmLiteral n Q v = [BitVec.ofNat 8 (0x41 + v)]) ∧
    ((∀ t, t < 2 ^ n → mem Q t → t.testBit (n - 1 - v) = false) →
      kmLiteral n Q v = [BitVec.ofNat 8 (0x41 + v), 0x27#8]) ∧
    ((∃ t t', t < 2 ^ n ∧ t' < 2 ^ n ∧ mem Q t ∧ mem Q t' ∧ t.testBit (n - 1 - v) ≠ t'.testBit (n - 1 - v)) →
      kmLiteral n Q v = [])) ∧
  (∀ (n : Nat) (Q : Word),
    ((∀ v, v < n → kmLiteral n Q v = []) → kmTerm n Q = [0x31#8]) ∧
    ((∃ v, v < n ∧ kmLiteral n Q v ≠ []) → kmTerm n Q = ((List.range n).map (kmLiteral n Q)).flatten)) ∧
  ∀ (n : Nat) (P : List Word) (i j : Nat) (rest : List Nat),
    kmSop n P [] = [0x30#8] ∧ kmSop n P [i] = kmTerm n (P.getD i 0) ∧
    kmSop n P (i :: j :: rest) = kmTerm n (P.getD i 0) ++ [0x2B#8] ++ kmSop n P (j :: rest)

/-- R232: on the default layout every rectangle of up to 4 variables is a product of literals, and the term made of it is
that product; with 8 columns a run of 4 is one exactly when it starts at an even position. The layout of `n` variables is
the parameter's `n`-th entry, by default the table of R226. -/
def Obligations.KmTermsAreProducts : Prop :=
  (∀ (c : Config) (n : Nat) (layout : Nat × Nat), c.kmLayout[n - 1]? = some layout → kmLayoutOf c n = layout) ∧
  [1, 2, 3, 4, 5].map (kmLayoutOf Config.default) = [(0, 1), (1, 1), (1, 2), (2, 2), (2, 3)] ∧
  (∀ (n : Nat) (r : Rect) (Q : Word), 1 ≤ n → n ≤ 4 → RectIs (kmLayoutOf Config.default n) r Q → isSubcube n Q) ∧
  (∀ (r : Rect) (Q : Word), RectIs (kmLayoutOf Config.default 5) r Q → r.wb = 2 →
    (isSubcube 5 Q ↔ r.j0 % 2 = 0)) ∧
  ∀ (n : Nat) (Q : Word), isSubcube n Q → (∃ t, t < 2 ^ n ∧ mem Q t) → ∀ t, t < 2 ^ n →
    (mem Q t ↔ ∀ v, v < n →
      (kmLiteral n Q v = [BitVec.ofNat 8 (0x41 + v)] → t.testBit (n - 1 - v) = true) ∧
      (kmLiteral n Q v = [BitVec.ofNat 8 (0x41 + v), 0x27#8] → t.testBit (n - 1 - v) = false))
end

