-- ==== Sys2Proof/Laws/Bits.lean ====
section
/-! SUPPORT. BitStrings and their values (00_scope.md R6): `bin_L` and `val` are inverse. -/

namespace Sys2Proof.Machine

@[simp] theorem bitsVal_nil : bitsVal [] = 0 := rfl

/-- The value with a running start, as the fold computes it. -/
theorem bitsVal_foldl (b : Bits) (a : Nat) :
    b.foldl (fun a x => 2 * a + x.toNat) a = a * 2 ^ b.length + bitsVal b := by
  induction b generalizing a with
  | nil => simp
  | cons x b ih =>
    simp only [bitsVal, List.foldl_cons, List.length_cons]
    rw [ih, ih (2 * 0 + x.toNat), Nat.pow_succ]
    ring

@[simp] theorem bitsVal_cons (x : Bool) (b : Bits) : bitsVal (x :: b) = x.toNat * 2 ^ b.length + bitsVal b := by
  rw [bitsVal, List.foldl_cons, bitsVal_foldl]
  simp

theorem bitsVal_append (a b : Bits) : bitsVal (a ++ b) = bitsVal a * 2 ^ b.length + bitsVal b := by
  rw [bitsVal, List.foldl_append, bitsVal_foldl]
  rfl

theorem bitsVal_lt (b : Bits) : bitsVal b < 2 ^ b.length := by
  induction b with
  | nil => simp
  | cons x b ih =>
    rw [bitsVal_cons, List.length_cons, Nat.pow_succ]
    cases x <;> simp <;> omega

@[simp] theorem binBits_length (L v : Nat) : (binBits L v).length = L := by
  induction L with
  | zero => rfl
  | succ L ih => simp [binBits, ih]

/-- `val(bin_L(v)) = v mod 2^L` (00_scope.md R6). -/
theorem bitsVal_binBits (L v : Nat) : bitsVal (binBits L v) = v % 2 ^ L := by
  induction L with
  | zero => simp [binBits, Nat.mod_one]
  | succ L ih =>
    rw [binBits, bitsVal_cons, binBits_length, ih, Nat.testBit_eq_decide_div_mod_eq, Nat.pow_succ, Nat.mod_mul]
    rcases Nat.mod_two_eq_zero_or_one (v / 2 ^ L) with h | h <;> simp [h]
    omega

/-- The bits of a value do not depend on what stands above them. -/
theorem binBits_add_mul (L k v : Nat) : binBits L (k * 2 ^ L + v) = binBits L v := by
  have key : ∀ n, n ≤ L → binBits n (k * 2 ^ L + v) = binBits n v := by
    intro n hn
    induction n with
    | zero => rfl
    | succ n ih =>
      rw [binBits, binBits, ih (by omega)]
      congr 1
      rw [Nat.testBit_eq_decide_div_mod_eq, Nat.testBit_eq_decide_div_mod_eq]
      have : k * 2 ^ L = 2 ^ n * (2 * (k * 2 ^ (L - (n + 1)))) := by
        have : (2 : Nat) ^ L = 2 ^ n * 2 * 2 ^ (L - (n + 1)) := by
          rw [← Nat.pow_succ, ← Nat.pow_add]
          congr 1
          omega
        rw [this]
        ring
      rw [this, Nat.mul_add_div (by positivity), Nat.mul_add_mod]
  exact key L le_rfl

/-- `bin_L(val(b)) = b` for `L = |b|` (00_scope.md R6). -/
theorem binBits_bitsVal (b : Bits) : binBits b.length (bitsVal b) = b := by
  induction b with
  | nil => rfl
  | cons x b ih =>
    rw [List.length_cons, binBits, bitsVal_cons, binBits_add_mul, ih]
    congr 1
    rw [Nat.testBit_eq_decide_div_mod_eq, Nat.add_comm, Nat.add_mul_div_right _ _ (by positivity),
      Nat.div_eq_of_lt (bitsVal_lt b)]
    cases x <;> simp

/-- Bit strings of one length with one value are equal. -/
theorem bitsVal_injective (a b : Bits) (hl : a.length = b.length) (hv : bitsVal a = bitsVal b) : a = b := by
  rw [← binBits_bitsVal a, ← binBits_bitsVal b, hl, hv]

@[simp] theorem bitsText_length (b : Bits) : (bitsText b).length = b.length := by simp [bitsText]

@[simp] theorem bitsText_append (a b : Bits) : bitsText (a ++ b) = bitsText a ++ bitsText b := by simp [bitsText]

@[simp] theorem bitChar_eq_chOne (x : Bool) : (bitChar x == chOne) = x := by cases x <;> decide

/-- The bits read back from their text. -/
@[simp] theorem bitsText_read (b : Bits) : (bitsText b).map (fun c => c == chOne) = b := by
  rw [bitsText, List.map_map]
  exact (List.map_congr_left (fun x _ => bitChar_eq_chOne x)).trans b.map_id

end Sys2Proof.Machine
end

