-- ==== Sys2Proof/Laws/Ieee754.lean ====
section
/-! SUPPORT. The value of a pattern and the machine's significand and exponent (42_ieee754_add.md R150). -/

namespace Sys2Proof.Machine

/-- The exponent of R150 is the actual exponent of 41_ieee754_convert.md R132. -/
theorem actualExp_eq (prec : Precision) (x : FpFields) :
    actualExp prec x = ((max x.exp 1 : Nat) : Int) - expBias prec := by
  simp [actualExp]

/-- The magnitude by the machine's significand and exponent. -/
theorem magnitude_eq (prec : Precision) (x : FpFields) :
    magnitude prec x = (significand prec x : ℚ) * 2 ^ (actualExp prec x - manWidth prec) := by
  rw [magnitude, significand, actualExp_eq]
  simp only [ne_eq, ite_not]

end Sys2Proof.Machine
end

