-- ==== Sys2Proof/Laws/Memory.lean ====
section
/-! SUPPORT. Cells and buffers: reading after writing, the canonical form kept by every operation, and what writing a
text to a buffer leaves (10_state.md R24, 30_encoding.md R74). -/

namespace Sys2Proof.Machine

/-- The canonical form, entry by entry. -/
theorem Memory.wf_cons (c : Host.Cell) (rest : Memory) :
    Memory.wf (c :: rest) = true ↔ c.2 ≠ unlistedCell ∧ (∀ d ∈ rest, c.1 < d.1) ∧ Memory.wf rest = true := by
  induction rest generalizing c with
  | nil => simp [Memory.wf]
  | cons d rest ih =>
    simp only [Memory.wf, Bool.and_eq_true, decide_eq_true_eq, List.mem_cons, forall_eq_or_imp]
    constructor
    · rintro ⟨⟨h1, h2⟩, h3⟩
      exact ⟨h1, ⟨h2, fun e he => lt_trans h2 (((ih d).1 h3).2.1 e he)⟩, h3⟩
    · rintro ⟨h1, ⟨h2, -⟩, h3⟩
      exact ⟨⟨h1, h2⟩, h3⟩

@[simp] theorem Memory.read_nil (i : Nat) : Memory.read [] i = unlistedCell := rfl

theorem Memory.read_cons (c : Host.Cell) (rest : Memory) (i : Nat) :
    Memory.read (c :: rest) i = if c.1 = i then c.2 else Memory.read rest i := rfl

/-- A cell below every listed one is not listed. -/
theorem Memory.read_below (m : Memory) (i : Nat) (h : ∀ d ∈ m, i < d.1) : Memory.read m i = unlistedCell := by
  induction m with
  | nil => rfl
  | cons c rest ih =>
    rw [Memory.read_cons, if_neg (Nat.ne_of_gt (h c (by simp)))]
    exact ih (fun d hd => h d (by simp [hd]))

/-- Every entry after a write is the written one or was there before. -/
theorem Memory.mem_write (m : Memory) (i : Nat) (b : Byte) (d : Host.Cell) (h : d ∈ m.write i b) :
    d = (i, b) ∨ d ∈ m := by
  induction m with
  | nil =>
    simp only [Memory.write] at h
    split at h <;> simp_all
  | cons c rest ih =>
    simp only [Memory.write] at h
    split at h
    · split at h <;> simp_all
    · split at h
      · split at h <;> simp_all
        · tauto
      · rcases List.mem_cons.1 h with h | h
        · exact .inr (by simp [h])
        · rcases ih h with h | h
          · exact .inl h
          · exact .inr (by simp [h])

/-- A write keeps the canonical form. -/
theorem Memory.wf_write (m : Memory) (i : Nat) (b : Byte) (h : Memory.wf m = true) :
    Memory.wf (m.write i b) = true := by
  induction m with
  | nil =>
    simp only [Memory.write]
    split <;> simp_all [Memory.wf]
  | cons c rest ih =>
    obtain ⟨h1, h2, h3⟩ := (Memory.wf_cons c rest).1 h
    simp only [Memory.write]
    split
    · rename_i hi
      split
      · exact h
      · rename_i hb
        exact (Memory.wf_cons _ _).2 ⟨hb, fun d hd => by
          rcases List.mem_cons.1 hd with rfl | hd
          · exact hi
          · exact lt_trans hi (h2 d hd), h⟩
    · split
      · rename_i hi
        split
        · exact h3
        · rename_i hb
          exact (Memory.wf_cons _ _).2 ⟨hb, fun d hd => hi ▸ h2 d hd, h3⟩
      · exact (Memory.wf_cons _ _).2 ⟨h1, fun d hd => by
          rcases Memory.mem_write rest i b d hd with rfl | hd
          · show c.1 < i
            omega
          · exact h2 d hd, ih h3⟩

/-- A cell read after it is written holds what was written. -/
theorem Memory.read_write_same (m : Memory) (i : Nat) (b : Byte) (h : Memory.wf m = true) :
    (m.write i b).read i = b := by
  induction m with
  | nil =>
    simp only [Memory.write]
    split
    · next hb => rw [hb, Memory.read_nil]
    · rw [Memory.read_cons, if_pos rfl]
  | cons c rest ih =>
    obtain ⟨h1, h2, h3⟩ := (Memory.wf_cons c rest).1 h
    simp only [Memory.write]
    split
    · rename_i hi
      split
      · next hb =>
        rw [hb]
        exact Memory.read_below _ _ (fun d hd => by
          rcases List.mem_cons.1 hd with rfl | hd
          · exact hi
          · exact lt_trans hi (h2 d hd))
      · rw [Memory.read_cons, if_pos rfl]
    · split
      · rename_i hi
        split
        · next hb =>
          rw [hb]
          exact Memory.read_below _ _ (fun d hd => hi ▸ h2 d hd)
        · rw [Memory.read_cons, if_pos rfl]
      · next hne =>
        rw [Memory.read_cons, if_neg (fun e => hne e.symm)]
        exact ih h3

/-- A write leaves every other cell as it was. -/
theorem Memory.read_write_other (m : Memory) (i j : Nat) (b : Byte) (h : j ≠ i) :
    (m.write i b).read j = m.read j := by
  induction m with
  | nil =>
    simp only [Memory.write]
    split
    · rfl
    · rw [Memory.read_cons, if_neg (fun e => h e.symm)]
  | cons c rest ih =>
    simp only [Memory.write]
    split
    · split
      · rfl
      · rw [Memory.read_cons, if_neg (fun e => h e.symm)]
    · split
      · rename_i hi
        split
        · rw [Memory.read_cons, if_neg (fun e => h (by omega))]
        · rw [Memory.read_cons, Memory.read_cons, if_neg (fun e => h e.symm), if_neg (fun e => h (by omega))]
      · rw [Memory.read_cons, Memory.read_cons, ih]

/-- Two canonical memories that read alike everywhere are the same list. -/
theorem Memory.eq_of_read (m k : Memory) (hm : Memory.wf m = true) (hk : Memory.wf k = true)
    (h : ∀ i, m.read i = k.read i) : m = k := by
  induction m generalizing k with
  | nil =>
    cases k with
    | nil => rfl
    | cons d k =>
      have := h d.1
      rw [Memory.read_cons, if_pos rfl] at this
      exact absurd this.symm ((Memory.wf_cons _ _).1 hk).1
  | cons c m ih =>
    obtain ⟨c1, c2, c3⟩ := (Memory.wf_cons _ _).1 hm
    cases k with
    | nil =>
      have := h c.1
      rw [Memory.read_cons, if_pos rfl] at this
      exact absurd this c1
    | cons d k =>
      obtain ⟨d1, d2, d3⟩ := (Memory.wf_cons _ _).1 hk
      have key : c.1 = d.1 := by
        rcases lt_trichotomy c.1 d.1 with hlt | heq | hgt
        · have := h c.1
          rw [Memory.read_cons, if_pos rfl, Memory.read_below (d :: k) c.1 (fun e he => by
            rcases List.mem_cons.1 he with rfl | he
            · exact hlt
            · exact lt_trans hlt (d2 e he))] at this
          exact absurd this c1
        · exact heq
        · have := h d.1
          rw [Memory.read_cons (c := d), if_pos rfl, Memory.read_below (c :: m) d.1 (fun e he => by
            rcases List.mem_cons.1 he with rfl | he
            · exact hgt
            · exact lt_trans hgt (c2 e he))] at this
          exact absurd this.symm d1
      have val : c.2 = d.2 := by
        have := h c.1
        rwa [Memory.read_cons, if_pos rfl, Memory.read_cons, if_pos key.symm] at this
      have rest : m = k := ih k c3 d3 (fun i => by
        by_cases hi : c.1 = i
        · rw [Memory.read_below m i (fun e he => hi ▸ c2 e he),
            Memory.read_below k i (fun e he => hi ▸ key ▸ d2 e he)]
        · have := h i
          rwa [Memory.read_cons, if_neg hi, Memory.read_cons, if_neg (key ▸ hi)] at this)
      rw [rest, show c = d from Prod.ext key val]

/-- Writing a text keeps the canonical form. -/
theorem Memory.wf_writeText (m : Memory) (i : Nat) (t : Text) (h : Memory.wf m = true) :
    Memory.wf (m.writeText i t) = true := by
  induction t generalizing m i with
  | nil => exact h
  | cons c t ih => exact ih _ _ (Memory.wf_write m i c h)

/-- Writing a text at `i` leaves the cells below `i` and from its end on. -/
theorem Memory.read_writeText_outside (m : Memory) (i j : Nat) (t : Text) (h : j < i ∨ i + t.length ≤ j) :
    (m.writeText i t).read j = m.read j := by
  induction t generalizing m i with
  | nil => rfl
  | cons c t ih =>
    simp only [List.length_cons] at h
    rw [Memory.writeText, ih _ _ (by omega), Memory.read_write_other _ _ _ _ (by omega)]

/-- A text written at `i` stands in the cells from `i` on. -/
theorem Memory.read_writeText_inside (m : Memory) (i k : Nat) (t : Text) (hm : Memory.wf m = true) (h : k < t.length) :
    (m.writeText i t).read (i + k) = t[k] := by
  induction t generalizing m i k with
  | nil => simp at h
  | cons c t ih =>
    cases k with
    | zero =>
      rw [Memory.writeText, Memory.read_writeText_outside _ _ _ _ (by omega)]
      exact Memory.read_write_same m i c hm
    | succ k =>
      have := ih (m.write i c) (i + 1) k (Memory.wf_write m i c hm) (by simpa using h)
      rw [Memory.writeText, show i + (k + 1) = i + 1 + k by omega, this]
      rfl

/-- The entries of a memory stay below a bound that the written cells are below. -/
theorem Memory.below_writeText (m : Memory) (i n : Nat) (t : Text) (hm : ∀ d ∈ m, d.1 < n) (h : i + t.length ≤ n) :
    ∀ d ∈ m.writeText i t, d.1 < n := by
  induction t generalizing m i with
  | nil => exact hm
  | cons c t ih =>
    simp only [List.length_cons] at h
    refine ih _ _ (fun d hd => ?_) (by omega)
    rcases Memory.mem_write m i c d hd with rfl | hd
    · show i < n
      omega
    · exact hm d hd

@[simp] theorem Buffer.write_len (b : Buffer) (t : Text) : (b.write t).len = t.length := rfl

/-- Writing nothing only empties the buffer (10_state.md R40). -/
@[simp] theorem Buffer.write_nil (b : Buffer) : b.write [] = ⟨0, b.cells⟩ := rfl

@[simp] theorem Buffer.content_length (b : Buffer) : b.content.length = b.len := by
  simp [Buffer.content]

/-- The content of a buffer after a text is written to it is the text (30_encoding.md R74). -/
theorem Buffer.content_write (b : Buffer) (t : Text) (h : Memory.wf b.cells = true) : (b.write t).content = t := by
  apply List.ext_getElem
  · simp
  · intro k h1 h2
    simp only [Buffer.content, List.getElem_map, List.getElem_range, Buffer.cell, Buffer.write]
    have := Memory.read_writeText_inside b.cells 0 k t h h2
    rwa [Nat.zero_add] at this

/-- Cells at or past the length of a written text are what they were (10_state.md R24). -/
theorem Buffer.cell_write_past (b : Buffer) (t : Text) (i : Nat) (h : t.length ≤ i) :
    (b.write t).cell i = b.cell i :=
  Memory.read_writeText_outside b.cells 0 i t (.inr (by omega))

/-- Writing a text keeps the canonical form of the cells. -/
theorem Buffer.wf_write (b : Buffer) (t : Text) (h : Memory.wf b.cells = true) :
    Memory.wf (b.write t).cells = true := Memory.wf_writeText b.cells 0 t h

end Sys2Proof.Machine
end

