-- ==== Sys2Proof/Laws/State.lean ====
section
/-! SUPPORT. One lemma per field per update of State, each true by rfl and a simp lemma, so that no later proof unfolds a
record update. -/

namespace Sys2Proof.Machine

@[simp] theorem State.startCommand_cmd (s : State) (v : Word) : (s.startCommand v).cmd = v := rfl
@[simp] theorem State.startCommand_status (s : State) (v : Word) : (s.startCommand v).status = statusStarted s.status := rfl
@[simp] theorem State.startCommand_aux0 (s : State) (v : Word) : (s.startCommand v).aux0 = s.aux0 := rfl
@[simp] theorem State.startCommand_aux1 (s : State) (v : Word) : (s.startCommand v).aux1 = s.aux1 := rfl
@[simp] theorem State.startCommand_kmOn (s : State) (v : Word) : (s.startCommand v).kmOn = s.kmOn := rfl
@[simp] theorem State.startCommand_kmDc (s : State) (v : Word) : (s.startCommand v).kmDc = s.kmDc := rfl
@[simp] theorem State.startCommand_kmTt (s : State) (v : Word) : (s.startCommand v).kmTt = s.kmTt := rfl
@[simp] theorem State.startCommand_picnt (s : State) (v : Word) : (s.startCommand v).picnt = s.picnt := rfl
@[simp] theorem State.startCommand_piTable (s : State) (v : Word) : (s.startCommand v).piTable = s.piTable := rfl
@[simp] theorem State.startCommand_opa (s : State) (v : Word) : (s.startCommand v).opa = s.opa := rfl
@[simp] theorem State.startCommand_opb (s : State) (v : Word) : (s.startCommand v).opb = s.opb := rfl
@[simp] theorem State.startCommand_ra (s : State) (v : Word) : (s.startCommand v).ra = s.ra := rfl
@[simp] theorem State.startCommand_rb (s : State) (v : Word) : (s.startCommand v).rb = s.rb := rfl
@[simp] theorem State.startCommand_rc (s : State) (v : Word) : (s.startCommand v).rc = s.rc := rfl
@[simp] theorem State.startCommand_cfg (s : State) (v : Word) : (s.startCommand v).cfg = s.cfg := rfl
@[simp] theorem State.startCommand_schedule (s : State) (v : Word) : (s.startCommand v).schedule = s.schedule := rfl
@[simp] theorem State.startCommand_replies (s : State) (v : Word) : (s.startCommand v).replies = s.replies := rfl
@[simp] theorem State.startCommand_freeCount (s : State) (v : Word) : (s.startCommand v).freeCount = s.freeCount := rfl

@[simp] theorem State.complete_cmd (s : State) (err : BitVec 4) (r : Results) : (s.complete err r).cmd = s.cmd := rfl
@[simp] theorem State.complete_status (s : State) (err : BitVec 4) (r : Results) : (s.complete err r).status = statusWord false true err r.flags := rfl
@[simp] theorem State.complete_aux0 (s : State) (err : BitVec 4) (r : Results) : (s.complete err r).aux0 = r.aux0 := rfl
@[simp] theorem State.complete_aux1 (s : State) (err : BitVec 4) (r : Results) : (s.complete err r).aux1 = r.aux1 := rfl
@[simp] theorem State.complete_kmOn (s : State) (err : BitVec 4) (r : Results) : (s.complete err r).kmOn = s.kmOn := rfl
@[simp] theorem State.complete_kmDc (s : State) (err : BitVec 4) (r : Results) : (s.complete err r).kmDc = s.kmDc := rfl
@[simp] theorem State.complete_kmTt (s : State) (err : BitVec 4) (r : Results) : (s.complete err r).kmTt = r.kmTt := rfl
@[simp] theorem State.complete_picnt (s : State) (err : BitVec 4) (r : Results) : (s.complete err r).picnt = BitVec.ofNat 32 r.pi.length := rfl
@[simp] theorem State.complete_piTable (s : State) (err : BitVec 4) (r : Results) : (s.complete err r).piTable = r.pi := rfl
@[simp] theorem State.complete_opa (s : State) (err : BitVec 4) (r : Results) : (s.complete err r).opa = s.opa := rfl
@[simp] theorem State.complete_opb (s : State) (err : BitVec 4) (r : Results) : (s.complete err r).opb = s.opb := rfl
@[simp] theorem State.complete_ra (s : State) (err : BitVec 4) (r : Results) : (s.complete err r).ra = s.ra.write r.ra := rfl
@[simp] theorem State.complete_rb (s : State) (err : BitVec 4) (r : Results) : (s.complete err r).rb = s.rb.write r.rb := rfl
@[simp] theorem State.complete_rc (s : State) (err : BitVec 4) (r : Results) : (s.complete err r).rc = s.rc.write r.rc := rfl
@[simp] theorem State.complete_cfg (s : State) (err : BitVec 4) (r : Results) : (s.complete err r).cfg = s.cfg := rfl
@[simp] theorem State.complete_schedule (s : State) (err : BitVec 4) (r : Results) : (s.complete err r).schedule = s.schedule := rfl
@[simp] theorem State.complete_replies (s : State) (err : BitVec 4) (r : Results) : (s.complete err r).replies = s.replies := rfl
@[simp] theorem State.complete_freeCount (s : State) (err : BitVec 4) (r : Results) : (s.complete err r).freeCount = s.freeCount := rfl

@[simp] theorem State.drawn_cmd (s : State) : (s.drawn).cmd = s.cmd := rfl
@[simp] theorem State.drawn_status (s : State) : (s.drawn).status = s.status := rfl
@[simp] theorem State.drawn_aux0 (s : State) : (s.drawn).aux0 = s.aux0 := rfl
@[simp] theorem State.drawn_aux1 (s : State) : (s.drawn).aux1 = s.aux1 := rfl
@[simp] theorem State.drawn_kmOn (s : State) : (s.drawn).kmOn = s.kmOn := rfl
@[simp] theorem State.drawn_kmDc (s : State) : (s.drawn).kmDc = s.kmDc := rfl
@[simp] theorem State.drawn_kmTt (s : State) : (s.drawn).kmTt = s.kmTt := rfl
@[simp] theorem State.drawn_picnt (s : State) : (s.drawn).picnt = s.picnt := rfl
@[simp] theorem State.drawn_piTable (s : State) : (s.drawn).piTable = s.piTable := rfl
@[simp] theorem State.drawn_opa (s : State) : (s.drawn).opa = s.opa := rfl
@[simp] theorem State.drawn_opb (s : State) : (s.drawn).opb = s.opb := rfl
@[simp] theorem State.drawn_ra (s : State) : (s.drawn).ra = s.ra := rfl
@[simp] theorem State.drawn_rb (s : State) : (s.drawn).rb = s.rb := rfl
@[simp] theorem State.drawn_rc (s : State) : (s.drawn).rc = s.rc := rfl
@[simp] theorem State.drawn_cfg (s : State) : (s.drawn).cfg = s.cfg := rfl
@[simp] theorem State.drawn_schedule (s : State) : (s.drawn).schedule = s.schedule := rfl
@[simp] theorem State.drawn_replies (s : State) : (s.drawn).replies = s.replies := rfl
@[simp] theorem State.drawn_freeCount (s : State) : (s.drawn).freeCount = s.freeCount + 1 := rfl

@[simp] theorem State.reply_cmd (s : State) (r : Reply) : (s.reply r).cmd = s.cmd := rfl
@[simp] theorem State.reply_status (s : State) (r : Reply) : (s.reply r).status = s.status := rfl
@[simp] theorem State.reply_aux0 (s : State) (r : Reply) : (s.reply r).aux0 = s.aux0 := rfl
@[simp] theorem State.reply_aux1 (s : State) (r : Reply) : (s.reply r).aux1 = s.aux1 := rfl
@[simp] theorem State.reply_kmOn (s : State) (r : Reply) : (s.reply r).kmOn = s.kmOn := rfl
@[simp] theorem State.reply_kmDc (s : State) (r : Reply) : (s.reply r).kmDc = s.kmDc := rfl
@[simp] theorem State.reply_kmTt (s : State) (r : Reply) : (s.reply r).kmTt = s.kmTt := rfl
@[simp] theorem State.reply_picnt (s : State) (r : Reply) : (s.reply r).picnt = s.picnt := rfl
@[simp] theorem State.reply_piTable (s : State) (r : Reply) : (s.reply r).piTable = s.piTable := rfl
@[simp] theorem State.reply_opa (s : State) (r : Reply) : (s.reply r).opa = s.opa := rfl
@[simp] theorem State.reply_opb (s : State) (r : Reply) : (s.reply r).opb = s.opb := rfl
@[simp] theorem State.reply_ra (s : State) (r : Reply) : (s.reply r).ra = s.ra := rfl
@[simp] theorem State.reply_rb (s : State) (r : Reply) : (s.reply r).rb = s.rb := rfl
@[simp] theorem State.reply_rc (s : State) (r : Reply) : (s.reply r).rc = s.rc := rfl
@[simp] theorem State.reply_cfg (s : State) (r : Reply) : (s.reply r).cfg = s.cfg := rfl
@[simp] theorem State.reply_schedule (s : State) (r : Reply) : (s.reply r).schedule = s.schedule := rfl
@[simp] theorem State.reply_replies (s : State) (r : Reply) : (s.reply r).replies = r :: s.replies := rfl
@[simp] theorem State.reply_freeCount (s : State) (r : Reply) : (s.reply r).freeCount = s.freeCount := rfl

@[simp] theorem State.setBuffer_opa_cmd (s : State) (b : Buffer) : (s.setBuffer .opa b).cmd = s.cmd := rfl
@[simp] theorem State.setBuffer_opa_status (s : State) (b : Buffer) : (s.setBuffer .opa b).status = s.status := rfl
@[simp] theorem State.setBuffer_opa_aux0 (s : State) (b : Buffer) : (s.setBuffer .opa b).aux0 = s.aux0 := rfl
@[simp] theorem State.setBuffer_opa_aux1 (s : State) (b : Buffer) : (s.setBuffer .opa b).aux1 = s.aux1 := rfl
@[simp] theorem State.setBuffer_opa_kmOn (s : State) (b : Buffer) : (s.setBuffer .opa b).kmOn = s.kmOn := rfl
@[simp] theorem State.setBuffer_opa_kmDc (s : State) (b : Buffer) : (s.setBuffer .opa b).kmDc = s.kmDc := rfl
@[simp] theorem State.setBuffer_opa_kmTt (s : State) (b : Buffer) : (s.setBuffer .opa b).kmTt = s.kmTt := rfl
@[simp] theorem State.setBuffer_opa_picnt (s : State) (b : Buffer) : (s.setBuffer .opa b).picnt = s.picnt := rfl
@[simp] theorem State.setBuffer_opa_piTable (s : State) (b : Buffer) : (s.setBuffer .opa b).piTable = s.piTable := rfl
@[simp] theorem State.setBuffer_opa_opa (s : State) (b : Buffer) : (s.setBuffer .opa b).opa = b := rfl
@[simp] theorem State.setBuffer_opa_opb (s : State) (b : Buffer) : (s.setBuffer .opa b).opb = s.opb := rfl
@[simp] theorem State.setBuffer_opa_ra (s : State) (b : Buffer) : (s.setBuffer .opa b).ra = s.ra := rfl
@[simp] theorem State.setBuffer_opa_rb (s : State) (b : Buffer) : (s.setBuffer .opa b).rb = s.rb := rfl
@[simp] theorem State.setBuffer_opa_rc (s : State) (b : Buffer) : (s.setBuffer .opa b).rc = s.rc := rfl
@[simp] theorem State.setBuffer_opa_cfg (s : State) (b : Buffer) : (s.setBuffer .opa b).cfg = s.cfg := rfl
@[simp] theorem State.setBuffer_opa_schedule (s : State) (b : Buffer) : (s.setBuffer .opa b).schedule = s.schedule := rfl
@[simp] theorem State.setBuffer_opa_replies (s : State) (b : Buffer) : (s.setBuffer .opa b).replies = s.replies := rfl
@[simp] theorem State.setBuffer_opa_freeCount (s : State) (b : Buffer) : (s.setBuffer .opa b).freeCount = s.freeCount := rfl
@[simp] theorem State.buffer_opa (s : State) : s.buffer .opa = s.opa := rfl

@[simp] theorem State.setBuffer_opb_cmd (s : State) (b : Buffer) : (s.setBuffer .opb b).cmd = s.cmd := rfl
@[simp] theorem State.setBuffer_opb_status (s : State) (b : Buffer) : (s.setBuffer .opb b).status = s.status := rfl
@[simp] theorem State.setBuffer_opb_aux0 (s : State) (b : Buffer) : (s.setBuffer .opb b).aux0 = s.aux0 := rfl
@[simp] theorem State.setBuffer_opb_aux1 (s : State) (b : Buffer) : (s.setBuffer .opb b).aux1 = s.aux1 := rfl
@[simp] theorem State.setBuffer_opb_kmOn (s : State) (b : Buffer) : (s.setBuffer .opb b).kmOn = s.kmOn := rfl
@[simp] theorem State.setBuffer_opb_kmDc (s : State) (b : Buffer) : (s.setBuffer .opb b).kmDc = s.kmDc := rfl
@[simp] theorem State.setBuffer_opb_kmTt (s : State) (b : Buffer) : (s.setBuffer .opb b).kmTt = s.kmTt := rfl
@[simp] theorem State.setBuffer_opb_picnt (s : State) (b : Buffer) : (s.setBuffer .opb b).picnt = s.picnt := rfl
@[simp] theorem State.setBuffer_opb_piTable (s : State) (b : Buffer) : (s.setBuffer .opb b).piTable = s.piTable := rfl
@[simp] theorem State.setBuffer_opb_opa (s : State) (b : Buffer) : (s.setBuffer .opb b).opa = s.opa := rfl
@[simp] theorem State.setBuffer_opb_opb (s : State) (b : Buffer) : (s.setBuffer .opb b).opb = b := rfl
@[simp] theorem State.setBuffer_opb_ra (s : State) (b : Buffer) : (s.setBuffer .opb b).ra = s.ra := rfl
@[simp] theorem State.setBuffer_opb_rb (s : State) (b : Buffer) : (s.setBuffer .opb b).rb = s.rb := rfl
@[simp] theorem State.setBuffer_opb_rc (s : State) (b : Buffer) : (s.setBuffer .opb b).rc = s.rc := rfl
@[simp] theorem State.setBuffer_opb_cfg (s : State) (b : Buffer) : (s.setBuffer .opb b).cfg = s.cfg := rfl
@[simp] theorem State.setBuffer_opb_schedule (s : State) (b : Buffer) : (s.setBuffer .opb b).schedule = s.schedule := rfl
@[simp] theorem State.setBuffer_opb_replies (s : State) (b : Buffer) : (s.setBuffer .opb b).replies = s.replies := rfl
@[simp] theorem State.setBuffer_opb_freeCount (s : State) (b : Buffer) : (s.setBuffer .opb b).freeCount = s.freeCount := rfl
@[simp] theorem State.buffer_opb (s : State) : s.buffer .opb = s.opb := rfl

@[simp] theorem State.setBuffer_ra_cmd (s : State) (b : Buffer) : (s.setBuffer .ra b).cmd = s.cmd := rfl
@[simp] theorem State.setBuffer_ra_status (s : State) (b : Buffer) : (s.setBuffer .ra b).status = s.status := rfl
@[simp] theorem State.setBuffer_ra_aux0 (s : State) (b : Buffer) : (s.setBuffer .ra b).aux0 = s.aux0 := rfl
@[simp] theorem State.setBuffer_ra_aux1 (s : State) (b : Buffer) : (s.setBuffer .ra b).aux1 = s.aux1 := rfl
@[simp] theorem State.setBuffer_ra_kmOn (s : State) (b : Buffer) : (s.setBuffer .ra b).kmOn = s.kmOn := rfl
@[simp] theorem State.setBuffer_ra_kmDc (s : State) (b : Buffer) : (s.setBuffer .ra b).kmDc = s.kmDc := rfl
@[simp] theorem State.setBuffer_ra_kmTt (s : State) (b : Buffer) : (s.setBuffer .ra b).kmTt = s.kmTt := rfl
@[simp] theorem State.setBuffer_ra_picnt (s : State) (b : Buffer) : (s.setBuffer .ra b).picnt = s.picnt := rfl
@[simp] theorem State.setBuffer_ra_piTable (s : State) (b : Buffer) : (s.setBuffer .ra b).piTable = s.piTable := rfl
@[simp] theorem State.setBuffer_ra_opa (s : State) (b : Buffer) : (s.setBuffer .ra b).opa = s.opa := rfl
@[simp] theorem State.setBuffer_ra_opb (s : State) (b : Buffer) : (s.setBuffer .ra b).opb = s.opb := rfl
@[simp] theorem State.setBuffer_ra_ra (s : State) (b : Buffer) : (s.setBuffer .ra b).ra = b := rfl
@[simp] theorem State.setBuffer_ra_rb (s : State) (b : Buffer) : (s.setBuffer .ra b).rb = s.rb := rfl
@[simp] theorem State.setBuffer_ra_rc (s : State) (b : Buffer) : (s.setBuffer .ra b).rc = s.rc := rfl
@[simp] theorem State.setBuffer_ra_cfg (s : State) (b : Buffer) : (s.setBuffer .ra b).cfg = s.cfg := rfl
@[simp] theorem State.setBuffer_ra_schedule (s : State) (b : Buffer) : (s.setBuffer .ra b).schedule = s.schedule := rfl
@[simp] theorem State.setBuffer_ra_replies (s : State) (b : Buffer) : (s.setBuffer .ra b).replies = s.replies := rfl
@[simp] theorem State.setBuffer_ra_freeCount (s : State) (b : Buffer) : (s.setBuffer .ra b).freeCount = s.freeCount := rfl
@[simp] theorem State.buffer_ra (s : State) : s.buffer .ra = s.ra := rfl

@[simp] theorem State.setBuffer_rb_cmd (s : State) (b : Buffer) : (s.setBuffer .rb b).cmd = s.cmd := rfl
@[simp] theorem State.setBuffer_rb_status (s : State) (b : Buffer) : (s.setBuffer .rb b).status = s.status := rfl
@[simp] theorem State.setBuffer_rb_aux0 (s : State) (b : Buffer) : (s.setBuffer .rb b).aux0 = s.aux0 := rfl
@[simp] theorem State.setBuffer_rb_aux1 (s : State) (b : Buffer) : (s.setBuffer .rb b).aux1 = s.aux1 := rfl
@[simp] theorem State.setBuffer_rb_kmOn (s : State) (b : Buffer) : (s.setBuffer .rb b).kmOn = s.kmOn := rfl
@[simp] theorem State.setBuffer_rb_kmDc (s : State) (b : Buffer) : (s.setBuffer .rb b).kmDc = s.kmDc := rfl
@[simp] theorem State.setBuffer_rb_kmTt (s : State) (b : Buffer) : (s.setBuffer .rb b).kmTt = s.kmTt := rfl
@[simp] theorem State.setBuffer_rb_picnt (s : State) (b : Buffer) : (s.setBuffer .rb b).picnt = s.picnt := rfl
@[simp] theorem State.setBuffer_rb_piTable (s : State) (b : Buffer) : (s.setBuffer .rb b).piTable = s.piTable := rfl
@[simp] theorem State.setBuffer_rb_opa (s : State) (b : Buffer) : (s.setBuffer .rb b).opa = s.opa := rfl
@[simp] theorem State.setBuffer_rb_opb (s : State) (b : Buffer) : (s.setBuffer .rb b).opb = s.opb := rfl
@[simp] theorem State.setBuffer_rb_ra (s : State) (b : Buffer) : (s.setBuffer .rb b).ra = s.ra := rfl
@[simp] theorem State.setBuffer_rb_rb (s : State) (b : Buffer) : (s.setBuffer .rb b).rb = b := rfl
@[simp] theorem State.setBuffer_rb_rc (s : State) (b : Buffer) : (s.setBuffer .rb b).rc = s.rc := rfl
@[simp] theorem State.setBuffer_rb_cfg (s : State) (b : Buffer) : (s.setBuffer .rb b).cfg = s.cfg := rfl
@[simp] theorem State.setBuffer_rb_schedule (s : State) (b : Buffer) : (s.setBuffer .rb b).schedule = s.schedule := rfl
@[simp] theorem State.setBuffer_rb_replies (s : State) (b : Buffer) : (s.setBuffer .rb b).replies = s.replies := rfl
@[simp] theorem State.setBuffer_rb_freeCount (s : State) (b : Buffer) : (s.setBuffer .rb b).freeCount = s.freeCount := rfl
@[simp] theorem State.buffer_rb (s : State) : s.buffer .rb = s.rb := rfl

@[simp] theorem State.setBuffer_rc_cmd (s : State) (b : Buffer) : (s.setBuffer .rc b).cmd = s.cmd := rfl
@[simp] theorem State.setBuffer_rc_status (s : State) (b : Buffer) : (s.setBuffer .rc b).status = s.status := rfl
@[simp] theorem State.setBuffer_rc_aux0 (s : State) (b : Buffer) : (s.setBuffer .rc b).aux0 = s.aux0 := rfl
@[simp] theorem State.setBuffer_rc_aux1 (s : State) (b : Buffer) : (s.setBuffer .rc b).aux1 = s.aux1 := rfl
@[simp] theorem State.setBuffer_rc_kmOn (s : State) (b : Buffer) : (s.setBuffer .rc b).kmOn = s.kmOn := rfl
@[simp] theorem State.setBuffer_rc_kmDc (s : State) (b : Buffer) : (s.setBuffer .rc b).kmDc = s.kmDc := rfl
@[simp] theorem State.setBuffer_rc_kmTt (s : State) (b : Buffer) : (s.setBuffer .rc b).kmTt = s.kmTt := rfl
@[simp] theorem State.setBuffer_rc_picnt (s : State) (b : Buffer) : (s.setBuffer .rc b).picnt = s.picnt := rfl
@[simp] theorem State.setBuffer_rc_piTable (s : State) (b : Buffer) : (s.setBuffer .rc b).piTable = s.piTable := rfl
@[simp] theorem State.setBuffer_rc_opa (s : State) (b : Buffer) : (s.setBuffer .rc b).opa = s.opa := rfl
@[simp] theorem State.setBuffer_rc_opb (s : State) (b : Buffer) : (s.setBuffer .rc b).opb = s.opb := rfl
@[simp] theorem State.setBuffer_rc_ra (s : State) (b : Buffer) : (s.setBuffer .rc b).ra = s.ra := rfl
@[simp] theorem State.setBuffer_rc_rb (s : State) (b : Buffer) : (s.setBuffer .rc b).rb = s.rb := rfl
@[simp] theorem State.setBuffer_rc_rc (s : State) (b : Buffer) : (s.setBuffer .rc b).rc = b := rfl
@[simp] theorem State.setBuffer_rc_cfg (s : State) (b : Buffer) : (s.setBuffer .rc b).cfg = s.cfg := rfl
@[simp] theorem State.setBuffer_rc_schedule (s : State) (b : Buffer) : (s.setBuffer .rc b).schedule = s.schedule := rfl
@[simp] theorem State.setBuffer_rc_replies (s : State) (b : Buffer) : (s.setBuffer .rc b).replies = s.replies := rfl
@[simp] theorem State.setBuffer_rc_freeCount (s : State) (b : Buffer) : (s.setBuffer .rc b).freeCount = s.freeCount := rfl
@[simp] theorem State.buffer_rc (s : State) : s.buffer .rc = s.rc := rfl

theorem State.failWith_eq_complete (s : State) (e : Err) : s.failWith e = s.complete e.code {} := rfl

theorem State.deliver_eq_complete (s : State) (r : Results) : s.deliver r = s.complete 0#4 r := rfl

@[simp] theorem State.buffer_setBuffer (s : State) (n : BufName) (b : Buffer) : (s.setBuffer n b).buffer n = b := by
  cases n <;> rfl

/-- Replacing one buffer leaves the others. -/
theorem State.buffer_setBuffer_other (s : State) (n k : BufName) (b : Buffer) (h : k ≠ n) :
    (s.setBuffer n b).buffer k = s.buffer k := by
  cases n <;> cases k <;> first | rfl | exact absurd rfl h

end Sys2Proof.Machine
end

