-- ==== Sys2Proof/Laws/Status.lean ====
section
/-! SUPPORT. The fields of STATUS as they are laid out, and what the start of a command does to them (10_state.md R26,
R28). -/

namespace Sys2Proof.Machine

section Layout

variable (busy done : Bool) (err : BitVec 4) (f : Flags)

/-- Every bit of the layout of 10_state.md R26. -/
theorem statusWord_getLsbD (i : Nat) : (statusWord busy done err f).getLsbD i =
    if i = 0 then busy
    else if i = 1 then done
    else if i < 4 then false
    else if i < 8 then err.getLsbD (i - 4)
    else if i = 8 then f.valid
    else if i = 9 then f.corr
    else if i = 10 then f.uncorr
    else if i = 11 then f.ovf
    else if i = 12 then f.cout
    else if i = 13 then f.sign
    else if i < 16 then false
    else if i < 19 then f.cls.getLsbD (i - 16)
    else false := by
  rcases lt_or_ge i 32 with h | h
  · simp only [statusWord, BitVec.getLsbD_append, BitVec.getLsbD_ofBool, BitVec.getLsbD_zero]
    interval_cases i <;> simp
  · rw [BitVec.getLsbD_of_ge _ _ h]
    simp [show ¬ i < 4 by omega, show ¬ i < 8 by omega, show ¬ i < 16 by omega, show ¬ i < 19 by omega,
      show ¬ i = 0 by omega, show ¬ i = 1 by omega, show ¬ i = 8 by omega, show ¬ i = 9 by omega,
      show ¬ i = 10 by omega, show ¬ i = 11 by omega, show ¬ i = 12 by omega, show ¬ i = 13 by omega]

@[simp] theorem statusBusy_statusWord : statusBusy (statusWord busy done err f) = busy := by
  simp only [statusBusy, statusWord_getLsbD, if_true]

@[simp] theorem statusDone_statusWord : statusDone (statusWord busy done err f) = done := by
  simp only [statusDone, statusWord_getLsbD]
  rfl

@[simp] theorem statusErr_statusWord : statusErr (statusWord busy done err f) = err := by
  apply BitVec.eq_of_getLsbD_eq
  intro i hi
  simp only [statusErr, BitVec.getLsbD_extractLsb', statusWord_getLsbD, hi, decide_true, Bool.true_and]
  simp [show ¬ 4 + i < 4 by omega, show 4 + i < 8 by omega, show ¬ 4 + i = 1 by omega]

@[simp] theorem statusFlags_statusWord : statusFlags (statusWord busy done err f) = f := by
  have hcls : (statusWord busy done err f).extractLsb' 16 3 = f.cls := by
    apply BitVec.eq_of_getLsbD_eq
    intro i hi
    simp only [BitVec.getLsbD_extractLsb', statusWord_getLsbD, hi, decide_true, Bool.true_and]
    interval_cases i <;> simp
  cases f
  simp only [statusFlags, hcls, statusWord_getLsbD]
  simp

@[simp] theorem unassigned_statusWord : statusWord busy done err f &&& ~~~statusAssigned = 0#32 := by
  apply BitVec.eq_of_getLsbD_eq
  intro i hi
  simp only [BitVec.getLsbD_and, BitVec.getLsbD_not, hi, decide_true, Bool.true_and, BitVec.getLsbD_zero,
    statusWord_getLsbD, statusAssigned]
  interval_cases i <;> simp

end Layout

section Start

variable (w : Word)

/-- The bits of STATUS after a host write of CMD (10_state.md R28): BUSY 1, DONE 0, the others as they were. -/
theorem statusStarted_getLsbD (i : Nat) :
    (statusStarted w).getLsbD i = if i = 0 then true else if i = 1 then false else w.getLsbD i := by
  rcases lt_or_ge i 32 with h | h
  · simp only [statusStarted, BitVec.getLsbD_and, BitVec.getLsbD_or, BitVec.getLsbD_not, h, decide_true, Bool.true_and]
    interval_cases i <;> simp
  · simp [BitVec.getLsbD_of_ge _ _ h, show ¬ i = 0 by omega, show ¬ i = 1 by omega]

@[simp] theorem statusBusy_statusStarted : statusBusy (statusStarted w) = true := by
  simp only [statusBusy, statusStarted_getLsbD, if_true]

@[simp] theorem statusDone_statusStarted : statusDone (statusStarted w) = false := by
  simp only [statusDone, statusStarted_getLsbD]
  rfl

@[simp] theorem statusErr_statusStarted : statusErr (statusStarted w) = statusErr w := by
  apply BitVec.eq_of_getLsbD_eq
  intro i hi
  simp only [statusErr, BitVec.getLsbD_extractLsb', statusStarted_getLsbD]
  simp [show ¬ 4 + i = 1 by omega]

@[simp] theorem statusFlags_statusStarted : statusFlags (statusStarted w) = statusFlags w := by
  have hcls : (statusStarted w).extractLsb' 16 3 = w.extractLsb' 16 3 := by
    apply BitVec.eq_of_getLsbD_eq
    intro i hi
    simp only [BitVec.getLsbD_extractLsb', statusStarted_getLsbD]
    simp [show ¬ 16 + i = 1 by omega]
  simp only [statusFlags, hcls, statusStarted_getLsbD]
  simp

theorem unassigned_statusStarted (h : w &&& ~~~statusAssigned = 0#32) :
    statusStarted w &&& ~~~statusAssigned = 0#32 := by
  apply BitVec.eq_of_getLsbD_eq
  intro i hi
  have hw : (w &&& ~~~statusAssigned).getLsbD i = false := by simp [h]
  simp only [BitVec.getLsbD_and, BitVec.getLsbD_zero, statusStarted_getLsbD] at hw ⊢
  by_cases h0 : i = 0
  · subst h0
    simp [statusAssigned]
  · by_cases h1 : i = 1
    · subst h1
      simp
    · simpa [h0, h1] using hw

end Start

end Sys2Proof.Machine
end

