-- ==== Sys2Proof/Laws/Ops.lean ====
section
/-! SUPPORT. What completing a command does, said once (10_state.md R40, 60_exceptions.md R252): provers cite these
instead of unfolding State.complete, State.finish and exec. -/

namespace Sys2Proof.Machine

/-- Everything the end of an operation can do, in the order of 30_encoding.md R81. -/
theorem State.finish_cases (s : State) (x : Except Err Results) :
    (∃ e, x = .error e ∧ s.finish x = s.failWith e) ∨
    (∃ r, x = .ok r ∧ r.overCapacity s.cfg = true ∧ s.finish x = s.failWith .capacity) ∨
    (∃ r, x = .ok r ∧ r.overCapacity s.cfg = false ∧ r.selfCheck = false ∧ s.finish x = s.failWith .internal) ∨
    (∃ r, x = .ok r ∧ r.overCapacity s.cfg = false ∧ r.selfCheck = true ∧ s.finish x = s.deliver r) := by
  cases x with
  | error e => exact .inl ⟨e, rfl, rfl⟩
  | ok r =>
    cases hc : r.overCapacity s.cfg with
    | true => exact .inr (.inl ⟨r, rfl, hc, by simp [State.finish, hc]⟩)
    | false =>
      cases hi : r.selfCheck with
      | true => exact .inr (.inr (.inr ⟨r, rfl, hc, hi, by simp [State.finish, hc, hi]⟩))
      | false => exact .inr (.inr (.inl ⟨r, rfl, hc, hi, by simp [State.finish, hc, hi]⟩))

/-- Every end of an operation is a completion with some code and results. -/
theorem State.finish_eq_complete (s : State) (x : Except Err Results) :
    ∃ err r, s.finish x = s.complete err r := by
  rcases s.finish_cases x with ⟨e, -, h⟩ | ⟨r, -, -, h⟩ | ⟨r, -, -, -, h⟩ | ⟨r, -, -, -, h⟩ <;> exact ⟨_, _, h⟩

@[simp] theorem State.finish_error (s : State) (e : Err) : s.finish (.error e) = s.failWith e := rfl

theorem State.finish_ok (s : State) (r : Results) (hc : r.overCapacity s.cfg = false) (hs : r.selfCheck = true) :
    s.finish (.ok r) = s.deliver r := by
  simp [State.finish, hc, hs]

/-- A completion leaves the operands, CMD and the model's own fields (10_state.md R25). -/
theorem State.complete_untouched (s : State) (err : BitVec 4) (r : Results) : Untouched s (s.complete err r) :=
  ⟨rfl, rfl, rfl, rfl, rfl, rfl, rfl, rfl⟩

theorem Untouched.trans {s t u : State} (h : Untouched s t) (k : Untouched t u) : Untouched s u :=
  ⟨k.cmd.trans h.cmd, k.opa.trans h.opa, k.opb.trans h.opb, k.kmOn.trans h.kmOn, k.kmDc.trans h.kmDc,
    k.cfg.trans h.cfg, k.schedule.trans h.schedule, k.replies.trans h.replies⟩

/-- A text written to a buffer whose cells are in canonical form is held by it. -/
theorem Buffer.write_holds (b : Buffer) (t : Text) (h : Memory.wf b.cells = true) : Holds b (b.write t) t :=
  ⟨rfl, b.content_write t h, fun i hi => b.cell_write_past t i hi⟩

/-- An emptied buffer holds the empty text, whatever its cells are. -/
theorem Buffer.write_nil_holds (b : Buffer) : Holds b (b.write []) [] :=
  ⟨rfl, rfl, fun _ _ => rfl⟩

/-- A completion shows its code and its results, when the result buffers are in canonical form. -/
theorem State.complete_shows (s : State) (err : BitVec 4) (r : Results) (ha : Memory.wf s.ra.cells = true)
    (hb : Memory.wf s.rb.cells = true) (hc : Memory.wf s.rc.cells = true) : Shows s (s.complete err r) err r :=
  ⟨by simp [State.busy], by simp [State.done], by simp [State.err], by simp [State.flags], by simp, rfl, rfl, rfl, rfl,
    rfl, s.ra.write_holds _ ha, s.rb.write_holds _ hb, s.rc.write_holds _ hc⟩

/-- An error completion shows its code and nothing else (60_exceptions.md R252). -/
theorem State.failWith_shows (s : State) (e : Err) : Shows s (s.failWith e) e.code {} :=
  ⟨by simp [State.busy, State.failWith_eq_complete], by simp [State.done, State.failWith_eq_complete],
    by simp [State.err, State.failWith_eq_complete], by simp [State.flags, State.failWith_eq_complete],
    by simp [State.failWith_eq_complete], rfl, rfl, rfl, rfl, rfl,
    s.ra.write_nil_holds, s.rb.write_nil_holds, s.rc.write_nil_holds⟩

/-- The invariant gives the canonical form of the result buffers. -/
theorem State.inv_resultCells (s : State) (h : s.inv = true) :
    Memory.wf s.ra.cells = true ∧ Memory.wf s.rb.cells = true ∧ Memory.wf s.rc.cells = true := by
  simp only [State.inv, Buffer.ok, Bool.and_eq_true] at h
  tauto

/-- What the rule of each operation computes before the end of R81. -/
def opResult : Instr → State → Except Err Results
  | .crcEnc, s => crcEncode s.opa.content s.opb.content
  | .crcDec fix, s => crcDecode s.cfg.crcFixOrder s.freeCount fix s.opa.content s.opb.content
  | .hamEnc, s => hamEncode s.opa.content
  | .hamDec, s => hamDecode s.opa.content
  | .f754Dec prec t, s => f754Decode prec t s.opa.content
  | .f754Enc prec, s => f754Encode prec s.opa.content
  | .f754Add prec t, s => f754Add s.cfg prec t s.opa.content s.opb.content
  | .tcEnc w, s => tcEncode w.toNat s.opa.content
  | .tcDec w, s => tcDecode w.toNat s.opa.content
  | .tcAdd w, s => tcAdd w.toNat s.opa.content s.opb.content
  | .tcSub w, s => tcSub w.toNat s.opa.content s.opb.content
  | .grayEnc, s => grayEncode s.opa.content
  | .grayDec, s => grayDecode s.opa.content
  | .kmEval n, s => kmEval n.toNat s.opa.content
  | .kmPi n, s => kmPi s.cfg n.toNat s.kmOn s.kmDc
  | .kmCover n, s => kmCover s.cfg s.freeCount n.toNat s.kmOn s.kmDc

@[simp] theorem State.finish_freeCount (s : State) (x : Except Err Results) : (s.finish x).freeCount = s.freeCount := by
  obtain ⟨err, r, h⟩ := s.finish_eq_complete x
  rw [h, State.complete_freeCount]

/-- Setting the counter to what it is changes nothing. -/
theorem State.finish_withFreeCount (s : State) (x : Except Err Results) :
    { s.finish x with freeCount := s.freeCount } = s.finish x := by
  have h := s.finish_freeCount x
  cases hx : s.finish x
  simp_all

/-- Everything exec can do: the end of the operation's rule, and the free values drawn. -/
theorem exec_eq (i : Instr) (s : State) :
    exec i s = .next { s.finish (opResult i s) with freeCount := s.freeCount + draws i } := by
  have hd (x : Except Err Results) : (s.finish x).drawn = { s.finish x with freeCount := s.freeCount + 1 } := by
    rw [State.drawn, State.finish_freeCount]
  cases i <;> simp only [opResult, draws, Nat.add_zero, State.finish_withFreeCount] <;>
    first
      | rfl
      | exact congrArg Host.Outcome.next (hd _)

/-- A command whose rule gives results that fit and pass the self-checks completes with them. -/
theorem completes_of_ok (i : Instr) (s : State) (r : Results) (hs : s.inv = true) (hr : opResult i s = .ok r)
    (hc : r.overCapacity s.cfg = false) (hk : r.selfCheck = true) : Completes i s r := by
  obtain ⟨ha, hb, hcc⟩ := s.inv_resultCells hs
  have hshow := s.complete_shows 0#4 r ha hb hcc
  refine ⟨_, exec_eq i s, ?_, rfl, ?_⟩ <;> rw [hr, State.finish_ok s r hc hk]
  · exact ⟨rfl, rfl, rfl, rfl, rfl, rfl, rfl, rfl⟩
  · exact ⟨hshow.busy, hshow.done, hshow.err, hshow.flags, hshow.unassigned, hshow.aux0, hshow.aux1, hshow.kmTt,
      hshow.picnt, hshow.piTable, hshow.ra, hshow.rb, hshow.rc⟩

/-- A command whose end is an error completion fails with that error. -/
theorem failsWith_of_finish (i : Instr) (s : State) (e : Err) (h : s.finish (opResult i s) = s.failWith e) :
    FailsWith i s e := by
  have hshow := s.failWith_shows e
  refine ⟨_, exec_eq i s, ?_, rfl, ?_⟩ <;> rw [h]
  · exact ⟨rfl, rfl, rfl, rfl, rfl, rfl, rfl, rfl⟩
  · exact ⟨hshow.busy, hshow.done, hshow.err, hshow.flags, hshow.unassigned, hshow.aux0, hshow.aux1, hshow.kmTt,
      hshow.picnt, hshow.piTable, hshow.ra, hshow.rb, hshow.rc⟩

/-- A command one of whose checks fails ends with that check's error. -/
theorem failsWith_of_error (i : Instr) (s : State) (e : Err) (h : opResult i s = .error e) : FailsWith i s e :=
  failsWith_of_finish i s e (by rw [h, State.finish_error])

/-- A command whose results do not fit ends with E_CAPACITY. -/
theorem failsWith_capacity (i : Instr) (s : State) (r : Results) (h : opResult i s = .ok r)
    (hc : r.overCapacity s.cfg = true) : FailsWith i s .capacity :=
  failsWith_of_finish i s _ (by rw [h]; simp [State.finish, hc])

end Sys2Proof.Machine
end

