-- ==== Sys2Proof/Laws/Kmap.lean ====
section
/-! SUPPORT. Maps of minterms and rectangles (46_kmap.md R221, R228): what the machine's rectangle is, bit by bit; and the
symbols and the value of an expression (R222, R223). -/

namespace Sys2Proof.Machine

/-- The symbols of the alphabet (46_kmap.md R222), the variables in use by their numbers. -/
def kmSymbols : List KmTok :=
  [.plus, .dot, .bang, .prime, .lpar, .rpar, .var 0, .var 1, .var 2, .var 3, .var 4]

/-- The reader's symbols are those the codes of 30_encoding.md R73 give. -/
theorem kmTok?_eq_some_iff (c : Byte) (k : KmTok) : kmTok? c = some k ↔ IsKmSymbol c k := by
  have range : ∀ c : Byte, kmTok? c = none ∨ ∃ k ∈ kmSymbols, kmTok? c = some k := by decide +kernel
  have agree : ∀ c : Byte, ∀ k ∈ kmSymbols, kmTok? c = some k ↔ IsKmSymbol c k := by
    simp only [kmSymbols, List.mem_cons, List.not_mem_nil, or_false, forall_eq_or_imp, forall_eq, IsKmSymbol]
    decide +kernel
  by_cases hk : k ∈ kmSymbols
  · exact agree c k hk
  · constructor
    · intro hs
      rcases range c with hn | ⟨k', hk', h'⟩
      · simp [hn] at hs
      · rw [h', Option.some.injEq] at hs
        exact absurd (hs ▸ hk') hk
    · intro hs
      refine absurd ?_ hk
      cases k <;> simp_all [IsKmSymbol, kmSymbols]
      omega

/-- The evaluator gives the value of 46_kmap.md R223. -/
theorem kmValue_eq_eval (n t : Nat) (e : KmExpr) : kmValue n t e = (e.eval n t).toNat := by
  induction e with
  | var v =>
    simp only [kmValue, KmExpr.eval, kmVarAt, Nat.testBit_eq_decide_div_mod_eq]
    rcases Nat.mod_two_eq_zero_or_one (t / 2 ^ (n - 1 - v)) with h | h <;> simp [h]
  | not e ih => cases h : e.eval n t <;> simp [kmValue, KmExpr.eval, ih, h]
  | and a b iha ihb => cases ha : a.eval n t <;> cases hb : b.eval n t <;> simp [kmValue, KmExpr.eval, iha, ihb, ha, hb]
  | or a b iha ihb => cases ha : a.eval n t <;> cases hb : b.eval n t <;> simp [kmValue, KmExpr.eval, iha, ihb, ha, hb]

/-- The bits of a map: the minterms listed, below 32 (46_kmap.md R221). -/
theorem mintermMap_getLsbD (ts : List Nat) (t : Nat) :
    (mintermMap ts).getLsbD t = decide (t < 32 ∧ t ∈ ts) := by
  have key : ∀ w : Word, (ts.foldl (fun w t => w ||| 1#32 <<< t) w).getLsbD t =
      (w.getLsbD t || decide (t < 32 ∧ t ∈ ts)) := by
    induction ts with
    | nil => simp
    | cons a ts ih =>
      intro w
      rw [List.foldl_cons, ih]
      by_cases ht : t < 32
      · rw [BitVec.getLsbD_or, BitVec.getLsbD_shiftLeft]
        by_cases hat : t < a
        · have : t ≠ a := by omega
          simp [ht, hat, this]
        · by_cases he : t = a
          · subst he
            simp [ht]
          · have : ¬t - a = 0 := by omega
            simp [ht, hat, he, this]
      · simp [ht, BitVec.getLsbD_of_ge _ t (Nat.le_of_not_lt ht)]
  simp [mintermMap, key]

theorem mem_mintermMap (ts : List Nat) (t : Nat) : mem (mintermMap ts) t ↔ t < 32 ∧ t ∈ ts := by
  simp [mem, mintermMap_getLsbD]

/-- Two maps with the same minterms are equal. -/
theorem mem_ext (P Q : Word) (h : ∀ t, mem P t ↔ mem Q t) : P = Q := by
  apply BitVec.eq_of_getLsbD_eq
  intro t _
  have := h t
  simp only [mem] at this
  cases hp : P.getLsbD t <;> cases hq : Q.getLsbD t <;> simp_all

/-- The machine's cell is the one 46_kmap.md R227 names. -/
theorem kmCell_eq (colBits i j : Nat) : kmCell colBits i j = gridCell colBits i j := by
  simp [kmCell, gridCell, grayCode, Nat.shiftRight_one]

/-- A Gray code has no more bits than its position. -/
theorem gray_lt (i k : Nat) (h : i < 2 ^ k) : i ^^^ i >>> 1 < 2 ^ k :=
  Nat.xor_lt_two_pow h (lt_of_le_of_lt (Nat.shiftRight_le i 1) h)

/-- Every cell of the grid is a minterm of its variables. -/
theorem gridCell_lt (rowBits colBits i j : Nat) (hi : i < 2 ^ rowBits) (hj : j < 2 ^ colBits) :
    gridCell colBits i j < 2 ^ (rowBits + colBits) := by
  have h1 := gray_lt i rowBits hi
  have h2 := gray_lt j colBits hj
  have h3 : (i ^^^ i >>> 1) * 2 ^ colBits + 2 ^ colBits ≤ 2 ^ rowBits * 2 ^ colBits := by
    rw [← Nat.succ_mul]
    exact Nat.mul_le_mul_right _ h1
  rw [gridCell, Nat.pow_add]
  omega

/-- The machine's rectangle, by its minterms, on a grid of at most 32 cells (46_kmap.md R228). -/
theorem mem_kmRect (layout : Nat × Nat) (hb wb i0 j0 t : Nat) (hl : layout.1 + layout.2 ≤ 5) :
    mem (kmRect layout hb wb i0 j0) t ↔ ∃ a b, a < 2 ^ hb ∧ b < 2 ^ wb ∧
      t = gridCell layout.2 ((i0 + a) % 2 ^ layout.1) ((j0 + b) % 2 ^ layout.2) := by
  rw [kmRect, mem_mintermMap]
  simp only [List.mem_flatMap, List.mem_map, List.mem_range, kmCell_eq]
  constructor
  · rintro ⟨-, a, ha, b, hb, rfl⟩
    exact ⟨a, b, ha, hb, rfl⟩
  · rintro ⟨a, b, ha, hb, rfl⟩
    refine ⟨?_, a, ha, b, hb, rfl⟩
    refine lt_of_lt_of_le (gridCell_lt layout.1 layout.2 _ _ (Nat.mod_lt _ (by positivity))
      (Nat.mod_lt _ (by positivity))) ?_
    exact Nat.pow_le_pow_right (n := 2) (by omega) hl

/-- A rectangle of 46_kmap.md R228 is the machine's rectangle of that size and start. -/
theorem rectIs_iff (layout : Nat × Nat) (r : Rect) (Q : Word) (hl : layout.1 + layout.2 ≤ 5) :
    RectIs layout r Q ↔ r.hb ≤ layout.1 ∧ r.wb ≤ layout.2 ∧ r.i0 < 2 ^ layout.1 ∧ r.j0 < 2 ^ layout.2 ∧
      Q = kmRect layout r.hb r.wb r.i0 r.j0 := by
  constructor
  · rintro ⟨h1, h2, h3, h4, h5⟩
    exact ⟨h1, h2, h3, h4, mem_ext _ _ (fun t => by rw [h5, mem_kmRect _ _ _ _ _ _ hl])⟩
  · rintro ⟨h1, h2, h3, h4, rfl⟩
    exact ⟨h1, h2, h3, h4, fun t => mem_kmRect _ _ _ _ _ _ hl⟩

/-- Inclusion of sets of minterms, as the machine tests it. -/
theorem subsetMap_iff (A B : Word) : subsetMap A B = true ↔ ∀ t, mem A t → mem B t := by
  simp only [subsetMap, beq_iff_eq]
  constructor
  · intro h t ht
    rw [mem, ← h, BitVec.getLsbD_and, Bool.and_eq_true] at ht
    exact ht.2
  · intro h
    apply mem_ext
    intro t
    simp only [mem, BitVec.getLsbD_and, Bool.and_eq_true]
    exact ⟨fun h' => h'.1, fun h' => ⟨h', h t h'⟩⟩

/-- A map is not empty iff it has a minterm. -/
theorem ne_zero_iff (A : Word) : A ≠ 0#32 ↔ ∃ t, mem A t := by
  constructor
  · intro h
    by_contra hn
    push Not at hn
    exact h (mem_ext _ _ (fun t => by simp [mem] at hn ⊢; exact hn t))
  · rintro ⟨t, ht⟩ rfl
    simp [mem] at ht

/-- A valid implicant, as the machine tests it (46_kmap.md R229). -/
theorem kmValid_iff (on dc Q : Word) :
    kmValid on dc Q = true ↔ (∀ t, mem Q t → mem on t ∨ mem dc t) ∧ ∃ t, mem Q t ∧ mem on t := by
  simp only [kmValid, Bool.and_eq_true, subsetMap_iff, bne_iff_ne, ne_zero_iff]
  simp [mem]

end Sys2Proof.Machine
end

