-- ==== Sys2Proof/Laws/Operands.lean ====
section
/-! SUPPORT. What each operand format can answer (30_encoding.md R76 to R79), and the checks that come before. -/

namespace Sys2Proof.Machine

@[simp] theorem require_true (e : Err) : require true e = .ok () := rfl

@[simp] theorem require_false (e : Err) : require false e = .error e := rfl

/-- A check passed: it held. -/
theorem require_ok (b : Bool) (e : Err) : require b e = .ok () ↔ b = true := by
  cases b <;> simp [require]

@[simp] theorem bitChar_isBitChar (x : Bool) : isBitChar (bitChar x) = true := by cases x <;> decide

/-- A character of the alphabet is the text of its bit. -/
theorem bitChar_of_isBitChar (c : Byte) (h : isBitChar c = true) : bitChar (c == chOne) = c := by
  simp only [isBitChar, Bool.or_eq_true, beq_iff_eq] at h
  rcases h with rfl | rfl <;> decide

/-- A text within the alphabet is the text of the bits read from it. -/
theorem bitsText_of_isBitChar (t : Text) (h : t.all isBitChar = true) :
    bitsText (t.map (fun c => c == chOne)) = t := by
  rw [bitsText, List.map_map]
  refine (List.map_congr_left (fun c hc => ?_)).trans t.map_id
  exact bitChar_of_isBitChar c (List.all_eq_true.1 h c hc)

/-- Cleaning is done once: cleaned text has no space left. -/
@[simp] theorem clean_clean (t : Text) : clean (clean t) = clean t := by simp [clean]

/-- Everything format BITS can answer, in the order of its checks (30_encoding.md R76). -/
theorem bitsOperand_cases (content : Text) :
    (clean content = [] ∧ bitsOperand content = .error .empty) ∨
    (clean content ≠ [] ∧ (clean content).all isBitChar = false ∧ bitsOperand content = .error .char) ∨
    (∃ b, b ≠ [] ∧ clean content = bitsText b ∧ bitsOperand content = .ok b) := by
  rcases hc : clean content with _ | ⟨c, t⟩
  · exact .inl ⟨rfl, by simp [bitsOperand, hc, bind, Except.bind]⟩
  · cases ha : (clean content).all isBitChar with
    | false =>
      rw [hc] at ha
      exact .inr (.inl ⟨by simp, ha, by simp only [bitsOperand, hc, ha]; rfl⟩)
    | true =>
      refine .inr (.inr ⟨(clean content).map (fun c => c == chOne), by simp [hc], ?_, ?_⟩)
      · rw [bitsText_of_isBitChar _ ha, hc]
      · rw [hc] at ha ⊢
        simp only [bitsOperand, hc, ha]
        rfl

/-- The value of format BITS (30_encoding.md R76): the cleaned content is the text of the bits, which are not none. -/
theorem bitsOperand_ok_iff (content : Text) (b : Bits) :
    bitsOperand content = .ok b ↔ b ≠ [] ∧ clean content = bitsText b := by
  rcases bitsOperand_cases content with ⟨hc, h⟩ | ⟨-, ha, h⟩ | ⟨b', hb, hc, h⟩ <;> rw [h]
  · constructor
    · intro h
      cases h
    · rintro ⟨hb, ht⟩
      rw [hc] at ht
      exact absurd (List.map_eq_nil_iff.1 ht.symm) hb
  · constructor
    · intro h
      cases h
    · rintro ⟨-, ht⟩
      rw [ht] at ha
      simp [bitsText] at ha
  · constructor
    · intro h
      cases h
      exact ⟨hb, hc⟩
    · rintro ⟨-, ht⟩
      rw [← bitsText_read b, ← ht, hc, bitsText_read]

/-- Format BITS of exact length (30_encoding.md R76): the format's answer, then E_WIDTH. -/
theorem bitsOperandOf_eq (L : Nat) (content : Text) : bitsOperandOf L content =
    match bitsOperand content with
    | .error e => .error e
    | .ok b => if b.length = L then .ok b else .error .width := by
  unfold bitsOperandOf
  cases bitsOperand content with
  | error e => rfl
  | ok b =>
    by_cases h : b.length = L
    · simp [h, bind, Except.bind, pure, Except.pure]
    · simp only [bind, Except.bind, h, if_false, beq_eq_false_iff_ne.2 h, require_false]

/-- The value of format BITS of exact length. -/
theorem bitsOperandOf_ok_iff (L : Nat) (content : Text) (b : Bits) :
    bitsOperandOf L content = .ok b ↔ bitsOperand content = .ok b ∧ b.length = L := by
  rw [bitsOperandOf_eq]
  cases h : bitsOperand content with
  | error e => simp
  | ok b' =>
    by_cases hl : b'.length = L
    · simp only [hl, if_true, Except.ok.injEq]
      constructor
      · rintro rfl
        exact ⟨rfl, hl⟩
      · exact fun h => h.1
    · simp only [hl, if_false, Except.ok.injEq, reduceCtorEq, false_iff, not_and]
      rintro rfl
      exact hl

/-- Cleaning makes no text longer. -/
theorem clean_length_le (t : Text) : (clean t).length ≤ t.length := List.length_filter_le _ _

/-- The bits of an operand are no more than the buffer's LEN. -/
theorem bitsOperand_length_le (b : Buffer) (x : Bits) (h : bitsOperand b.content = .ok x) : x.length ≤ b.len := by
  have h1 := ((bitsOperand_ok_iff _ _).1 h).2
  have h2 := clean_length_le b.content
  have h3 : b.content.length = b.len := by simp [Buffer.content]
  rw [h1, bitsText_length] at h2
  omega

end Sys2Proof.Machine
end

