-- ==== Sys2Proof/Laws/PerInstr.lean ====
section
/-! SUPPORT. Statements about every instruction as syntax, one lemma per constructor: the encoded word holds OPC and ARG
where 30_encoding.md R70 puts them, and its reserved field is 0. -/

namespace Sys2Proof

/-- The fields of a command word are what it was made of (30_encoding.md R70). -/
theorem commandWord_fields (arg opc : BitVec 8) :
    opcField (commandWord arg opc) = opc ∧ argField (commandWord arg opc) = arg ∧
      rsvField (commandWord arg opc) = 0#16 := by
  refine ⟨?_, ?_, ?_⟩ <;> apply BitVec.eq_of_getLsbD_eq <;> intro i hi <;>
    simp only [opcField, argField, rsvField, commandWord, BitVec.getLsbD_extractLsb', BitVec.getLsbD_append, hi,
      decide_true, Bool.true_and, BitVec.getLsbD_zero]
  · simp [hi]
  · simp [hi, show ¬ 8 + i < 8 by omega]
  · simp [show ¬ 16 + i < 8 by omega, show ¬ 16 + i - 8 < 8 by omega]

/-- The fields of an encoded instruction. -/
def Laws.EncodeFields.Statement (i : Instr) : Prop :=
  opcField (encode i) = i.opc ∧ argField (encode i) = i.arg ∧ rsvField (encode i) = 0#16

theorem Laws.EncodeFields.crcEnc : Laws.EncodeFields.Statement (.crcEnc) := commandWord_fields _ _

theorem Laws.EncodeFields.crcDec (fix : Bool) : Laws.EncodeFields.Statement (.crcDec fix) := commandWord_fields _ _

theorem Laws.EncodeFields.hamEnc : Laws.EncodeFields.Statement (.hamEnc) := commandWord_fields _ _

theorem Laws.EncodeFields.hamDec : Laws.EncodeFields.Statement (.hamDec) := commandWord_fields _ _

theorem Laws.EncodeFields.f754Dec (prec : Precision) (t : InType) : Laws.EncodeFields.Statement (.f754Dec prec t) := commandWord_fields _ _

theorem Laws.EncodeFields.f754Enc (prec : Precision) : Laws.EncodeFields.Statement (.f754Enc prec) := commandWord_fields _ _

theorem Laws.EncodeFields.f754Add (prec : Precision) (t : InType) : Laws.EncodeFields.Statement (.f754Add prec t) := commandWord_fields _ _

theorem Laws.EncodeFields.tcEnc (w : BitVec 8) : Laws.EncodeFields.Statement (.tcEnc w) := commandWord_fields _ _

theorem Laws.EncodeFields.tcDec (w : BitVec 8) : Laws.EncodeFields.Statement (.tcDec w) := commandWord_fields _ _

theorem Laws.EncodeFields.tcAdd (w : BitVec 8) : Laws.EncodeFields.Statement (.tcAdd w) := commandWord_fields _ _

theorem Laws.EncodeFields.tcSub (w : BitVec 8) : Laws.EncodeFields.Statement (.tcSub w) := commandWord_fields _ _

theorem Laws.EncodeFields.grayEnc : Laws.EncodeFields.Statement (.grayEnc) := commandWord_fields _ _

theorem Laws.EncodeFields.grayDec : Laws.EncodeFields.Statement (.grayDec) := commandWord_fields _ _

theorem Laws.EncodeFields.kmEval (n : BitVec 8) : Laws.EncodeFields.Statement (.kmEval n) := commandWord_fields _ _

theorem Laws.EncodeFields.kmPi (n : BitVec 8) : Laws.EncodeFields.Statement (.kmPi n) := commandWord_fields _ _

theorem Laws.EncodeFields.kmCover (n : BitVec 8) : Laws.EncodeFields.Statement (.kmCover n) := commandWord_fields _ _

end Sys2Proof
end

