-- ==== Sys2Proof/Laws/Step.lean ====
section
/-! SUPPORT. Everything one turn can do (20_memory.md R52, R56, R57): inversion lemmas for the host's actions, the
engine's turn and the step, from which every invariant is derived. -/

namespace Sys2Proof.Machine

/-- Every engine's turn gives a next state: idle, an illegal word, or a command. -/
theorem engineTurn_cases (s : State) :
    (s.busy = false ∧ engineTurn s = .next s) ∨
    (s.busy = true ∧ ∃ e, s.fetch = .error e ∧ engineTurn s = .next (s.failWith .illegalCmd)) ∨
    (s.busy = true ∧ ∃ i, s.fetch = .ok i ∧
      engineTurn s = .next { s.finish (opResult i s) with freeCount := s.freeCount + draws i }) := by
  cases hb : s.busy with
  | false => exact .inl ⟨rfl, by simp [engineTurn, hb]⟩
  | true =>
    refine .inr ?_
    cases hf : s.fetch with
    | error e => exact .inl ⟨rfl, e, rfl, by simp [engineTurn, hb, execute, hf]⟩
    | ok i => exact .inr ⟨rfl, i, rfl, by simp [engineTurn, hb, execute, hf, exec_eq]⟩

/-- Every next state of a host action: a command started, an operand written while `BUSY = 0`, or a value read. -/
theorem hostAct_cases (s t : State) (a : HostAction) (h : s.hostAct a = .next t) :
    (∃ v, a = .writeReg 0 v ∧ s.busy = false ∧ t = s.startCommand v) ∨
    (∃ v, a = .writeReg 4 v ∧ s.busy = false ∧ t = { s with kmOn := v }) ∨
    (∃ v, a = .writeReg 5 v ∧ s.busy = false ∧ t = { s with kmDc := v }) ∨
    (∃ b i c, a = .writeCell b i c ∧ b.isResult = false ∧ i < s.cfg.bufmax ∧ s.busy = false ∧
      t = s.setBuffer b { s.buffer b with cells := (s.buffer b).cells.write i c }) ∨
    (∃ b l, a = .writeLen b l ∧ b.isResult = false ∧ l ≤ s.cfg.bufmax ∧ s.busy = false ∧
      t = s.setBuffer b { s.buffer b with len := l }) ∨
    (∃ n, a = .readReg n ∧ s.hasRegister n = true ∧ (isResultRegister n = true → s.busy = false) ∧
      t = s.reply (.reg (s.register n))) ∨
    (∃ b, a = .readLen b ∧ (b.isResult = true → s.busy = false) ∧ t = s.reply (.len (s.buffer b).len)) ∨
    (∃ b i, a = .readCell b i ∧ i < s.cfg.bufmax ∧
      (b.isResult = true → s.busy = false ∧ i < (s.buffer b).len) ∧ t = s.reply (.cell ((s.buffer b).cell i))) := by
  cases a with
  | writeReg n v =>
    simp only [State.hostAct, State.hostWriteReg] at h
    split at h
    · cases h
    · split at h
      · next hn =>
        subst hn
        split at h
        · cases h
        · next hb => cases h; exact .inl ⟨v, rfl, by simpa using hb, rfl⟩
      · split at h
        · next hn =>
          subst hn
          split at h
          · cases h
          · next hb => cases h; exact .inr (.inl ⟨v, rfl, by simpa using hb, rfl⟩)
        · split at h
          · next hn =>
            subst hn
            split at h
            · cases h
            · next hb => cases h; exact .inr (.inr (.inl ⟨v, rfl, by simpa using hb, rfl⟩))
          · cases h
  | writeCell b i c =>
    simp only [State.hostAct, State.hostWriteCell] at h
    split at h
    · cases h
    · next hi =>
      split at h
      · cases h
      · next hr =>
        split at h
        · cases h
        · next hb =>
          cases h
          exact .inr (.inr (.inr (.inl ⟨b, i, c, rfl, by simpa using hr, Nat.lt_of_not_le hi, by simpa using hb, rfl⟩)))
  | writeLen b l =>
    simp only [State.hostAct, State.hostWriteLen] at h
    split at h
    · cases h
    · next hr =>
      split at h
      · cases h
      · next hl =>
        split at h
        · cases h
        · next hb =>
          cases h
          exact .inr (.inr (.inr (.inr (.inl
            ⟨b, l, rfl, by simpa using hr, Nat.le_of_not_lt hl, by simpa using hb, rfl⟩))))
  | readReg n =>
    simp only [State.hostAct, State.hostReadReg] at h
    split at h
    · cases h
    · next hn =>
      split at h
      · cases h
      · next hb =>
        cases h
        exact .inr (.inr (.inr (.inr (.inr (.inl
          ⟨n, rfl, by simpa using hn, by simpa using hb, rfl⟩)))))
  | readLen b =>
    simp only [State.hostAct, State.hostReadLen] at h
    split at h
    · cases h
    · next hb =>
      cases h
      exact .inr (.inr (.inr (.inr (.inr (.inr (.inl ⟨b, rfl, by simpa using hb, rfl⟩))))))
  | readCell b i =>
    simp only [State.hostAct, State.hostReadCell] at h
    split at h
    · cases h
    · next hi =>
      split at h
      · cases h
      · next hb =>
        split at h
        · cases h
        · next hl =>
          cases h
          refine .inr (.inr (.inr (.inr (.inr (.inr (.inr ⟨b, i, rfl, Nat.lt_of_not_le hi, fun hr => ?_, rfl⟩))))))
          simp_all

/-- Everything a step can do: the engine's turn or a host action, on the state with that turn taken off the schedule. -/
theorem step_cases (s : State) :
    (s.schedule = [] ∧ step s = engineTurn s) ∨
    (∃ rest, s.schedule = .engine :: rest ∧ step s = engineTurn { s with schedule := rest }) ∨
    (∃ a rest, s.schedule = .host a :: rest ∧ step s = State.hostAct { s with schedule := rest } a) := by
  unfold step
  rcases h : s.schedule with _ | ⟨e, rest⟩
  · exact .inl ⟨rfl, rfl⟩
  · cases e with
    | engine => exact .inr (.inl ⟨rest, rfl, rfl⟩)
    | host a => exact .inr (.inr ⟨a, rest, rfl, rfl⟩)

end Sys2Proof.Machine
end

