-- ==== Sys2Proof/Tests/Slice0.lean ====
section
/-! SUPPORT. The model's own tests: expected values are the spec's (95_test_vectors.md, 96_test_vectors_by_family.md, and
the worked examples of the rules), never the model's. The last part shows, for every statement with hypotheses, a state
and operands that meet them. -/

namespace Sys2Proof.Tests

open Sys2Proof.Machine

-- The tests run one after another: each would otherwise take a thread, and a thread's stack, of its own.
set_option Elab.async false

/-! ## Helpers -/

/-- A written text as character codes. -/
def txt (w : String) : Text := w.toList.map (fun c => BitVec.ofNat 8 c.toNat)

/-- The reset state with two operand texts. -/
def loaded (opa opb : Text) : State :=
  { State.reset with opa := Buffer.reset.write opa, opb := Buffer.reset.write opb }

/-- The reset state with the K-map operands. -/
def withMaps (on dc : Word) : State := { State.reset with kmOn := on, kmDc := dc }

/-- The state after one operation. -/
def after (i : Instr) (s : State) : State :=
  match exec i s with
  | .next t => t
  | .fault _ => s
  | .refused _ => s

/-- The state after one turn. -/
def stepped (s : State) : State :=
  match step s with
  | .next t => t
  | .fault _ => s
  | .refused _ => s

/-- STATUS, AUX0, AUX1, RA, RB, RC. -/
def seen (t : State) : Word × Nat × Nat × Text × Text × Text :=
  (t.status, t.aux0.toNat, t.aux1.toNat, t.ra.content, t.rb.content, t.rc.content)

/-! ## Well-formedness: an ill-formed term for each check (30_encoding.md R71; 00_scope.md R5) -/

theorem test_wf_width_zero : (Instr.tcEnc 0#8).wf 64 = false := by decide
theorem test_wf_width_over : (Instr.tcAdd 65#8).wf 64 = false := by decide
theorem test_wf_width_bounds : (Instr.tcSub 1#8).wf 64 = true ∧ (Instr.tcDec 64#8).wf 64 = true := by decide
theorem test_wf_nvars_zero : (Instr.kmEval 0#8).wf 64 = false := by decide
theorem test_wf_nvars_over : (Instr.kmPi 6#8).wf 64 = false := by decide
theorem test_wf_nvars_bounds : (Instr.kmCover 1#8).wf 64 = true ∧ (Instr.kmCover 5#8).wf 64 = true := by decide
theorem test_config_default_wf : Config.default.wf = true := by decide
theorem test_config_bufmax : ({ Config.default with bufmax := 1076 } : Config).wf = false := by decide
theorem test_config_tcwMax : ({ Config.default with tcwMax := 256 } : Config).wf = false ∧
    ({ Config.default with tcwMax := 0 } : Config).wf = false := by decide
theorem test_config_pimax : ({ Config.default with pimax := 256 } : Config).wf = false ∧
    ({ Config.default with pimax := 0 } : Config).wf = false := by decide
theorem test_config_layout : ({ Config.default with kmLayout := [(0, 1), (1, 1), (1, 1), (2, 2), (2, 3)] } : Config).wf
    = false := by decide
theorem test_config_nan : ({ Config.default with nanSingle := 0x7F800000#32 } : Config).wf = false ∧
    ({ Config.default with nanDouble := 0#64 } : Config).wf = false := by decide

/-! ## Decoding: words of the table of 30_encoding.md R85, written out (RSV, ARG, OPC) -/

theorem test_decode_crcEnc : decode 64 0b0000000000000000_00000000_00000001#32 = .ok .crcEnc := by decide
theorem test_decode_crcDec : decode 64 0b0000000000000000_00000000_00000010#32 = .ok (.crcDec false) := by decide
theorem test_decode_crcDec_fix : decode 64 0b0000000000000000_00000001_00000010#32 = .ok (.crcDec true) := by decide
theorem test_decode_hamEnc : decode 64 0b0000000000000000_00000000_00000011#32 = .ok .hamEnc := by decide
theorem test_decode_hamDec : decode 64 0b0000000000000000_00000000_00000100#32 = .ok .hamDec := by decide
theorem test_decode_f754Dec : decode 64 0b0000000000000000_00000010_00000101#32 = .ok (.f754Dec .single .hex) := by
  decide
theorem test_decode_f754Enc : decode 64 0b0000000000000000_00000001_00000110#32 = .ok (.f754Enc .double) := by decide
theorem test_decode_f754Add : decode 64 0b0000000000000000_00000001_00000111#32 = .ok (.f754Add .double .binary) := by
  decide
theorem test_decode_tcEnc : decode 64 0b0000000000000000_00000100_00001000#32 = .ok (.tcEnc 4#8) := by decide
theorem test_decode_tcDec : decode 64 0b0000000000000000_01000000_00001001#32 = .ok (.tcDec 64#8) := by decide
theorem test_decode_tcAdd : decode 64 0b0000000000000000_00001000_00001010#32 = .ok (.tcAdd 8#8) := by decide
theorem test_decode_tcSub : decode 64 0b0000000000000000_00000001_00001011#32 = .ok (.tcSub 1#8) := by decide
theorem test_decode_grayEnc : decode 64 0b0000000000000000_00000000_00001100#32 = .ok .grayEnc := by decide
theorem test_decode_grayDec : decode 64 0b0000000000000000_00000000_00001101#32 = .ok .grayDec := by decide
theorem test_decode_kmEval : decode 64 0b0000000000000000_00000100_00001110#32 = .ok (.kmEval 4#8) := by decide
theorem test_decode_kmPi : decode 64 0b0000000000000000_00000101_00001111#32 = .ok (.kmPi 5#8) := by decide
theorem test_decode_kmCover : decode 64 0b0000000000000000_00000100_00010000#32 = .ok (.kmCover 4#8) := by decide

/-- The refused words of 95_test_vectors.md section 2.1. -/
theorem test_decode_refused :
    [0x00000000#32, 0x00000011#32, 0x000000FF#32].map (decode 64) = List.replicate 3 (.error .unknownOpcode) ∧
    [0x00010001#32, 0x80000001#32].map (decode 64) = List.replicate 2 (.error .reservedField) ∧
    [0x00000101#32, 0x00000202#32, 0x00000405#32, 0x00000206#32, 0x00000807#32, 0x00000008#32, 0x00004108#32,
      0x0000FF0A#32, 0x0000000E#32, 0x0000060F#32].map (decode 64) = List.replicate 10 (.error .illegalArgument) := by
  decide

theorem test_table_word : decodeTableWord 32 0x410 = some (.kmCover 4#8) ∧ decodeTableWord 8 0xFF01 = some .crcEnc := by
  decide

/-- 30_encoding.md R85. -/
theorem test_assemble : assemble 64 "F754.ADD.D.HEX" = some 0x00000307#32 ∧ assemble 64 "F754.DEC.HEX" = some 0x00000205#32 ∧
    assemble 64 "TC.SUB.W64" = some 0x0000400B#32 ∧ assemble 64 "TC.ENC" = none := by decide +kernel

/-! ## One operation each -/

/-- 95_test_vectors.md S2. -/
theorem test_crcEnc : seen (after .crcEnc (loaded (txt "1011001") (txt "10011"))) =
    (0x102#32, 7, 4, txt "10110011010", txt "1010", []) := by decide +kernel

/-- 60_exceptions.md R253: `OPB = "01"` is E_GEN_MSB. -/
theorem test_crcEnc_genMsb : seen (after .crcEnc (loaded (txt "1") (txt "01"))) = (0x62#32, 0, 0, [], [], []) := by
  decide +kernel

/-- The example of 43_crc.md R175. -/
theorem test_crcDec_fix : seen (after (.crcDec true) (loaded (txt "10110010010") (txt "10011"))) =
    (0x202#32, 7, 7, txt "1011001", txt "1000", txt "10110011010") := by decide +kernel

/-- 43_crc.md R175: detected with no correction asked, the message as received. -/
theorem test_crcDec_detect : seen (after (.crcDec false) (loaded (txt "10110010010") (txt "10011"))) =
    (0x002#32, 0, 7, txt "1011001", txt "1000", []) := by decide +kernel

/-- 95_test_vectors.md S3. -/
theorem test_hamEnc : seen (after .hamEnc (loaded (txt "1011") [])) =
    (0x002#32, 3, 7, txt "0110011", txt "1101000", []) := by decide +kernel

/-- The first example of 44_hamming.md R196. -/
theorem test_hamDec_corrected : seen (after .hamDec (loaded (txt "0110111") [])) =
    (0x202#32, 5, 3, txt "1011", txt "101", txt "0110011") := by decide +kernel

/-- The second example of 44_hamming.md R196: `S = 7 > 6`. -/
theorem test_hamDec_uncorrectable : seen (after .hamDec (loaded (txt "011001") [])) =
    (0x402#32, 7, 3, txt "101", txt "111", []) := by decide +kernel

/-- 95_test_vectors.md S4. -/
theorem test_f754Dec : seen (after (.f754Dec .single .hex) (loaded (txt "C2630a3D") [])) =
    (0x00032002#32, 132, 5, txt "-56.759998321533203125", txt "11000010011000110000101000111101", []) := by
  decide +kernel

/-- 41_ieee754_convert.md R133: zero keeps its sign. -/
theorem test_f754Dec_zero : (after (.f754Dec .single .hex) (loaded (txt "80000000") [])).ra.content = txt "-0" := by
  decide +kernel

/-- 95_test_vectors.md S1. -/
theorem test_f754Enc : seen (after (.f754Enc .single) (loaded (txt "-13.625") [])) =
    (0x00032002#32, 130, 0, txt "11000001010110100000000000000000", txt "C15A0000", []) := by decide +kernel

/-- 41_ieee754_convert.md R136: truncated, not rounded. -/
theorem test_f754Enc_truncates : (after (.f754Enc .single) (loaded (txt "0.1") [])).rb.content = txt "3DCCCCCC" := by
  decide +kernel

/-- The example of 42_ieee754_add.md R151; under `literal_rs` it is 3F800000 (R158). -/
theorem test_f754Add : (after (.f754Add .single .hex) (loaded (txt "3F800000") (txt "33800001"))).rb.content =
    txt "3F800001" ∧
    (after (.f754Add .single .hex) { loaded (txt "3F800000") (txt "33800001") with
      cfg := { Config.default with addRoundRule := .literalRs } }).rb.content = txt "3F800000" := by decide +kernel

/-- 42_ieee754_add.md R153: infinities of opposite signs give class NaN. -/
theorem test_f754Add_nan : (after (.f754Add .single .hex) (loaded (txt "7F800000") (txt "FF800000"))).flags.cls = 5#3 := by
  decide +kernel

/-- The examples of 40_twos_complement.md R112. -/
theorem test_tcEnc : seen (after (.tcEnc 4#8) (loaded (txt "-5") [])) = (0x002#32, 0, 0, txt "1011", [], []) := by
  decide +kernel
theorem test_tcEnc_overflow : seen (after (.tcEnc 8#8) (loaded (txt "200") [])) =
    (0x802#32, 0, 0, txt "11001000", [], []) := by decide +kernel

/-- The example of 40_twos_complement.md R113, and E_CHAR before E_WIDTH (60_exceptions.md R253). -/
theorem test_tcDec : (after (.tcDec 4#8) (loaded (txt "1011") [])).ra.content = txt "-5" := by decide +kernel
theorem test_tcDec_char : (after (.tcDec 4#8) (loaded (txt "10x") [])).status = 0x32#32 := by decide +kernel

/-- The example of 40_twos_complement.md R115. -/
theorem test_tcAdd : seen (after (.tcAdd 4#8) (loaded (txt "0101") (txt "0011"))) =
    (0x802#32, 0, 0, txt "1000", txt "0111", []) := by decide +kernel

/-- The example of 40_twos_complement.md R116. -/
theorem test_tcSub : seen (after (.tcSub 4#8) (loaded (txt "1011") (txt "1101"))) =
    (0x1002#32, 0, 0, txt "1110", txt "1100", []) := by decide +kernel

/-- 95_test_vectors.md S5, and the decimal operand of 45_gray.md R211. -/
theorem test_grayEnc : seen (after .grayEnc (loaded (txt "1011") [])) = (0x002#32, 0, 4, txt "1110", [], []) := by
  decide +kernel
theorem test_grayEnc_decimal : seen (after .grayEnc (loaded (txt "12") [])) = (0x002#32, 1, 4, txt "1010", [], []) := by
  decide +kernel
theorem test_grayDec : seen (after .grayDec (loaded (txt "1110") [])) = (0x002#32, 0, 0, txt "1011", [], []) := by
  decide +kernel

/-- The example of 46_kmap.md R224. -/
theorem test_kmEval : (after (.kmEval 4#8) (loaded (txt "CD+A'B'D") [])).kmTt = 0x888A#32 ∧
    (after (.kmEval 4#8) (loaded (txt "CD+A'B'D") [])).aux0 = 5#32 := by decide +kernel

/-- 46_kmap.md R222: a middle dot, primes and a bang; R224: a dangling `+` is E_FORMAT. -/
theorem test_kmEval_syntax : (after (.kmEval 2#8) (loaded (txt "!a·(A+b)''") [])).kmTt = 0x2#32 ∧
    (after (.kmEval 2#8) (loaded (txt "A+") [])).status = 0x42#32 := by decide +kernel

/-- The example of 46_kmap.md R230. -/
theorem test_kmPi : (after (.kmPi 4#8) (withMaps 0x888A#32 0#32)).piTable =
    [⟨0x8888#32, 0#32⟩, ⟨0xA#32, 0#32⟩] := by decide +kernel

/-- The example of 46_kmap.md R234 (95_test_vectors.md S6). -/
theorem test_kmCover : (after (.kmCover 4#8) (withMaps 0x888A#32 0#32)).piTable =
    [⟨0x8888#32, 0x103#32⟩, ⟨0xA#32, 0x203#32⟩] ∧
    (after (.kmCover 4#8) (withMaps 0x888A#32 0#32)).ra.content = txt "CD+A'B'D" := by decide +kernel

/-- The cyclic function of 46_kmap.md R234, covered by greedy picks alone. -/
theorem test_kmCover_cyclic : (after (.kmCover 3#8) (withMaps 0xDB#32 0#32)).ra.content = txt "B'C'+BC+A'B'+AB" := by
  decide +kernel

/-- 46_kmap.md R232 (a): one prime implicant of four cells that is no product. -/
theorem test_kmHazard : (after (.kmCover 5#8) (withMaps 0x4E#32 0#32)).piTable.length = 1 ∧
    (after (.kmCover 5#8) (withMaps 0x4E#32 0#32)).ra.content = txt "A'B'" := by decide +kernel

/-! ## The host (95_test_vectors.md H2 to H11 and H14, 30_encoding.md R86) -/

theorem test_host_write_map :
    State.reset.hostAct (.writeReg 4 0x888A#32) = .next { State.reset with kmOn := 0x888A#32 } := rfl
theorem test_host_write_status :
    State.reset.hostAct (.writeReg 1 0xFFFFFFFF#32) = .refused (.readOnlyRegister 1) := rfl
theorem test_host_write_long :
    State.reset.hostAct (.writeLen .opa 2049) = .refused (.lengthOverCapacity .opa 2049) := rfl
theorem test_host_read_empty : State.reset.hostAct (.readCell .ra 0) = .refused (.pastResultLength .ra 0) := rfl
theorem test_host_no_register : State.reset.hostAct (.readReg 136) = .fault (.noSuchRegister 136) := rfl
theorem test_host_command : (State.reset.startCommand 0x410#32).status = 0x1#32 := by decide
theorem test_host_busy : (State.reset.startCommand 0x410#32).hostAct (.writeReg 0 1#32) = .refused .busy ∧
    (State.reset.startCommand 0x410#32).hostAct (.readReg 7) = .refused .busy := ⟨rfl, rfl⟩

/-- 95_test_vectors.md H14: PICNT, and CELLS and INFO of entry 0, after the K-map of scenario 6. -/
theorem test_host_read_table : let s := after (.kmCover 4#8) (withMaps 0x888A#32 0#32)
    s.hostAct (.readReg 7) = .next (s.reply (.reg 2#32)) ∧ s.hostAct (.readReg 8) = .next (s.reply (.reg 0x8888#32)) ∧
    s.hostAct (.readReg 9) = .next (s.reply (.reg 0x103#32)) := by
  have h : let s := after (.kmCover 4#8) (withMaps 0x888A#32 0#32)
      s.register 7 = 2#32 ∧ s.register 8 = 0x8888#32 ∧ s.register 9 = 0x103#32 := by decide +kernel
  obtain ⟨h7, h8, h9⟩ := h
  refine ⟨?_, ?_, ?_⟩
  · rw [← h7]; rfl
  · rw [← h8]; rfl
  · rw [← h9]; rfl

/-- The first instruction after reset: a word stored for the next step is run by it (70_reset_and_hazards.md R273). -/
theorem test_first_command : (stepped (State.reset.withFetchWord 32 0x001)).status = 0x22#32 ∧
    (stepped (State.reset.withFetchWord 32 0x10F)).status = 0x02#32 := by decide +kernel

/-- 70_reset_and_hazards.md R276: a shorter LEN leaves the old cells. -/
theorem test_stale_cells : (Buffer.reset.write (txt "AB") |>.write (txt "C")).cell 1 = 0x42#8 := by decide

/-! ## Witnesses: every hypothesis of every statement can be met

Each theorem names its statement and gives a state and operands, at the ends of the ranges where a statement has several
clauses. -/

/-- The state with two operand texts and the smallest BUFMAX that 00_scope.md R5 allows. -/
def small (opa opb : Text) : State := { loaded opa opb with cfg := { Config.default with bufmax := 1077 } }

theorem small_content (opa opb : Text) : (small opa opb).opa.content = opa ∧ (small opa opb).opb.content = opb :=
  ⟨Buffer.content_write _ _ rfl, Buffer.content_write _ _ rfl⟩

theorem small_inv (opa opb : Text) (ha : opa.length ≤ 1077) (hb : opb.length ≤ 1077) : (small opa opb).inv = true := by
  have ok (t : Text) (h : t.length ≤ 1077) :
      (Buffer.reset.write t).ok { Config.default with bufmax := 1077 } = true := by
    have h2 : Memory.wf (Buffer.reset.write t).cells = true := Buffer.wf_write _ _ rfl
    have h3 := Memory.below_writeText [] 0 1077 t (by simp) (by omega)
    simp only [Buffer.ok, Bool.and_eq_true, decide_eq_true_eq, List.all_eq_true]
    exact ⟨⟨h, h2⟩, h3⟩
  have h0 : (small [] []).inv = true := by decide
  simp only [State.inv, Bool.and_eq_true, and_assoc] at h0 ⊢
  obtain ⟨hc, -, -, hrest⟩ := h0
  exact ⟨hc, ok opa ha, ok opb hb, hrest⟩

/-- Many equal bits as text. -/
def many (n : Nat) (x : Bool) : Text := bitsText (List.replicate n x)

theorem many_length (n : Nat) (x : Bool) : (many n x).length = n := by simp [many]

theorem many_operand (n : Nat) (x : Bool) (h : n ≠ 0) : bitsOperand (many n x) = .ok (List.replicate n x) := by
  rw [bitsOperand_ok_iff]
  refine ⟨by simp [h], ?_⟩
  cases x <;> simp [many, clean, bitsText, bitChar, chSpace, chOne, chZero]

/-- A pending command. -/
def pending (w : Word) (s : State) : State := s.startCommand w

theorem many_crcOperands (n : Nat) (x : Bool) (h : n ≠ 0) : crcOperands (small (many n x) (txt "10011")).opa.content
    (small (many n x) (txt "10011")).opb.content = .ok (List.replicate n x, [true, false, false, true, true]) := by
  rw [(small_content _ _).1, (small_content _ _).2, crcOperands, many_operand _ _ h]
  rfl

theorem witness_DecodeAndEncodeAgree : (∀ w ∈ [1#8, 64#8], (Instr.tcEnc w).wf 64 = true) ∧
    (∀ n ∈ [1#8, 5#8], (Instr.kmPi n).wf 64 = true) ∧ decode 64 0x00004008#32 = .ok (.tcEnc 64#8) := by decide

theorem witness_LegalWordsCounted : LegalCommand 255 0x0000FF08#32 ∧
    (pending 0x11#32 { State.reset with cfg := { Config.default with tcwMax := 255 } }).busy = true ∧
    ¬LegalCommand 255 0x11#32 := by decide

theorem witness_DecodingIsTotal : (∀ w, (pending w State.reset).busy = true) ∧
    (∀ w ∈ [0x00010001#32, 0x80000001#32, 0x00#32, 0x11#32, 0xFF#32, 0x101#32, 0x202#32, 0x405#32, 0x008#32, 0x4108#32,
      0x00E#32, 0x60F#32], ¬LegalCommand 64 w) ∧
    ∀ w ∈ [0x01#32, 0x102#32, 0x305#32, 0x106#32, 0x108#32, 0x400B#32, 0x10E#32, 0x510#32], LegalCommand 64 w :=
  ⟨fun w => by simp [pending, State.busy, State.startCommand], by simp [LegalCommand, argLegal],
    by simp [LegalCommand, argLegal]⟩

theorem witness_StepRunsDecodedInstruction : (pending 0x410#32 State.reset).busy = true ∧
    decode (pending 0x410#32 State.reset).cfg.tcwMax (pending 0x410#32 State.reset).cmd = .ok (.kmCover 4#8) ∧
    (pending 0x410#32 State.reset).schedule = [] ∧
    (State.reset.withFetchWord 32 0x410).schedule = [.engine] := by decide

theorem witness_OtherTurns : State.reset.busy = false ∧ State.reset.schedule = [] ∧
    ({ State.reset with schedule := [.engine] } : State).schedule = .engine :: [] ∧
    ({ State.reset with schedule := [.host (.readReg 1)] } : State).schedule = .host (.readReg 1) :: [] := by decide

/-- Two pending commands that differ in the earlier results only, and a write, an idle turn and a step. -/
theorem witness_BusyDoneHandshake :
    let s := pending 0x410#32 State.reset
    let s' := { pending 0x410#32 State.reset with aux0 := 7#32, kmTt := 1#32, ra := ⟨1, [(0, 0x31#8)]⟩ }
    State.reset.busy = false ∧ s'.inv = true ∧ s'.busy = true ∧ s'.cmd = s.cmd ∧ s'.opa.content = s.opa.content ∧
    s'.opb.content = s.opb.content ∧ s'.kmOn = s.kmOn ∧ s'.kmDc = s.kmDc ∧ s'.cfg = s.cfg ∧
    s'.freeCount = s.freeCount ∧ ¬(State.reset.busy = true ∧ State.reset.done = true) ∧
    ∃ t, step State.reset = .next t := by
  refine ⟨?_, ?_, ?_, ?_, ?_, ?_, ?_, ?_, ?_, ?_, ?_, _, rfl⟩ <;> decide

theorem witness_CommandKeepsOperands :
    (∃ t, engineTurn (pending 0x10#32 State.reset) = .next t) ∧ ∃ t, exec .grayDec (loaded (txt "10") []) = .next t :=
  ⟨⟨_, rfl⟩, _, rfl⟩

theorem witness_FlagsOfEachOperation :
    (after .crcEnc (loaded (txt "1") (txt "11"))).flags.valid = true ∧
    (after .hamDec (loaded (txt "110") [])).flags.corr = true ∧
    (after .hamDec (loaded (txt "011001") [])).flags.uncorr = true ∧
    (after (.f754Enc .single) (loaded (txt "-1") [])).flags.sign = true ∧
    (after (.f754Enc .single) (loaded (txt "-1") [])).flags.cls ≠ 0#3 ∧
    (after (.tcEnc 1#8) (loaded (txt "1") [])).flags.ovf = true ∧
    (after (.tcSub 1#8) (loaded (txt "0") (txt "1"))).flags.cout = true ∧
    ∃ t, exec .crcEnc (loaded (txt "1") (txt "11")) = .next t := by
  refine ⟨?_, ?_, ?_, ?_, ?_, ?_, ?_, _, rfl⟩ <;> decide +kernel

theorem witness_ResultsOfEachOperation : (loaded (txt "110") []).inv = true ∧
    (after .hamDec (loaded (txt "110") [])).ra.len ≠ 0 ∧ (after .hamDec (loaded (txt "110") [])).rb.len ≠ 0 ∧
    (after .hamDec (loaded (txt "110") [])).rc.len ≠ 0 ∧ (after .hamDec (loaded (txt "110") [])).aux0 ≠ 0#32 ∧
    (after .hamDec (loaded (txt "110") [])).aux1 ≠ 0#32 ∧
    (after (.kmEval 1#8) (loaded (txt "A") [])).kmTt ≠ 0#32 ∧
    (after (.kmPi 1#8) (withMaps 1#32 0#32)).picnt ≠ 0#32 ∧
    (after (.kmPi 1#8) (withMaps 1#32 0#32)).picnt.toNat ≤ 1 ∧
    ∃ t, exec .hamDec (loaded (txt "110") []) = .next t := by
  refine ⟨?_, ?_, ?_, ?_, ?_, ?_, ?_, ?_, ?_, _, rfl⟩ <;> decide +kernel

theorem witness_ErrorCompletionClears : (pending 0x01#32 State.reset).busy = true ∧
    ∃ t, engineTurn (pending 0x01#32 State.reset) = .next t ∧ t.err ≠ 0#4 :=
  ⟨by decide, _, rfl, by decide +kernel⟩

theorem witness_NoInternalError : (pending 0x03#32 (loaded (txt "1011") [])).busy = true ∧
    (pending 0x03#32 (loaded (txt "1011") [])).err ≠ 8#4 ∧
    (∃ t, engineTurn (pending 0x03#32 (loaded (txt "1011") [])) = .next t) ∧
    ∃ t, step (pending 0x03#32 (loaded (txt "1011") [])) = .next t := ⟨by decide, by decide, ⟨_, rfl⟩, _, rfl⟩

/-- Two states that differ in STATUS, in the results, in the stale cells of OPA and in the counter. -/
theorem witness_ResultsAreFunction :
    let s := loaded (txt "10") []
    let s' := { after .hamEnc (loaded (txt "1011") []) with opa := (Buffer.reset.write (txt "101")).write (txt "10") }
    s.inv = true ∧ ({ s' with freeCount := 1 } : State).inv = true ∧ s.cfg = s'.cfg ∧
    s.opa.content = ({ s'.opa with len := 2 } : Buffer).content ∧ s.opb.content = s'.opb.content ∧ s.kmOn = s'.kmOn ∧
    s.kmDc = s'.kmDc ∧ s.freeCount = s'.freeCount ∧ s.cfg.crcFixOrder = .leftmostFirst ∧
    s.cfg.kmGreedyTie = .lowestIndex ∧ (∃ t, exec .grayDec s = .next t) ∧ ∃ t, exec .grayDec s' = .next t := by
  refine ⟨?_, ?_, ?_, ?_, ?_, ?_, ?_, ?_, ?_, ?_, ⟨_, rfl⟩, _, rfl⟩ <;> decide +kernel

theorem witness_UnusedOperandsNotRead : (∃ t, exec .grayDec (loaded (txt "10") []) = .next t) ∧
    (Instr.grayDec).opc.toNat ∉ [0x01, 0x02, 0x07, 0x0A, 0x0B] ∧ (Instr.kmPi 4#8).opc.toNat ∈ [0x0F, 0x10] ∧
    (Instr.kmCover 4#8).opc.toNat ∈ [0x0F, 0x10] ∧ (Instr.kmEval 4#8).opc.toNat ∉ [0x0F, 0x10] :=
  ⟨⟨_, rfl⟩, by decide⟩

/-- OPA with LEN raised to 1 and to BUFMAX over cells no host wrote, and OPB so with an OPA that TC.ADD accepts. -/
theorem witness_ResetValues : (∀ l ∈ [1, 2048], ∃ k, k < l ∧ ({ State.reset.opa with len := l } : Buffer).cell k =
      State.reset.opa.cell k) ∧ (Instr.tcAdd 1#8).opc.toNat ∉ [0x0F, 0x10] ∧
    clean (Buffer.reset.write (txt "1")).content ≠ [] ∧
    FailsWith (.tcAdd 1#8) { State.reset with opa := Buffer.reset.write (txt "1") } .empty ∧
    ∃ k, k < 1 ∧ ({ State.reset.opb with len := 1 } : Buffer).cell k = State.reset.opb.cell k := by
  refine ⟨?_, by decide, by decide, ?_, 0, by decide, rfl⟩
  · intro l hl
    refine ⟨0, ?_, rfl⟩
    simp only [List.mem_cons, List.not_mem_nil, or_false] at hl
    omega
  · have h : tcAdd 1 (Buffer.reset.write (txt "1")).content Buffer.reset.content = .error .empty := by rfl
    refine ⟨_, congrArg (fun r => Host.Outcome.next (State.finish _ r)) h, ⟨rfl, rfl, rfl, rfl, rfl, rfl, rfl, rfl⟩, rfl, by decide, by decide, by decide, by decide, by decide,
      rfl, rfl, rfl, rfl, rfl, ⟨rfl, rfl, fun _ _ => rfl⟩, ⟨rfl, rfl, fun _ _ => rfl⟩, ⟨rfl, rfl, fun _ _ => rfl⟩⟩

theorem witness_StepKeepsInv : State.reset.inv = true ∧ (∃ t, step State.reset = .next t) ∧
    (State.reset.withFetchWord 32 0x410).inv = true ∧ ∃ t, step (State.reset.withFetchWord 32 0x410) = .next t :=
  ⟨by decide, ⟨_, rfl⟩, by decide, _, rfl⟩

/-- The ends of the ranges of 20_memory.md R52: BUFMAX is 2048 and the last register is 135. -/
theorem witness_HostActionTable : State.reset.inv = true ∧ HostMay State.reset (.writeReg 0 1#32) ∧
    HostMay State.reset (.writeReg 4 1#32) ∧ HostMay State.reset (.writeReg 5 1#32) ∧
    HostMay State.reset (.writeCell .opb 2047 1#8) ∧ HostMay State.reset (.writeLen .opa 2048) ∧
    HostMay State.reset (.readReg 135) ∧ HostMay State.reset (.readLen .rc) ∧ HostMay State.reset (.readCell .opa 2047) ∧
    HostMay (after .grayDec (loaded (txt "1") [])) (.readCell .ra 0) ∧
    ¬HostMay State.reset (.writeReg 1 1#32) ∧ ¬HostMay State.reset (.writeCell .opb 2048 1#8) ∧
    ¬HostMay State.reset (.writeCell .ra 0 1#8) ∧ ¬HostMay State.reset (.writeLen .opa 2049) ∧
    ¬HostMay State.reset (.readReg 136) ∧ ¬HostMay (pending 1#32 State.reset) (.readReg 2) ∧
    ¬HostMay State.reset (.readCell .ra 0) := by
  refine ⟨?_, ?_, ?_, ?_, ?_, ?_, ?_, ?_, ?_, ?_, ?_, ?_, ?_, ?_, ?_, ?_, ?_⟩ <;>
    first
    | decide +kernel
    | (unfold HostMay; decide +kernel)

theorem witness_BusyProtectsOperands : (pending 1#32 State.reset).busy = true ∧
    ∃ t, Host.Core.run core 1
      { pending 1#32 State.reset with schedule := [HostAction.readReg 1].map .host ++ [] } = .next t :=
  ⟨by decide, _, rfl⟩

theorem witness_OnlyCommandWriteStarts : State.reset.busy = false ∧
    (∃ t, step { State.reset with schedule := [.host (.writeReg 0 1#32)] } = .next t ∧ t.busy = true) ∧
    ∃ t, State.reset.hostAct (.writeReg 4 1#32) = .next t := ⟨by decide, ⟨_, rfl, by decide⟩, _, rfl⟩

/-- Two cells in the other order, and a text of BUFMAX characters. -/
theorem witness_WriteTextAnyOrder : State.reset.inv = true ∧ State.reset.busy = false ∧
    (BufName.opb = .opa ∨ BufName.opb = .opb) ∧ (many 2048 true).length ≤ State.reset.cfg.bufmax ∧
    [HostAction.writeCell .opb 1 0x30#8, .writeCell .opb 0 0x31#8].Perm
      ((txt "10").zipIdx.map (fun x => HostAction.writeCell .opb x.2 x.1)) :=
  ⟨by decide, by decide, .inr rfl, (many_length _ _).le, List.Perm.swap _ _ _⟩

theorem witness_RunCompletes : State.reset.inv = true ∧ State.reset.busy = false := by decide

theorem witness_CleaningDeletesSpaces : 0x20#8 ∉ txt "10" ∧ (loaded (txt " 1 0") []).inv = true ∧
    clean (loaded (txt " 1 0") []).opa.content = clean (loaded (txt "10 ") []).opa.content ∧
    (loaded (txt "10 ") []).inv = true ∧ (∃ t, exec .grayDec (loaded (txt " 1 0") []) = .next t) ∧
    ∃ t, exec .grayDec (loaded (txt "10 ") []) = .next t := by
  refine ⟨?_, ?_, ?_, ?_, ⟨_, rfl⟩, _, rfl⟩ <;> decide +kernel

theorem witness_BitsFormat : clean (txt "  ") = [] ∧ (∃ c ∈ clean (txt "012"), c ≠ 0x30#8 ∧ c ≠ 0x31#8) ∧
    clean (txt "0 1") ≠ [] ∧ (∀ c ∈ clean (txt "0 1"), c = 0x30#8 ∨ c = 0x31#8) ∧ (clean (txt "0 1")).length = 2 ∧
    (clean (txt "0 1")).length ≠ 3 := by decide

theorem witness_HexFormat : clean (txt "") = [] ∧
    (∃ c ∈ clean (txt "0x"), ¬(0x30 ≤ c.toNat ∧ c.toNat ≤ 0x39) ∧ ¬(0x41 ≤ c.toNat ∧ c.toNat ≤ 0x46) ∧
        ¬(0x61 ≤ c.toNat ∧ c.toNat ≤ 0x66)) ∧
    clean (txt "0 9Aaf") = [(0, true), (9, true), (10, true), (10, false), (15, false)].map (fun d => BitVec.ofNat 8
        (if d.1 < 10 then 0x30 + d.1 else if d.2 then 0x37 + d.1 else 0x57 + d.1)) := by decide

theorem witness_DecIntFormat : clean (txt " ") = [] ∧
    (∃ c ∈ clean (txt "+1"), ¬(0x30 ≤ c.toNat ∧ c.toNat ≤ 0x39) ∧ c ≠ 0x2D#8) ∧
    clean (txt "- 09") = (if true then [0x2D#8] else []) ++ [0, 9].map (fun d => BitVec.ofNat 8 (0x30 + d)) ∧
    clean (txt "9") = (if false then [0x2D#8] else []) ++ [9].map (fun d => BitVec.ofNat 8 (0x30 + d)) := by decide

/-- A `-` with no digit: within the alphabet and outside the grammar. -/
theorem witness_DecIntFormat_format : clean (txt "-") ≠ [] ∧
    (∀ c ∈ clean (txt "-"), (0x30 ≤ c.toNat ∧ c.toNat ≤ 0x39) ∨ c = 0x2D#8) ∧
    ¬∃ (neg : Bool) (ds : List Nat), ds ≠ [] ∧ (∀ d ∈ ds, d < 10) ∧
      clean (txt "-") = (if neg then [0x2D#8] else []) ++ ds.map (fun d => BitVec.ofNat 8 (0x30 + d)) := by
  refine ⟨by decide, by decide, ?_⟩
  rintro ⟨neg, ds, hne, hd, h⟩
  have ht : clean (txt "-") = [0x2D#8] := by decide
  rw [ht] at h
  cases neg with
  | true =>
    cases ds with
    | nil => exact hne rfl
    | cons d rest => exact absurd (congrArg List.length h) (by simp)
  | false =>
    obtain ⟨d, rest, rfl⟩ := List.exists_cons_of_ne_nil hne
    have h1 : d < 10 := hd d (by simp)
    simp only [Bool.false_eq_true, if_false, List.nil_append, List.map_cons, List.cons.injEq] at h
    have h2 := congrArg BitVec.toNat h.1
    simp at h2
    omega

theorem witness_DecRealFormat : clean (txt "") = [] ∧
    (∃ c ∈ clean (txt "1e3"), ¬(0x30 ≤ c.toNat ∧ c.toNat ≤ 0x39) ∧ c ≠ 0x2D#8 ∧ c ≠ 0x2E#8) ∧
    clean (txt "-1.05") = (if true then [0x2D#8] else []) ++ [1].map (fun d => BitVec.ofNat 8 (0x30 + d)) ++
        (if [0, 5] = [] then [] else 0x2E#8 :: [0, 5].map (fun d => BitVec.ofNat 8 (0x30 + d))) ∧
    clean (txt "7") = (if false then [0x2D#8] else []) ++ [7].map (fun d => BitVec.ofNat 8 (0x30 + d)) ++
        (if ([] : List Nat) = [] then [] else 0x2E#8 :: [].map (fun d => BitVec.ofNat 8 (0x30 + d))) := by decide

/-- A point with no digit before it: within the alphabet and outside the grammar. -/
theorem witness_DecRealFormat_format : clean (txt ".") ≠ [] ∧
    (∀ c ∈ clean (txt "."), (0x30 ≤ c.toNat ∧ c.toNat ≤ 0x39) ∨ c = 0x2D#8 ∨ c = 0x2E#8) ∧
    ¬∃ (neg : Bool) (whole frac : List Nat), whole ≠ [] ∧ (∀ d ∈ whole ++ frac, d < 10) ∧
      clean (txt ".") = (if neg then [0x2D#8] else []) ++ whole.map (fun d => BitVec.ofNat 8 (0x30 + d)) ++
        (if frac = [] then [] else 0x2E#8 :: frac.map (fun d => BitVec.ofNat 8 (0x30 + d))) := by
  refine ⟨by decide, by decide, ?_⟩
  rintro ⟨neg, whole, frac, hne, hd, h⟩
  have ht : clean (txt ".") = [0x2E#8] := by decide
  rw [ht] at h
  obtain ⟨d, rest, rfl⟩ := List.exists_cons_of_ne_nil hne
  have h1 : d < 10 := hd d (by simp)
  cases neg with
  | true => simp at h
  | false =>
    simp only [Bool.false_eq_true, if_false, List.nil_append, List.map_cons, List.cons_append, List.cons.injEq] at h
    have h2 := congrArg BitVec.toNat h.1
    simp at h2
    omega

theorem witness_GrayOperandFormat : clean (txt " ") = [] ∧
    (∃ c ∈ clean (txt "1-"), ¬(0x30 ≤ c.toNat ∧ c.toNat ≤ 0x39)) ∧
    clean (txt "11") = [1, 1].map (fun d => BitVec.ofNat 8 (0x30 + d)) ∧ (∀ d ∈ [1, 1], d < 2) ∧
    clean (txt "12") = [1, 2].map (fun d => BitVec.ofNat 8 (0x30 + d)) ∧ ∃ d ∈ [1, 2], 2 ≤ d := by decide

theorem witness_CrcOperandChecks : bitsOperand (txt "") = .error .empty ∧ bitsOperand (txt "1") = .ok [true] ∧
    bitsOperand (txt "2") = .error .char ∧ bitsOperand (txt "0") = .ok [false] ∧ [false].length < 2 ∧
    bitsOperand (txt "01") = .ok [false, true] ∧ [false, true].head? = some false ∧
    bitsOperand (txt "10") = .ok [true, false] ∧ [true, false].head? = some true ∧
    crcOperands (loaded (txt "1") (txt "01")).opa.content (loaded (txt "1") (txt "01")).opb.content =
      .error .genMsb := by decide +kernel

theorem witness_CrcRemainderIsPolynomialRemainder : [true, true].head? = some true ∧
    [true, false, true].length = 2 + ([true, true].length - 1) := by decide

/-- The codeword fills BUFMAX, and is one cell longer. -/
theorem witness_CrcEncRule : (small (many 1073 true) (txt "10011")).inv = true ∧
    crcOperands (small (many 1073 true) (txt "10011")).opa.content (small (many 1073 true) (txt "10011")).opb.content =
      .ok (List.replicate 1073 true, [true, false, false, true, true]) ∧
    (List.replicate 1073 true).length + ([true, false, false, true, true].length - 1) ≤ 1077 ∧
    crcOperands (small (many 1074 true) (txt "10011")).opa.content (small (many 1074 true) (txt "10011")).opb.content =
      .ok (List.replicate 1074 true, [true, false, false, true, true]) ∧
    1077 < (List.replicate 1074 true).length + ([true, false, false, true, true].length - 1) ∧
    crcOperands State.reset.opa.content State.reset.opb.content = .error .empty := by
  refine ⟨small_inv _ _ ((many_length _ _).trans_le (by decide)) (by decide), many_crcOperands _ _ (by decide), ?_,
    many_crcOperands _ _ (by decide), ?_, by decide⟩ <;> rw [List.length_replicate] <;> decide

/-- The shortest word and one shorter, and each of the four outcomes. -/
theorem witness_CrcDecRule : (loaded (txt "11") (txt "11")).inv = true ∧
    crcOperands (txt "1") (txt "11") = .ok ([true], [true, true]) ∧ [true].length < [true, true].length ∧
    crcOperands (txt "11") (txt "11") = .ok ([true, true], [true, true]) ∧
    [true, true].length = 1 + ([true, true].length - 1) ∧ crcRem [true, true] [true, true] 1 = zeroBits 1 ∧
    crcRem [false, true] [true, true] 1 ≠ zeroBits 1 ∧
    crcRem (flipBit [false, true] 1) [true, true] 1 = zeroBits 1 ∧
    crcRem [true, true, true, false, false] [true, false, true, true] 2 ≠ zeroBits 3 ∧
    crcOperands (txt "0111111") (txt "10000") = .ok ([false, true, true, true, true, true, true],
      [true, false, false, false, false]) ∧
    crcRem [false, true, true, true, true, true, true] [true, false, false, false, false] 3 ≠ zeroBits 4 ∧
    ∀ p, p < 7 → crcRem (flipBit [false, true, true, true, true, true, true] p) [true, false, false, false, false] 3 ≠
      zeroBits 4 := by decide +kernel

theorem witness_CrcRoundTrip : (loaded (txt "1") (txt "11")).inv = true ∧ (loaded (txt "11") (txt "11")).inv = true ∧
    crcOperands (loaded (txt "1") (txt "11")).opa.content (loaded (txt "1") (txt "11")).opb.content =
      .ok ([true], [true, true]) ∧ [true].length + ([true, true].length - 1) ≤ (loaded [] []).cfg.bufmax ∧
    (loaded (txt "11") (txt "11")).opa.content = (after .crcEnc (loaded (txt "1") (txt "11"))).ra.content ∧
    (loaded (txt "11") (txt "11")).opb.content = (loaded (txt "1") (txt "11")).opb.content := by decide +kernel

/-- The codeword `000` of the generator `x^2 + x + 1`, flipped at position 2; and `000` of the generator `x^2`,
where the flip of position 0 leaves a valid word. -/
theorem witness_CrcSingleErrorFixed : (loaded (txt "001") (txt "111")).inv = true ∧
    crcOperands (loaded (txt "001") (txt "111")).opa.content (loaded (txt "001") (txt "111")).opb.content =
      .ok (flipBit [false, false, false] 2, [true, true, true]) ∧ 2 < [false, false, false].length ∧
    [false, false, false].length = 1 + ([true, true, true].length - 1) ∧
    crcRem [false, false, false] [true, true, true] 1 = zeroBits 2 ∧
    crcRem (flipBit (zeroBits 3) 2) [true, true, true] 1 ≠ zeroBits 2 ∧
    (∀ a, a < 3 → crcRem (flipBit (zeroBits 3) a) [true, true, true] 1 =
      crcRem (flipBit (zeroBits 3) 2) [true, true, true] 1 → a = 2) ∧
    crcOperands (loaded (txt "100") (txt "100")).opa.content (loaded (txt "100") (txt "100")).opb.content =
      .ok (flipBit [false, false, false] 0, [true, false, false]) ∧
    crcRem [false, false, false] [true, false, false] 1 = zeroBits 2 ∧
    crcRem (flipBit (zeroBits 3) 0) [true, false, false] 1 = zeroBits 2 := by decide +kernel

/-- 1066 data bits take 11 parity bits and fill BUFMAX; 1067 do not fit. -/
theorem witness_HamEncRule : (small (many 1066 true) []).inv = true ∧
    bitsOperand (small (many 1066 true) []).opa.content = .ok (List.replicate 1066 true) ∧
    (List.replicate 1066 true).length + 11 ≤ 1077 ∧
    bitsOperand (small (many 1067 true) []).opa.content = .ok (List.replicate 1067 true) ∧
    1077 < (List.replicate 1067 true).length + 11 ∧ 1067 + 11 + 1 ≤ 2 ^ 11 ∧
    (∀ q, 1 ≤ q → 1066 + q + 1 ≤ 2 ^ q → 11 ≤ q) ∧ bitsOperand State.reset.opa.content = .error .empty := by
  refine ⟨small_inv _ _ ((many_length _ _).trans_le (by decide)) (by decide), ?_, ?_, ?_, ?_, by decide, ?_, by decide⟩
  · rw [(small_content _ _).1, many_operand _ _ (by decide)]
  · rw [List.length_replicate]
  · rw [(small_content _ _).1, many_operand _ _ (by decide)]
  · rw [List.length_replicate]
    decide
  · intro q h1 h2
    by_contra hlt
    have : 2 ^ q ≤ 2 ^ 10 := Nat.pow_le_pow_right (by decide) (by omega)
    omega

theorem witness_HamDecRule : (loaded (txt "000") []).inv = true ∧
    bitsOperand (loaded (txt "00") []).opa.content = .ok [false, false] ∧
    bitsOperand (loaded (txt "000") []).opa.content = .ok [false, false, false] ∧ 2 ^ (2 - 1) ≤ 3 ∧ 3 < 2 ^ 2 ∧
    bitsVal ((List.range 2).map (fun r => oddParity [false, false, false] (2 ^ (2 - 1 - r)))) = 0 ∧
    bitsVal ((List.range 2).map (fun r => oddParity [false, false, true] (2 ^ (2 - 1 - r)))) = 3 ∧
    bitsVal ((List.range 3).map (fun r => oddParity [true, false, true, false, false, true] (2 ^ (3 - 1 - r)))) = 4 ∧
    bitsVal ((List.range 3).map (fun r => oddParity [false, true, true, false, false, true] (2 ^ (3 - 1 - r)))) = 7 ∧
    bitsOperand (txt "011001") = .ok [false, true, true, false, false, true] := by decide +kernel

theorem witness_HamSingleErrorCorrected : (loaded (txt "1") []).inv = true ∧ (loaded (txt "111") []).inv = true ∧
    (loaded (txt "110") []).inv = true ∧ bitsOperand (loaded (txt "1") []).opa.content = .ok [true] ∧
    (after .hamEnc (loaded (txt "1") [])).err = 0#4 ∧
    (loaded (txt "111") []).opa.content = (after .hamEnc (loaded (txt "1") [])).ra.content ∧
    2 < (after .hamEnc (loaded (txt "1") [])).ra.len ∧ (loaded (txt "110") []).opa.content =
      (after .hamEnc (loaded (txt "1") [])).ra.content.modify 2 (fun c => if c = 0x30#8 then 0x31#8 else 0x30#8) := by decide +kernel

/-- A string of BUFMAX bits, and a decimal number of 400 digits, which has more bits than BUFMAX. -/
theorem witness_GrayEncRule : (small (many 1077 true) []).inv = true ∧
    grayOperand (txt "1") = .ok (false, [true]) ∧
    (∃ B, grayOperand (List.replicate 400 0x39#8) = .ok (true, B) ∧ 1077 < B.length) ∧
    (small (List.replicate 400 0x39#8) []).inv = true ∧ grayOperand State.reset.opa.content = .error .empty := by
  refine ⟨small_inv _ _ ((many_length _ _).trans_le (by decide)) (by decide), by decide,
    ⟨binBits 1329 (decVal (List.replicate 400 0x39#8)), by decide +kernel, ?_⟩, small_inv _ _ ?_ (by decide), by decide⟩
  · rw [binBits_length]
    decide
  · rw [List.length_replicate]
    decide

theorem witness_GrayDecRule : (loaded (txt "0") []).inv = true ∧
    bitsOperand (loaded (txt "0") []).opa.content = .ok [false] ∧ bitsOperand State.reset.opa.content = .error .empty := by
  decide +kernel

/-- The ends of the range for W = 1 and W = 64. -/
theorem witness_TcEncRule : (∀ w ∈ [1#8, 64#8], (Instr.tcEnc w).wf State.reset.cfg.tcwMax = true) ∧
    (loaded (txt "-1") []).inv = true ∧ decIntOperand (loaded (txt "-1") []).opa.content = .ok (-1) ∧
    decIntOperand (loaded (txt "9223372036854775808") []).opa.content = .ok (2 ^ 63) ∧
    decIntOperand State.reset.opa.content = .error .empty := by decide +kernel

theorem witness_TcDecRule : (∀ w ∈ [1#8, 64#8], (Instr.tcDec w).wf State.reset.cfg.tcwMax = true) ∧
    (loaded (txt "1") []).inv = true ∧ bitsOperandOf 1 (loaded (txt "1") []).opa.content = .ok [true] ∧
    bitsOperandOf 64 (loaded (txt "1") []).opa.content = .error .width := by decide +kernel

theorem witness_TcAddRule : (∀ w ∈ [1#8, 64#8], (Instr.tcAdd w).wf State.reset.cfg.tcwMax = true) ∧
    (loaded (txt "1") (txt "1")).inv = true ∧ bitsOperandOf 1 (loaded (txt "1") (txt "1")).opa.content = .ok [true] ∧
    bitsOperandOf 1 (loaded (txt "1") (txt "1")).opb.content = .ok [true] ∧
    bitsOperandOf 1 State.reset.opb.content = .error .empty := by decide +kernel

theorem witness_TcSubRule : (∀ w ∈ [1#8, 64#8], (Instr.tcSub w).wf State.reset.cfg.tcwMax = true) ∧
    (loaded (txt "0") (txt "1")).inv = true ∧ bitsOperandOf 1 (loaded (txt "0") (txt "1")).opa.content = .ok [false] ∧
    bitsOperandOf 1 (loaded (txt "0") (txt "1")).opb.content = .ok [true] ∧
    bitsOperandOf 1 State.reset.opb.content = .error .empty := by decide +kernel

/-- The shortest code, at its first and its last, wrapping, value. -/
theorem witness_GrayLaws : (1 : Nat) ≤ 1 ∧ (0 : Nat) < 2 ^ 1 ∧ (1 : Nat) < 2 ^ 1 := by decide

theorem witness_TcRoundTrip : (-2 ^ (4 - 1) : Int) ≤ -8 ∧ (-8 : Int) ≤ 2 ^ (4 - 1) - 1 ∧ (7 : Int) ≤ 2 ^ (4 - 1) - 1 ∧
    1 ≤ [true].length := by decide

theorem witness_PatternFieldsAndClasses : (zeroBits 8).length = expWidth .single ∧
    (zeroBits 23).length = manWidth .single ∧ (zeroBits 11).length = expWidth .double ∧
    (zeroBits 52).length = manWidth .double := by decide

/-- A pattern of each class. -/
theorem witness_F754DecRule : (loaded (txt "00000000") []).inv = true ∧
    (∃ P, patternOperand .single .hex (loaded (txt "00000000") []).opa.content = .ok P) ∧
    patternOperand .single .hex State.reset.opa.content = .error .empty ∧
    fpClass .single ⟨false, 0, 0⟩ = .zero ∧ fpClass .single ⟨false, 0, 1⟩ = .denormalized ∧
    fpClass .single ⟨false, 1, 0⟩ = .normalized ∧ fpClass .single ⟨false, 254, 0⟩ = .normalized ∧
    fpClass .single ⟨false, 255, 0⟩ = .infinity ∧ fpClass .single ⟨false, 255, 1⟩ = .nan ∧
    splitPattern .single (zeroBits 32) = ⟨false, 0, 0⟩ := by
  refine ⟨by decide +kernel, ⟨zeroBits 32, by decide +kernel⟩, ?_⟩
  decide +kernel

/-- Zero, and the exponents −127, −126, 127 and 128, where the clauses meet. -/
theorem witness_F754EncRule : (loaded (txt "0") []).inv = true ∧
    decRealOperand (loaded (txt "0") []).opa.content = .ok ⟨false, 0, 0⟩ ∧
    decRealOperand (loaded (txt "1") []).opa.content = .ok ⟨false, 1, 0⟩ ∧
    ((2 : ℚ) ^ (0 : Int) ≤ 1 ∧ (1 : ℚ) < 2 ^ ((0 : Int) + 1)) ∧
    ((expMax .single : Int) ≤ 128 + expBias .single ∧ (127 : Int) + expBias .single < expMax .single) ∧
    ((-127 : Int) + expBias .single ≤ 0 ∧ 0 < (-126 : Int) + expBias .single) ∧
    decRealOperand State.reset.opa.content = .error .empty := by
  refine ⟨by decide +kernel, by decide +kernel, by decide +kernel, by norm_num, by decide, by decide, by decide⟩

theorem witness_F754RoundTrip : (loaded (txt "3F800000") []).inv = true ∧ (loaded (txt "1") []).inv = true ∧
    (∃ P, patternOperand .single .hex (loaded (txt "3F800000") []).opa.content = .ok P ∧
      fpClass .single (splitPattern .single P) = .normalized) ∧
    (loaded (txt "1") []).opa.content = (after (.f754Dec .single .hex) (loaded (txt "3F800000") [])).ra.content ∧
    (∃ P, patternOperand .single .hex (txt "80000000") = .ok P ∧ fpClass .single (splitPattern .single P) = .zero) ∧
    (∃ P, patternOperand .single .hex (txt "00000001") = .ok P ∧
      fpClass .single (splitPattern .single P) = .denormalized) ∧
    ∃ P, patternOperand .single .hex (txt "7F800000") = .ok P ∧
      fpClass .single (splitPattern .single P) = .infinity := by
  refine ⟨by decide +kernel, by decide +kernel, ⟨binBits 32 0x3F800000, by decide +kernel⟩, by decide +kernel,
    ⟨binBits 32 0x80000000, by decide +kernel⟩, ⟨binBits 32 1, by decide +kernel⟩, binBits 32 0x7F800000,
    by decide +kernel⟩

theorem witness_F754AddCompletes : (loaded (txt "3F800000") (txt "33800001")).inv = true ∧
    (∃ A, patternOperand .single .hex (loaded (txt "3F800000") (txt "33800001")).opa.content = .ok A) ∧
    (∃ B, patternOperand .single .hex (loaded (txt "3F800000") (txt "33800001")).opb.content = .ok B) ∧
    patternOperand .single .hex State.reset.opb.content = .error .empty := by
  refine ⟨by decide +kernel, ⟨binBits 32 0x3F800000, by decide +kernel⟩, ⟨binBits 32 0x33800001, by decide +kernel⟩,
    by decide +kernel⟩

theorem witness_F754AddCommutes :
    (loaded (txt "3F800000") (txt "33800001")).inv = true ∧ (loaded (txt "33800001") (txt "3F800000")).inv = true ∧
    (loaded (txt "33800001") (txt "3F800000")).opa.content = (loaded (txt "3F800000") (txt "33800001")).opb.content ∧
    (loaded (txt "33800001") (txt "3F800000")).opb.content = (loaded (txt "3F800000") (txt "33800001")).opa.content ∧
    ∃ t, exec (.f754Add .single .hex) (loaded (txt "3F800000") (txt "33800001")) = .next t := by
  refine ⟨by decide +kernel, by decide +kernel, by decide +kernel, by decide +kernel, _, rfl⟩

/-- The second part of the statement: the sum `1 + (2^-24 + 2^-47)` of 42_ieee754_add.md R151, whose tail is
`1/2 + 2^-24`: up under `nearest_even_grs`, not under `literal_rs`; `|v| = 2^0 + …`, `e = 0`, `q = 2^23`. -/
theorem witness_F754AddCorrectlyRounded_tail :
    let v := fpValue .single ⟨false, 127, 0⟩ + fpValue .single ⟨false, 103, 1⟩
    let f : ℚ := 1 / 2 + 1 / 2 ^ 24
    inFormat .single ⟨false, 103, 1⟩ ∧ isFinite .single ⟨false, 103, 1⟩ ∧ v ≠ 0 ∧ (2 : ℚ) ^ (0 : Int) ≤ |v| ∧
    |v| < 2 ^ ((0 : Int) + 1) ∧ |v| = ((2 ^ 23 : Int) + f) * 2 ^ ((0 : Int) - manWidth .single) ∧ 0 ≤ f ∧ f < 1 ∧
    tailUp .nearestEvenGrs False ((2 ^ 23 : Int) % 2 = 1) f ∧ ¬tailUp .literalRs False ((2 ^ 23 : Int) % 2 = 1) f := by
  have h2 : Int.fract (4 * (1 / 2 + 1 / 2 ^ 24 : ℚ)) = 1 / 2 ^ 22 := by
    rw [Int.fract_eq_iff]
    exact ⟨by norm_num, by norm_num, 2, by norm_num⟩
  have h3 : ⌊4 * (1 / 2 + 1 / 2 ^ 24 : ℚ)⌋ = 2 := by
    rw [Int.floor_eq_iff]
    norm_num
  refine ⟨?_, ?_, ?_, ?_, ?_, ?_, ?_, ?_, ?_, ?_⟩
  all_goals
    norm_num [inFormat, isFinite, expMax, expWidth, manWidth, expBias, fpValue, magnitude, tailUp,
      tailR, tailS, h2, h3, abs_of_pos]

theorem witness_F754AddSpecials : Config.default.wf = true ∧ fpClass .single ⟨false, 255, 1⟩ = .nan ∧
    fpClass .single ⟨true, 255, 0⟩ = .infinity ∧ fpClass .single ⟨false, 254, 0⟩ ≠ .infinity ∧
    fpClass .single ⟨true, 0, 0⟩ = .zero ∧ fpClass .single ⟨true, 0, 1⟩ ≠ .zero ∧
    fpClass .single ⟨true, 0, 1⟩ ≠ .nan := by decide

/-- A finite sum, a sum that is zero, and two sums about the overflow threshold. -/
theorem witness_F754AddCorrectlyRounded : Config.default.addRoundRule = .nearestEvenGrs ∧
    inFormat .single ⟨true, 254, 2 ^ 23 - 1⟩ ∧ isFinite .single ⟨true, 254, 2 ^ 23 - 1⟩ ∧
    fpValue .single ⟨false, 127, 0⟩ + fpValue .single ⟨true, 127, 0⟩ = 0 ∧
    fpValue .single ⟨false, 127, 0⟩ + fpValue .single ⟨false, 127, 0⟩ ≠ 0 ∧
    (2 ^ (manWidth .single + 2) - 1 : ℚ) * 2 ^ ((expBias .single : Int) - manWidth .single - 1) ≤
      |fpValue .single ⟨false, 254, 2 ^ 23 - 1⟩ + fpValue .single ⟨false, 230, 0⟩| ∧
    |fpValue .single ⟨false, 127, 0⟩ + fpValue .single ⟨false, 127, 0⟩| <
      (2 ^ (manWidth .single + 2) - 1 : ℚ) * 2 ^ ((expBias .single : Int) - manWidth .single - 1) := by
  refine ⟨rfl, ?_, ?_, ?_, ?_, ?_, ?_⟩ <;>
    norm_num [inFormat, isFinite, expMax, expWidth, manWidth, expBias, fpValue, magnitude]

/-- A string that the reader accepts, and one it refuses. -/
theorem witness_KmParserIsGrammar : kmParse [.bang, .var 0, .plus, .var 1] = some (.or (.not (.var 0)) (.var 1)) ∧
    kmParse [.var 0, .plus] = none := by decide

theorem witness_KmEvalRule : (∀ n ∈ [1#8, 5#8], (Instr.kmEval n).wf State.reset.cfg.tcwMax = true) ∧
    (loaded (txt "A") []).inv = true ∧ clean (loaded (txt " ") []).opa.content = [] ∧
    (∃ c ∈ clean (loaded (txt "A*B") []).opa.content, ∀ k, ¬IsKmSymbol c k) ∧
    List.Forall₂ IsKmSymbol (clean (loaded (txt "a E") []).opa.content) [.var 0, .var 4] ∧
    KmDerives .expr [.var 0] (.var 0) ∧ KmDerives .expr [.var 1] (.var 1) ∧
    (∀ v, KmTok.var v ∈ [KmTok.var 0] → v < 1) ∧ ∃ v, KmTok.var v ∈ [KmTok.var 1] ∧ 1 ≤ v := by
  have h : clean (loaded (txt "a E") []).opa.content = [0x61#8, 0x45#8] := by decide +kernel
  refine ⟨by decide +kernel, by decide +kernel, by decide +kernel, ⟨0x2A#8, by decide +kernel, ?_⟩, ?_,
    .exprOne (.termOne (.factorAtom 0 .atomVar)), .exprOne (.termOne (.factorAtom 0 .atomVar)), ?_, 1, ?_⟩
  · rintro (v | _ | _ | _ | _ | _ | _) <;> simp [IsKmSymbol]
    omega
  · rw [h]
    simp [IsKmSymbol]
  · simp
  · simp

/-- A string that does not derive from `expr`: a single `+`. -/
theorem witness_KmEvalRule_format : List.Forall₂ IsKmSymbol (clean (loaded (txt "+") []).opa.content) [.plus] ∧
    ¬∃ e, KmDerives .expr [.plus] e := by
  have hc : clean (loaded (txt "+") []).opa.content = [0x2B#8] := by decide +kernel
  refine ⟨by rw [hc]; simp [IsKmSymbol], ?_⟩
  have app : ∀ ts us : List KmTok, ts ≠ [] ∧ ts.head? ≠ some .plus → ts ++ us ≠ [] ∧ (ts ++ us).head? ≠ some .plus := by
    rintro (_ | ⟨a, ts⟩) us ⟨h1, h2⟩
    · exact absurd rfl h1
    · exact ⟨by simp, by simpa using h2⟩
  have key : ∀ sort ts e, KmDerives sort ts e → ts ≠ [] ∧ ts.head? ≠ some .plus := by
    intro sort ts e h
    induction h with
    | exprOne _ ih => exact ih
    | exprOr _ _ ih _ => exact app _ _ ih
    | termOne _ ih => exact ih
    | termDot _ _ ih _ => exact app _ _ ih
    | termAdjacent _ _ ih _ => exact app _ _ ih
    | factorBang _ _ => exact ⟨by simp, by simp⟩
    | factorAtom k _ ih => exact app _ _ ih
    | atomVar => exact ⟨by simp, by simp⟩
    | atomGroup _ _ => exact ⟨by simp, by simp⟩
  rintro ⟨e, h⟩
  exact (key _ _ _ h).2 rfl

/-- With no required minterm there is no implicant (46_kmap.md R230). -/
theorem primeList_empty (layout : Nat × Nat) (dc : Word) : IsPrimeList layout 0#32 dc [] := by
  refine ⟨List.nodup_nil, fun Q => ⟨by simp, ?_⟩, List.Pairwise.nil⟩
  rintro ⟨⟨-, -, t, -, ht⟩, -⟩
  simp [mem] at ht

/-- The implicants of two variables with `ON = {0, 3}`: the two cells. -/
theorem implicants_two (Q : Word) : isImplicant (1, 1) 0x9#32 0#32 Q ↔ Q = 0x1#32 ∨ Q = 0x8#32 := by
  have key : ∀ hb wb i0 j0 : Fin 2,
      kmValid 0x9#32 0#32 (kmRect (1, 1) hb.val wb.val i0.val j0.val) = true →
      kmRect (1, 1) hb.val wb.val i0.val j0.val = 0x1#32 ∨ kmRect (1, 1) hb.val wb.val i0.val j0.val = 0x8#32 := by decide +kernel
  rw [isImplicant, ← kmValid_iff]
  constructor
  · rintro ⟨⟨r, hr⟩, hv⟩
    obtain ⟨h1, h2, h3, h4, rfl⟩ := (rectIs_iff _ _ _ (by decide)).1 hr
    exact key ⟨_, Nat.lt_succ_of_le h1⟩ ⟨_, Nat.lt_succ_of_le h2⟩ ⟨_, h3⟩ ⟨_, h4⟩ hv
  · rintro (rfl | rfl)
    · exact ⟨⟨⟨0, 0, 0, 0⟩, (rectIs_iff _ _ _ (by decide)).2 (by decide +kernel)⟩, by decide⟩
    · exact ⟨⟨⟨0, 0, 1, 1⟩, (rectIs_iff _ _ _ (by decide)).2 (by decide +kernel)⟩, by decide⟩

/-- Their prime list. -/
theorem primeList_two : IsPrimeList (1, 1) 0x9#32 0#32 [0x1#32, 0x8#32] := by
  have hb : metBefore (1, 1) 0x1#32 0x8#32 := by
    refine ⟨⟨0, 0, 0, 0⟩, (rectIs_iff _ _ _ (by decide)).2 (by decide +kernel), ?_⟩
    intro r hr
    obtain ⟨h1, h2, h3, h4, h5⟩ := (rectIs_iff _ _ _ (by decide)).1 hr
    have key : ∀ hb wb i0 j0 : Fin 2,
        0x8#32 = kmRect (1, 1) hb.val wb.val i0.val j0.val → hb.val = 0 ∧ wb.val = 0 ∧ i0.val = 1 ∧ j0.val = 1 := by decide +kernel
    obtain ⟨e1, e2, e3, -⟩ : r.hb = 0 ∧ r.wb = 0 ∧ r.i0 = 1 ∧ r.j0 = 1 := key ⟨_, Nat.lt_succ_of_le h1⟩ ⟨_, Nat.lt_succ_of_le h2⟩ ⟨_, h3⟩ ⟨_, h4⟩ h5
    simp [Rect.before, e1, e2, e3]
  refine ⟨by decide, ?_, by simpa using hb⟩
  intro Q
  rw [isPrimeImplicant, implicants_two]
  simp only [List.mem_cons, List.not_mem_nil, or_false, implicants_two]
  refine ⟨fun h => ⟨h, ?_⟩, fun h => h.1⟩
  rintro Q' (rfl | rfl) hsub <;> rcases h with rfl | rfl
  · rfl
  · exact absurd (hsub 3 (by decide)) (by decide)
  · exact absurd (hsub 0 (by decide)) (by decide)
  · rfl

/-- Two variables with two prime implicants, and a table of `p` entries. -/
def twoPrimes (p : Nat) : State := { withMaps 0x9#32 0#32 with cfg := { Config.default with pimax := p } }

theorem twoPrimes_legal (p : Nat) : kmOperandsLegal 2 (twoPrimes p).kmOn (twoPrimes p).kmDc := by
  intro t
  simp only [mem, twoPrimes, withMaps]
  by_cases h : t < 4
  · interval_cases t <;> decide
  · have : (0x9#32).getLsbD t = false := by
      by_cases h32 : t < 32
      · interval_cases t <;> first | omega | decide
      · exact BitVec.getLsbD_of_ge _ _ (by omega)
    simp [this]

/-- The table fits with PIMAX = 2 and not with PIMAX = 1; overlapping operands, and a bit at index `2^n`. -/
theorem witness_KmPiRule : (∀ n ∈ [1#8, 5#8], (Instr.kmPi n).wf State.reset.cfg.tcwMax = true) ∧
    (twoPrimes 1).inv = true ∧ (twoPrimes 2).inv = true ∧ (Instr.kmPi 2#8).wf (twoPrimes 1).cfg.tcwMax = true ∧
    kmOperandsLegal 2 (twoPrimes 1).kmOn (twoPrimes 1).kmDc ∧
    IsPrimeList (kmLayoutOf (twoPrimes 1).cfg 2) (twoPrimes 1).kmOn (twoPrimes 1).kmDc [0x1#32, 0x8#32] ∧
    [0x1#32, 0x8#32].length ≤ (twoPrimes 2).cfg.pimax ∧ (twoPrimes 1).cfg.pimax < [0x1#32, 0x8#32].length ∧
    mem (twoPrimes 1).kmOn 3 ∧ ¬kmOperandsLegal 2 (withMaps 0x1#32 0x1#32).kmOn (withMaps 0x1#32 0x1#32).kmDc ∧
    ¬kmOperandsLegal 2 (withMaps 0x10#32 0#32).kmOn (withMaps 0x10#32 0#32).kmDc :=
  ⟨by decide, by decide, by decide, by decide, twoPrimes_legal 1, primeList_two, by decide, by decide, by decide,
    fun h => (h 0).2 (by decide), fun h => absurd ((h 4).1 (by decide)) (by decide)⟩

/-- No required minterm, with 5 variables: the empty list; and two primes, which fit and do not fit. -/
theorem witness_KmCoverRule : (Instr.kmCover 5#8).wf State.reset.cfg.tcwMax = true ∧
    (Instr.kmCover 2#8).wf (twoPrimes 1).cfg.tcwMax = true ∧ (twoPrimes 1).inv = true ∧ (twoPrimes 2).inv = true ∧
    kmOperandsLegal 2 (twoPrimes 2).kmOn (twoPrimes 2).kmDc ∧
    IsPrimeList (kmLayoutOf (twoPrimes 2).cfg 2) (twoPrimes 2).kmOn (twoPrimes 2).kmDc [0x1#32, 0x8#32] ∧
    [0x1#32, 0x8#32].length ≤ (twoPrimes 2).cfg.pimax ∧ (twoPrimes 1).cfg.pimax < [0x1#32, 0x8#32].length ∧
    IsPrimeList (kmLayoutOf State.reset.cfg 5) State.reset.kmOn State.reset.kmDc [] ∧
    ¬kmOperandsLegal 2 (withMaps 0x1#32 0x1#32).kmOn (withMaps 0x1#32 0x1#32).kmDc :=
  ⟨by decide, by decide, by decide, by decide, twoPrimes_legal 2, primeList_two, by decide, by decide,
    primeList_empty _ _, fun h => (h 0).2 (by decide)⟩

theorem witness_KmCoverIsComplete : (withMaps 0x9#32 0#32).inv = true ∧
    (Instr.kmCover 2#8).wf (withMaps 0x9#32 0#32).cfg.tcwMax = true ∧
    (∃ t, exec (.kmCover 2#8) (withMaps 0x9#32 0#32) = .next t ∧ t.err = 0#4) ∧ (withMaps 0x9#32 0#32).kmDc = 0#32 ∧
    mem (withMaps 0x9#32 0#32).kmOn 3 := by
  refine ⟨by decide, by decide, ⟨_, rfl, by decide +kernel⟩, rfl, by decide⟩

/-- `{2, 3}` of two variables: A is 1 throughout, B varies; `{0, 1}`: A is 0 throughout; `{0, 1, 2, 3}`: no literal. -/
theorem witness_KmSopText : (∃ t, t < 2 ^ 2 ∧ mem 0xC#32 t) ∧
    (∀ t, t < 2 ^ 2 → mem 0xC#32 t → t.testBit (2 - 1 - 0) = true) ∧
    (∀ t, t < 2 ^ 2 → mem 0x3#32 t → t.testBit (2 - 1 - 0) = false) ∧
    (∃ t t', t < 2 ^ 2 ∧ t' < 2 ^ 2 ∧ mem 0xC#32 t ∧ mem 0xC#32 t' ∧ t.testBit (2 - 1 - 1) ≠ t'.testBit (2 - 1 - 1)) ∧
    (∀ v, v < 2 → kmLiteral 2 0xF#32 v = []) ∧ ∃ v, v < 2 ∧ kmLiteral 2 0xC#32 v ≠ [] := by
  refine ⟨⟨2, by decide⟩, ?_, ?_, ⟨2, 3, by decide⟩, by decide, 0, by decide⟩ <;> decide

/-- A rectangle of four variables, a run of 4 of 8 columns from an even and from an odd start, and a product. -/
theorem witness_KmTermsAreProducts :
    (∃ Q, RectIs (kmLayoutOf Config.default 4) ⟨2, 2, 3, 3⟩ Q) ∧ (∃ Q, RectIs (kmLayoutOf Config.default 1) ⟨0, 0, 0, 1⟩ Q) ∧
    (∃ Q, RectIs (kmLayoutOf Config.default 5) ⟨0, 2, 0, 6⟩ Q) ∧ (∃ Q, RectIs (kmLayoutOf Config.default 5) ⟨0, 2, 3, 1⟩ Q) ∧
    isSubcube 1 0x2#32 ∧ ∃ t, t < 2 ^ 1 ∧ mem 0x2#32 t := by
  refine ⟨⟨_, (rectIs_iff _ _ _ (by decide)).2 ⟨by decide, by decide, by decide, by decide, rfl⟩⟩,
    ⟨_, (rectIs_iff _ _ _ (by decide)).2 ⟨by decide, by decide, by decide, by decide, rfl⟩⟩,
    ⟨_, (rectIs_iff _ _ _ (by decide)).2 ⟨by decide, by decide, by decide, by decide, rfl⟩⟩,
    ⟨_, (rectIs_iff _ _ _ (by decide)).2 ⟨by decide, by decide, by decide, by decide, rfl⟩⟩, ⟨1, 1, ?_⟩, 1, by decide⟩
  decide

end Sys2Proof.Tests
end

section
/-! PROOFS, the family 00_scope. The value after reset (10_state.md R41). -/

namespace Sys2Proof.Machine

/-- A reset buffer is within every capacity (10_state.md R24, R41). -/
theorem Buffer.reset_ok (c : Config) : Buffer.reset.ok c = true := by
  simp [Buffer.ok, Buffer.reset, Memory.wf]

/-- Settles O16, clause by clause of the invariant: the parameters are the defaults of 00_scope.md R5, every buffer is
reset, STATUS is 0 and so is each of its fields, and the table is empty. -/
theorem resetInv : Obligations.ResetInv := by
  unfold Obligations.ResetInv
  have hcfg : Config.default.wf = true := by decide
  have hbuffer : Buffer.reset.ok Config.default = true := Buffer.reset_ok _
  have hbusy : State.reset.busy = false := by decide
  have herr : State.reset.err = 0#4 := by decide
  have hflags : State.reset.flags = {} := by decide
  rw [State.inv, hbusy, herr, hflags]
  simp [State.reset, hcfg, hbuffer]

end Sys2Proof.Machine
end

section
/-! PROOFS, the family 00_scope. The results as a function of the command and its operands (00_scope.md R12, 10_state.md
R40): what an operation's rule computes reads operands alone, and its end writes every result that a host can read. -/

namespace Sys2Proof.Machine

/-- The code and the results an operation ends with depend on its rule's outcome and on the parameters alone. -/
theorem State.finish_eq_complete_of_cfg (c : Config) (x : Except Err Results) :
    ∃ err r, ∀ s : State, s.cfg = c → s.finish x = s.complete err r := by
  cases x with
  | error e => exact ⟨e.code, {}, fun _ _ => rfl⟩
  | ok r =>
    by_cases hcap : r.overCapacity c = true
    · exact ⟨Err.capacity.code, {}, fun s hs => by simp [State.finish, hs, hcap, State.failWith_eq_complete]⟩
    · by_cases hself : r.selfCheck = true
      · exact ⟨0#4, r, fun s hs => by simp [State.finish, hs, hcap, hself, State.deliver_eq_complete]⟩
      · exact ⟨Err.internal.code, {}, fun s hs => by
          simp [State.finish, hs, hcap, hself, State.failWith_eq_complete]⟩

/-- One completion shows the same in any two states whose result buffers are in canonical form (10_state.md R40). -/
theorem State.complete_sameResults (s s' : State) (err : BitVec 4) (r : Results) (hs : s.inv = true)
    (hs' : s'.inv = true) : SameResults (s.complete err r) (s'.complete err r) := by
  obtain ⟨ha, hb, hc⟩ := s.inv_resultCells hs
  obtain ⟨ha', hb', hc'⟩ := s'.inv_resultCells hs'
  refine ⟨rfl, rfl, rfl, rfl, rfl, rfl, ?_, ?_, ?_⟩
  · exact (s.ra.content_write r.ra ha).trans (s'.ra.content_write r.ra ha').symm
  · exact (s.rb.content_write r.rb hb).trans (s'.rb.content_write r.rb hb').symm
  · exact (s.rc.content_write r.rc hc).trans (s'.rc.content_write r.rc hc').symm

/-- The counter of the free values (log entry 3) is no result. -/
theorem SameResults.withFreeCount {s t : State} (h : SameResults s t) (m n : Nat) :
    SameResults { s with freeCount := m } { t with freeCount := n } :=
  ⟨h.status, h.aux0, h.aux1, h.kmTt, h.picnt, h.piTable, h.ra, h.rb, h.rc⟩

/-- Under `lowest_index` the greedy loop draws no free value (46_kmap.md R233). -/
theorem kmGreedy_lowestIndex (draw draw' : Nat) (P : List Word) (on : Word) (fuel : Nat) (sel : List Nat) :
    kmGreedy .lowestIndex draw P on fuel sel = kmGreedy .lowestIndex draw' P on fuel sel := by
  induction fuel generalizing sel with
  | zero => rfl
  | succ fuel ih => simp only [kmGreedy, chooseTie, ih]

/-- Under `leftmost_first` CRC.DEC draws no free value (43_crc.md R176). -/
theorem crcDecode_leftmostFirst (draw draw' : Nat) (fix : Bool) (opa opb : Text) :
    crcDecode .leftmostFirst draw fix opa opb = crcDecode .leftmostFirst draw' fix opa opb := rfl

/-- Under `lowest_index` KM.COVER draws no free value (46_kmap.md R233). -/
theorem kmCover_lowestIndex (c : Config) (h : c.kmGreedyTie = .lowestIndex) (draw draw' n : Nat) (on dc : Word) :
    kmCover c draw n on dc = kmCover c draw' n on dc := by
  simp only [kmCover, kmSelect, h, kmGreedy_lowestIndex draw draw']

/-- What an operation's rule computes is a function of the parameters, the contents of the operands, KM_ON and KM_DC, and
of the counter only where a choice is open (00_scope.md R12; log entry 3). -/
theorem opResult_congr (i : Instr) (s s' : State) (hcfg : s.cfg = s'.cfg) (hopa : s.opa.content = s'.opa.content)
    (hopb : s.opb.content = s'.opb.content) (hon : s.kmOn = s'.kmOn) (hdc : s.kmDc = s'.kmDc)
    (hfree : s.freeCount = s'.freeCount ∨
      (s.cfg.crcFixOrder = .leftmostFirst ∧ s.cfg.kmGreedyTie = .lowestIndex)) :
    opResult i s = opResult i s' := by
  cases i
  case crcDec fix =>
    simp only [opResult, ← hcfg, ← hopa, ← hopb]
    rcases hfree with hcount | ⟨horder, -⟩
    · rw [hcount]
    · rw [horder, crcDecode_leftmostFirst s.freeCount s'.freeCount]
  case kmCover n =>
    simp only [opResult, ← hcfg, ← hon, ← hdc]
    rcases hfree with hcount | ⟨-, htie⟩
    · rw [hcount]
    · exact kmCover_lowestIndex _ htie _ _ _ _ _
  all_goals simp only [opResult, hcfg, hopa, hopb, hon, hdc]

/-- Settles O13: both commands compute one outcome (`opResult_congr`), and one outcome ends in one code and one set of
results, which hide what the result registers held before (`State.complete_sameResults`). -/
theorem resultsAreFunction : Obligations.ResultsAreFunction := by
  unfold Obligations.ResultsAreFunction
  intro i s s' t t' hs hs' hcfg hopa hopb hon hdc hfree ht ht'
  rw [exec_eq] at ht ht'
  injection ht with ht
  injection ht' with ht'
  obtain ⟨err, r, hfinish⟩ := State.finish_eq_complete_of_cfg s'.cfg (opResult i s')
  have hend : s.finish (opResult i s) = s.complete err r := by
    rw [opResult_congr i s s' hcfg hopa hopb hon hdc hfree, hfinish s hcfg]
  have hend' : s'.finish (opResult i s') = s'.complete err r := hfinish s' rfl
  rw [← ht, ← ht', hend, hend']
  exact (s.complete_sameResults s' err r hs hs').withFreeCount _ _

end Sys2Proof.Machine
end

section
/-! PROOFS, the family 00_scope. The polynomial of a BitString (00_scope.md R7) and the long division of 43_crc.md R171 as
polynomial division over GF(2). -/

namespace Sys2Proof.Machine

open Polynomial

@[simp] theorem bitsPoly_nil : bitsPoly [] = 0 := rfl

/-- The polynomial with a running start, as the fold computes it. -/
theorem bitsPoly_foldl (b : Bits) (p : (ZMod 2)[X]) :
    b.foldl (fun p x => p * X + (if x then 1 else 0)) p = p * X ^ b.length + bitsPoly b := by
  induction b generalizing p with
  | nil => simp
  | cons x b ih =>
    simp only [bitsPoly, List.foldl_cons, List.length_cons]
    rw [ih, ih (0 * X + _)]
    ring

/-- The first bit is the coefficient of the highest degree (00_scope.md R7). -/
theorem bitsPoly_cons (x : Bool) (b : Bits) :
    bitsPoly (x :: b) = (if x then 1 else 0) * X ^ b.length + bitsPoly b := by
  rw [bitsPoly, List.foldl_cons, bitsPoly_foldl, zero_mul, zero_add]

@[simp] theorem bitsPoly_cons_false (b : Bits) : bitsPoly (false :: b) = bitsPoly b := by
  simp [bitsPoly_cons]

@[simp] theorem bitsPoly_cons_true (b : Bits) : bitsPoly (true :: b) = X ^ b.length + bitsPoly b := by
  simp [bitsPoly_cons]

/-- The degree is below the number of bits. -/
theorem degree_bitsPoly_lt (b : Bits) : (bitsPoly b).degree < b.length := by
  induction b with
  | nil => simp
  | cons x b ih =>
    have htail : (bitsPoly b).degree < ((b.length + 1 : Nat) : WithBot Nat) :=
      ih.trans (by exact_mod_cast Nat.lt_succ_self _)
    cases x with
    | false => simpa using htail
    | true =>
      rw [bitsPoly_cons_true, List.length_cons]
      refine (degree_add_le _ _).trans_lt (max_lt ?_ htail)
      rw [degree_X_pow]
      exact_mod_cast Nat.lt_succ_self _

/-- A generator whose first bit is 1 has a monic polynomial (43_crc.md R170). -/
theorem monic_bitsPoly_cons_true (g : Bits) : (bitsPoly (true :: g)).Monic := by
  rw [bitsPoly_cons_true]
  exact monic_X_pow_add (degree_bitsPoly_lt g)

/-- Its degree is the number of bits after the first. -/
theorem degree_bitsPoly_cons_true (g : Bits) : (bitsPoly (true :: g)).degree = g.length := by
  rw [bitsPoly_cons_true, add_comm, degree_add_eq_right_of_degree_lt] <;> rw [degree_X_pow]
  exact degree_bitsPoly_lt g

@[simp] theorem xorInto_nil (W : Bits) : xorInto W [] = W := by cases W <;> rfl

@[simp] theorem xorInto_length (W G : Bits) : (xorInto W G).length = W.length := by
  induction W generalizing G with
  | nil => rfl
  | cons w ws ih =>
    cases G with
    | nil => rfl
    | cons g gs => exact congrArg (· + 1) (ih gs)

/-- XOR of bits is addition of coefficients over GF(2). -/
theorem bitCoeff_xor (a b : Bool) :
    (if a ^^ b then 1 else 0 : (ZMod 2)[X]) = (if a then 1 else 0) + (if b then 1 else 0) := by
  cases a <;> cases b <;> simp [CharTwo.add_self_eq_zero]

/-- XORing the generator into the leftmost bits adds a multiple of its polynomial (43_crc.md R171). -/
theorem bitsPoly_xorInto (W G : Bits) (k : Nat) (h : W.length = k + G.length) :
    bitsPoly (xorInto W G) = bitsPoly W + bitsPoly G * X ^ k := by
  induction W generalizing G with
  | nil =>
    obtain rfl : G = [] := List.eq_nil_of_length_eq_zero (by simp at h; omega)
    simp
  | cons w ws ih =>
    cases G with
    | nil => simp
    | cons g gs =>
      have hlen : ws.length = k + gs.length := by simp only [List.length_cons] at h; omega
      rw [xorInto, bitsPoly_cons, bitsPoly_cons, bitsPoly_cons, bitCoeff_xor, ih gs hlen, xorInto_length, hlen]
      ring

/-- The bits behind the first one after one turn of the division (43_crc.md R171). -/
def divTurn (g : Bits) (w : Bool) (ws : Bits) : Bits := if w then xorInto ws g else ws

/-- One turn of the division by a generator whose first bit is 1 clears the first bit of the buffer. -/
theorem gf2Div_cons (g : Bits) (k : Nat) (w : Bool) (ws : Bits) :
    gf2Div (true :: g) (k + 1) (w :: ws) = false :: gf2Div (true :: g) k (divTurn g w ws) := by
  cases w <;> rfl

@[simp] theorem divTurn_length (g : Bits) (w : Bool) (ws : Bits) : (divTurn g w ws).length = ws.length := by
  cases w <;> simp [divTurn]

/-- One turn of the division changes the polynomial by a multiple of the generator's: in characteristic 2 the leading
terms of the buffer and of the shifted generator cancel. -/
theorem bitsPoly_dvd_divTurn (g : Bits) (k : Nat) (w : Bool) (ws : Bits) (h : ws.length = k + g.length) :
    bitsPoly (true :: g) ∣ bitsPoly (divTurn g w ws) - bitsPoly (w :: ws) := by
  cases w with
  | false => simp [divTurn]
  | true =>
    refine ⟨X ^ k, ?_⟩
    have hturn : bitsPoly (divTurn g true ws) = bitsPoly ws + bitsPoly g * X ^ k := bitsPoly_xorInto ws g k h
    rw [hturn, bitsPoly_cons_true, bitsPoly_cons_true, h, CharTwo.sub_eq_add, pow_add]
    linear_combination CharTwo.add_self_eq_zero (bitsPoly ws)

/-- The division leaves zeros and then the remainder's bits, as many as the generator has after its first. -/
theorem gf2Div_eq_zeros_append (g : Bits) (k : Nat) (W : Bits) (h : W.length = k + g.length) :
    ∃ rem, gf2Div (true :: g) k W = zeroBits k ++ rem ∧ rem.length = g.length ∧
      bitsPoly (true :: g) ∣ bitsPoly rem - bitsPoly W := by
  induction k generalizing W with
  | zero => exact ⟨W, rfl, by omega, by simp⟩
  | succ k ih =>
    cases W with
    | nil =>
      simp only [List.length_nil] at h
      omega
    | cons w ws =>
      have hlen : ws.length = k + g.length := by simp only [List.length_cons] at h; omega
      obtain ⟨rem, hdiv, hrem, hdvd⟩ := ih (divTurn g w ws) (by rw [divTurn_length, hlen])
      refine ⟨rem, ?_, hrem, ?_⟩
      · rw [gf2Div_cons, hdiv]
        rfl
      · have hsum := dvd_add hdvd (bitsPoly_dvd_divTurn g k w ws hlen)
        rwa [sub_add_sub_cancel] at hsum

/-- A polynomial of fewer bits that is congruent to another modulo the generator is its remainder. -/
theorem bitsPoly_eq_modByMonic (g rem W : Bits) (hlen : rem.length = g.length)
    (hdvd : bitsPoly (true :: g) ∣ bitsPoly rem - bitsPoly W) :
    bitsPoly rem = bitsPoly W %ₘ bitsPoly (true :: g) := by
  have hmonic : (bitsPoly (true :: g)).Monic := monic_bitsPoly_cons_true g
  have hdeg : (bitsPoly rem).degree < (bitsPoly (true :: g)).degree := by
    rw [degree_bitsPoly_cons_true, ← hlen]
    exact degree_bitsPoly_lt rem
  rw [← (modByMonic_eq_self_iff hmonic).2 hdeg]
  exact modByMonic_eq_of_dvd_sub hmonic hdvd

/-- Settles O30: the division leaves `k` zeros before its last `r` bits, and these are congruent to the buffer modulo the
generator and of lower degree. -/
theorem crcRemainderIsPolynomialRemainder : Obligations.CrcRemainderIsPolynomialRemainder := by
  unfold Obligations.CrcRemainderIsPolynomialRemainder
  refine ⟨fun _ => rfl, fun W G k hhead hlen => ?_⟩
  obtain ⟨g, rfl⟩ : ∃ g, G = true :: g := List.head?_eq_some_iff.1 hhead
  obtain ⟨rem, hdiv, hrem, hdvd⟩ := gf2Div_eq_zeros_append g k W hlen
  have hzeros : (zeroBits k).length = k := List.length_replicate
  have hcrc : crcRem W (true :: g) k = rem := by rw [crcRem, hdiv, List.drop_left' hzeros]
  refine ⟨by rw [hcrc, hrem]; rfl, by rw [hdiv, List.take_left' hzeros], ?_⟩
  rw [hcrc]
  exact bitsPoly_eq_modByMonic g rem W hrem hdvd

end Sys2Proof.Machine
end

section
/-! PROOFS, the family 10_state. What every command leaves, said once: the results that each operation's rule names
(10_state.md R27, R32, 30_encoding.md R80), and the one form in which every completion writes them (10_state.md R40,
60_exceptions.md R252). -/

namespace Sys2Proof.Machine

/-- A chain of checks passes iff each part does (00_scope.md R10 `raise`). -/
theorem except_bind_ok {α β : Type} (x : Except Err α) (f : α → Except Err β) (b : β) :
    (x >>= f) = .ok b ↔ ∃ a, x = .ok a ∧ f a = .ok b := by
  cases x <;> simp [bind, Except.bind]

/-- A chain of checks ends with the error of its first part that fails. -/
theorem except_bind_error {α β : Type} (x : Except Err α) (f : α → Except Err β) (e : Err) :
    (x >>= f) = .error e ↔ x = .error e ∨ ∃ a, x = .ok a ∧ f a = .error e := by
  cases x <;> simp [bind, Except.bind]

@[simp] theorem except_pure_eq_ok {α : Type} (a b : α) : (pure a : Except Err α) = .ok b ↔ a = b := by
  simp [pure, Except.pure]

/-- What holds of the results of every operation: a CLASS code of 10_state.md R26, at most one of VALID, CORR and UNCORR
(43_crc.md R175, 44_hamming.md R196), and 0 in the unassigned bits of INFO (R33). -/
structure Results.Sound (r : Results) : Prop where
  cls : r.flags.cls.toNat ≤ 5
  validCorr : ¬(r.flags.valid = true ∧ r.flags.corr = true)
  validUncorr : ¬(r.flags.valid = true ∧ r.flags.uncorr = true)
  corrUncorr : ¬(r.flags.corr = true ∧ r.flags.uncorr = true)
  info : ∀ e ∈ r.pi, e.info &&& ~~~0x0000FF03#32 = 0#32

theorem Results.sound_iff (r : Results) : r.Sound ↔ r.flags.cls.toNat ≤ 5 ∧
    ¬(r.flags.valid = true ∧ r.flags.corr = true) ∧ ¬(r.flags.valid = true ∧ r.flags.uncorr = true) ∧
    ¬(r.flags.corr = true ∧ r.flags.uncorr = true) ∧ ∀ e ∈ r.pi, e.info &&& ~~~0x0000FF03#32 = 0#32 :=
  ⟨fun ⟨hcls, hvc, hvu, hcu, hinfo⟩ => ⟨hcls, hvc, hvu, hcu, hinfo⟩,
    fun ⟨hcls, hvc, hvu, hcu, hinfo⟩ => ⟨hcls, hvc, hvu, hcu, hinfo⟩⟩

/-- The results that the rule of an operation may name, by the operation numbers of 30_encoding.md R80: the buffers, the
numeric results and the flags of R27 and R32. Everything else is empty or 0. -/
structure Results.Named (i : Instr) (r : Results) : Prop where
  sound : r.Sound
  ra : r.ra ≠ [] → i.opc.toNat ∉ [0x0E, 0x0F]
  rb : r.rb ≠ [] → i.opc.toNat ∈ [0x01, 0x02, 0x03, 0x04, 0x05, 0x06, 0x07, 0x0A, 0x0B]
  rc : r.rc ≠ [] → i.opc.toNat ∈ [0x02, 0x04]
  kmTt : r.kmTt ≠ 0#32 → i.opc.toNat = 0x0E
  pi : r.pi ≠ [] → i.opc.toNat ∈ [0x0F, 0x10]
  piInfo : i.opc.toNat = 0x0F → ∀ e ∈ r.pi, e.info = 0#32
  aux0 : r.aux0 ≠ 0#32 → i.opc.toNat ∈ [0x01, 0x02, 0x03, 0x04, 0x05, 0x06, 0x07, 0x0C, 0x0E, 0x0F, 0x10]
  aux1 : r.aux1 ≠ 0#32 → i.opc.toNat ∈ [0x01, 0x02, 0x03, 0x04, 0x05, 0x0C, 0x10]
  valid : r.flags.valid = true → i.opc.toNat ∈ [0x01, 0x02, 0x04]
  corr : r.flags.corr = true → i.opc.toNat ∈ [0x02, 0x04]
  uncorr : r.flags.uncorr = true → i.opc.toNat ∈ [0x02, 0x04]
  sign : r.flags.sign = true → i.opc.toNat ∈ [0x05, 0x06, 0x07]
  cls : r.flags.cls ≠ 0#3 → i.opc.toNat ∈ [0x05, 0x06, 0x07]
  ovf : r.flags.ovf = true → i.opc.toNat ∈ [0x08, 0x0A, 0x0B]
  cout : r.flags.cout = true → i.opc.toNat ∈ [0x0A, 0x0B]

/-- A cleared result names nothing. -/
theorem Results.named_empty (i : Instr) : Results.Named i {} := by
  constructor <;> simp [Results.sound_iff]

theorem crcEncode_named (opa opb : Text) (r : Results) (h : crcEncode opa opb = .ok r) : r.Named .crcEnc := by
  simp only [crcEncode, except_bind_ok, except_pure_eq_ok] at h
  obtain ⟨_, -, rfl⟩ := h
  constructor <;> simp [Results.sound_iff, Instr.opc]

/-- CRC.DEC (43_crc.md R175): a position is reported only for a word that is not valid. -/
theorem crcDecode_named (order : CrcFixOrder) (draw : Nat) (fix : Bool) (opa opb : Text) (r : Results)
    (h : crcDecode order draw fix opa opb = .ok r) : r.Named (.crcDec fix) := by
  simp only [crcDecode, except_bind_ok, except_pure_eq_ok] at h
  obtain ⟨⟨R, G⟩, -, _, -, rfl⟩ := h
  constructor
  case sound =>
    cases hvalid : isZeroBits (crcRem R G (R.length - (G.length - 1))) with
    | true => simp [Results.sound_iff]
    | false =>
      simp only [Results.sound_iff, Bool.not_false, Bool.true_and, Bool.and_eq_true, Option.isNone_iff_eq_none]
      refine ⟨by decide, by simp, by simp, ?_, by simp⟩
      rintro ⟨hfound, -, hnone⟩
      simp [hnone] at hfound
  all_goals simp [Instr.opc]

theorem hamEncode_named (opa : Text) (r : Results) (h : hamEncode opa = .ok r) : r.Named .hamEnc := by
  simp only [hamEncode, except_bind_ok, except_pure_eq_ok] at h
  obtain ⟨_, -, rfl⟩ := h
  constructor <;> simp [Results.sound_iff, Instr.opc]

/-- HAM.DEC (44_hamming.md R196): valid iff the syndrome's value is 0, and corrected or uncorrectable otherwise. -/
theorem hamDecode_named (opa : Text) (r : Results) (h : hamDecode opa = .ok r) : r.Named .hamDec := by
  simp only [hamDecode, except_bind_ok, except_pure_eq_ok] at h
  obtain ⟨c, -, _, -, rfl⟩ := h
  constructor <;> simp +contextual [Results.sound_iff, Instr.opc]

/-- The CLASS codes are at most 5 (10_state.md R26). -/
theorem FpClass.code_le (c : FpClass) : c.code.toNat ≤ 5 := by
  cases c <;> decide

theorem f754Decode_named (prec : Precision) (ty : InType) (opa : Text) (r : Results)
    (h : f754Decode prec ty opa = .ok r) : r.Named (.f754Dec prec ty) := by
  simp only [f754Decode, except_bind_ok, except_pure_eq_ok] at h
  obtain ⟨_, -, rfl⟩ := h
  constructor <;> simp [Results.sound_iff, Instr.opc, fpFlags, FpClass.code_le]

/-- What a result pattern delivers is named by F754.ENC and by F754.ADD. -/
theorem patternResults_named (i : Instr) (hi : i.opc.toNat ∈ [0x06, 0x07]) (prec : Precision) (x : FpFields) :
    (patternResults prec x).Named i := by
  simp only [List.mem_cons, List.not_mem_nil, or_false] at hi
  constructor <;> simp [Results.sound_iff, patternResults, fpFlags, FpClass.code_le] <;> omega

theorem f754Encode_named (prec : Precision) (opa : Text) (r : Results) (h : f754Encode prec opa = .ok r) :
    r.Named (.f754Enc prec) := by
  simp only [f754Encode, except_bind_ok, except_pure_eq_ok] at h
  obtain ⟨_, -, x, -, rfl⟩ := h
  exact patternResults_named _ (by simp [Instr.opc]) prec x

theorem f754Add_named (c : Config) (prec : Precision) (ty : InType) (opa opb : Text) (r : Results)
    (h : f754Add c prec ty opa opb = .ok r) : r.Named (.f754Add prec ty) := by
  simp only [f754Add, except_bind_ok, except_pure_eq_ok] at h
  obtain ⟨_, -, _, -, rfl⟩ := h
  exact patternResults_named _ (by simp [Instr.opc]) prec _

theorem tcEncode_named (w : BitVec 8) (opa : Text) (r : Results) (h : tcEncode w.toNat opa = .ok r) :
    r.Named (.tcEnc w) := by
  simp only [tcEncode, except_bind_ok, except_pure_eq_ok] at h
  obtain ⟨_, -, rfl⟩ := h
  constructor <;> simp [Results.sound_iff, Instr.opc]

theorem tcDecode_named (w : BitVec 8) (opa : Text) (r : Results) (h : tcDecode w.toNat opa = .ok r) :
    r.Named (.tcDec w) := by
  simp only [tcDecode, except_bind_ok, except_pure_eq_ok] at h
  obtain ⟨_, -, rfl⟩ := h
  constructor <;> simp [Results.sound_iff, Instr.opc]

/-- The carries set COUT and OVF and no other flag (40_twos_complement.md R115, R116). -/
theorem chainFlags_eq (carries : Bits) :
    chainFlags carries = { cout := (chainFlags carries).cout, ovf := (chainFlags carries).ovf } := by
  rcases carries with _ | ⟨c, _ | ⟨d, rest⟩⟩ <;> rfl

/-- What a chain of carries or borrows delivers is named by TC.ADD and by TC.SUB. -/
theorem tcChainResults_named (i : Instr) (hi : i.opc.toNat ∈ [0x0A, 0x0B]) (chain : List (Bool × Bool)) :
    (tcChainResults chain).Named i := by
  simp only [List.mem_cons, List.not_mem_nil, or_false] at hi
  rw [tcChainResults, chainFlags_eq]
  constructor <;> simp [Results.sound_iff] <;> omega

theorem tcAdd_named (w : BitVec 8) (opa opb : Text) (r : Results) (h : tcAdd w.toNat opa opb = .ok r) :
    r.Named (.tcAdd w) := by
  simp only [tcAdd, except_bind_ok, except_pure_eq_ok] at h
  obtain ⟨_, -, rfl⟩ := h
  exact tcChainResults_named _ (by simp [Instr.opc]) _

theorem tcSub_named (w : BitVec 8) (opa opb : Text) (r : Results) (h : tcSub w.toNat opa opb = .ok r) :
    r.Named (.tcSub w) := by
  simp only [tcSub, except_bind_ok, except_pure_eq_ok] at h
  obtain ⟨_, -, rfl⟩ := h
  exact tcChainResults_named _ (by simp [Instr.opc]) _

theorem grayEncode_named (opa : Text) (r : Results) (h : grayEncode opa = .ok r) : r.Named .grayEnc := by
  simp only [grayEncode, except_bind_ok, except_pure_eq_ok] at h
  obtain ⟨_, -, rfl⟩ := h
  constructor <;> simp [Results.sound_iff, Instr.opc]

theorem grayDecode_named (opa : Text) (r : Results) (h : grayDecode opa = .ok r) : r.Named .grayDec := by
  simp only [grayDecode, except_bind_ok, except_pure_eq_ok] at h
  obtain ⟨_, -, rfl⟩ := h
  constructor <;> simp [Results.sound_iff, Instr.opc]

theorem kmEval_named (n : BitVec 8) (opa : Text) (r : Results) (h : kmEval n.toNat opa = .ok r) :
    r.Named (.kmEval n) := by
  simp only [kmEval, except_bind_ok, except_pure_eq_ok] at h
  obtain ⟨_, -, _, -, _, -, _, -, rfl⟩ := h
  constructor <;> simp [Results.sound_iff, Instr.opc]

theorem kmPi_named (c : Config) (n : BitVec 8) (on dc : Word) (r : Results) (h : kmPi c n.toNat on dc = .ok r) :
    r.Named (.kmPi n) := by
  simp only [kmPi, except_bind_ok, except_pure_eq_ok] at h
  obtain ⟨_, -, rfl⟩ := h
  constructor <;> simp [Results.sound_iff, Instr.opc]

/-- The unassigned bits of INFO are 0 (10_state.md R33). -/
theorem kmInfo_unassigned (P : List Word) (on : Word) (sel : List Nat) (i : Nat) :
    kmInfo P on sel i &&& ~~~0x0000FF03#32 = 0#32 := by
  apply BitVec.eq_of_getLsbD_eq
  intro k hk
  simp only [kmInfo, BitVec.getLsbD_and, BitVec.getLsbD_not, BitVec.getLsbD_append, BitVec.getLsbD_ofBool,
    BitVec.getLsbD_zero]
  interval_cases k <;> simp

theorem kmCover_named (c : Config) (draw : Nat) (n : BitVec 8) (on dc : Word) (r : Results)
    (h : kmCover c draw n.toNat on dc = .ok r) : r.Named (.kmCover n) := by
  simp only [kmCover, except_bind_ok, except_pure_eq_ok] at h
  obtain ⟨_, -, rfl⟩ := h
  constructor
  case sound =>
    simp only [Results.sound_iff, List.forall_mem_map]
    exact ⟨by decide, by decide, by decide, by decide, fun k _ => kmInfo_unassigned _ _ _ k⟩
  all_goals simp [Instr.opc]

/-- Every operation delivers only the results that its rule names. -/
theorem opResult_named (i : Instr) (s : State) (r : Results) (h : opResult i s = .ok r) : r.Named i := by
  cases i with
  | crcEnc => exact crcEncode_named _ _ _ h
  | crcDec fix => exact crcDecode_named _ _ _ _ _ _ h
  | hamEnc => exact hamEncode_named _ _ h
  | hamDec => exact hamDecode_named _ _ h
  | f754Dec prec ty => exact f754Decode_named _ _ _ _ h
  | f754Enc prec => exact f754Encode_named _ _ _ h
  | f754Add prec ty => exact f754Add_named _ _ _ _ _ _ h
  | tcEnc w => exact tcEncode_named _ _ _ h
  | tcDec w => exact tcDecode_named _ _ _ h
  | tcAdd w => exact tcAdd_named _ _ _ _ h
  | tcSub w => exact tcSub_named _ _ _ _ h
  | grayEnc => exact grayEncode_named _ _ h
  | grayDec => exact grayDecode_named _ _ h
  | kmEval n => exact kmEval_named _ _ _ h
  | kmPi n => exact kmPi_named _ _ _ _ _ h
  | kmCover n => exact kmCover_named _ _ _ _ _ _ h

/-- The codes of 10_state.md R29 are the numbers 1 to 9. -/
theorem Err.code_bounds (e : Err) : e.code ≠ 0#4 ∧ e.code.toNat ≤ 9 := by
  cases e <;> decide

/-- Every end of an operation: an error completion, or the delivery of results that fit (30_encoding.md R81). -/
theorem State.finish_fails_or_delivers (s : State) (x : Except Err Results) :
    (∃ e, s.finish x = s.failWith e) ∨
      ∃ r, x = .ok r ∧ r.overCapacity s.cfg = false ∧ s.finish x = s.deliver r := by
  rcases s.finish_cases x with ⟨e, -, h⟩ | ⟨r, -, -, h⟩ | ⟨r, -, -, -, h⟩ | ⟨r, hx, hcap, -, h⟩
  · exact .inl ⟨_, h⟩
  · exact .inl ⟨_, h⟩
  · exact .inl ⟨_, h⟩
  · exact .inr ⟨r, hx, hcap, h⟩

/-- A code and results that a completion may write: with an error everything cleared (60_exceptions.md R252), and always
within the capacities (30_encoding.md R74). -/
structure Completion (c : Config) (err : BitVec 4) (r : Results) : Prop where
  code : err.toNat ≤ 9
  cleared : err ≠ 0#4 → r = {}
  sound : r.Sound
  fits : r.overCapacity c = false

theorem completion_of_err (c : Config) (e : Err) : Completion c e.code {} :=
  ⟨e.code_bounds.2, fun _ => rfl, by simp [Results.sound_iff], by simp [Results.overCapacity]⟩

/-- Everything a command can do: one completion, with results that its rule names, and the free values drawn. -/
theorem exec_completion (i : Instr) (s : State) : ∃ err r, Completion s.cfg err r ∧ r.Named i ∧
    exec i s = .next { s.complete err r with freeCount := s.freeCount + draws i } := by
  rw [exec_eq]
  rcases s.finish_fails_or_delivers (opResult i s) with ⟨e, h⟩ | ⟨r, hr, hcap, h⟩ <;> rw [h]
  · exact ⟨e.code, {}, completion_of_err _ e, Results.named_empty i, rfl⟩
  · have hnamed := opResult_named i s r hr
    exact ⟨0#4, r, ⟨by decide, fun h0 => absurd rfl h0, hnamed.sound, hcap⟩, hnamed, rfl⟩

/-- Everything the engine's turn can do: nothing, or one completion of the pending command. -/
theorem engineTurn_completion (s : State) : (s.busy = false ∧ engineTurn s = .next s) ∨
    (s.busy = true ∧ ∃ err r n, Completion s.cfg err r ∧
      engineTurn s = .next { s.complete err r with freeCount := n }) := by
  rcases engineTurn_cases s with h | ⟨hb, e, -, h⟩ | ⟨hb, i, -, h⟩
  · exact .inl h
  · exact .inr ⟨hb, Err.code .illegalCmd, {}, s.freeCount, completion_of_err _ .illegalCmd, h⟩
  · obtain ⟨err, r, hc, -, hexec⟩ := exec_completion i s
    rw [exec_eq] at hexec
    exact .inr ⟨hb, err, r, _, hc, h.trans hexec⟩

end Sys2Proof.Machine
end

section
/-! PROOFS, the family 10_state. The invariant of the machine, clause by clause, and that every turn of either agent keeps
it (10_state.md R24 to R33, R40, R252). -/

namespace Sys2Proof.Machine

/-- A buffer within its capacity, in canonical form (10_state.md R24). -/
theorem Buffer.ok_iff (c : Config) (b : Buffer) : b.ok c = true ↔
    b.len ≤ c.bufmax ∧ Memory.wf b.cells = true ∧ ∀ d ∈ b.cells, d.1 < c.bufmax := by
  simp [Buffer.ok, and_assoc]

/-- Writing a text that fits keeps a buffer within its capacity (30_encoding.md R74). -/
theorem Buffer.ok_write (c : Config) (b : Buffer) (t : Text) (h : b.ok c = true) (ht : t.length ≤ c.bufmax) :
    (b.write t).ok c = true := by
  obtain ⟨-, hwf, hbelow⟩ := (Buffer.ok_iff c b).1 h
  exact (Buffer.ok_iff c _).2 ⟨ht, b.wf_write t hwf, Memory.below_writeText b.cells 0 c.bufmax t hbelow (by omega)⟩

/-- Writing a cell that exists keeps a buffer within its capacity (20_memory.md R52). -/
theorem Buffer.ok_writeCell (c : Config) (b : Buffer) (i : Nat) (x : Byte) (h : b.ok c = true) (hi : i < c.bufmax) :
    ({ b with cells := b.cells.write i x } : Buffer).ok c = true := by
  obtain ⟨hlen, hwf, hbelow⟩ := (Buffer.ok_iff c b).1 h
  refine (Buffer.ok_iff c _).2 ⟨hlen, Memory.wf_write b.cells i x hwf, fun d hd => ?_⟩
  rcases Memory.mem_write b.cells i x d hd with rfl | hd
  · exact hi
  · exact hbelow d hd

/-- Setting a length that fits keeps a buffer within its capacity (20_memory.md R52). -/
theorem Buffer.ok_withLen (c : Config) (b : Buffer) (l : Nat) (h : b.ok c = true) (hl : l ≤ c.bufmax) :
    ({ b with len := l } : Buffer).ok c = true := by
  obtain ⟨-, hwf, hbelow⟩ := (Buffer.ok_iff c b).1 h
  exact (Buffer.ok_iff c _).2 ⟨hl, hwf, hbelow⟩

/-- The results fit their buffers and the table (30_encoding.md R74, 46_kmap.md R230). -/
theorem Results.overCapacity_eq_false_iff (c : Config) (r : Results) : r.overCapacity c = false ↔
    r.ra.length ≤ c.bufmax ∧ r.rb.length ≤ c.bufmax ∧ r.rc.length ≤ c.bufmax ∧ r.pi.length ≤ c.pimax := by
  simp [Results.overCapacity, and_assoc]

/-- PIMAX is at most 255 (00_scope.md R5). -/
theorem pimax_le_of_wf (c : Config) (h : c.wf = true) : c.pimax ≤ 255 := by
  simp only [Config.wf, Bool.and_eq_true, decide_eq_true_eq] at h
  tauto

/-- PICNT counts the entries of a table that fits (10_state.md R33). -/
theorem picnt_toNat_of_fits (c : Config) (r : Results) (hc : c.wf = true) (h : r.overCapacity c = false) :
    (BitVec.ofNat 32 r.pi.length).toNat = r.pi.length := by
  obtain ⟨-, -, -, hpi⟩ := (Results.overCapacity_eq_false_iff c r).1 h
  have hmax := pimax_le_of_wf c hc
  rw [BitVec.toNat_ofNat, Nat.mod_eq_of_lt (by omega)]

/-- The invariant (State.inv of Safety.lean) with a name for each of its clauses. -/
structure State.Invariant (s : State) : Prop where
  cfg : s.cfg.wf = true
  opa : s.opa.ok s.cfg = true
  opb : s.opb.ok s.cfg = true
  ra : s.ra.ok s.cfg = true
  rb : s.rb.ok s.cfg = true
  rc : s.rc.ok s.cfg = true
  unassigned : s.status &&& ~~~statusAssigned = 0#32
  handshake : ¬(s.busy = true ∧ s.done = true)
  err : s.err.toNat ≤ 9
  cls : s.flags.cls.toNat ≤ 5
  validCorr : ¬(s.flags.valid = true ∧ s.flags.corr = true)
  validUncorr : ¬(s.flags.valid = true ∧ s.flags.uncorr = true)
  corrUncorr : ¬(s.flags.corr = true ∧ s.flags.uncorr = true)
  picnt : s.picnt.toNat = s.piTable.length
  table : s.piTable.length ≤ s.cfg.pimax
  info : ∀ e ∈ s.piTable, e.info &&& ~~~0x0000FF03#32 = 0#32
  cleared : s.err = 0#4 ∨ s.cleared = true

theorem State.inv_iff (s : State) : s.inv = true ↔ s.Invariant := by
  simp only [State.inv, Bool.and_eq_true, Bool.or_eq_true, Bool.not_eq_true', ← Bool.not_eq_true, beq_iff_eq,
    decide_eq_true_eq, List.all_eq_true, and_assoc]
  constructor
  · rintro ⟨hcfg, hopa, hopb, hra, hrb, hrc, hun, hbd, herr, hcls, hvc, hvu, hcu, hcnt, htab, hinfo, hclr⟩
    exact ⟨hcfg, hopa, hopb, hra, hrb, hrc, hun, hbd, herr, hcls, hvc, hvu, hcu, hcnt, htab, hinfo, hclr⟩
  · rintro ⟨hcfg, hopa, hopb, hra, hrb, hrc, hun, hbd, herr, hcls, hvc, hvu, hcu, hcnt, htab, hinfo, hclr⟩
    exact ⟨hcfg, hopa, hopb, hra, hrb, hrc, hun, hbd, herr, hcls, hvc, hvu, hcu, hcnt, htab, hinfo, hclr⟩

/-- A host write of CMD moves BUSY and DONE only. -/
@[simp] theorem State.startCommand_busy (s : State) (v : Word) : (s.startCommand v).busy = true :=
  statusBusy_statusStarted s.status

@[simp] theorem State.startCommand_done (s : State) (v : Word) : (s.startCommand v).done = false :=
  statusDone_statusStarted s.status

@[simp] theorem State.startCommand_err (s : State) (v : Word) : (s.startCommand v).err = s.err :=
  statusErr_statusStarted s.status

@[simp] theorem State.startCommand_flags (s : State) (v : Word) : (s.startCommand v).flags = s.flags :=
  statusFlags_statusStarted s.status

@[simp] theorem State.startCommand_cleared (s : State) (v : Word) : (s.startCommand v).cleared = s.cleared := by
  simp [State.cleared]

@[simp] theorem State.complete_busy (s : State) (err : BitVec 4) (r : Results) : (s.complete err r).busy = false :=
  statusBusy_statusWord false true err r.flags

@[simp] theorem State.complete_done (s : State) (err : BitVec 4) (r : Results) : (s.complete err r).done = true :=
  statusDone_statusWord false true err r.flags

@[simp] theorem State.complete_err (s : State) (err : BitVec 4) (r : Results) : (s.complete err r).err = err :=
  statusErr_statusWord false true err r.flags

@[simp] theorem State.complete_flags (s : State) (err : BitVec 4) (r : Results) : (s.complete err r).flags = r.flags :=
  statusFlags_statusWord false true err r.flags

/-- An error completion leaves every result cleared (60_exceptions.md R252). -/
theorem State.complete_empty_cleared (s : State) (err : BitVec 4) : (s.complete err {}).cleared = true := by
  simp [State.cleared]

/-- A completion keeps the invariant: it writes all result state at once (10_state.md R40). -/
theorem State.Invariant.complete {s : State} (h : s.Invariant) {err : BitVec 4} {r : Results}
    (hc : Completion s.cfg err r) : (s.complete err r).Invariant := by
  obtain ⟨hra, hrb, hrc, hpi⟩ := (Results.overCapacity_eq_false_iff s.cfg r).1 hc.fits
  have hsound := hc.sound
  exact
    { cfg := h.cfg
      opa := h.opa
      opb := h.opb
      ra := s.ra.ok_write _ r.ra h.ra hra
      rb := s.rb.ok_write _ r.rb h.rb hrb
      rc := s.rc.ok_write _ r.rc h.rc hrc
      unassigned := unassigned_statusWord false true err r.flags
      handshake := by simp
      err := by simpa using hc.code
      cls := by simpa using hsound.cls
      validCorr := by simpa using hsound.validCorr
      validUncorr := by simpa using hsound.validUncorr
      corrUncorr := by simpa using hsound.corrUncorr
      picnt := picnt_toNat_of_fits s.cfg r h.cfg hc.fits
      table := hpi
      info := hsound.info
      cleared := by
        by_cases herr : err = 0#4
        · exact .inl (by simpa using herr)
        · exact .inr (by rw [hc.cleared herr]; exact s.complete_empty_cleared err) }

/-- A host write of CMD keeps the invariant (10_state.md R28). -/
theorem State.Invariant.startCommand {s : State} (h : s.Invariant) (v : Word) : (s.startCommand v).Invariant where
  cfg := h.cfg
  opa := h.opa
  opb := h.opb
  ra := h.ra
  rb := h.rb
  rc := h.rc
  unassigned := unassigned_statusStarted s.status h.unassigned
  handshake := by simp
  err := by simpa using h.err
  cls := by simpa using h.cls
  validCorr := by simpa using h.validCorr
  validUncorr := by simpa using h.validUncorr
  corrUncorr := by simpa using h.corrUncorr
  picnt := h.picnt
  table := h.table
  info := h.info
  cleared := by simpa using h.cleared

/-- A buffer of the invariant is within its capacity. -/
theorem State.Invariant.buffer {s : State} (h : s.Invariant) (n : BufName) : (s.buffer n).ok s.cfg = true := by
  cases n
  exacts [h.opa, h.opb, h.ra, h.rb, h.rc]

/-- Replacing an operand buffer by one within the capacity keeps the invariant. -/
theorem State.Invariant.setOperand {s : State} (h : s.Invariant) {n : BufName} (hn : n.isResult = false) {b : Buffer}
    (hb : b.ok s.cfg = true) : (s.setBuffer n b).Invariant := by
  cases n with
  | opa => exact { h with opa := hb }
  | opb => exact { h with opb := hb }
  | ra => cases hn
  | rb => cases hn
  | rc => cases hn

/-- The invariant does not speak of KM_ON and KM_DC, nor of the model's own schedule, replies and counter. -/
theorem State.Invariant.withUnconstrained {s : State} (h : s.Invariant) (on dc : Word) (schedule : List Event)
    (replies : List Reply) (n : Nat) : State.Invariant
      { s with kmOn := on, kmDc := dc, schedule := schedule, replies := replies, freeCount := n } :=
  { h with }

theorem engineTurn_keeps_invariant {s t : State} (h : s.Invariant) (ht : engineTurn s = .next t) : t.Invariant := by
  rcases engineTurn_completion s with ⟨-, hturn⟩ | ⟨-, err, r, n, hc, hturn⟩ <;> rw [hturn] at ht <;> cases ht
  · exact h
  · exact (h.complete hc).withUnconstrained _ _ _ _ n

theorem hostAct_keeps_invariant {s t : State} (h : s.Invariant) (a : HostAction) (ht : s.hostAct a = .next t) :
    t.Invariant := by
  rcases hostAct_cases s t a ht with ⟨v, -, -, rfl⟩ | ⟨v, -, -, rfl⟩ | ⟨v, -, -, rfl⟩ |
    ⟨b, i, c, -, hb, hi, -, rfl⟩ | ⟨b, l, -, hb, hl, -, rfl⟩ | ⟨n, -, -, -, rfl⟩ | ⟨b, -, -, rfl⟩ | ⟨b, i, -, -, -, rfl⟩
  · exact h.startCommand v
  · exact h.withUnconstrained v _ _ _ _
  · exact h.withUnconstrained _ v _ _ _
  · exact h.setOperand hb (Buffer.ok_writeCell _ _ i c (h.buffer b) hi)
  · exact h.setOperand hb (Buffer.ok_withLen _ _ l (h.buffer b) hl)
  · exact h.withUnconstrained _ _ _ _ _
  · exact h.withUnconstrained _ _ _ _ _
  · exact h.withUnconstrained _ _ _ _ _

/-- Settles O17: a step is a turn of the engine, which changes nothing or completes a command, or a host action, and each
keeps every clause. -/
theorem stepKeepsInv : Obligations.StepKeepsInv := by
  unfold Obligations.StepKeepsInv
  intro s t hs ht
  rw [State.inv_iff] at hs ⊢
  rcases step_cases s with ⟨-, hstep⟩ | ⟨rest, -, hstep⟩ | ⟨a, rest, -, hstep⟩ <;> rw [hstep] at ht
  · exact engineTurn_keeps_invariant hs ht
  · exact engineTurn_keeps_invariant (hs.withUnconstrained _ _ rest _ _) ht
  · exact hostAct_keeps_invariant (hs.withUnconstrained _ _ rest _ _) a ht

end Sys2Proof.Machine
end

section
/-! PROOFS, the family 10_state. The frame of each agent's turn: what the engine never writes (10_state.md R25), what the
host never writes (R23, 20_memory.md R52), and the handshake of BUSY and DONE between them (R28). -/

namespace Sys2Proof.Machine

/-- The counter of the free values (log entry 3) is not among what the engine leaves. -/
theorem Untouched.withFreeCount {s t : State} (h : Untouched s t) (n : Nat) : Untouched s { t with freeCount := n } :=
  ⟨h.cmd, h.opa, h.opb, h.kmOn, h.kmDc, h.cfg, h.schedule, h.replies⟩

/-- The counter of the free values (log entry 3) is not shown. -/
theorem Shows.withFreeCount {s t : State} {err : BitVec 4} {r : Results} (h : Shows s t err r) (n : Nat) :
    Shows s { t with freeCount := n } err r :=
  ⟨h.busy, h.done, h.err, h.flags, h.unassigned, h.aux0, h.aux1, h.kmTt, h.picnt, h.piTable, h.ra, h.rb, h.rc⟩

/-- Settles O8: every turn of the engine and every operation is one completion, and a completion writes result state
only. -/
theorem commandKeepsOperands : Obligations.CommandKeepsOperands := by
  unfold Obligations.CommandKeepsOperands
  constructor
  · intro s t ht
    rcases engineTurn_completion s with ⟨-, hturn⟩ | ⟨-, err, r, n, -, hturn⟩ <;> rw [hturn] at ht <;> cases ht
    · exact ⟨rfl, rfl, rfl, rfl, rfl, rfl, rfl, rfl⟩
    · exact (s.complete_untouched err r).withFreeCount n
  · intro i s t ht
    obtain ⟨err, r, -, -, hexec⟩ := exec_completion i s
    rw [hexec] at ht
    cases ht
    exact (s.complete_untouched err r).withFreeCount _

/-- What no host action writes: ERR, the flags, the result registers, the table, the result buffers and the
parameters. -/
structure ResultsKept (s t : State) : Prop where
  err : t.err = s.err
  flags : t.flags = s.flags
  aux0 : t.aux0 = s.aux0
  aux1 : t.aux1 = s.aux1
  kmTt : t.kmTt = s.kmTt
  picnt : t.picnt = s.picnt
  piTable : t.piTable = s.piTable
  ra : t.ra = s.ra
  rb : t.rb = s.rb
  rc : t.rc = s.rc
  cfg : t.cfg = s.cfg

theorem startCommand_resultsKept (s : State) (v : Word) : ResultsKept s (s.startCommand v) :=
  ⟨s.startCommand_err v, s.startCommand_flags v, rfl, rfl, rfl, rfl, rfl, rfl, rfl, rfl, rfl⟩

theorem setBuffer_resultsKept (s : State) (n : BufName) (hn : n.isResult = false) (b : Buffer) :
    ResultsKept s (s.setBuffer n b) := by
  cases n with
  | opa => exact ⟨rfl, rfl, rfl, rfl, rfl, rfl, rfl, rfl, rfl, rfl, rfl⟩
  | opb => exact ⟨rfl, rfl, rfl, rfl, rfl, rfl, rfl, rfl, rfl, rfl, rfl⟩
  | ra => cases hn
  | rb => cases hn
  | rc => cases hn

theorem hostAct_resultsKept (s t : State) (a : HostAction) (h : s.hostAct a = .next t) : ResultsKept s t := by
  rcases hostAct_cases s t a h with ⟨v, -, -, rfl⟩ | ⟨v, -, -, rfl⟩ | ⟨v, -, -, rfl⟩ |
    ⟨b, i, c, -, hb, -, -, rfl⟩ | ⟨b, l, -, hb, -, -, rfl⟩ | ⟨n, -, -, -, rfl⟩ | ⟨b, -, -, rfl⟩ | ⟨b, i, -, -, -, rfl⟩
  case inl => exact startCommand_resultsKept s v
  case inr.inr.inr.inl => exact setBuffer_resultsKept s b hb _
  case inr.inr.inr.inr.inl => exact setBuffer_resultsKept s b hb _
  all_goals exact ⟨rfl, rfl, rfl, rfl, rfl, rfl, rfl, rfl, rfl, rfl, rfl⟩

@[simp] theorem State.setBuffer_status (s : State) (n : BufName) (b : Buffer) :
    (s.setBuffer n b).status = s.status := by
  cases n <;> rfl

/-- A host action starts a command or leaves STATUS (10_state.md R28, 20_memory.md R52). -/
theorem hostAct_status_cases (s t : State) (a : HostAction) (h : s.hostAct a = .next t) :
    (∃ v, a = .writeReg 0 v ∧ t = s.startCommand v) ∨ t.status = s.status := by
  rcases hostAct_cases s t a h with ⟨v, ha, -, ht⟩ | ⟨v, -, -, rfl⟩ | ⟨v, -, -, rfl⟩ |
    ⟨b, i, c, -, -, -, -, rfl⟩ | ⟨b, l, -, -, -, -, rfl⟩ | ⟨n, -, -, -, rfl⟩ | ⟨b, -, -, rfl⟩ | ⟨b, i, -, -, -, rfl⟩
  case inl => exact .inl ⟨v, ha, ht⟩
  all_goals exact .inr (by simp)

/-- What a step does to BUSY and DONE (10_state.md R28): a command started, a command completed, or STATUS left. -/
theorem step_status_cases (s t : State) (h : step s = .next t) :
    (∃ v rest, s.schedule = .host (.writeReg 0 v) :: rest ∧ t.busy = true ∧ t.done = false) ∨
    (t.busy = false ∧ t.done = true) ∨ t.status = s.status := by
  have hengine (u : State) (hu : u.status = s.status) (ht : engineTurn u = .next t) :
      (t.busy = false ∧ t.done = true) ∨ t.status = s.status := by
    rcases engineTurn_completion u with ⟨-, hturn⟩ | ⟨-, err, r, n, -, hturn⟩ <;> rw [hturn] at ht <;> cases ht
    · exact .inr hu
    · exact .inl ⟨u.complete_busy err r, u.complete_done err r⟩
  rcases step_cases s with ⟨-, hstep⟩ | ⟨rest, -, hstep⟩ | ⟨a, rest, hsched, hstep⟩ <;> rw [hstep] at h
  · exact .inr (hengine s rfl h)
  · exact .inr (hengine { s with schedule := rest } rfl h)
  · rcases hostAct_status_cases _ t a h with ⟨v, rfl, rfl⟩ | hstatus
    · exact .inl ⟨v, rest, hsched, State.startCommand_busy _ v, State.startCommand_done _ v⟩
    · exact .inr (.inr hstatus)

/-- Settles O20: of the three things a step can do to STATUS only the start of a command raises BUSY, and a host action
keeps every result. -/
theorem onlyCommandWriteStarts : Obligations.OnlyCommandWriteStarts := by
  unfold Obligations.OnlyCommandWriteStarts
  constructor
  · intro s t hstep hidle hbusy
    rcases step_status_cases s t hstep with ⟨v, rest, hsched, -, -⟩ | ⟨hdone, -⟩ | hstatus
    · exact ⟨v, rest, hsched⟩
    · rw [hdone] at hbusy
      cases hbusy
    · rw [State.busy, hstatus, ← State.busy, hidle] at hbusy
      cases hbusy
  · intro s t a h
    obtain ⟨herr, hflags, haux0, haux1, hkmTt, hpicnt, htable, hra, hrb, hrc, hcfg⟩ := hostAct_resultsKept s t a h
    exact ⟨herr, hflags, haux0, haux1, hkmTt, hpicnt, htable, hra, hrb, hrc, hcfg⟩

/-- The host's write of CMD is permitted while `BUSY = 0` (20_memory.md R52). -/
theorem hostAct_writeCommand (s : State) (v : Word) (h : s.busy = false) :
    s.hostAct (.writeReg 0 v) = .next (s.startCommand v) := by
  simp [State.hostAct, State.hostWriteReg, State.hasRegister, h]

/-- The code and the results a pending command ends with depend on CMD, the operands, the parameters and the counter of
the free values, on nothing else (10_state.md R40). -/
theorem engineTurn_writes_all_results (s : State) : ∃ err r, ∀ s' : State, s'.inv = true → s'.busy = true →
    s'.cmd = s.cmd → s'.opa.content = s.opa.content → s'.opb.content = s.opb.content → s'.kmOn = s.kmOn →
    s'.kmDc = s.kmDc → s'.cfg = s.cfg → s'.freeCount = s.freeCount →
    ∃ t, engineTurn s' = .next t ∧ Shows s' t err r := by
  have hfetch (s' : State) (hcmd : s'.cmd = s.cmd) (hcfg : s'.cfg = s.cfg) : s'.fetch = s.fetch := by
    rw [State.fetch, State.fetch, hcmd, hcfg]
  cases hdecoded : s.fetch with
  | error e =>
    refine ⟨Err.code .illegalCmd, {}, fun s' _ hbusy hcmd _ _ _ _ hcfg _ => ⟨s'.failWith .illegalCmd, ?_, ?_⟩⟩
    · simp [engineTurn, hbusy, execute, hfetch s' hcmd hcfg, hdecoded]
    · exact s'.failWith_shows .illegalCmd
  | ok i =>
    obtain ⟨err, r, hfinish⟩ := State.finish_eq_complete_of_cfg s.cfg (opResult i s)
    refine ⟨err, r, fun s' hinv hbusy hcmd hopa hopb hon hdc hcfg hfree =>
      ⟨{ s'.complete err r with freeCount := s'.freeCount + draws i }, ?_, ?_⟩⟩
    · have hrule : opResult i s' = opResult i s := opResult_congr i s' s hcfg hopa hopb hon hdc (.inl hfree)
      simp [engineTurn, hbusy, execute, hfetch s' hcmd hcfg, hdecoded, exec_eq, hrule, hfinish s' hcfg]
    · obtain ⟨ha, hb, hc⟩ := s'.inv_resultCells hinv
      exact (s'.complete_shows err r ha hb hc).withFreeCount _

/-- Settles O7: the host's write starts a command, an idle engine passes, a pending command writes all result state, and
no step brings BUSY and DONE together. -/
theorem busyDoneHandshake : Obligations.BusyDoneHandshake := by
  unfold Obligations.BusyDoneHandshake
  refine ⟨fun s v hidle => ?_, fun s hidle => ?_, engineTurn_writes_all_results, by decide, fun s t hs ht => ?_⟩
  · refine ⟨s.startCommand v, hostAct_writeCommand s v hidle, rfl, s.startCommand_busy v, s.startCommand_done v, ?_⟩
    intro k hk
    rw [State.startCommand_status, statusStarted_getLsbD, if_neg (by omega), if_neg (by omega)]
  · simp [engineTurn, hidle]
  · rcases step_status_cases s t ht with ⟨v, rest, -, -, hdone⟩ | ⟨hbusy, -⟩ | hstatus
    · simp [hdone]
    · simp [hbusy]
    · rwa [State.busy, State.done, hstatus]

end Sys2Proof.Machine
end

section
/-! PROOFS, the family 10_state. The bits of STATUS (10_state.md R26), the flags that each operation sets (R27) and the
results that it names (R32, R33, R40). -/

namespace Sys2Proof.Machine

/-- A field of a word, as a number. -/
theorem extractLsb'_toNat_eq (w : Word) (start len : Nat) :
    (w.extractLsb' start len).toNat = w.toNat / 2 ^ start % 2 ^ len := by
  rw [BitVec.extractLsb'_toNat, Nat.shiftRight_eq_div_pow]

/-- The bits of STATUS that 10_state.md R26 does not assign are 0. -/
theorem statusWord_unassigned_bit (busy done : Bool) (err : BitVec 4) (f : Flags) (k : Nat)
    (hk : k = 2 ∨ k = 3 ∨ k = 14 ∨ k = 15 ∨ 19 ≤ k) : (statusWord busy done err f).getLsbD k = false := by
  rw [statusWord_getLsbD]
  rcases hk with rfl | rfl | rfl | rfl | hk
  case inr.inr.inr.inr =>
    simp [show ¬ k < 4 by omega, show ¬ k < 8 by omega, show ¬ k < 16 by omega, show ¬ k < 19 by omega,
      show ¬ k = 0 by omega, show ¬ k = 1 by omega, show ¬ k = 8 by omega, show ¬ k = 9 by omega,
      show ¬ k = 10 by omega, show ¬ k = 11 by omega, show ¬ k = 12 by omega, show ¬ k = 13 by omega]
  all_goals rfl

/-- No operation's rule reads STATUS (10_state.md R27). -/
theorem opResult_withStatus (i : Instr) (s : State) (w : Word) : opResult i { s with status := w } = opResult i s :=
  opResult_congr i _ _ rfl rfl rfl rfl rfl (.inl rfl)

/-- The next state of an operation does not depend on STATUS, which its completion writes whole (10_state.md R40). -/
theorem exec_withStatus (i : Instr) (s : State) (w : Word) : exec i { s with status := w } = exec i s := by
  obtain ⟨err, r, hfinish⟩ := State.finish_eq_complete_of_cfg s.cfg (opResult i s)
  rw [exec_eq, exec_eq, opResult_withStatus, hfinish s rfl, hfinish { s with status := w } rfl]
  rfl

/-- Settles O9: a command is one completion, which lays its flags out as 10_state.md R26, and they are flags that its
rule names. -/
theorem flagsOfEachOperation : Obligations.FlagsOfEachOperation := by
  unfold Obligations.FlagsOfEachOperation
  refine ⟨fun s => ⟨rfl, rfl, extractLsb'_toNat_eq s.status 4 4, rfl, rfl, rfl, rfl, rfl, rfl,
    extractLsb'_toNat_eq s.status 16 3⟩, fun i s t ht => ?_⟩
  obtain ⟨err, r, -, hnamed, hexec⟩ := exec_completion i s
  have hstatus (w : Word) : exec i { s with status := w } = .next t := (exec_withStatus i s w).trans ht
  rw [hexec] at ht
  cases ht
  have hflags : State.flags { s.complete err r with freeCount := s.freeCount + draws i } = r.flags :=
    s.complete_flags err r
  rw [hflags]
  exact ⟨statusWord_unassigned_bit false true err r.flags, hnamed.valid, hnamed.corr, hnamed.uncorr, hnamed.sign,
    hnamed.cls, hnamed.ovf, hnamed.cout, hstatus⟩

/-- An entry of the table is one that was written, or reads 0 (10_state.md R33). -/
theorem State.piEntry_cases (s : State) (k : Nat) :
    s.piEntry k ∈ s.piTable ∨ s.piEntry k = ⟨0#32, 0#32⟩ := by
  rcases lt_or_ge k s.piTable.length with hk | hk
  · exact .inl (by rw [State.piEntry, List.getD_eq_getElem _ _ hk]; exact List.getElem_mem hk)
  · exact .inr (List.getD_eq_default _ _ hk)

/-- Settles O10: a command is one completion, its results are those that its rule names, and the table holds what PICNT
counts. -/
theorem resultsOfEachOperation : Obligations.ResultsOfEachOperation := by
  unfold Obligations.ResultsOfEachOperation
  intro i s t hs ht
  obtain ⟨err, r, hc, hnamed, hexec⟩ := exec_completion i s
  rw [hexec] at ht
  cases ht
  have hwf : s.cfg.wf = true := ((State.inv_iff s).1 hs).cfg
  have hcount : (BitVec.ofNat 32 r.pi.length).toNat = r.pi.length := picnt_toNat_of_fits s.cfg r hwf hc.fits
  obtain ⟨-, -, -, hpi⟩ := (Results.overCapacity_eq_false_iff s.cfg r).1 hc.fits
  have hentry := State.piEntry_cases { s.complete err r with freeCount := s.freeCount + draws i }
  refine ⟨fun h => hnamed.ra fun hnil => h (congrArg List.length hnil),
    fun h => hnamed.rb fun hnil => h (congrArg List.length hnil),
    fun h => hnamed.rc fun hnil => h (congrArg List.length hnil), hnamed.kmTt,
    fun h => hnamed.pi fun hnil => h (congrArg (fun l => BitVec.ofNat 32 (List.length l)) hnil),
    hnamed.aux0, hnamed.aux1, hcount.trans_le hpi, fun k hk => ?_, fun k hi => ?_, fun k => ?_⟩
  · exact List.getD_eq_default _ _ (hcount.symm.trans_le hk)
  · rcases hentry k with hmem | hzero
    · exact hnamed.piInfo hi _ hmem
    · rw [hzero]
  · rcases hentry k with hmem | hzero
    · exact hnamed.sound.info _ hmem
    · rw [hzero]
      rfl

end Sys2Proof.Machine
end

section
/-! PROOFS, the family 10_state. The state after reset (10_state.md R41), and E_CHAR for an operand over a cell that no host
wrote (70_reset_and_hazards.md R271): every format checks emptiness, then the characters, and no alphabet holds 0x00. -/

namespace Sys2Proof.Machine

theorem pure_ne_empty {α : Type} (x : α) : (pure x : Except Err α) ≠ .error .empty := by
  simp [pure, Except.pure]

theorem except_bind_ne_empty {α β : Type} {x : Except Err α} {f : α → Except Err β} (hx : x ≠ .error .empty)
    (hf : ∀ a, f a ≠ .error .empty) : (x >>= f) ≠ .error .empty := by
  rw [Ne, except_bind_error]
  rintro (h | ⟨a, -, h⟩)
  · exact hx h
  · exact hf a h

theorem require_bind_ne_empty {α : Type} (b : Bool) {e : Err} (he : e ≠ .empty) {f : Unit → Except Err α}
    (hf : ∀ u, f u ≠ .error .empty) : (require b e >>= f) ≠ .error .empty :=
  except_bind_ne_empty (by cases b <;> simp [he]) hf

/-- How every reading of one operand answers (30_encoding.md R76 to R79, 45_gray.md R210, 46_kmap.md R224): E_CHAR for a
content over a cell as reset left it, and E_EMPTY for nothing but an empty cleaned text. -/
structure OperandFormat {α : Type} (f : Text → Except Err α) : Prop where
  char : ∀ content, unlistedCell ∈ content → f content = .error .char
  empty : ∀ content, f content = .error .empty → clean content = []

/-- A reading that checks emptiness, then an alphabet without 0x00, and raises E_EMPTY no more. -/
theorem OperandFormat.of_checks {α : Type} (alphabet : Byte → Bool) (h0 : alphabet unlistedCell = false)
    (rest : Text → Except Err α) (hrest : ∀ t, rest t ≠ .error .empty) :
    OperandFormat (fun content => do
      require (!(clean content).isEmpty) .empty
      require ((clean content).all alphabet) .char
      rest (clean content)) where
  char content hmem := by
    have hclean : unlistedCell ∈ clean content := List.mem_filter.2 ⟨hmem, by decide⟩
    have hnonempty : (clean content).isEmpty = false := List.isEmpty_eq_false_iff_exists_mem.2 ⟨_, hclean⟩
    have hall : (clean content).all alphabet = false := List.all_eq_false.2 ⟨_, hclean, by simp [h0]⟩
    rw [hnonempty, hall]
    rfl
  empty content herr := by
    by_contra hne
    have hnonempty : (clean content).isEmpty = false := by simpa using hne
    rw [hnonempty] at herr
    exact require_bind_ne_empty _ (by decide) (fun _ => hrest _) herr

/-- What is computed after a reading raises E_EMPTY no more. -/
theorem OperandFormat.bind {α β : Type} {f : Text → Except Err α} (hf : OperandFormat f) {g : α → Except Err β}
    (hg : ∀ x, g x ≠ .error .empty) : OperandFormat (fun content => f content >>= g) where
  char content hmem := by rw [hf.char content hmem]; rfl
  empty content herr := by
    rcases (except_bind_error _ _ _).1 herr with h | ⟨x, -, h⟩
    · exact hf.empty content h
    · exact absurd h (hg x)

theorem bitsOperand_format : OperandFormat bitsOperand :=
  .of_checks isBitChar (by decide) (fun t => return t.map (fun c => c == chOne)) (fun _ => pure_ne_empty _)

theorem bitsOperandOf_format (L : Nat) : OperandFormat (bitsOperandOf L) :=
  bitsOperand_format.bind fun _ => require_bind_ne_empty _ (by decide) (fun _ => pure_ne_empty _)

theorem hexOperandOf_format (L : Nat) : OperandFormat (hexOperandOf L) :=
  .of_checks (fun c => (hexDigit? c).isSome) (by decide)
    (fun t => do
      require (t.length == L) .width
      return t.flatMap (fun c => binBits 4 ((hexDigit? c).getD 0)))
    (fun _ => require_bind_ne_empty _ (by decide) (fun _ => pure_ne_empty _))

theorem patternOperand_format (prec : Precision) (ty : InType) : OperandFormat (patternOperand prec ty) := by
  cases ty with
  | binary => exact bitsOperandOf_format _
  | hex => exact hexOperandOf_format _

theorem decIntOperand_format : OperandFormat decIntOperand :=
  .of_checks (fun c => isDecChar c || c == chMinus) (by decide)
    (fun t => do
      require ((splitSign t).2.all isDecChar && !(splitSign t).2.isEmpty) .format
      return if (splitSign t).1 then -(decVal (splitSign t).2 : Int) else (decVal (splitSign t).2 : Int))
    (fun _ => require_bind_ne_empty _ (by decide) (fun _ => pure_ne_empty _))

theorem decRealOperand_format : OperandFormat decRealOperand :=
  .of_checks (fun c => isDecChar c || c == chMinus || c == chPoint) (by decide)
    (fun t => do
      let (neg, body) := splitSign t
      let whole := body.takeWhile (fun c => c ≠ chPoint)
      let tail := body.dropWhile (fun c => c ≠ chPoint)
      let frac := tail.drop 1
      require (whole.all isDecChar && !whole.isEmpty) .format
      require (tail.isEmpty || (frac.all isDecChar && !frac.isEmpty)) .format
      return ({ neg := neg, num := decVal (whole ++ frac), scale := frac.length } : DecReal))
    (fun _ => require_bind_ne_empty _ (by decide) fun _ => require_bind_ne_empty _ (by decide) fun _ =>
      pure_ne_empty _)

theorem grayOperand_format : OperandFormat grayOperand :=
  .of_checks isDecChar (by decide)
    (fun t => if t.all isBitChar then return (false, t.map (fun c => c == chOne))
      else return (true, binBits (bitLength (decVal t)) (decVal t)))
    (fun t => by split <;> exact pure_ne_empty _)

theorem kmEval_format (n : Nat) : OperandFormat (kmEval n) :=
  .of_checks (fun c => (kmTok? c).isSome) (by decide)
    (fun t => do
      let e ← kmParsed (kmTokens t)
      require (e.varsBelow n) .range
      return ({ kmTt := kmTruthTable n e, aux0 := BitVec.ofNat 32 (popcount (kmTruthTable n e)) } : Results))
    (fun _ => except_bind_ne_empty (by unfold kmParsed; split <;> simp) fun _ =>
      require_bind_ne_empty _ (by decide) (fun _ => pure_ne_empty _))

/-- How an operation answers to its operand texts (30_encoding.md R81): E_CHAR for a first operand over a cell as reset left
it; and where a first operand that is not empty ends with E_EMPTY, the second is read, with E_CHAR for such a cell there. -/
structure OperandPair {α : Type} (f : Text → Text → Except Err α) : Prop where
  first : ∀ a b, unlistedCell ∈ a → f a b = .error .char
  second : ∀ a b b', clean a ≠ [] → f a b = .error .empty → unlistedCell ∈ b' → f a b' = .error .char

/-- An operation that reads OPA alone. -/
theorem OperandFormat.pair {α : Type} {f : Text → Except Err α} (hf : OperandFormat f) :
    OperandPair (fun a _ => f a) where
  first a _ hmem := hf.char a hmem
  second a _ _ hne herr _ := absurd (hf.empty a herr) hne

/-- An operation that reads OPA whole, then OPB. -/
theorem OperandFormat.andThen {α β γ : Type} {f : Text → Except Err α} {g : Text → Except Err β}
    (hf : OperandFormat f) (hg : OperandFormat g) (k : α → β → Except Err γ) :
    OperandPair (fun a b => f a >>= fun x => g b >>= k x) where
  first a b hmem := by rw [hf.char a hmem]; rfl
  second a b b' hne herr hmem := by
    rcases (except_bind_error _ _ _).1 herr with h | ⟨x, hx, -⟩
    · exact absurd (hf.empty a h) hne
    · rw [hx, hg.char b' hmem]
      rfl

theorem OperandPair.bind {α β : Type} {f : Text → Text → Except Err α} (hf : OperandPair f) {g : α → Except Err β}
    (hg : ∀ x, g x ≠ .error .empty) : OperandPair (fun a b => f a b >>= g) where
  first a b hmem := by rw [hf.first a b hmem]; rfl
  second a b b' hne herr hmem := by
    rcases (except_bind_error _ _ _).1 herr with h | ⟨x, -, h⟩
    · rw [hf.second a b b' hne h hmem]
      rfl
    · exact absurd h (hg x)

theorem crcOperands_pair : OperandPair crcOperands :=
  bitsOperand_format.andThen bitsOperand_format _

theorem tcOperands_pair (w : Nat) : OperandPair (tcOperands w) :=
  (bitsOperandOf_format w).andThen (bitsOperandOf_format w) _

theorem encodeFields_ne_empty (prec : Precision) (neg : Bool) (num den : Nat) :
    encodeFields prec neg num den ≠ .error .empty := by
  simp only [encodeFields]
  split
  · simp
  · split
    · simp
    · split <;> simp

/-- Every operation but KM.PI and KM.COVER answers to its operand texts in this way. -/
theorem opResult_pair (i : Instr) (hi : i.opc.toNat ∉ [0x0F, 0x10]) (s : State) : ∃ f, OperandPair f ∧
    ∀ a b : Buffer, opResult i { s with opa := a, opb := b } = f a.content b.content := by
  cases i with
  | crcEnc => exact ⟨crcEncode, crcOperands_pair.bind fun _ => pure_ne_empty _, fun _ _ => rfl⟩
  | crcDec fix =>
    exact ⟨crcDecode s.cfg.crcFixOrder s.freeCount fix,
      crcOperands_pair.bind fun _ => require_bind_ne_empty _ (by decide) fun _ => pure_ne_empty _,
      fun _ _ => rfl⟩
  | hamEnc => exact ⟨fun a _ => hamEncode a, (bitsOperand_format.bind fun _ => pure_ne_empty _).pair, fun _ _ => rfl⟩
  | hamDec =>
    exact ⟨fun a _ => hamDecode a, (bitsOperand_format.bind fun _ =>
      require_bind_ne_empty _ (by decide) fun _ => pure_ne_empty _).pair, fun _ _ => rfl⟩
  | f754Dec prec ty =>
    exact ⟨fun a _ => f754Decode prec ty a, ((patternOperand_format prec ty).bind fun _ => pure_ne_empty _).pair,
      fun _ _ => rfl⟩
  | f754Enc prec =>
    exact ⟨fun a _ => f754Encode prec a, (decRealOperand_format.bind fun _ =>
      except_bind_ne_empty (encodeFields_ne_empty prec _ _ _) fun _ => pure_ne_empty _).pair, fun _ _ => rfl⟩
  | f754Add prec ty =>
    exact ⟨f754Add s.cfg prec ty, (patternOperand_format prec ty).andThen (patternOperand_format prec ty) _,
      fun _ _ => rfl⟩
  | tcEnc w =>
    exact ⟨fun a _ => tcEncode w.toNat a, (decIntOperand_format.bind fun _ => pure_ne_empty _).pair, fun _ _ => rfl⟩
  | tcDec w =>
    exact ⟨fun a _ => tcDecode w.toNat a, ((bitsOperandOf_format w.toNat).bind fun _ => pure_ne_empty _).pair,
      fun _ _ => rfl⟩
  | tcAdd w => exact ⟨tcAdd w.toNat, (tcOperands_pair w.toNat).bind fun _ => pure_ne_empty _, fun _ _ => rfl⟩
  | tcSub w => exact ⟨tcSub w.toNat, (tcOperands_pair w.toNat).bind fun _ => pure_ne_empty _, fun _ _ => rfl⟩
  | grayEnc => exact ⟨fun a _ => grayEncode a, (grayOperand_format.bind fun _ => pure_ne_empty _).pair, fun _ _ => rfl⟩
  | grayDec => exact ⟨fun a _ => grayDecode a, (bitsOperand_format.bind fun _ => pure_ne_empty _).pair, fun _ _ => rfl⟩
  | kmEval n => exact ⟨fun a _ => kmEval n.toNat a, (kmEval_format n.toNat).pair, fun _ _ => rfl⟩
  | kmPi n => simp [Instr.opc] at hi
  | kmCover n => simp [Instr.opc] at hi

/-- KM.PI and KM.COVER, which read no buffer, do not end with E_EMPTY (46_kmap.md R230). -/
theorem opResult_ne_empty_of_map (i : Instr) (hi : i.opc.toNat ∈ [0x0F, 0x10]) (s : State) :
    opResult i s ≠ .error .empty := by
  have hprimes (n : Nat) : kmPrimes? s.cfg n s.kmOn s.kmDc ≠ .error .empty :=
    require_bind_ne_empty _ (by decide) fun _ =>
      require_bind_ne_empty _ (by decide) fun _ => pure_ne_empty _
  cases i with
  | kmPi n => exact except_bind_ne_empty (hprimes _) fun _ => pure_ne_empty _
  | kmCover n => exact except_bind_ne_empty (hprimes _) fun _ => pure_ne_empty _
  | _ => simp [Instr.opc] at hi

theorem Err.code_injective : Function.Injective Err.code := by
  intro e e'
  cases e <;> cases e' <;> decide

/-- An error that is not one of the end of R81 comes from the operation's own rule. -/
theorem opResult_of_failsWith (i : Instr) (s : State) (e : Err) (h : FailsWith i s e) (hcap : e ≠ .capacity)
    (hint : e ≠ .internal) : opResult i s = .error e := by
  obtain ⟨t, hexec, -, -, hshow⟩ := h
  have herr := hshow.err
  rw [exec_eq] at hexec
  cases hexec
  change (s.finish (opResult i s)).err = e.code at herr
  rcases s.finish_cases (opResult i s) with ⟨e', hx, hf⟩ | ⟨r, -, -, hf⟩ | ⟨r, -, -, -, hf⟩ | ⟨r, -, -, -, hf⟩ <;>
    rw [hf] at herr
  · rw [State.failWith_eq_complete, State.complete_err] at herr
    rw [hx, Err.code_injective herr]
  · rw [State.failWith_eq_complete, State.complete_err] at herr
    exact absurd (Err.code_injective herr).symm hcap
  · rw [State.failWith_eq_complete, State.complete_err] at herr
    exact absurd (Err.code_injective herr).symm hint
  · rw [State.deliver_eq_complete, State.complete_err] at herr
    exact absurd herr.symm e.code_bounds.1

/-- A content that covers a cell as reset left it holds 0x00 (10_state.md R24, R41). -/
theorem Buffer.unlistedCell_mem_content (b : Buffer) (k : Nat) (hk : k < b.len) (hcell : b.cell k = unlistedCell) :
    unlistedCell ∈ b.content :=
  List.mem_map.2 ⟨k, List.mem_range.2 hk, hcell⟩

/-- Every register reads 0 after reset, table entries included (10_state.md R41). -/
theorem reset_register (n : Nat) : State.reset.register n = 0#32 := by
  simp only [State.register]
  split
  case h_9 k => simp [State.piEntry, State.reset]
  all_goals rfl

/-- Settles O15: the values by the definition of the state after reset; then OPA, and OPB behind an OPA that is accepted,
are read in formats without the character of a cell that no host wrote (`opResult_pair`). -/
theorem resetValues : Obligations.ResetValues := by
  unfold Obligations.ResetValues
  refine ⟨reset_register, fun b => ?_, by decide, by decide, by decide, by decide, ?_, ?_⟩
  · cases b <;> exact ⟨rfl, fun _ => rfl⟩
  · rintro i a b hi ⟨k, hk, hcell⟩
    obtain ⟨f, hf, hrule⟩ := opResult_pair i hi State.reset
    have hmem : unlistedCell ∈ a.content := a.unlistedCell_mem_content k hk hcell
    exact failsWith_of_error _ _ _ ((hrule a b).trans (hf.first _ _ hmem))
  · rintro i a b hne hempty ⟨k, hk, hcell⟩
    have herr := opResult_of_failsWith i _ .empty hempty (by decide) (by decide)
    have hi : i.opc.toNat ∉ [0x0F, 0x10] := fun hi => opResult_ne_empty_of_map i hi _ herr
    obtain ⟨f, hf, hrule⟩ := opResult_pair i hi State.reset
    have hmem : unlistedCell ∈ b.content := b.unlistedCell_mem_content k hk hcell
    have hfirst : f a.content State.reset.opb.content = .error .empty := (hrule a State.reset.opb).symm.trans herr
    exact failsWith_of_error _ _ _ ((hrule a b).trans (hf.second _ _ _ hne hfirst hmem))

end Sys2Proof.Machine
end

section
/-! PROOFS, the family 20_memory. One lemma per kind of turn (20_memory.md R56, R57, 70_reset_and_hazards.md R282), and runs
turn by turn. -/

namespace Sys2Proof.Machine

theorem step_of_schedule_nil (s : State) (h : s.schedule = []) : step s = engineTurn s := by
  simp [step, h]

theorem step_of_schedule_engine (s : State) (rest : List Event) (h : s.schedule = .engine :: rest) :
    step s = engineTurn { s with schedule := rest } := by
  simp [step, h]

theorem step_of_schedule_host (s : State) (a : HostAction) (rest : List Event) (h : s.schedule = .host a :: rest) :
    step s = State.hostAct { s with schedule := rest } a := by
  simp [step, h]

theorem engineTurn_of_idle (s : State) (h : s.busy = false) : engineTurn s = .next s := by
  simp [engineTurn, h]

theorem engineTurn_of_fetch (s : State) (i : Instr) (hbusy : s.busy = true) (hfetch : s.fetch = .ok i) :
    engineTurn s = exec i s := by
  simp [engineTurn, hbusy, execute, hfetch]

/-- A run of one more step is a step and a run from where it leads. -/
theorem run_succ_eq_next_iff (M : Host.Core) (k : Nat) (s t : M.State) :
    M.run (k + 1) s = .next t ↔ ∃ u, M.step s = .next u ∧ M.run k u = .next t := by
  rw [Host.Core.run]
  cases M.step s <;> simp

/-- A run may be cut anywhere. -/
theorem run_add_eq_next (M : Host.Core) (j k : Nat) (s u t : M.State) (hj : M.run j s = .next u)
    (hk : M.run k u = .next t) : M.run (j + k) s = .next t := by
  induction j generalizing s with
  | zero =>
    cases hj
    rwa [Nat.zero_add]
  | succ j ih =>
    obtain ⟨v, hstep, hrun⟩ := (run_succ_eq_next_iff M j s u).1 hj
    rw [Nat.succ_add]
    exact (run_succ_eq_next_iff M _ s t).2 ⟨v, hstep, ih v hrun⟩

/-- Settles O5: the turn is the engine's, CMD decodes, and the turn taken off the schedule leaves CMD and BUSY. -/
theorem stepRunsDecodedInstruction : Obligations.StepRunsDecodedInstruction := by
  unfold Obligations.StepRunsDecodedInstruction
  intro s i hbusy hdecode
  constructor
  · intro hsched
    rw [step_of_schedule_nil s hsched]
    exact engineTurn_of_fetch s i hbusy hdecode
  · intro rest hsched
    rw [step_of_schedule_engine s rest hsched]
    exact engineTurn_of_fetch { s with schedule := rest } i hbusy hdecode

/-- Settles O6: the engine's turn while `BUSY = 0`, with and without a schedule, and the host's turn. -/
theorem otherTurns : Obligations.OtherTurns := by
  unfold Obligations.OtherTurns
  refine ⟨fun s hidle hsched => ?_, fun s rest hidle hsched => ?_, step_of_schedule_host⟩
  · rw [step_of_schedule_nil s hsched, engineTurn_of_idle s hidle]
  · rw [step_of_schedule_engine s rest hsched]
    exact engineTurn_of_idle { s with schedule := rest } hidle

end Sys2Proof.Machine
end

section
/-! PROOFS, the family 20_memory. The table of the host's actions (20_memory.md R52): which buffers and registers it names,
the next state of each permitted action, and that no other action has one. -/

namespace Sys2Proof.Machine

theorem BufName.isResult_eq_false_iff (b : BufName) : b.isResult = false ↔ b = .opa ∨ b = .opb := by
  cases b <;> simp [BufName.isResult]

theorem BufName.isResult_eq_true_iff (b : BufName) : b.isResult = true ↔ b = .ra ∨ b = .rb ∨ b = .rc := by
  cases b <;> simp [BufName.isResult]

/-- The even registers from 8 on are the CELLS of the table (10_state.md R23). -/
theorem State.register_cells (s : State) (i : Nat) : s.register (8 + 2 * i) = (s.piEntry i).cells := by
  rw [Nat.add_comm 8]
  simp [State.register]

/-- The odd registers from 9 on are the INFO of the table (10_state.md R23). -/
theorem State.register_info (s : State) (i : Nat) : s.register (9 + 2 * i) = (s.piEntry i).info := by
  rw [show 9 + 2 * i = (2 * i + 1) + 8 by omega]
  have hhalf : (2 * i + 1) / 2 = i := by omega
  simp [State.register, hhalf]

theorem State.piEntry_of_getElem? (s : State) (i : Nat) (e : PiEntry) (h : s.piTable[i]? = some e) :
    s.piEntry i = e := by
  simp [State.piEntry, List.getD_eq_getElem?_getD, h]

/-- An entry past the valid ones reads 0 (10_state.md R33). -/
theorem State.piEntry_past (s : State) (i : Nat) (h : s.piTable.length ≤ i) : s.piEntry i = ⟨0#32, 0#32⟩ := by
  simp [State.piEntry, List.getD_eq_getElem?_getD, List.getElem?_eq_none h]

theorem hostAct_writeKmOn (s : State) (v : Word) (h : s.busy = false) :
    s.hostAct (.writeReg 4 v) = .next { s with kmOn := v } := by
  simp [State.hostAct, State.hostWriteReg, State.hasRegister, h, show 4 < 8 + 2 * s.cfg.pimax by omega]

theorem hostAct_writeKmDc (s : State) (v : Word) (h : s.busy = false) :
    s.hostAct (.writeReg 5 v) = .next { s with kmDc := v } := by
  simp [State.hostAct, State.hostWriteReg, State.hasRegister, h, show 5 < 8 + 2 * s.cfg.pimax by omega]

theorem hostAct_writeCell (s : State) (b : BufName) (i : Nat) (c : Byte) (hb : b.isResult = false)
    (hi : i < s.cfg.bufmax) (hidle : s.busy = false) : s.hostAct (.writeCell b i c) =
      .next (s.setBuffer b { s.buffer b with cells := (s.buffer b).cells.write i c }) := by
  simp [State.hostAct, State.hostWriteCell, hb, hidle, Nat.not_le.2 hi]

theorem hostAct_writeLen (s : State) (b : BufName) (l : Nat) (hb : b.isResult = false) (hl : l ≤ s.cfg.bufmax)
    (hidle : s.busy = false) :
    s.hostAct (.writeLen b l) = .next (s.setBuffer b { s.buffer b with len := l }) := by
  simp [State.hostAct, State.hostWriteLen, hb, hidle, Nat.not_lt.2 hl]

theorem hostAct_readReg (s : State) (n : Nat) (hn : s.hasRegister n = true)
    (hidle : isResultRegister n = true → s.busy = false) :
    s.hostAct (.readReg n) = .next (s.reply (.reg (s.register n))) := by
  simpa [State.hostAct, State.hostReadReg, hn] using hidle

theorem hostAct_readLen (s : State) (b : BufName) (hidle : b.isResult = true → s.busy = false) :
    s.hostAct (.readLen b) = .next (s.reply (.len (s.buffer b).len)) := by
  simpa [State.hostAct, State.hostReadLen] using hidle

theorem hostAct_readCell (s : State) (b : BufName) (i : Nat) (hi : i < s.cfg.bufmax)
    (hresult : b.isResult = true → s.busy = false ∧ i < (s.buffer b).len) :
    s.hostAct (.readCell b i) = .next (s.reply (.cell ((s.buffer b).cell i))) := by
  cases hb : b.isResult with
  | false => simp [State.hostAct, State.hostReadCell, hb, Nat.not_le.2 hi]
  | true =>
    obtain ⟨hidle, hlen⟩ := hresult hb
    simp [State.hostAct, State.hostReadCell, hidle, Nat.not_le.2 hi, Nat.not_le.2 hlen]

/-- The two rows of R52 for HostReadReg: the register exists, and `BUSY = 0` for a result. -/
theorem hostMay_readReg_iff (s : State) (n : Nat) :
    HostMay s (.readReg n) ↔ s.hasRegister n = true ∧ (isResultRegister n = true → s.busy = false) := by
  simp only [HostMay, State.hasRegister, isResultRegister, decide_eq_true_eq]
  cases s.busy <;> simp <;> omega

theorem hostMay_readLen_iff (s : State) (b : BufName) :
    HostMay s (.readLen b) ↔ (b.isResult = true → s.busy = false) := by
  cases b <;> simp [HostMay, BufName.isResult]

/-- The two rows of R52 for HostReadCell. A cell below the LEN of a result buffer exists, by the invariant. -/
theorem hostMay_readCell_iff (s : State) (h : s.Invariant) (b : BufName) (i : Nat) : HostMay s (.readCell b i) ↔
    i < s.cfg.bufmax ∧ (b.isResult = true → s.busy = false ∧ i < (s.buffer b).len) := by
  obtain ⟨hcap, -, -⟩ := (Buffer.ok_iff s.cfg (s.buffer b)).1 (h.buffer b)
  cases hb : b.isResult with
  | false =>
    have hname := (BufName.isResult_eq_false_iff b).1 hb
    have hother : ¬(b = .ra ∨ b = .rb ∨ b = .rc) := by simp [← BufName.isResult_eq_true_iff, hb]
    simp [HostMay, hname, hother]
  | true =>
    have hname := (BufName.isResult_eq_true_iff b).1 hb
    have hother : ¬(b = .opa ∨ b = .opb) := by simp [← BufName.isResult_eq_false_iff, hb]
    simp only [HostMay, hname, hother, false_and, false_or, true_and, forall_const]
    exact ⟨fun ⟨hidle, hlen⟩ => ⟨by omega, hidle, hlen⟩, fun ⟨_, hidle, hlen⟩ => ⟨hidle, hlen⟩⟩

/-- An action that the table permits gets a step. -/
theorem hostAct_of_hostMay (s : State) (h : s.Invariant) (a : HostAction) (hmay : HostMay s a) :
    ∃ t, s.hostAct a = .next t := by
  cases a with
  | writeReg n v =>
    obtain ⟨rfl | rfl | rfl, hidle⟩ := hmay
    · exact ⟨_, hostAct_writeCommand s v hidle⟩
    · exact ⟨_, hostAct_writeKmOn s v hidle⟩
    · exact ⟨_, hostAct_writeKmDc s v hidle⟩
  | writeCell b i c =>
    obtain ⟨hb, hi, hidle⟩ := hmay
    exact ⟨_, hostAct_writeCell s b i c ((BufName.isResult_eq_false_iff b).2 hb) hi hidle⟩
  | writeLen b l =>
    obtain ⟨hb, hl, hidle⟩ := hmay
    exact ⟨_, hostAct_writeLen s b l ((BufName.isResult_eq_false_iff b).2 hb) hl hidle⟩
  | readReg n =>
    obtain ⟨hn, hidle⟩ := (hostMay_readReg_iff s n).1 hmay
    exact ⟨_, hostAct_readReg s n hn hidle⟩
  | readLen b => exact ⟨_, hostAct_readLen s b ((hostMay_readLen_iff s b).1 hmay)⟩
  | readCell b i =>
    obtain ⟨hi, hresult⟩ := (hostMay_readCell_iff s h b i).1 hmay
    exact ⟨_, hostAct_readCell s b i hi hresult⟩

/-- An action that gets a step is one that the table permits, and has the effect of its row. -/
theorem hostMay_and_hostDoes_of_hostAct (s t : State) (h : s.Invariant) (a : HostAction)
    (hact : s.hostAct a = .next t) : HostMay s a ∧ HostDoes s t a := by
  rcases hostAct_cases s t a hact with ⟨v, rfl, hidle, rfl⟩ | ⟨v, rfl, hidle, rfl⟩ | ⟨v, rfl, hidle, rfl⟩ |
    ⟨b, i, c, rfl, hb, hi, hidle, rfl⟩ | ⟨b, l, rfl, hb, hl, hidle, rfl⟩ | ⟨n, rfl, hn, hidle, rfl⟩ |
    ⟨b, rfl, hidle, rfl⟩ | ⟨b, i, rfl, hi, hresult, rfl⟩
  · refine ⟨⟨.inl rfl, hidle⟩, rfl, fun _ => ⟨rfl, s.startCommand_busy v, s.startCommand_done v, fun k hk => ?_⟩,
      nofun, nofun⟩
    rw [State.startCommand_status, statusStarted_getLsbD, if_neg (by omega), if_neg (by omega)]
  · exact ⟨⟨.inr (.inl rfl), hidle⟩, rfl, nofun, fun _ => rfl, nofun⟩
  · exact ⟨⟨.inr (.inr rfl), hidle⟩, rfl, nofun, nofun, fun _ => rfl⟩
  · obtain ⟨-, hwf, -⟩ := (Buffer.ok_iff s.cfg (s.buffer b)).1 (h.buffer b)
    simp only [HostDoes, State.buffer_setBuffer]
    exact ⟨⟨(BufName.isResult_eq_false_iff b).1 hb, hi, hidle⟩, trivial, trivial, Memory.read_write_same _ i c hwf,
      fun j hj => Memory.read_write_other _ i j c hj⟩
  · simp only [HostDoes, State.buffer_setBuffer]
    exact ⟨⟨(BufName.isResult_eq_false_iff b).1 hb, hl, hidle⟩, trivial, trivial, fun _ => rfl⟩
  · exact ⟨(hostMay_readReg_iff s n).2 ⟨hn, hidle⟩, rfl⟩
  · exact ⟨(hostMay_readLen_iff s b).2 hidle, rfl⟩
  · exact ⟨(hostMay_readCell_iff s h b i).2 ⟨hi, hresult⟩, rfl⟩

/-- Settles O18: the registers and buffers by name, then the table in both directions: a permitted action gets a step, and
every step is of a permitted action and does what its row says. -/
theorem hostActionTable : Obligations.HostActionTable := by
  unfold Obligations.HostActionTable
  refine ⟨fun s => ⟨rfl, rfl, rfl, rfl, rfl, rfl, rfl, rfl, fun i e he => ?_, fun i hi => ?_⟩,
    fun s => ⟨rfl, rfl, rfl, rfl, rfl, fun b => ⟨rfl, rfl⟩⟩, fun s a hinv => ⟨fun hmay => ?_, fun hnot t hact => ?_⟩⟩
  · rw [State.register_cells, State.register_info, s.piEntry_of_getElem? i e he]
    exact ⟨rfl, rfl, rfl⟩
  · rw [State.register_cells, State.register_info, s.piEntry_past i hi]
    exact ⟨rfl, rfl, rfl⟩
  · have h := (State.inv_iff s).1 hinv
    obtain ⟨t, hact⟩ := hostAct_of_hostMay s h a hmay
    exact ⟨t, hact, (hostMay_and_hostDoes_of_hostAct s t h a hact).2⟩
  · exact hnot (hostMay_and_hostDoes_of_hostAct s t ((State.inv_iff s).1 hinv) a hact).1

end Sys2Proof.Machine
end

section
/-! PROOFS, the family 20_memory. What the host can do while a command is pending: read, and nothing else (20_memory.md
R52, R59, 70_reset_and_hazards.md R274). -/

namespace Sys2Proof.Machine

/-- While `BUSY = 1` every host action that gets a step is a read. -/
theorem hostAct_while_busy (s t : State) (a : HostAction) (hbusy : s.busy = true) (h : s.hostAct a = .next t) :
    ∃ r, t = s.reply r := by
  have hnot : s.busy ≠ false := by simp [hbusy]
  rcases hostAct_cases s t a h with ⟨v, -, hidle, -⟩ | ⟨v, -, hidle, -⟩ | ⟨v, -, hidle, -⟩ |
    ⟨b, i, c, -, -, -, hidle, -⟩ | ⟨b, l, -, -, -, hidle, -⟩ | ⟨n, -, -, -, ht⟩ | ⟨b, -, -, ht⟩ | ⟨b, i, -, -, -, ht⟩
  case inr.inr.inr.inr.inr.inl => exact ⟨_, ht⟩
  case inr.inr.inr.inr.inr.inr.inl => exact ⟨_, ht⟩
  case inr.inr.inr.inr.inr.inr.inr => exact ⟨_, ht⟩
  all_goals exact absurd hidle hnot

/-- A run of host actions from a pending command leaves everything but the schedule and the replies. -/
theorem run_hostActions_while_busy (acts : List HostAction) (rest : List Event) (s t : State) (hbusy : s.busy = true)
    (hsched : s.schedule = acts.map .host ++ rest) (hrun : Host.Core.run core acts.length s = .next t) :
    t = { s with schedule := rest, replies := t.replies } := by
  induction acts generalizing s with
  | nil =>
    cases hrun
    subst hsched
    rfl
  | cons a acts ih =>
    obtain ⟨u, hstep, hrun⟩ := (run_succ_eq_next_iff core acts.length s t).1 hrun
    have hact : State.hostAct { s with schedule := acts.map .host ++ rest } a = .next u :=
      (step_of_schedule_host s a _ hsched).symm.trans hstep
    obtain ⟨r, rfl⟩ := hostAct_while_busy { s with schedule := acts.map .host ++ rest } u a hbusy hact
    exact ih (State.reply { s with schedule := acts.map .host ++ rest } r) hbusy rfl hrun

/-- Settles O19: the run of the host's actions, from the state that is about to take them. -/
theorem busyProtectsOperands : Obligations.BusyProtectsOperands := by
  unfold Obligations.BusyProtectsOperands
  intro s t acts rest hbusy hrun
  exact run_hostActions_while_busy acts rest { s with schedule := acts.map .host ++ rest } t hbusy rfl hrun

end Sys2Proof.Machine
end

section
/-! PROOFS, the family 20_memory. A text written cell by cell in any order (20_memory.md R53): writes to different cells
commute, so the order does not matter, and in ascending order they are the write of the text (30_encoding.md R74). -/

namespace Sys2Proof.Machine

/-- Characters stored one after the other, each in the cell of its own index, in the order of the list. -/
def Memory.writeCells : Memory → List (Byte × Nat) → Memory
  | m, [] => m
  | m, p :: ps => Memory.writeCells (m.write p.2 p.1) ps

/-- Writes to two different cells commute. -/
theorem Memory.write_comm (m : Memory) (i j : Nat) (b c : Byte) (hm : Memory.wf m = true) (hij : i ≠ j) :
    (m.write i b).write j c = (m.write j c).write i b := by
  have hi := Memory.wf_write m i b hm
  have hj := Memory.wf_write m j c hm
  refine Memory.eq_of_read _ _ (Memory.wf_write _ j c hi) (Memory.wf_write _ i b hj) (fun k => ?_)
  rcases eq_or_ne k i with rfl | hki
  · rw [Memory.read_write_other _ j k c hij, Memory.read_write_same _ k b hm, Memory.read_write_same _ k b hj]
  · rcases eq_or_ne k j with rfl | hkj
    · rw [Memory.read_write_same _ k c hi, Memory.read_write_other _ i k b hki, Memory.read_write_same _ k c hm]
    · rw [Memory.read_write_other _ j k c hkj, Memory.read_write_other _ i k b hki,
        Memory.read_write_other _ i k b hki, Memory.read_write_other _ j k c hkj]

/-- Characters for different cells may be stored in any order. -/
theorem Memory.writeCells_perm (ps qs : List (Byte × Nat)) (h : ps.Perm qs) (hps : (ps.map Prod.snd).Nodup) (m : Memory)
    (hm : Memory.wf m = true) : m.writeCells ps = m.writeCells qs := by
  induction h generalizing m with
  | nil => rfl
  | cons p _ ih => exact ih (List.Nodup.of_cons hps) _ (Memory.wf_write m p.2 p.1 hm)
  | swap p q l =>
    have hne : q.2 ≠ p.2 := fun heq => by simp [heq] at hps
    simp only [Memory.writeCells, Memory.write_comm m q.2 p.2 q.1 p.1 hm hne]
  | trans h _ ih₁ ih₂ => exact (ih₁ hps m hm).trans (ih₂ ((h.map Prod.snd).nodup_iff.1 hps) m hm)

/-- The characters of a text stored in ascending order are the text written. -/
theorem Memory.writeCells_zipIdx (m : Memory) (i : Nat) (t : Text) : m.writeCells (t.zipIdx i) = m.writeText i t := by
  induction t generalizing m i with
  | nil => rfl
  | cons c t ih => exact ih (m.write i c) (i + 1)

/-- The characters of a text stored in any order are the text written. -/
theorem Memory.writeCells_of_perm_zipIdx (m : Memory) (hm : Memory.wf m = true) (t : Text) (ps : List (Byte × Nat))
    (h : ps.Perm t.zipIdx) : m.writeCells ps = m.writeText 0 t := by
  have hdistinct : (ps.map Prod.snd).Nodup := by
    rw [(h.map Prod.snd).nodup_iff, List.zipIdx_map_snd]
    exact List.nodup_range' 1
  rw [Memory.writeCells_perm ps t.zipIdx h hdistinct m hm, Memory.writeCells_zipIdx]

/-- Host writes of cells of an operand buffer, in the order of the list. -/
def cellWrites (b : BufName) (ps : List (Byte × Nat)) : List HostAction :=
  ps.map (fun p => HostAction.writeCell b p.2 p.1)

/-- Replacing an operand buffer leaves the parameters and the schedule. -/
@[simp] theorem State.setBuffer_cfg (s : State) (n : BufName) (b : Buffer) : (s.setBuffer n b).cfg = s.cfg := by
  cases n <;> rfl

@[simp] theorem State.setBuffer_schedule (s : State) (n : BufName) (b : Buffer) :
    (s.setBuffer n b).schedule = s.schedule := by
  cases n <;> rfl

@[simp] theorem State.setBuffer_busy (s : State) (n : BufName) (b : Buffer) : (s.setBuffer n b).busy = s.busy := by
  rw [State.busy, State.setBuffer_status, ← State.busy]

/-- The turn of a cell write while `BUSY = 0`. -/
theorem step_cellWrite (s : State) (b : BufName) (i : Nat) (c : Byte) (rest : List Event) (hb : b.isResult = false)
    (hi : i < s.cfg.bufmax) (hidle : s.busy = false) (hsched : s.schedule = .host (.writeCell b i c) :: rest) :
    step s = .next
      { s.setBuffer b { s.buffer b with cells := (s.buffer b).cells.write i c } with schedule := rest } := by
  rw [step_of_schedule_host s _ rest hsched, hostAct_writeCell { s with schedule := rest } b i c hb hi hidle]
  cases b <;> rfl

/-- The turn of a length write while `BUSY = 0`. -/
theorem step_lenWrite (s : State) (b : BufName) (l : Nat) (rest : List Event) (hb : b.isResult = false)
    (hl : l ≤ s.cfg.bufmax) (hidle : s.busy = false) (hsched : s.schedule = .host (.writeLen b l) :: rest) :
    step s = .next { s.setBuffer b { s.buffer b with len := l } with schedule := rest } := by
  rw [step_of_schedule_host s _ rest hsched, hostAct_writeLen { s with schedule := rest } b l hb hl hidle]
  cases b <;> rfl

/-- A run of cell writes while `BUSY = 0` stores the characters in the order of the list and changes nothing else. -/
theorem run_cellWrites (b : BufName) (hb : b.isResult = false) (ps : List (Byte × Nat)) (rest : List Event) (s : State)
    (hidle : s.busy = false) (hps : ∀ p ∈ ps, p.2 < s.cfg.bufmax)
    (hsched : s.schedule = (cellWrites b ps).map .host ++ rest) :
    Host.Core.run core ps.length s = .next
      { s.setBuffer b { s.buffer b with cells := (s.buffer b).cells.writeCells ps } with schedule := rest } := by
  induction ps generalizing s with
  | nil =>
    subst hsched
    cases b <;> rfl
  | cons p ps ih =>
    obtain ⟨hp, hps⟩ := List.forall_mem_cons.1 hps
    have hstep := step_cellWrite s b p.2 p.1 _ hb hp hidle hsched
    refine (run_succ_eq_next_iff core ps.length s _).2 ⟨_, hstep, (ih _ ?_ ?_ rfl).trans ?_⟩
    · exact (s.setBuffer_busy b _).trans hidle
    · simpa using hps
    · cases b <;> rfl

/-- A run of the cells of a text in any order and then of its length, while `BUSY = 0`, writes the text
(30_encoding.md R74) and changes nothing else. -/
theorem run_writeText (s : State) (b : BufName) (txt : Text) (ps : List (Byte × Nat)) (rest : List Event)
    (hb : b.isResult = false) (hidle : s.busy = false) (hwf : Memory.wf (s.buffer b).cells = true)
    (hfits : txt.length ≤ s.cfg.bufmax) (hps : ps.Perm txt.zipIdx)
    (hsched : s.schedule = (cellWrites b ps ++ [HostAction.writeLen b txt.length]).map .host ++ rest) :
    Host.Core.run core (txt.length + 1) s =
      .next { s.setBuffer b ((s.buffer b).write txt) with schedule := rest } := by
  have hbelow : ∀ p ∈ ps, p.2 < s.cfg.bufmax := fun p hp => by
    have hp := List.snd_lt_of_mem_zipIdx (hps.mem_iff.1 hp)
    omega
  have hcells := run_cellWrites b hb ps (.host (.writeLen b txt.length) :: rest) s hidle hbelow (by simp [hsched])
  rw [Memory.writeCells_of_perm_zipIdx _ hwf txt ps hps, hps.length_eq, List.length_zipIdx] at hcells
  have hlast : step { s.setBuffer b { s.buffer b with cells := (s.buffer b).cells.writeText 0 txt } with
      schedule := .host (.writeLen b txt.length) :: rest } =
      .next { s.setBuffer b ((s.buffer b).write txt) with schedule := rest } := by
    rw [step_lenWrite _ b txt.length rest hb ?_ ?_ rfl]
    · cases b <;> rfl
    · simpa using hfits
    · exact (s.setBuffer_busy b _).trans hidle
  exact run_add_eq_next core txt.length 1 s _ _ hcells ((run_succ_eq_next_iff core 0 _ _).2 ⟨_, hlast, rfl⟩)

/-- Actions that are a permutation of the cell writes of a list are the cell writes of a permutation of the list. -/
theorem exists_perm_of_perm_cellWrites (b : BufName) (acts : List HostAction) (qs : List (Byte × Nat))
    (h : acts.Perm (cellWrites b qs)) : ∃ ps : List (Byte × Nat), acts = cellWrites b ps ∧ ps.Perm qs :=
  (congrFun₂ (List.eq_map_comp_perm fun p : Byte × Nat => HostAction.writeCell b p.2 p.1) acts qs).mpr h

/-- Settles O21: the writes are those of the text's cells in some order, and so their run writes the text. -/
theorem writeTextAnyOrder : Obligations.WriteTextAnyOrder := by
  unfold Obligations.WriteTextAnyOrder
  refine ⟨fun s b txt acts rest hinv hidle hname hfits hperm => ?_, fun s b txt => rfl, fun s n v => rfl⟩
  obtain ⟨ps, rfl, hps⟩ := exists_perm_of_perm_cellWrites b acts txt.zipIdx hperm
  have hb := (BufName.isResult_eq_false_iff b).2 hname
  obtain ⟨-, hwf, -⟩ := (Buffer.ok_iff s.cfg _).1 (((State.inv_iff s).1 hinv).buffer b)
  have hbuffer : State.buffer { s.setBuffer b ((s.buffer b).write txt) with schedule := rest } b =
      (s.buffer b).write txt := by
    cases b <;> rfl
  refine ⟨{ s.setBuffer b ((s.buffer b).write txt) with schedule := rest }, ?_, ?_, ?_, ?_⟩
  · refine (run_writeText
      { s with schedule := (cellWrites b ps ++ [HostAction.writeLen b txt.length]).map .host ++ rest }
      b txt ps rest hb hidle ?_ hfits hps rfl).trans ?_
    · cases b <;> exact hwf
    · cases b <;> rfl
  · rw [hbuffer, Buffer.content_write _ txt hwf]
  · intro i hi
    rw [hbuffer, Buffer.cell_write_past _ txt i hi]
  · rw [hbuffer]

end Sys2Proof.Machine
end

section
/-! PROOFS, the family 30_encoding. The command word (30_encoding.md R70, R82): its fields as numbers, and the decoder's
answer, said once as `decode_eq_ok_iff`. -/

namespace Sys2Proof

/-- A command word as a number: OPC in bits 7:0, ARG in bits 15:8, 0 above (30_encoding.md R70). -/
theorem commandWord_toNat (arg opc : BitVec 8) : (commandWord arg opc).toNat = opc.toNat + 0x100 * arg.toNat := by
  have hopc := opc.isLt
  have harg : (0#16 ++ arg).toNat = arg.toNat := by simp only [BitVec.toNat_append, BitVec.toNat_zero, Nat.zero_shiftLeft, Nat.zero_or]
  rw [commandWord, BitVec.toNat_append, harg, Nat.shiftLeft_eq, Nat.mul_comm, ← Nat.two_pow_add_eq_or_of_lt hopc]
  omega

/-- The fields of a word are parts of its number (30_encoding.md R70). -/
theorem opcField_toNat (w : Word) : (opcField w).toNat = w.toNat % 256 := by
  simp [opcField]

theorem argField_toNat (w : Word) : (argField w).toNat = w.toNat / 256 % 256 := by
  simp [argField, Nat.shiftRight_eq_div_pow]

theorem rsvField_eq_zero_iff (w : Word) : rsvField w = 0#16 ↔ w.toNat / 2 ^ 16 = 0 := by
  have hw := w.isLt
  rw [← BitVec.toNat_inj, rsvField, BitVec.extractLsb'_toNat, Nat.shiftRight_eq_div_pow]
  simp
  omega

/-- A word with RSV = 0 is made of its two other fields (30_encoding.md R70). -/
theorem commandWord_of_fields (w : Word) (h : rsvField w = 0#16) : commandWord (argField w) (opcField w) = w := by
  have hsmall := (rsvField_eq_zero_iff w).1 h
  apply BitVec.eq_of_toNat_eq
  rw [commandWord_toNat, opcField_toNat, argField_toNat]
  omega

/-- An encoding, field by field. -/
theorem encode_eq_iff (i : Instr) (w : Word) :
    encode i = w ↔ rsvField w = 0#16 ∧ opcField w = i.opc ∧ argField w = i.arg := by
  constructor
  · rintro rfl
    obtain ⟨hopc, harg, hrsv⟩ := commandWord_fields i.arg i.opc
    exact ⟨hrsv, hopc, harg⟩
  · rintro ⟨hrsv, hopc, harg⟩
    rw [encode, ← hopc, ← harg, commandWord_of_fields w hrsv]

/-- A flag under seven reserved bits, and two under six (30_encoding.md R71, R72). -/
theorem flag_append_eq (arg : BitVec 8) (h : arg.extractLsb' 1 7 = 0#7) : 0#7 ++ BitVec.ofBool (arg.getLsbD 0) = arg := by
  have harg := arg.isLt
  have hlt : arg.toNat < 2 := by
    have hzero := congrArg BitVec.toNat h
    rw [BitVec.extractLsb'_toNat, Nat.shiftRight_eq_div_pow, BitVec.toNat_zero] at hzero
    omega
  rw [← BitVec.setWidth_eq arg, ← BitVec.ofNat_toNat]
  generalize arg.toNat = n at hlt ⊢
  interval_cases n <;> rfl

theorem flags_append_eq (arg : BitVec 8) (h : arg.extractLsb' 2 6 = 0#6) :
    0#6 ++ BitVec.ofBool (arg.getLsbD 1) ++ BitVec.ofBool (arg.getLsbD 0) = arg := by
  have harg := arg.isLt
  have hlt : arg.toNat < 4 := by
    have hzero := congrArg BitVec.toNat h
    rw [BitVec.extractLsb'_toNat, Nat.shiftRight_eq_div_pow, BitVec.toNat_zero] at hzero
    omega
  rw [← BitVec.setWidth_eq arg, ← BitVec.ofNat_toNat]
  generalize arg.toNat = n at hlt ⊢
  interval_cases n <;> rfl

@[simp] theorem Precision.toBit_ofBit (b : Bool) : (Precision.ofBit b).toBit = b := by cases b <;> rfl

@[simp] theorem InType.toBit_ofBit (b : Bool) : (InType.ofBit b).toBit = b := by cases b <;> rfl

theorem checkedArg_eq_ok_iff (legal : Bool) (i j : Instr) : checkedArg legal i = .ok j ↔ legal = true ∧ i = j := by
  cases legal <;> simp [checkedArg]

/-- The decoder's answer to a word whose ARG is legal is the instruction (30_encoding.md R82). -/
theorem decode_encode (tcwMax : Nat) (i : Instr) (h : i.wf tcwMax = true) : decode tcwMax (encode i) = .ok i := by
  obtain ⟨hopc, harg, hrsv⟩ := commandWord_fields i.arg i.opc
  rw [decode, encode, hopc, harg, hrsv]
  cases i with
  | crcDec fix => cases fix <;> rfl
  | f754Dec p t => cases p <;> cases t <;> rfl
  | f754Enc p => cases p <;> rfl
  | f754Add p t => cases p <;> cases t <;> rfl
  | _ => exact (checkedArg_eq_ok_iff _ _ _).2 ⟨h, rfl⟩

/-- A word that decodes is the encoding of a well-formed instruction, one case per row of 30_encoding.md R82. -/
theorem wf_and_encode_of_decode (tcwMax : Nat) (w : Word) (i : Instr) (h : decode tcwMax w = .ok i) :
    i.wf tcwMax = true ∧ encode i = w := by
  rw [encode_eq_iff]
  simp only [decode] at h
  split at h
  · cases h
  · next hrsv =>
    have hopc (n : Nat) (hn : (opcField w).toNat = n) : opcField w = BitVec.ofNat 8 n := by
      rw [← hn, BitVec.ofNat_toNat, BitVec.setWidth_eq]
    have hrsv : rsvField w = 0#16 := not_not.1 hrsv
    split at h
    case h_1 hn | h_3 hn | h_4 hn | h_12 hn | h_13 hn =>
      obtain ⟨hzero, rfl⟩ := (checkedArg_eq_ok_iff _ _ _).1 h
      exact ⟨rfl, hrsv, hopc _ hn, beq_iff_eq.1 hzero⟩
    case h_2 hn | h_6 hn =>
      obtain ⟨hflag, rfl⟩ := (checkedArg_eq_ok_iff _ _ _).1 h
      refine ⟨rfl, hrsv, hopc _ hn, ?_⟩
      simp only [Instr.arg, Precision.toBit_ofBit, flag_append_eq _ (beq_iff_eq.1 hflag)]
    case h_5 hn | h_7 hn =>
      obtain ⟨hflags, rfl⟩ := (checkedArg_eq_ok_iff _ _ _).1 h
      refine ⟨rfl, hrsv, hopc _ hn, ?_⟩
      simp only [Instr.arg, Precision.toBit_ofBit, InType.toBit_ofBit, flags_append_eq _ (beq_iff_eq.1 hflags)]
    case h_8 hn | h_9 hn | h_10 hn | h_11 hn | h_14 hn | h_15 hn | h_16 hn =>
      obtain ⟨hrange, rfl⟩ := (checkedArg_eq_ok_iff _ _ _).1 h
      exact ⟨hrange, hrsv, hopc _ hn, rfl⟩
    case h_17 => cases h

/-- The decoder, said once: it answers with the well-formed instruction whose encoding the word is. -/
theorem decode_eq_ok_iff (tcwMax : Nat) (w : Word) (i : Instr) :
    decode tcwMax w = .ok i ↔ i.wf tcwMax = true ∧ encode i = w := by
  constructor
  · exact wf_and_encode_of_decode tcwMax w i
  · rintro ⟨hwf, rfl⟩
    exact decode_encode tcwMax i hwf

/-- Settles O1: an encoding by its number, then the decoder's answers in both directions. -/
theorem decodeAndEncodeAgree : Obligations.DecodeAndEncodeAgree := by
  unfold Obligations.DecodeAndEncodeAgree
  exact ⟨fun i => commandWord_toNat i.arg i.opc,
    fun tcwMax => ⟨decode_encode tcwMax, wf_and_encode_of_decode tcwMax⟩⟩

end Sys2Proof
end

section
/-! PROOFS, the family 30_encoding. The legal command words (30_encoding.md R71, R83): the table by numbers, the list of
the legal commands, and what the engine does with every other word (R82). -/

namespace Sys2Proof

open Sys2Proof.Machine

/-- The legal values of the sub-fields are the rows of the table of R71. -/
theorem wf_iff_argLegal (tcwMax : Nat) (i : Instr) :
    i.wf tcwMax = true ↔ argLegal tcwMax i.opc.toNat i.arg.toNat := by
  cases i with
  | crcDec fix => cases fix <;> simp [Instr.wf, argLegal, Instr.opc, Instr.arg]
  | f754Dec p t => cases p <;> cases t <;> simp [Instr.wf, argLegal, Instr.opc, Instr.arg, Precision.toBit, InType.toBit]
  | f754Enc p => cases p <;> simp [Instr.wf, argLegal, Instr.opc, Instr.arg, Precision.toBit]
  | f754Add p t => cases p <;> cases t <;> simp [Instr.wf, argLegal, Instr.opc, Instr.arg, Precision.toBit, InType.toBit]
  | _ => simp [Instr.wf, argLegal, Instr.opc, Instr.arg, legalWidth, legalNvars]

/-- Every row of the table of R71 is an instruction. -/
theorem exists_instr_of_argLegal (tcwMax opc arg : Nat) (harg : arg < 256) (h : argLegal tcwMax opc arg) :
    ∃ i : Instr, i.opc.toNat = opc ∧ i.arg.toNat = arg := by
  have hfield : (BitVec.ofNat 8 arg).toNat = arg := Nat.mod_eq_of_lt harg
  simp only [argLegal, List.mem_cons, List.not_mem_nil, or_false] at h
  rcases h with ⟨rfl | rfl | rfl | rfl | rfl, rfl⟩ | ⟨rfl | rfl, hflag⟩ | ⟨rfl | rfl, hflags⟩ |
    ⟨rfl | rfl | rfl | rfl, -⟩ | ⟨rfl | rfl | rfl, -⟩
  · exact ⟨.crcEnc, rfl, rfl⟩
  · exact ⟨.hamEnc, rfl, rfl⟩
  · exact ⟨.hamDec, rfl, rfl⟩
  · exact ⟨.grayEnc, rfl, rfl⟩
  · exact ⟨.grayDec, rfl, rfl⟩
  · interval_cases arg
    exacts [⟨.crcDec false, rfl, rfl⟩, ⟨.crcDec true, rfl, rfl⟩]
  · interval_cases arg
    exacts [⟨.f754Enc .single, rfl, rfl⟩, ⟨.f754Enc .double, rfl, rfl⟩]
  · interval_cases arg
    exacts [⟨.f754Dec .single .binary, rfl, rfl⟩, ⟨.f754Dec .double .binary, rfl, rfl⟩,
      ⟨.f754Dec .single .hex, rfl, rfl⟩, ⟨.f754Dec .double .hex, rfl, rfl⟩]
  · interval_cases arg
    exacts [⟨.f754Add .single .binary, rfl, rfl⟩, ⟨.f754Add .double .binary, rfl, rfl⟩,
      ⟨.f754Add .single .hex, rfl, rfl⟩, ⟨.f754Add .double .hex, rfl, rfl⟩]
  · exact ⟨.tcEnc (.ofNat 8 arg), rfl, hfield⟩
  · exact ⟨.tcDec (.ofNat 8 arg), rfl, hfield⟩
  · exact ⟨.tcAdd (.ofNat 8 arg), rfl, hfield⟩
  · exact ⟨.tcSub (.ofNat 8 arg), rfl, hfield⟩
  · exact ⟨.kmEval (.ofNat 8 arg), rfl, hfield⟩
  · exact ⟨.kmPi (.ofNat 8 arg), rfl, hfield⟩
  · exact ⟨.kmCover (.ofNat 8 arg), rfl, hfield⟩

/-- An encoding as a number, in the fields that the table of R71 reads. -/
theorem encode_toNat_fields (i : Instr) : (encode i).toNat / 2 ^ 16 = 0 ∧ (encode i).toNat % 256 = i.opc.toNat ∧
    (encode i).toNat / 256 % 256 = i.arg.toNat := by
  have hopc := i.opc.isLt
  have harg := i.arg.isLt
  rw [encode, commandWord_toNat]
  omega

/-- The legal words of R71 are the encodings of the well-formed instructions. -/
theorem legalCommand_iff (tcwMax : Nat) (w : Word) :
    LegalCommand tcwMax w ↔ ∃ i : Instr, i.wf tcwMax = true ∧ encode i = w := by
  constructor
  · rintro ⟨hrsv, hlegal⟩
    obtain ⟨i, hopc, harg⟩ := exists_instr_of_argLegal tcwMax _ _ (Nat.mod_lt _ (by decide)) hlegal
    refine ⟨i, (wf_iff_argLegal tcwMax i).2 (by rwa [hopc, harg]), BitVec.eq_of_toNat_eq ?_⟩
    rw [encode, commandWord_toNat, hopc, harg]
    omega
  · rintro ⟨i, hwf, rfl⟩
    obtain ⟨hrsv, hopc, harg⟩ := encode_toNat_fields i
    exact ⟨hrsv, by rwa [hopc, harg, ← wf_iff_argLegal]⟩

/-- The words that decode are those that the table of R71 calls legal (30_encoding.md R82). -/
theorem exists_decode_iff (tcwMax : Nat) (w : Word) :
    (∃ i, decode tcwMax w = .ok i) ↔ LegalCommand tcwMax w := by
  simp only [legalCommand_iff, decode_eq_ok_iff]

/-- The values 1 to `n` of an 8-bit sub-field, ascending. -/
def fieldValues (n : Nat) : List (BitVec 8) := (List.range n).map (fun k => BitVec.ofNat 8 (k + 1))

@[simp] theorem fieldValues_length (n : Nat) : (fieldValues n).length = n := by simp [fieldValues]

theorem mem_fieldValues_iff (n : Nat) (hn : n ≤ 255) (w : BitVec 8) :
    w ∈ fieldValues n ↔ 1 ≤ w.toNat ∧ w.toNat ≤ n := by
  simp only [fieldValues, List.mem_map, List.mem_range]
  constructor
  · rintro ⟨k, hk, rfl⟩
    rw [BitVec.toNat_ofNat]
    omega
  · rintro ⟨hpos, hle⟩
    refine ⟨w.toNat - 1, by omega, ?_⟩
    rw [Nat.sub_add_cancel hpos, BitVec.ofNat_toNat, BitVec.setWidth_eq]

theorem fieldValues_nodup (n : Nat) (hn : n ≤ 255) : (fieldValues n).Nodup := by
  refine List.Nodup.map_on (fun j hj k hk heq => ?_) List.nodup_range
  have heq := congrArg BitVec.toNat heq
  rw [List.mem_range] at hj hk
  rw [BitVec.toNat_ofNat, BitVec.toNat_ofNat] at heq
  omega

/-- The legal commands whose ARG is 0 or flags (30_encoding.md R71). -/
def flagInstrs : List Instr :=
  [.crcEnc, .hamEnc, .hamDec, .grayEnc, .grayDec, .crcDec false, .crcDec true,
    .f754Dec .single .binary, .f754Dec .single .hex, .f754Dec .double .binary, .f754Dec .double .hex,
    .f754Enc .single, .f754Enc .double,
    .f754Add .single .binary, .f754Add .single .hex, .f754Add .double .binary, .f754Add .double .hex]

/-- The operations whose ARG is a width, and those whose ARG is a number of variables (30_encoding.md R71). -/
def widthOps : List (BitVec 8 → Instr) := [.tcEnc, .tcDec, .tcAdd, .tcSub]

def nvarsOps : List (BitVec 8 → Instr) := [.kmEval, .kmPi, .kmCover]

/-- The list of the legal commands by the kind of its ARG (30_encoding.md R83). -/
theorem legalInstrs_eq (tcwMax : Nat) : legalInstrs tcwMax = flagInstrs ++
    (widthOps.flatMap (fieldValues tcwMax).map ++ nvarsOps.flatMap (fieldValues 5).map) := by
  simp [legalInstrs, flagInstrs, widthOps, nvarsOps, fieldValues]

/-- The listed commands are the well-formed instructions. -/
theorem mem_legalInstrs_iff (tcwMax : Nat) (h : tcwMax ≤ 255) (i : Instr) :
    i ∈ legalInstrs tcwMax ↔ i.wf tcwMax = true := by
  have hwidth := mem_fieldValues_iff tcwMax h
  have hcount := mem_fieldValues_iff 5 (by decide)
  rw [legalInstrs_eq]
  cases i with
  | crcDec fix => cases fix <;> simp [Instr.wf, flagInstrs]
  | f754Dec p t => cases p <;> cases t <;> simp [Instr.wf, flagInstrs]
  | f754Enc p => cases p <;> simp [Instr.wf, flagInstrs]
  | f754Add p t => cases p <;> cases t <;> simp [Instr.wf, flagInstrs]
  | _ => simp [Instr.wf, legalWidth, legalNvars, hwidth, hcount, flagInstrs, widthOps, nvarsOps]

theorem legalInstrs_nodup (tcwMax : Nat) (h : tcwMax ≤ 255) : (legalInstrs tcwMax).Nodup := by
  have hinj : ∀ c ∈ widthOps, Function.Injective c := by simp [widthOps, Function.Injective]
  have hwidths : (widthOps.flatMap (fieldValues tcwMax).map).Nodup :=
    List.nodup_flatMap.2 ⟨fun c hc => (fieldValues_nodup tcwMax h).map (hinj c hc),
      by simp [widthOps, Function.onFun, List.Disjoint]⟩
  have hcounts : (nvarsOps.flatMap (fieldValues 5).map).Nodup := by decide
  rw [legalInstrs_eq, List.nodup_append', List.nodup_append']
  refine ⟨by decide, ⟨hwidths, hcounts, ?_⟩, ?_⟩
  · simp [widthOps, nvarsOps, List.Disjoint, or_imp, forall_and]
  · simp [widthOps, nvarsOps, flagInstrs, List.Disjoint]

theorem legalInstrs_length (tcwMax : Nat) : (legalInstrs tcwMax).length = 5 * 1 + 2 + 4 + 2 + 4 + 4 * tcwMax + 3 * 5 := by
  rw [legalInstrs_eq]
  simp only [flagInstrs, widthOps, nvarsOps, List.length_append, List.flatMap_cons, List.flatMap_nil, List.length_map,
    fieldValues_length, List.length_cons, List.length_nil]
  omega

/-- Different well-formed instructions have different words. -/
theorem encode_injOn_wf (tcwMax : Nat) (i j : Instr) (hi : i.wf tcwMax = true) (hj : j.wf tcwMax = true)
    (h : encode i = encode j) : i = j := by
  have hdecode := decode_encode tcwMax i hi
  rw [h, decode_encode tcwMax j hj] at hdecode
  exact (Except.ok.inj hdecode).symm

/-- A pending word that is not legal completes with E_ILLEGAL_CMD (30_encoding.md R82, R83). -/
theorem engineTurn_of_illegal (s : State) (hbusy : s.busy = true) (h : ¬LegalCommand s.cfg.tcwMax s.cmd) :
    engineTurn s = .next (s.failWith .illegalCmd) := by
  rcases engineTurn_cases s with ⟨hidle, -⟩ | ⟨-, -, -, hturn⟩ | ⟨-, i, hfetch, -⟩
  · simp [hbusy] at hidle
  · exact hturn
  · exact absurd ((exists_decode_iff _ _).1 ⟨i, hfetch⟩) h

/-- Settles O3: the listed commands are the well-formed instructions, each once, and their encodings are the legal words,
which are the words that decode. -/
theorem legalWordsCounted : Obligations.LegalWordsCounted := by
  unfold Obligations.LegalWordsCounted
  intro tcwMax hmax
  have hmem := mem_legalInstrs_iff tcwMax hmax
  refine ⟨?_, ?_, fun w => ?_, exists_decode_iff tcwMax, ?_⟩
  · exact (legalInstrs_nodup tcwMax hmax).map_on fun i hi j hj =>
      encode_injOn_wf tcwMax i j ((hmem i).1 hi) ((hmem j).1 hj)
  · rw [List.length_map, legalInstrs_length]
  · simp only [List.mem_map, hmem, legalCommand_iff]
  · rintro s rfl hbusy hillegal
    exact engineTurn_of_illegal s hbusy hillegal

/-- Settles O4: an illegal word is an error completion, and a legal one is the encoding of the instruction that the
engine runs. -/
theorem decodingIsTotal : Obligations.DecodingIsTotal := by
  unfold Obligations.DecodingIsTotal
  refine fun s hbusy => ⟨fun hillegal => ?_, fun hlegal => ?_⟩
  · exact ⟨_, engineTurn_of_illegal s hbusy hillegal, s.complete_untouched _ {}, rfl, s.failWith_shows .illegalCmd⟩
  · obtain ⟨i, hdecode⟩ := (exists_decode_iff _ _).2 hlegal
    obtain ⟨-, hencode⟩ := (decode_eq_ok_iff _ _ _).1 hdecode
    obtain ⟨-, hopc, harg⟩ := encode_toNat_fields i
    rw [hencode] at hopc harg
    exact ⟨i, hopc.symm, harg.symm, engineTurn_of_fetch s i hbusy hdecode⟩

/-- Settles O2: the words of the table of R85 are encodings (`decode_encode`), and the written forms are
looked up among the legal commands. -/
theorem writtenWordsDecode : Obligations.WrittenWordsDecode := by
  unfold Obligations.WrittenWordsDecode
  refine ⟨⟨decode_encode 64 (.crcDec true) rfl, ?_⟩, ⟨decode_encode 64 .hamEnc rfl, ?_⟩,
    ⟨decode_encode 64 (.f754Dec .double .hex) rfl, ?_⟩, ⟨decode_encode 64 (.tcAdd 8#8) rfl, ?_⟩,
    ⟨decode_encode 64 .grayDec rfl, ?_⟩, ⟨decode_encode 64 (.kmCover 4#8) rfl, ?_⟩, ?_⟩ <;> decide +kernel

end Sys2Proof
end

section
/-! PROOFS, the family 30_encoding. What a command does not look at: operands that its rule does not name (30_encoding.md
R81), spaces in those that it does (R75), and the model's own schedule and replies. -/

namespace Sys2Proof.Machine

/-- Two states in which a rule's outcome and the parameters agree complete alike: with one code and one set of results. -/
theorem exec_congr (i : Instr) (s s' : State) (hcfg : s'.cfg = s.cfg) (hrule : opResult i s' = opResult i s) :
    ∃ err r, exec i s = .next { s.complete err r with freeCount := s.freeCount + draws i } ∧
      exec i s' = .next { s'.complete err r with freeCount := s'.freeCount + draws i } := by
  obtain ⟨err, r, hfinish⟩ := State.finish_eq_complete_of_cfg s.cfg (opResult i s)
  exact ⟨err, r, by rw [exec_eq, hfinish s rfl], by rw [exec_eq, hrule, hfinish s' hcfg]⟩

/-- An operation keeps an update of the state that its rule does not read and that no completion writes. -/
theorem exec_update (i : Instr) (s t : State) (update : State → State) (hcfg : (update s).cfg = s.cfg)
    (hrule : opResult i (update s) = opResult i s)
    (hkeep : ∀ err r n, { (update s).complete err r with freeCount := (update s).freeCount + n } =
      update { s.complete err r with freeCount := s.freeCount + n })
    (ht : exec i s = .next t) : exec i (update s) = .next (update t) := by
  obtain ⟨err, r, hexec, hexec'⟩ := exec_congr i s (update s) hcfg hrule
  rw [hexec] at ht
  cases ht
  rw [hexec', hkeep]

/-- The operations that read OPB are CRC.*, F754.ADD, TC.ADD and TC.SUB (30_encoding.md R80). -/
theorem opResult_withOpb (i : Instr) (hi : i.opc.toNat ∉ [0x01, 0x02, 0x07, 0x0A, 0x0B]) (s : State) (b : Buffer) :
    opResult i { s with opb := b } = opResult i s := by
  cases i with
  | crcEnc | crcDec | f754Add | tcAdd | tcSub => simp [Instr.opc] at hi
  | _ => rfl

/-- KM.PI and KM.COVER read no buffer (46_kmap.md R230). -/
theorem opResult_withOpa (i : Instr) (hi : i.opc.toNat ∈ [0x0F, 0x10]) (s : State) (a : Buffer) :
    opResult i { s with opa := a } = opResult i s := by
  cases i with
  | kmPi | kmCover => rfl
  | _ => simp [Instr.opc] at hi

/-- No other operation reads KM_ON and KM_DC (30_encoding.md R80). -/
theorem opResult_withMaps (i : Instr) (hi : i.opc.toNat ∉ [0x0F, 0x10]) (s : State) (on dc : Word) :
    opResult i { s with kmOn := on, kmDc := dc } = opResult i s := by
  cases i with
  | kmPi | kmCover => simp [Instr.opc] at hi
  | _ => rfl

/-- Settles O14: the rule of an operation does not read what it does not use, and nothing else reads operands. -/
theorem unusedOperandsNotRead : Obligations.UnusedOperandsNotRead := by
  unfold Obligations.UnusedOperandsNotRead
  intro i s t ht
  refine ⟨fun b hi => ?_, fun a hi => ?_, fun on dc hi => ?_⟩
  · exact exec_update i s t (fun u => { u with opb := b }) rfl (opResult_withOpb i hi s b) (fun _ _ _ => rfl) ht
  · exact exec_update i s t (fun u => { u with opa := a }) rfl (opResult_withOpa i hi s a) (fun _ _ _ => rfl) ht
  · exact exec_update i s t (fun u => { u with kmOn := on, kmDc := dc }) rfl (opResult_withMaps i hi s on dc)
      (fun _ _ _ => rfl) ht

/-! Every format cleans its operand first (30_encoding.md R75), so it answers alike before and after cleaning. -/

theorem bitsOperand_clean (t : Text) : bitsOperand (clean t) = bitsOperand t := by
  simp only [bitsOperand, clean_clean]

theorem bitsOperandOf_clean (L : Nat) (t : Text) : bitsOperandOf L (clean t) = bitsOperandOf L t := by
  simp only [bitsOperandOf, bitsOperand_clean]

theorem hexOperandOf_clean (L : Nat) (t : Text) : hexOperandOf L (clean t) = hexOperandOf L t := by
  simp only [hexOperandOf, clean_clean]

theorem patternOperand_clean (prec : Precision) (ty : InType) (t : Text) :
    patternOperand prec ty (clean t) = patternOperand prec ty t := by
  cases ty with
  | binary => exact bitsOperandOf_clean _ t
  | hex => exact hexOperandOf_clean _ t

theorem decIntOperand_clean (t : Text) : decIntOperand (clean t) = decIntOperand t := by
  simp only [decIntOperand, clean_clean]

theorem decRealOperand_clean (t : Text) : decRealOperand (clean t) = decRealOperand t := by
  simp only [decRealOperand, clean_clean]

theorem grayOperand_clean (t : Text) : grayOperand (clean t) = grayOperand t := by
  simp only [grayOperand, clean_clean]

theorem kmEval_clean (n : Nat) (t : Text) : kmEval n (clean t) = kmEval n t := by
  simp only [kmEval, clean_clean]

theorem crcOperands_clean (a b : Text) : crcOperands (clean a) (clean b) = crcOperands a b := by
  simp only [crcOperands, bitsOperand_clean]

theorem tcOperands_clean (w : Nat) (a b : Text) : tcOperands w (clean a) (clean b) = tcOperands w a b := by
  simp only [tcOperands, bitsOperandOf_clean]

/-- What an operation's rule computes, from the cleaned texts of OPA and OPB. -/
def cleanedResult (c : Config) (draw : Nat) (on dc : Word) (a b : Text) : Instr → Except Err Results
  | .crcEnc => crcEncode a b
  | .crcDec fix => crcDecode c.crcFixOrder draw fix a b
  | .hamEnc => hamEncode a
  | .hamDec => hamDecode a
  | .f754Dec prec t => f754Decode prec t a
  | .f754Enc prec => f754Encode prec a
  | .f754Add prec t => f754Add c prec t a b
  | .tcEnc w => tcEncode w.toNat a
  | .tcDec w => tcDecode w.toNat a
  | .tcAdd w => tcAdd w.toNat a b
  | .tcSub w => tcSub w.toNat a b
  | .grayEnc => grayEncode a
  | .grayDec => grayDecode a
  | .kmEval n => kmEval n.toNat a
  | .kmPi n => kmPi c n.toNat on dc
  | .kmCover n => kmCover c draw n.toNat on dc

/-- Every operand of every operation is cleaned first (30_encoding.md R75). -/
theorem opResult_eq_cleanedResult (i : Instr) (s : State) : opResult i s =
    cleanedResult s.cfg s.freeCount s.kmOn s.kmDc (clean s.opa.content) (clean s.opb.content) i := by
  cases i with
  | crcEnc => simp only [opResult, cleanedResult, crcEncode, crcOperands_clean]
  | crcDec fix => simp only [opResult, cleanedResult, crcDecode, crcOperands_clean]
  | hamEnc => simp only [opResult, cleanedResult, hamEncode, bitsOperand_clean]
  | hamDec => simp only [opResult, cleanedResult, hamDecode, bitsOperand_clean]
  | f754Dec prec t => simp only [opResult, cleanedResult, f754Decode, patternOperand_clean]
  | f754Enc prec => simp only [opResult, cleanedResult, f754Encode, decRealOperand_clean]
  | f754Add prec t => simp only [opResult, cleanedResult, f754Add, patternOperand_clean]
  | tcEnc w => simp only [opResult, cleanedResult, tcEncode, decIntOperand_clean]
  | tcDec w => simp only [opResult, cleanedResult, tcDecode, bitsOperandOf_clean]
  | tcAdd w => simp only [opResult, cleanedResult, tcAdd, tcOperands_clean]
  | tcSub w => simp only [opResult, cleanedResult, tcSub, tcOperands_clean]
  | grayEnc => simp only [opResult, cleanedResult, grayEncode, grayOperand_clean]
  | grayDec => simp only [opResult, cleanedResult, grayDecode, bitsOperand_clean]
  | kmEval n => simp only [opResult, cleanedResult, kmEval_clean]
  | kmPi n => rfl
  | kmCover n => rfl

/-- Settles O23: cleaning by its definition; and a rule's outcome depends on the cleaned texts alone, so that both commands
complete alike. -/
theorem cleaningDeletesSpaces : Obligations.CleaningDeletesSpaces := by
  unfold Obligations.CleaningDeletesSpaces
  refine ⟨fun a b => by simp [clean, chSpace], fun t hspace => ?_, ?_⟩
  · refine List.filter_eq_self.2 fun c hc => decide_eq_true fun heq => hspace ?_
    rwa [← show c = 0x20#8 from heq]
  · intro i s s' t t' hs hs' hcfg hopa hopb hon hdc hfree ht ht'
    have hrule : opResult i s' = opResult i s := by
      rw [opResult_eq_cleanedResult, opResult_eq_cleanedResult, hcfg, hopa, hopb, hon, hdc, hfree]
    obtain ⟨err, r, hexec, hexec'⟩ := exec_congr i s s' hcfg.symm hrule
    rw [hexec] at ht
    rw [hexec'] at ht'
    cases ht
    cases ht'
    exact (s.complete_sameResults s' err r hs hs').withFreeCount _ _

end Sys2Proof.Machine
end

section
/-! PROOFS, the family 30_encoding. RUN of a host script (30_encoding.md R86), turn by turn: the write of CMD, the polls that
read `BUSY = 1`, the engine's turn, and the last poll (70_reset_and_hazards.md R280, R284). -/

namespace Sys2Proof.Machine

/-- A pending word that does not decode completes with E_ILLEGAL_CMD (30_encoding.md R82). -/
theorem engineTurn_of_fetch_error (s : State) (e : DecodeError) (hbusy : s.busy = true) (hfetch : s.fetch = .error e) :
    engineTurn s = .next (s.failWith .illegalCmd) := by
  simp [engineTurn, hbusy, execute, hfetch]

/-- The engine's turn is the same whatever turns are still to come and whatever the host has read. -/
theorem engineTurn_withSchedule (s u : State) (schedule : List Event) (replies : List Reply) (h : engineTurn s = .next u) :
    engineTurn { s with schedule := schedule, replies := replies } =
      .next { u with schedule := schedule, replies := replies } := by
  rcases engineTurn_cases s with ⟨hidle, hturn⟩ | ⟨hbusy, e, hfetch, hturn⟩ | ⟨hbusy, i, hfetch, -⟩
  · rw [hturn] at h
    cases h
    exact engineTurn_of_idle _ hidle
  · rw [hturn] at h
    cases h
    exact engineTurn_of_fetch_error _ e hbusy hfetch
  · rw [engineTurn_of_fetch s i hbusy hfetch] at h
    exact (engineTurn_of_fetch { s with schedule := schedule, replies := replies } i hbusy hfetch).trans
      (exec_update i s u (fun v => { v with schedule := schedule, replies := replies }) rfl
        (opResult_congr i _ s rfl rfl rfl rfl rfl (.inl rfl)) (fun _ _ _ => rfl) h)

/-- A poll reads STATUS at any time (20_memory.md R52). -/
theorem step_poll (s : State) (rest : List Event) (h : s.schedule = .host (.readReg 1) :: rest) :
    step s = .next { s with schedule := rest, replies := .reg s.status :: s.replies } := by
  rw [step_of_schedule_host s _ rest h]
  exact hostAct_readReg { s with schedule := rest } 1 (decide_eq_true (by omega)) (fun hresult => by cases hresult)

/-- Polls record STATUS and change nothing else. -/
theorem run_polls (n : Nat) (s : State) (rest : List Event)
    (h : s.schedule = List.replicate n (.host (.readReg 1)) ++ rest) : Host.Core.run core n s = .next
      { s with schedule := rest, replies := List.replicate n (.reg s.status) ++ s.replies } := by
  induction n generalizing s with
  | zero =>
    subst h
    rfl
  | succ n ih =>
    refine (run_succ_eq_next_iff core n s _).2 ⟨_, step_poll s _ h, (ih _ rfl).trans ?_⟩
    rw [List.replicate_succ', List.append_assoc]
    rfl

/-- A pending command ends, whatever it is: BUSY falls and DONE rises (10_state.md R28). -/
theorem exists_engineTurn_of_busy (s : State) (h : s.busy = true) :
    ∃ u, engineTurn s = .next u ∧ Untouched s u ∧ u.busy = false ∧ u.done = true := by
  rcases engineTurn_completion s with ⟨hidle, -⟩ | ⟨-, err, r, n, -, hturn⟩
  · simp [h] at hidle
  · exact ⟨_, hturn, (s.complete_untouched err r).withFreeCount n, s.complete_busy err r, s.complete_done err r⟩

/-- Polls of a pending command, the engine's turn and one more poll. -/
theorem run_polls_engine_poll (s u : State) (n : Nat) (rest : List Event) (h : engineTurn s = .next u) :
    Host.Core.run core (n + 2)
      { s with schedule := List.replicate n (.host (.readReg 1)) ++ .engine :: .host (.readReg 1) :: rest } = .next
      { u with
        schedule := rest
        replies := .reg u.status :: (List.replicate n (.reg s.status) ++ s.replies) } := by
  have hpolls := run_polls n
    { s with schedule := List.replicate n (.host (.readReg 1)) ++ .engine :: .host (.readReg 1) :: rest } _ rfl
  have hengine : step
      { s with
        schedule := .engine :: .host (.readReg 1) :: rest
        replies := List.replicate n (.reg s.status) ++ s.replies } = .next
      { u with
        schedule := .host (.readReg 1) :: rest
        replies := List.replicate n (.reg s.status) ++ s.replies } := by
    rw [step_of_schedule_engine _ _ rfl]
    exact engineTurn_withSchedule s u _ _ h
  have hpoll := step_poll
    { u with
      schedule := .host (.readReg 1) :: rest
      replies := List.replicate n (.reg s.status) ++ s.replies } rest rfl
  refine run_add_eq_next core n 2 _ _ _ hpolls ?_
  refine (run_succ_eq_next_iff core _ _ _).2 ⟨_, hengine, ?_⟩
  exact (run_succ_eq_next_iff core _ _ _).2 ⟨_, hpoll, rfl⟩

/-- Settles O22: the write of CMD, and then the run of the pending command. -/
theorem runCompletes : Obligations.RunCompletes := by
  unfold Obligations.RunCompletes
  rintro s word polls rest - hidle
  obtain ⟨u, hturn, hkeep, hbusy, hdone⟩ := exists_engineTurn_of_busy _ (s.startCommand_busy word)
  refine ⟨u, _, hturn, ?_, rfl, s.startCommand_busy word, hbusy, hdone, hkeep.cmd, hkeep.opa, hkeep.opb, hkeep.kmOn,
    hkeep.kmDc⟩
  have hstart : step { s with schedule := (Stmt.run word polls).events s ++ rest } = .next
      { s.startCommand word with
        schedule := List.replicate polls (.host (.readReg 1)) ++ .engine :: .host (.readReg 1) :: rest } := by
    rw [step_of_schedule_host _ (.writeReg 0 word)
      (List.replicate polls (.host (.readReg 1)) ++ .engine :: .host (.readReg 1) :: rest) (by simp [Stmt.events])]
    exact hostAct_writeCommand _ word hidle
  exact (run_succ_eq_next_iff core _ _ _).2 ⟨_, hstart, run_polls_engine_poll _ u polls rest hturn⟩

end Sys2Proof.Machine
end

section
/-! PROOFS, the family 30_encoding. The formats BITS and HEX (30_encoding.md R76, R77): the two checks that every format
begins with, and numbers by their digits. -/

namespace Sys2Proof.Machine

/-- A check passes or ends the reading (00_scope.md R10 `raise`). -/
theorem require_bind {α : Type} (b : Bool) (e : Err) (f : Unit → Except Err α) :
    (require b e >>= f) = if b = true then f () else .error e := by
  cases b <;> rfl

/-- A reading of cleaned text as every format of 30_encoding.md R76 to R79 makes it: E_EMPTY, then E_CHAR by the format's
alphabet, then what is particular to the format. -/
def checkedText {α : Type} (alphabet : Byte → Bool) (rest : Text → Except Err α) (t : Text) : Except Err α := do
  require (!t.isEmpty) .empty
  require (t.all alphabet) .char
  rest t

section CheckedText

variable {α : Type} (alphabet : Byte → Bool) (rest : Text → Except Err α)

@[simp] theorem checkedText_nil : checkedText alphabet rest [] = .error .empty := rfl

theorem checkedText_of_char (t : Text) (c : Byte) (hc : c ∈ t) (hbad : alphabet c = false) :
    checkedText alphabet rest t = .error .char := by
  have hnonempty : t.isEmpty = false := List.isEmpty_eq_false_iff_exists_mem.2 ⟨c, hc⟩
  have hall : t.all alphabet = false := List.all_eq_false.2 ⟨c, hc, by simp [hbad]⟩
  rw [checkedText, hnonempty, hall]
  rfl

theorem checkedText_of_alphabet (t : Text) (hne : t ≠ []) (hall : ∀ c ∈ t, alphabet c = true) :
    checkedText alphabet rest t = rest t := by
  have hnonempty : t.isEmpty = false := by simpa using hne
  rw [checkedText, hnonempty, List.all_eq_true.2 hall]
  rfl

end CheckedText

/-- The number that digits spell, most significant first, as a fold computes it. -/
theorem foldl_digits_eq_ofDigits {α : Type} (base : Nat) (digit : α → Nat) (t : List α) :
    t.foldl (fun a x => base * a + digit x) 0 = Nat.ofDigits base (t.map digit).reverse := by
  rw [Nat.ofDigits_eq_foldr, List.foldr_reverse, List.foldl_map]
  simp only [Nat.cast_id, Nat.add_comm]

theorem isBitChar_iff (c : Byte) : isBitChar c = true ↔ c = 0x30#8 ∨ c = 0x31#8 := by
  simp [isBitChar, chZero, chOne]

theorem bitsOperand_eq (content : Text) : bitsOperand content =
    checkedText isBitChar (fun t => .ok (t.map (fun c => c == chOne))) (clean content) := rfl

/-- The value of a bit string by its binary digits (00_scope.md R6). -/
theorem bitsVal_eq_ofDigits (b : Bits) :
    bitsVal b = Nat.ofDigits 2 (b.map (fun x => if x then 1 else 0)).reverse := by
  rw [bitsVal, foldl_digits_eq_ofDigits]
  congr 3
  funext x
  cases x <;> rfl

/-- Settles O24: the two checks (`checkedText`), then the bits as they stand, then the length. -/
theorem bitsFormat : Obligations.BitsFormat := by
  unfold Obligations.BitsFormat
  refine ⟨fun b => rfl, bitsVal_eq_ofDigits, fun content L => ⟨fun hempty => ?_, ?_, fun hne hall => ?_⟩⟩
  · have h : bitsOperand content = .error .empty := by rw [bitsOperand_eq, hempty, checkedText_nil]
    exact ⟨h, by rw [bitsOperandOf_eq, h]⟩
  · rintro ⟨c, hc, hzero, hone⟩
    have h : bitsOperand content = .error .char :=
      (bitsOperand_eq content).trans
        (checkedText_of_char _ _ _ c hc (by rw [← Bool.not_eq_true, isBitChar_iff]; tauto))
    exact ⟨h, by rw [bitsOperandOf_eq, h]⟩
  · have h : bitsOperand content = .ok ((clean content).map (fun c => c == chOne)) :=
      (bitsOperand_eq content).trans
        (checkedText_of_alphabet _ _ _ hne fun c hc => (isBitChar_iff c).2 (hall c hc))
    refine ⟨_, h, List.length_map _, fun i c hi => ?_, fun hlen => ?_, fun hlen => ?_⟩
    · simp [hi, chOne]
    · simp [bitsOperandOf_eq, h, hlen]
    · simp [bitsOperandOf_eq, h, hlen]

theorem hexDigit?_isSome_iff (c : Byte) : (hexDigit? c).isSome = true ↔ (0x30 ≤ c.toNat ∧ c.toNat ≤ 0x39) ∨
    (0x41 ≤ c.toNat ∧ c.toNat ≤ 0x46) ∨ (0x61 ≤ c.toNat ∧ c.toNat ≤ 0x66) := by
  rw [hexDigit?]
  split
  · simp_all
  · split
    · simp_all
    · split <;> simp_all

/-- A hex digit as a value below 16 and its case, upper or lower (30_encoding.md R77). -/
def caseHexChar (d : Nat × Bool) : Byte :=
  BitVec.ofNat 8 (if d.1 < 10 then 0x30 + d.1 else if d.2 then 0x37 + d.1 else 0x57 + d.1)

@[simp] theorem hexDigit?_caseHexChar (d : Nat × Bool) (h : d.1 < 16) : hexDigit? (caseHexChar d) = some d.1 := by
  obtain ⟨n, upper⟩ := d
  change n < 16 at h
  cases upper <;> interval_cases n <;> rfl

/-- The checks of format HEX, then its length and value. -/
theorem hexOperandOf_eq (L : Nat) (content : Text) : hexOperandOf L content =
    checkedText (fun c => (hexDigit? c).isSome) (fun t => do
      require (t.length == L) .width
      return t.flatMap (fun c => binBits 4 ((hexDigit? c).getD 0))) (clean content) := rfl

/-- The value of a string of hex digits of 4 bits each (30_encoding.md R77). -/
theorem bitsVal_flatMap_binBits (ds : List Nat) (h : ∀ d ∈ ds, d < 16) :
    bitsVal (ds.flatMap (binBits 4)) = Nat.ofDigits 16 ds.reverse ∧ (ds.flatMap (binBits 4)).length = 4 * ds.length := by
  induction ds with
  | nil => exact ⟨rfl, rfl⟩
  | cons d ds ih =>
    obtain ⟨hd, hds⟩ := List.forall_mem_cons.1 h
    obtain ⟨hval, hlen⟩ := ih hds
    rw [List.flatMap_cons, bitsVal_append, hlen, hval, bitsVal_binBits, Nat.mod_eq_of_lt (by simpa using hd),
      List.reverse_cons, Nat.ofDigits_append, List.length_reverse, Nat.ofDigits_singleton, List.length_append, hlen,
      binBits_length, List.length_cons, Nat.pow_mul]
    exact ⟨by ring, by ring⟩

/-- Digits of either case, read as 4 bits each. -/
theorem flatMap_hexDigit?_caseHexChar (ds : List (Nat × Bool)) (h : ∀ d ∈ ds, d.1 < 16) :
    (ds.map caseHexChar).flatMap (fun c => binBits 4 ((hexDigit? c).getD 0)) = (ds.map Prod.fst).flatMap (binBits 4) := by
  rw [List.flatMap_map, List.flatMap_map]
  refine List.flatMap_congr fun d hd => ?_
  rw [hexDigit?_caseHexChar d (h d hd), Option.getD_some]

/-- Format HEX on digits: the length, then the bits (30_encoding.md R77). -/
theorem hexOperandOf_of_digits (L : Nat) (content : Text) (ds : List (Nat × Bool)) (hne : ds ≠ [])
    (h : ∀ d ∈ ds, d.1 < 16) (hclean : clean content = ds.map caseHexChar) : hexOperandOf L content =
      if ds.length = L then .ok ((ds.map Prod.fst).flatMap (binBits 4)) else .error .width := by
  rw [hexOperandOf_eq, hclean, checkedText_of_alphabet _ _ _ (by simpa using hne),
    flatMap_hexDigit?_caseHexChar ds h, List.length_map]
  · simp only [require_bind, beq_iff_eq]
    rfl
  · refine List.forall_mem_map.2 fun d hd => ?_
    rw [hexDigit?_caseHexChar d (h d hd), Option.isSome_some]

/-- Settles O25: the two checks, then the length, then each digit as its 4 bits. -/
theorem hexFormat : Obligations.HexFormat := by
  unfold Obligations.HexFormat
  refine fun content L => ⟨fun hempty => ?_, ?_, fun ds hne hds hclean => ?_⟩
  · rw [hexOperandOf_eq, hempty, checkedText_nil]
  · rintro ⟨c, hc, hdigit, hupper, hlower⟩
    rw [hexOperandOf_eq]
    refine checkedText_of_char _ _ _ c hc ?_
    rw [← Bool.not_eq_true, hexDigit?_isSome_iff]
    tauto
  · rw [hexOperandOf_of_digits L content ds hne hds hclean]
    obtain ⟨hval, hlen⟩ := bitsVal_flatMap_binBits (ds.map Prod.fst) (List.forall_mem_map.2 hds)
    refine ⟨fun hL => if_neg hL, fun hL => ⟨_, if_pos hL, ?_, hval⟩⟩
    rw [hlen, List.length_map, hL]

end Sys2Proof.Machine
end

section
/-! PROOFS, the family 30_encoding. The formats DECINT and DECREAL (30_encoding.md R78, R79): the text of each grammar is
read as the value it spells, and a text that passes the checks is a text of the grammar. -/

namespace Sys2Proof.Machine

theorem isDecChar_iff (c : Byte) : isDecChar c = true ↔ 0x30 ≤ c.toNat ∧ c.toNat ≤ 0x39 := by
  rw [isDecChar, decDigit?]
  split <;> simp_all

@[simp] theorem decDigit?_decChar (d : Nat) (h : d < 10) : decDigit? (decChar d) = some d := by
  interval_cases d <;> rfl

theorem isDecChar_decChar (d : Nat) (h : d < 10) : isDecChar (decChar d) = true := by
  rw [isDecChar, decDigit?_decChar d h, Option.isSome_some]

/-- A digit character is the character of its value. -/
theorem exists_decChar_of_isDecChar (c : Byte) (h : isDecChar c = true) : ∃ d, d < 10 ∧ decChar d = c := by
  obtain ⟨hlo, hhi⟩ := (isDecChar_iff c).1 h
  refine ⟨c.toNat - 0x30, by omega, ?_⟩
  rw [decChar, Nat.add_sub_cancel' hlo, BitVec.ofNat_toNat, BitVec.setWidth_eq]

/-- A text of digit characters is spelt by digits. -/
theorem exists_digits_of_all_isDecChar (t : Text) (h : t.all isDecChar = true) :
    ∃ ds : List Nat, (∀ d ∈ ds, d < 10) ∧ t = ds.map decChar := by
  induction t with
  | nil => exact ⟨[], by simp, rfl⟩
  | cons c t ih =>
    rw [List.all_cons, Bool.and_eq_true] at h
    obtain ⟨d, hd, rfl⟩ := exists_decChar_of_isDecChar c h.1
    obtain ⟨ds, hds, rfl⟩ := ih h.2
    exact ⟨d :: ds, List.forall_mem_cons.2 ⟨hd, hds⟩, rfl⟩

theorem all_isDecChar_map_decChar (ds : List Nat) (h : ∀ d ∈ ds, d < 10) : (ds.map decChar).all isDecChar = true :=
  List.all_eq_true.2 (List.forall_mem_map.2 fun d hd => isDecChar_decChar d (h d hd))

/-- The value of a text of digits (30_encoding.md R78). -/
theorem decVal_map_decChar (ds : List Nat) (h : ∀ d ∈ ds, d < 10) :
    decVal (ds.map decChar) = Nat.ofDigits 10 ds.reverse := by
  rw [decVal, foldl_digits_eq_ofDigits, List.map_map]
  congr 2
  refine (List.map_congr_left fun d hd => ?_).trans ds.map_id
  rw [Function.comp_apply, decDigit?_decChar d (h d hd), Option.getD_some, id]

/-- A `-` or nothing, before a number (30_encoding.md R78, R79). -/
def signText (neg : Bool) : Text := if neg then [chMinus] else []

/-- What the sign is split off from is the sign and the rest. -/
theorem signText_append_splitSign (t : Text) : signText (splitSign t).1 ++ (splitSign t).2 = t := by
  cases t with
  | nil => rfl
  | cons c t =>
    by_cases hc : c = chMinus <;> simp [splitSign, signText, hc]

/-- A sign before a digit is split off. -/
theorem splitSign_signText_append (neg : Bool) (d : Nat) (hd : d < 10) (t : Text) :
    splitSign (signText neg ++ decChar d :: t) = (neg, decChar d :: t) := by
  have hdigit : decChar d ≠ chMinus := fun heq => by
    have hdec := isDecChar_decChar d hd
    rw [heq] at hdec
    exact absurd hdec (by decide)
  cases neg with
  | true => rfl
  | false => exact if_neg hdigit

theorem mem_signText (neg : Bool) (c : Byte) (h : c ∈ signText neg) : c = chMinus := by
  cases neg <;> simp_all [signText]

/-- The texts of the grammar of R78: a sign and at least one digit. -/
structure IsDecIntText (neg : Bool) (ds : List Nat) (t : Text) : Prop where
  nonempty : ds ≠ []
  digits : ∀ d ∈ ds, d < 10
  text : t = signText neg ++ ds.map decChar

theorem IsDecIntText.ne_nil {neg : Bool} {ds : List Nat} {t : Text} (h : IsDecIntText neg ds t) : t ≠ [] := by
  simp [h.text, h.nonempty]

theorem IsDecIntText.alphabet {neg : Bool} {ds : List Nat} {t : Text} (h : IsDecIntText neg ds t) :
    ∀ c ∈ t, (isDecChar c || c == chMinus) = true := by
  obtain ⟨-, hdigits, rfl⟩ := h
  intro c hc
  rw [Bool.or_eq_true, beq_iff_eq]
  rcases List.mem_append.1 hc with hc | hc
  · exact .inr (mem_signText neg c hc)
  · exact .inl (List.all_eq_true.1 (all_isDecChar_map_decChar ds hdigits) c hc)

/-- What format DECINT does after its two checks (30_encoding.md R78). -/
def decIntRest (t : Text) : Except Err Int := do
  require ((splitSign t).2.all isDecChar && !(splitSign t).2.isEmpty) .format
  return if (splitSign t).1 then -(decVal (splitSign t).2 : Int) else (decVal (splitSign t).2 : Int)

theorem decIntOperand_eq (content : Text) : decIntOperand content =
    checkedText (fun c => isDecChar c || c == chMinus) decIntRest (clean content) := rfl

/-- A text of the grammar splits into its sign and its digits. -/
theorem IsDecIntText.splitSign_eq {neg : Bool} {ds : List Nat} {t : Text} (h : IsDecIntText neg ds t) :
    splitSign t = (neg, ds.map decChar) := by
  obtain ⟨hne, hdigits, rfl⟩ := h
  cases ds with
  | nil => exact absurd rfl hne
  | cons d ds => exact splitSign_signText_append neg d (hdigits d List.mem_cons_self) _

theorem decIntRest_of_isDecIntText {neg : Bool} {ds : List Nat} {t : Text} (h : IsDecIntText neg ds t) :
    decIntRest t = .ok (if neg then -(Nat.ofDigits 10 ds.reverse : Int) else (Nat.ofDigits 10 ds.reverse : Int)) := by
  have hne : (ds.map decChar).isEmpty = false := by simpa using h.nonempty
  rw [decIntRest, h.splitSign_eq, all_isDecChar_map_decChar ds h.digits, hne, decVal_map_decChar ds h.digits]
  push_cast
  rfl

/-- A text outside the grammar is E_FORMAT. -/
theorem decIntRest_of_not_isDecIntText (t : Text) (h : ¬∃ neg ds, IsDecIntText neg ds t) :
    decIntRest t = .error .format := by
  rw [decIntRest, require_bind, if_neg]
  intro hcheck
  rw [Bool.and_eq_true, Bool.not_eq_true'] at hcheck
  obtain ⟨hall, hne⟩ := hcheck
  obtain ⟨ds, hdigits, htext⟩ := exists_digits_of_all_isDecChar _ hall
  refine h ⟨(splitSign t).1, ds, ?_, hdigits, ?_⟩
  · rintro rfl
    rw [htext] at hne
    cases hne
  · rw [← htext, signText_append_splitSign]

/-- Settles O26: the two checks, then a text of the grammar or none. -/
theorem decIntFormat : Obligations.DecIntFormat := by
  unfold Obligations.DecIntFormat
  refine fun content => ⟨fun hempty => ?_, ?_, fun neg ds hne hds hclean => ?_, fun hne hall hnot => ?_⟩
  · rw [decIntOperand_eq, hempty, checkedText_nil]
  · rintro ⟨c, hc, hdigit, hminus⟩
    rw [decIntOperand_eq]
    refine checkedText_of_char _ _ _ c hc ?_
    rw [← Bool.not_eq_true, Bool.or_eq_true, isDecChar_iff, beq_iff_eq]
    exact not_or.2 ⟨hdigit, hminus⟩
  · have htext : IsDecIntText neg ds (clean content) := ⟨hne, hds, hclean⟩
    rw [decIntOperand_eq, checkedText_of_alphabet _ _ _ htext.ne_nil htext.alphabet, decIntRest_of_isDecIntText htext]
  · rw [decIntOperand_eq, checkedText_of_alphabet _ _ _ hne, decIntRest_of_not_isDecIntText]
    · rintro ⟨neg, ds, hne, hds, htext⟩
      exact hnot ⟨neg, ds, hne, hds, htext⟩
    · intro c hc
      rw [Bool.or_eq_true, isDecChar_iff, beq_iff_eq]
      exact hall c hc

end Sys2Proof.Machine
end

section
/-! PROOFS, the family 30_encoding. The format DECREAL (30_encoding.md R79): the sign, the digits before the point and those
behind it. -/

namespace Sys2Proof.Machine

/-- A point and the digits behind it, or nothing (30_encoding.md R79). -/
def pointText (frac : List Nat) : Text := if frac = [] then [] else chPoint :: frac.map decChar

theorem pointText_drop (frac : List Nat) : (pointText frac).drop 1 = frac.map decChar := by
  by_cases h : frac = [] <;> simp [pointText, h]

theorem pointText_isEmpty_or (frac : List Nat) : ((pointText frac).isEmpty || !(frac.map decChar).isEmpty) = true := by
  by_cases h : frac = [] <;> simp [pointText, h]

theorem mem_pointText (frac : List Nat) (c : Byte) (h : c ∈ pointText frac) : c = chPoint ∨ c ∈ frac.map decChar := by
  by_cases hf : frac = [] <;> simp_all [pointText]

/-- The texts of the grammar of R79: a sign, at least one digit, and a point with at least one digit behind it or
nothing. -/
structure IsDecRealText (neg : Bool) (whole frac : List Nat) (t : Text) : Prop where
  nonempty : whole ≠ []
  digits : ∀ d ∈ whole ++ frac, d < 10
  text : t = signText neg ++ whole.map decChar ++ pointText frac

theorem IsDecRealText.ne_nil {neg : Bool} {whole frac : List Nat} {t : Text} (h : IsDecRealText neg whole frac t) :
    t ≠ [] := by
  simp [h.text, h.nonempty]

theorem IsDecRealText.alphabet {neg : Bool} {whole frac : List Nat} {t : Text} (h : IsDecRealText neg whole frac t) :
    ∀ c ∈ t, (isDecChar c || c == chMinus || c == chPoint) = true := by
  obtain ⟨-, hdigits, rfl⟩ := h
  obtain ⟨hwhole, hfrac⟩ := List.forall_mem_append.1 hdigits
  intro c hc
  rw [Bool.or_eq_true, Bool.or_eq_true, beq_iff_eq, beq_iff_eq]
  rcases List.mem_append.1 hc with hc | hc
  · rcases List.mem_append.1 hc with hc | hc
    · exact .inl (.inr (mem_signText neg c hc))
    · exact .inl (.inl (List.all_eq_true.1 (all_isDecChar_map_decChar whole hwhole) c hc))
  · rcases mem_pointText frac c hc with hc | hc
    · exact .inr hc
    · exact .inl (.inl (List.all_eq_true.1 (all_isDecChar_map_decChar frac hfrac) c hc))

/-- What stands before the first point, and the point with what stands behind it (30_encoding.md R79). -/
def beforePoint (t : Text) : Text := t.takeWhile (fun c => c ≠ chPoint)

def fromPoint (t : Text) : Text := t.dropWhile (fun c => c ≠ chPoint)

theorem beforePoint_append_fromPoint (t : Text) : beforePoint t ++ fromPoint t = t := List.takeWhile_append_dropWhile

/-- What follows the digits before the point is nothing or begins with the point. -/
theorem fromPoint_cases (t : Text) : fromPoint t = [] ∨ fromPoint t = chPoint :: (fromPoint t).drop 1 := by
  cases hf : fromPoint t with
  | nil => exact .inl rfl
  | cons c rest =>
    have hne : fromPoint t ≠ [] := by simp [hf]
    have hhead : decide ((fromPoint t).head hne ≠ chPoint) = false := List.head_dropWhile_not _ hne
    have hc : c = chPoint := by simpa [hf] using hhead
    exact .inr (by rw [hc, List.drop_one, List.tail_cons])

/-- Digits are not the point. -/
theorem ne_chPoint_of_mem_digits (ds : List Nat) (h : ∀ d ∈ ds, d < 10) :
    ∀ c ∈ ds.map decChar, decide (c ≠ chPoint) = true := by
  intro c hc
  have hdec := List.all_eq_true.1 (all_isDecChar_map_decChar ds h) c hc
  refine decide_eq_true fun heq => ?_
  rw [heq] at hdec
  exact absurd hdec (by decide)

theorem beforePoint_digits_append (whole frac : List Nat) (h : ∀ d ∈ whole, d < 10) :
    beforePoint (whole.map decChar ++ pointText frac) = whole.map decChar := by
  rw [beforePoint, List.takeWhile_append_of_pos (ne_chPoint_of_mem_digits whole h)]
  by_cases hf : frac = [] <;> simp [pointText, hf]

theorem fromPoint_digits_append (whole frac : List Nat) (h : ∀ d ∈ whole, d < 10) :
    fromPoint (whole.map decChar ++ pointText frac) = pointText frac := by
  rw [fromPoint, List.dropWhile_append_of_pos (ne_chPoint_of_mem_digits whole h)]
  by_cases hf : frac = [] <;> simp [pointText, hf]

/-- What format DECREAL does after its two checks (30_encoding.md R79). -/
def decRealRest (t : Text) : Except Err DecReal := do
  let (neg, body) := splitSign t
  require ((beforePoint body).all isDecChar && !(beforePoint body).isEmpty) .format
  require ((fromPoint body).isEmpty ||
    (((fromPoint body).drop 1).all isDecChar && !((fromPoint body).drop 1).isEmpty)) .format
  return { neg := neg, num := decVal (beforePoint body ++ (fromPoint body).drop 1),
           scale := ((fromPoint body).drop 1).length }

theorem decRealOperand_eq (content : Text) : decRealOperand content =
    checkedText (fun c => isDecChar c || c == chMinus || c == chPoint) decRealRest (clean content) := rfl

/-- A text of the grammar splits into its sign and the rest. -/
theorem IsDecRealText.splitSign_eq {neg : Bool} {whole frac : List Nat} {t : Text} (h : IsDecRealText neg whole frac t) :
    splitSign t = (neg, whole.map decChar ++ pointText frac) := by
  obtain ⟨hne, hdigits, rfl⟩ := h
  cases whole with
  | nil => exact absurd rfl hne
  | cons d whole =>
    rw [List.append_assoc]
    exact splitSign_signText_append neg d (hdigits d List.mem_cons_self) _

theorem decRealRest_of_isDecRealText {neg : Bool} {whole frac : List Nat} {t : Text}
    (h : IsDecRealText neg whole frac t) :
    decRealRest t = .ok ⟨neg, Nat.ofDigits 10 (whole ++ frac).reverse, frac.length⟩ := by
  obtain ⟨hwhole, hfrac⟩ := List.forall_mem_append.1 h.digits
  have hne : (whole.map decChar).isEmpty = false := by simpa using h.nonempty
  rw [decRealRest, h.splitSign_eq]
  simp only [beforePoint_digits_append whole frac hwhole, fromPoint_digits_append whole frac hwhole, pointText_drop,
    all_isDecChar_map_decChar _ hwhole, all_isDecChar_map_decChar _ hfrac, hne, Bool.true_and, Bool.not_false,
    pointText_isEmpty_or, ← List.map_append, decVal_map_decChar _ h.digits, List.length_map]
  rfl

/-- What passes the check of the digits behind the point is a point and digits, or nothing. -/
theorem exists_frac_of_check (t : Text) (h : ((fromPoint t).isEmpty ||
      (((fromPoint t).drop 1).all isDecChar && !((fromPoint t).drop 1).isEmpty)) = true) :
    ∃ frac : List Nat, (∀ d ∈ frac, d < 10) ∧ fromPoint t = pointText frac := by
  rcases fromPoint_cases t with hnil | hpoint
  · exact ⟨[], by simp, hnil⟩
  · rw [hpoint, List.isEmpty_cons, Bool.false_or, Bool.and_eq_true, ← hpoint, Bool.not_eq_true'] at h
    obtain ⟨hall, hne⟩ := h
    obtain ⟨frac, hdigits, htext⟩ := exists_digits_of_all_isDecChar _ hall
    refine ⟨frac, hdigits, ?_⟩
    rw [htext] at hpoint hne
    rw [hpoint, pointText, if_neg (by simpa using hne)]

/-- A text that passes the checks for its digits is a text of the grammar; any other is E_FORMAT. -/
theorem decRealRest_of_not_isDecRealText (t : Text) (h : ¬∃ neg whole frac, IsDecRealText neg whole frac t) :
    decRealRest t = .error .format := by
  have hsign := signText_append_splitSign t
  rw [decRealRest]
  generalize splitSign t = parts at hsign ⊢
  obtain ⟨neg, body⟩ := parts
  simp only [require_bind]
  split
  · next hcheck =>
    split
    · next hpoint =>
      rw [Bool.and_eq_true, Bool.not_eq_true'] at hcheck
      obtain ⟨hall, hne⟩ := hcheck
      obtain ⟨whole, hwhole, hbefore⟩ := exists_digits_of_all_isDecChar _ hall
      obtain ⟨frac, hfrac, hfrom⟩ := exists_frac_of_check body hpoint
      refine absurd ⟨neg, whole, frac, ?_, List.forall_mem_append.2 ⟨hwhole, hfrac⟩, ?_⟩ h
      · rintro rfl
        rw [hbefore] at hne
        cases hne
      · rw [← hsign, List.append_assoc, ← hbefore, ← hfrom, beforePoint_append_fromPoint]
    · rfl
  · rfl

/-- Settles O27: the two checks, then a text of the grammar or none. -/
theorem decRealFormat : Obligations.DecRealFormat := by
  unfold Obligations.DecRealFormat
  refine fun content => ⟨fun hempty => ?_, ?_, fun neg whole frac hne hds hclean => ?_, fun hne hall hnot => ?_⟩
  · rw [decRealOperand_eq, hempty, checkedText_nil]
  · rintro ⟨c, hc, hdigit, hminus, hpoint⟩
    rw [decRealOperand_eq]
    refine checkedText_of_char _ _ _ c hc ?_
    rw [← Bool.not_eq_true, Bool.or_eq_true, Bool.or_eq_true, isDecChar_iff, beq_iff_eq, beq_iff_eq]
    exact not_or.2 ⟨not_or.2 ⟨hdigit, hminus⟩, hpoint⟩
  · have htext : IsDecRealText neg whole frac (clean content) := ⟨hne, hds, hclean⟩
    rw [decRealOperand_eq, checkedText_of_alphabet _ _ _ htext.ne_nil htext.alphabet,
      decRealRest_of_isDecRealText htext]
  · rw [decRealOperand_eq, checkedText_of_alphabet _ _ _ hne, decRealRest_of_not_isDecRealText]
    · rintro ⟨neg, whole, frac, hne, hds, htext⟩
      exact hnot ⟨neg, whole, frac, hne, hds, htext⟩
    · intro c hc
      rw [Bool.or_eq_true, Bool.or_eq_true, isDecChar_iff, beq_iff_eq, beq_iff_eq, or_assoc]
      exact hall c hc

end Sys2Proof.Machine
end

section
/-! PROOFS, the family 40_twos_complement. The decimal text of an integer (00_scope.md R10): `dec(v)` is a text of the
grammar of 30_encoding.md R78 that reads as `v`, with the digits of Mathlib's `Nat.digits`. -/

namespace Sys2Proof.Machine

/-- The decimal digits of a number, most significant first, `0` for zero (00_scope.md R10). -/
def decDigits (v : Nat) : List Nat := if v = 0 then [0] else (Nat.digits 10 v).reverse

@[simp] theorem decDigits_zero : decDigits 0 = [0] := rfl

theorem decDigits_of_ne_zero {v : Nat} (hv : v ≠ 0) : decDigits v = (Nat.digits 10 v).reverse := if_neg hv

/-- Fuel above the number finds all its digits. -/
theorem decDigitsOnto_eq (fuel v : Nat) (acc : List Nat) (hv : v ≠ 0) (hfuel : v < fuel) :
    decDigitsOnto fuel v acc = (Nat.digits 10 v).reverse ++ acc := by
  induction fuel generalizing v acc with
  | zero => omega
  | succ fuel ih =>
    by_cases hlt : v < 10
    · simp [decDigitsOnto, hlt, Nat.digits_of_lt 10 v hv hlt]
    · rw [decDigitsOnto, if_neg hlt, ih (v / 10) _ (by omega) (by omega),
        Nat.digits_def' (by decide : 1 < 10) (by omega : 0 < v), List.reverse_cons, List.append_assoc,
        List.singleton_append]

/-- The text of a number is spelt by its digits. -/
theorem decText_eq (v : Nat) : decText v = (decDigits v).map decChar := by
  rw [decText]
  by_cases hv : v = 0
  · subst hv
    rfl
  · rw [decDigitsOnto_eq _ v [] hv v.lt_succ_self, List.append_nil, decDigits_of_ne_zero hv]

theorem decDigits_ne_nil (v : Nat) : decDigits v ≠ [] := by
  by_cases hv : v = 0
  · simp [hv]
  · rwa [decDigits_of_ne_zero hv, Ne, List.reverse_eq_nil_iff, Nat.digits_eq_nil_iff_eq_zero]

theorem lt_ten_of_mem_decDigits {v d : Nat} (hd : d ∈ decDigits v) : d < 10 := by
  by_cases hv : v = 0
  · simp_all
  · rw [decDigits_of_ne_zero hv, List.mem_reverse] at hd
    exact Nat.digits_lt_base (by decide) hd

theorem ofDigits_decDigits (v : Nat) : Nat.ofDigits (10 : Int) (decDigits v).reverse = v := by
  have hnat : Nat.ofDigits 10 (decDigits v).reverse = v := by
    by_cases hv : v = 0
    · simp [hv]
    · rw [decDigits_of_ne_zero hv, List.reverse_reverse, Nat.ofDigits_digits]
  exact (Nat.coe_ofDigits Int 10 _).symm.trans (congrArg Nat.cast hnat)

/-- The only number written with a leading zero is zero. -/
theorem decDigits_zero_cons {v : Nat} {ds : List Nat} (h : decDigits v = 0 :: ds) : v = 0 ∧ ds = [] := by
  by_cases hv : v = 0
  · simp_all
  · rw [decDigits_of_ne_zero hv, List.reverse_eq_cons_iff] at h
    exact absurd (by simp [h]) (Nat.getLast_digit_ne_zero 10 hv)

/-- In decimal a number takes no more digits than in binary. -/
theorem decDigits_length_le {v w : Nat} (hw : 1 ≤ w) (hv : v < 2 ^ w) : (decDigits v).length ≤ w := by
  by_cases hzero : v = 0
  · simpa [hzero] using hw
  · rw [decDigits_of_ne_zero hzero, List.length_reverse, Nat.digits_length_le_iff (by decide)]
    exact hv.trans_le (Nat.pow_le_pow_left (by decide) w)

/-- The digit character `0` stands for 0 only. -/
theorem decChar_eq_chZero {d : Nat} (hd : d < 10) (h : decChar d = chZero) : d = 0 := by
  have hread := decDigit?_decChar d hd
  rw [h] at hread
  exact (Option.some.inj hread).symm

theorem decChar_ne_chMinus {d : Nat} (hd : d < 10) : decChar d ≠ chMinus := by
  intro h
  have hdigit := isDecChar_decChar d hd
  rw [h] at hdigit
  exact absurd hdigit (by decide)

/-- The digits of a number have no leading zero, as text (00_scope.md R10). -/
theorem map_decDigits_eq_zero_cons {v : Nat} {rest : Text} (h : (decDigits v).map decChar = chZero :: rest) :
    v = 0 ∧ rest = [] := by
  obtain ⟨d, ds, hcons, hd, rfl⟩ := List.map_eq_cons_iff.1 h
  have hzero : d = 0 := decChar_eq_chZero (lt_ten_of_mem_decDigits (v := v) (by simp [hcons])) hd
  obtain ⟨hv, rfl⟩ := decDigits_zero_cons (hzero ▸ hcons)
  exact ⟨hv, rfl⟩

theorem map_decDigits_ne_minus_cons (v : Nat) (rest : Text) : (decDigits v).map decChar ≠ chMinus :: rest := by
  intro h
  obtain ⟨d, ds, hcons, hd, -⟩ := List.map_eq_cons_iff.1 h
  exact decChar_ne_chMinus (lt_ten_of_mem_decDigits (v := v) (by simp [hcons])) hd

/-- A text of DECINT's alphabet has no space. -/
theorem IsDecIntText.chSpace_not_mem {neg : Bool} {ds : List Nat} {t : Text} (h : IsDecIntText neg ds t) :
    chSpace ∉ t := fun hmem => absurd (h.alphabet _ hmem) (by decide)

/-- Format DECINT on a text of its grammar (30_encoding.md R78). -/
theorem decIntOperand_of_isDecIntText {neg : Bool} {ds : List Nat} {t : Text} (h : IsDecIntText neg ds t) :
    decIntOperand t =
      .ok (if neg then -(Nat.ofDigits 10 ds.reverse : Int) else (Nat.ofDigits 10 ds.reverse : Int)) := by
  have hclean : clean t = t :=
    List.filter_eq_self.2 fun c hc => decide_eq_true fun hspace => h.chSpace_not_mem (hspace ▸ hc)
  rw [decIntOperand_eq, hclean, checkedText_of_alphabet _ _ _ h.ne_nil h.alphabet, decIntRest_of_isDecIntText h]

/-- The text of an integer is its sign, then the digits of its magnitude (00_scope.md R10). -/
theorem decTextInt_eq (v : Int) :
    decTextInt v = signText (decide (v < 0)) ++ (decDigits v.natAbs).map decChar := by
  by_cases hv : v < 0 <;> simp [decTextInt, signText, hv, decText_eq]

theorem decTextInt_isDecIntText (v : Int) : IsDecIntText (decide (v < 0)) (decDigits v.natAbs) (decTextInt v) :=
  ⟨decDigits_ne_nil _, fun _ => lt_ten_of_mem_decDigits, decTextInt_eq v⟩

theorem decIntOperand_decTextInt (v : Int) : decIntOperand (decTextInt v) = .ok v := by
  rw [decIntOperand_of_isDecIntText (decTextInt_isDecIntText v), ofDigits_decDigits]
  congr 1
  by_cases hv : v < 0 <;> simp only [hv, decide_true, decide_false, if_true, Bool.false_eq_true, if_false] <;> omega

/-- `-` stands before the digits of a negative value only (00_scope.md R10). -/
theorem head?_decTextInt (v : Int) : (decTextInt v).head? = some chMinus ↔ v < 0 := by
  rw [decTextInt_eq]
  by_cases hv : v < 0
  · simp [signText, hv]
  · simp only [signText, hv, decide_false, Bool.false_eq_true, if_false, List.nil_append, iff_false]
    rw [List.head?_eq_some_iff]
    rintro ⟨rest, h⟩
    exact map_decDigits_ne_minus_cons _ rest h

theorem decTextInt_noLeadingZero (v : Int) (rest : Text)
    (h : decTextInt v = chZero :: rest ∨ decTextInt v = chMinus :: chZero :: rest) : v = 0 ∧ rest = [] := by
  have hdigits : (decDigits v.natAbs).map decChar = chZero :: rest := by
    rw [decTextInt_eq] at h
    by_cases hv : v < 0
    · rcases h with h | h
      · simp [signText, hv, chZero, chMinus] at h
      · simpa [signText, hv] using h
    · rcases h with h | h
      · simpa [signText, hv] using h
      · exact absurd (by simpa [signText, hv] using h) (map_decDigits_ne_minus_cons v.natAbs (chZero :: rest))
  obtain ⟨hv, hrest⟩ := map_decDigits_eq_zero_cons hdigits
  exact ⟨Int.natAbs_eq_zero.1 hv, hrest⟩

/-- `dec(v)` has the properties that 00_scope.md R10 asks of it. -/
theorem decTextInt_isDecText (v : Int) : IsDecText v (decTextInt v) :=
  ⟨decIntOperand_decTextInt v, head?_decTextInt v, decTextInt_noLeadingZero v,
    (decTextInt_isDecIntText v).chSpace_not_mem⟩

/-- The text of an integer whose magnitude has `w` bits: at most a sign and `w` digits. -/
theorem decTextInt_length_le {v : Int} {w : Nat} (hw : 1 ≤ w) (hv : v.natAbs < 2 ^ w) :
    (decTextInt v).length ≤ w + 1 := by
  have hdigits := decDigits_length_le hw hv
  have hsign : (signText (decide (v < 0))).length ≤ 1 := by cases decide (v < 0) <;> decide
  rw [decTextInt_eq, List.length_append, List.length_map]
  omega

end Sys2Proof.Machine
end

section
/-! PROOFS, the family 40_twos_complement. The signed value of a bit string (40_twos_complement.md R110) and its encoding:
both are the unsigned value modulo `2^w`, and within the range of `w` that determines them. -/

namespace Sys2Proof.Machine

theorem tcDecVal_eq_tcValue (b : Bits) : tcDecVal b = tcValue b.length b := by
  rcases b with _ | ⟨x, b⟩
  · rfl
  · cases x <;> simp [tcDecVal, tcValue]

/-- The first bit counts `-2^n`, the others what they count unsigned (40_twos_complement.md R110). -/
theorem tcValue_cons (x : Bool) (b : Bits) :
    tcValue (b.length + 1) (x :: b) = (bitsVal b : Int) - if x then 2 ^ b.length else 0 := by
  cases x
  · simp [tcValue]
  · simp [tcValue, pow_succ]
    ring

/-- `v` is in `TMIN(n+1) .. TMAX(n+1)` (40_twos_complement.md R110). -/
theorem not_outOfRange_succ_iff (n : Nat) (v : Int) : ¬outOfRange (n + 1) v ↔ -2 ^ n ≤ v ∧ v < 2 ^ n := by
  rw [outOfRange, Nat.add_sub_cancel]
  omega

theorem tcValue_not_outOfRange (b : Bits) (hb : 1 ≤ b.length) : ¬outOfRange b.length (tcValue b.length b) := by
  obtain ⟨x, b, rfl⟩ := List.exists_cons_of_length_pos hb
  have hlt : (bitsVal b : Int) < 2 ^ b.length := mod_cast bitsVal_lt b
  rw [List.length_cons, not_outOfRange_succ_iff, tcValue_cons]
  cases x <;> simp only [Bool.false_eq_true, if_true, if_false] <;> omega

theorem tcValue_modEq (w : Nat) (b : Bits) : tcValue w b ≡ bitsVal b [ZMOD 2 ^ w] := by
  rw [tcValue]
  split
  · exact (Int.modEq_sub_modulus_iff.2 rfl).symm
  · rfl

/-- The machine's overflow flag is the range's complement (40_twos_complement.md R112). -/
theorem tcOverflow_iff (v : Int) (w : Nat) : tcOverflow v w = true ↔ outOfRange w v := by
  simp [tcOverflow, outOfRange]

/-- Two values of the range of `w` that agree modulo `2^w` are equal (40_twos_complement.md R111). -/
theorem eq_of_modEq_of_not_outOfRange {w : Nat} {u v : Int} (hw : 1 ≤ w) (hu : ¬outOfRange w u)
    (hv : ¬outOfRange w v) (h : u ≡ v [ZMOD 2 ^ w]) : u = v := by
  obtain ⟨n, rfl⟩ := Nat.exists_eq_add_of_le' hw
  rw [not_outOfRange_succ_iff] at hu hv
  have hdvd := h.dvd
  rw [pow_succ] at hdvd
  exact (Int.eq_of_sub_eq_zero (Int.eq_zero_of_abs_lt_dvd hdvd (by rw [abs_lt]; omega))).symm

@[simp] theorem tcEncBits_length (v : Int) (w : Nat) : (tcEncBits v w).length = w := binBits_length _ _

/-- An encoding is the value modulo `2^w` (40_twos_complement.md R110). -/
theorem bitsVal_tcEncBits (v : Int) (w : Nat) : (bitsVal (tcEncBits v w) : Int) = v % 2 ^ w := by
  have hpos : (0 : Int) < 2 ^ w := by positivity
  rw [tcEncBits, bitsVal_binBits, Int.natCast_mod, Int.toNat_of_nonneg (Int.emod_nonneg v hpos.ne')]
  push_cast
  exact Int.emod_emod_of_dvd v dvd_rfl

/-- The bits of a value are the one string of the width that agrees with it modulo `2^w`. -/
theorem tcEncBits_eq_of_modEq {v : Int} {w : Nat} {b : Bits} (hlen : b.length = w) (h : v ≡ bitsVal b [ZMOD 2 ^ w]) :
    tcEncBits v w = b := by
  subst hlen
  refine bitsVal_injective _ _ (tcEncBits_length v b.length) ?_
  have hlt : (bitsVal b : Int) < 2 ^ b.length := mod_cast bitsVal_lt b
  have hval : (bitsVal (tcEncBits v b.length) : Int) = bitsVal b := by
    rw [bitsVal_tcEncBits, h, Int.emod_eq_of_lt (by positivity) hlt]
  exact_mod_cast hval

/-- Decoding inverts encoding on the range (40_twos_complement.md R111). -/
theorem tcDecVal_tcEncBits {v : Int} {w : Nat} (hw : 1 ≤ w) (hv : ¬outOfRange w v) : tcDecVal (tcEncBits v w) = v := by
  have hrange := tcValue_not_outOfRange (tcEncBits v w) (by simpa using hw)
  have hmod := tcValue_modEq w (tcEncBits v w)
  rw [tcDecVal_eq_tcValue]
  rw [tcEncBits_length] at hrange ⊢
  refine eq_of_modEq_of_not_outOfRange hw hrange hv (hmod.trans ?_)
  rw [bitsVal_tcEncBits]
  exact Int.mod_modEq v _

/-- Settles O45: values of the range are determined by their residues, and strings of the width by their values. -/
theorem tcRoundTrip : Obligations.TcRoundTrip := by
  unfold Obligations.TcRoundTrip
  refine ⟨fun v w hw hlo hhi => tcDecVal_tcEncBits hw ?_, fun b _ => ?_, fun b hb => ⟨tcDecVal_eq_tcValue b, ?_⟩,
    fun v w => ⟨tcEncBits_length v w, bitsVal_tcEncBits v w⟩, rfl⟩
  · exact not_or.2 ⟨not_lt.2 hlo, not_lt.2 hhi⟩
  · rw [tcDecVal_eq_tcValue]
    exact tcEncBits_eq_of_modEq rfl (tcValue_modEq b.length b)
  · rw [tcDecVal_eq_tcValue]
    exact tcValue_not_outOfRange b hb

end Sys2Proof.Machine
end

section
/-! PROOFS, the family 40_twos_complement. The ripple-carry adder (40_twos_complement.md R115) as arithmetic: the bits and
the carries that it delivers, most significant first, and what they say of the unsigned and the signed sum. -/

namespace Sys2Proof.Machine

/-- The outputs of the adder on two strings, most significant first: a bit of the sum and the carry out of it. -/
def addOuts (a b : Bits) : List (Bool × Bool) := (rippleAdd false (a.reverse.zip b.reverse)).reverse

/-- The sum, most significant bit first (40_twos_complement.md R115). -/
def sumBits (a b : Bits) : Bits := (addOuts a b).map (fun x => x.1)

/-- The carries out of every bit, in the order of the sum's bits (40_twos_complement.md R115). -/
def carryBits (a b : Bits) : Bits := (addOuts a b).map (fun x => x.2)

/-- The carry out of the first bit; no carry of no bits. -/
def carryOut (a b : Bits) : Bool := (carryBits a b).headD false

/-- What TC.ADD delivers, by the bits of its adder. -/
theorem tcChainResults_rippleAdd (a b : Bits) : tcChainResults (rippleAdd false (a.reverse.zip b.reverse)) =
    { ra := bitsText (sumBits a b), rb := bitsText (carryBits a b), flags := chainFlags (carryBits a b) } := rfl

@[simp] theorem rippleAdd_length (c : Bool) (ps : List (Bool × Bool)) : (rippleAdd c ps).length = ps.length := by
  induction ps generalizing c with
  | nil => rfl
  | cons p ps ih => simp [rippleAdd, ih]

/-- One more pair of bits takes the carry out of the pairs before it. -/
theorem rippleAdd_concat (c x y : Bool) (ps : List (Bool × Bool)) :
    rippleAdd c (ps ++ [(x, y)]) = rippleAdd c ps ++
      rippleAdd (((rippleAdd c ps).reverse.map (fun o => o.2)).headD c) [(x, y)] := by
  induction ps generalizing c with
  | nil => rfl
  | cons p ps ih =>
    obtain ⟨u, v⟩ := p
    simp only [List.cons_append, rippleAdd, ih, List.reverse_cons, List.map_append, List.map_cons, List.map_nil]
    cases (rippleAdd (u && v || u && c || v && c) ps).reverse <;> rfl

/-- Two bits and a carry, added: a bit of the sum, and twice the next carry (40_twos_complement.md R115). -/
theorem fullAdder_toNat (x y c : Bool) :
    (x ^^ y ^^ c).toNat + 2 * (x && y || x && c || y && c).toNat = x.toNat + y.toNat + c.toNat := by
  cases x <;> cases y <;> cases c <;> rfl

/-- Induction on two strings of one length. -/
theorem sameLength_induction {motive : (a b : Bits) → a.length = b.length → Prop} (nil : motive [] [] rfl)
    (cons : ∀ x y a b, (hlen : a.length = b.length) → motive a b hlen →
      motive (x :: a) (y :: b) (congrArg (· + 1) hlen))
    (a b : Bits) (hlen : a.length = b.length) : motive a b hlen := by
  induction a generalizing b with
  | nil =>
    obtain rfl := List.length_eq_zero_iff.1 hlen.symm
    exact nil
  | cons x a ih =>
    obtain ⟨y, b, rfl⟩ := List.exists_cons_of_length_eq_add_one hlen.symm
    exact cons x y a b (Nat.succ.inj hlen) (ih b _)

section SameLength

variable {a b : Bits} (hlen : a.length = b.length)

include hlen

theorem addOuts_length : (addOuts a b).length = a.length := by simp [addOuts, hlen]

theorem sumBits_length : (sumBits a b).length = a.length := by simp [sumBits, addOuts_length hlen]

theorem carryBits_length : (carryBits a b).length = a.length := by simp [carryBits, addOuts_length hlen]

theorem addOuts_cons (x y : Bool) :
    addOuts (x :: a) (y :: b) = (rippleAdd (carryOut a b) [(x, y)]).reverse ++ addOuts a b := by
  rw [addOuts, List.reverse_cons, List.reverse_cons, List.zip_append (by simpa using hlen), List.zip_cons_cons,
    List.zip_nil_left, rippleAdd_concat, List.reverse_append]
  rfl

theorem sumBits_cons (x y : Bool) : sumBits (x :: a) (y :: b) = (x ^^ y ^^ carryOut a b) :: sumBits a b := by
  rw [sumBits, addOuts_cons hlen]
  rfl

theorem carryBits_cons (x y : Bool) : carryBits (x :: a) (y :: b) =
    (x && y || x && carryOut a b || y && carryOut a b) :: carryBits a b := by
  rw [carryBits, addOuts_cons hlen]
  rfl

theorem carryOut_cons (x y : Bool) :
    carryOut (x :: a) (y :: b) = (x && y || x && carryOut a b || y && carryOut a b) := by
  rw [carryOut, carryBits_cons hlen, List.headD_cons]

/-- The sum and the carry out together are the exact sum (40_twos_complement.md R115). -/
theorem bitsVal_sumBits_add_carryOut :
    bitsVal (sumBits a b) + (carryOut a b).toNat * 2 ^ a.length = bitsVal a + bitsVal b := by
  induction a, b, hlen using sameLength_induction with
  | nil => rfl
  | cons x y a b hlen ih =>
    rw [sumBits_cons hlen, carryOut_cons hlen, bitsVal_cons, bitsVal_cons, bitsVal_cons, sumBits_length hlen, ← hlen,
      List.length_cons, pow_succ]
    linear_combination ih + 2 ^ a.length * fullAdder_toNat x y (carryOut a b)

/-- The sum is the exact sum modulo `2^w` (40_twos_complement.md R115). -/
theorem bitsVal_sumBits : bitsVal (sumBits a b) = (bitsVal a + bitsVal b) % 2 ^ a.length := by
  have hlt := bitsVal_lt (sumBits a b)
  rw [sumBits_length hlen] at hlt
  rw [← bitsVal_sumBits_add_carryOut hlen, Nat.add_mul_mod_self_right, Nat.mod_eq_of_lt hlt]

/-- A carry out: the exact sum does not fit (40_twos_complement.md R115). -/
theorem carryOut_iff : carryOut a b = true ↔ 2 ^ a.length ≤ bitsVal a + bitsVal b := by
  have hsum := bitsVal_sumBits_add_carryOut hlen
  have hlt := bitsVal_lt (sumBits a b)
  rw [sumBits_length hlen] at hlt
  cases h : carryOut a b <;> simp [h] at hsum ⊢ <;> omega

/-- What stands right of a carry decides it. -/
theorem carryBits_drop (k : Nat) : carryBits (a.drop k) (b.drop k) = (carryBits a b).drop k := by
  induction a, b, hlen using sameLength_induction generalizing k with
  | nil => simp [carryBits, addOuts, rippleAdd]
  | cons x y a b hlen ih =>
    cases k with
    | zero => rfl
    | succ k => rw [carryBits_cons hlen, List.drop_succ_cons, List.drop_succ_cons, List.drop_succ_cons, ih]

/-- The carry out of each bit (40_twos_complement.md R115). -/
theorem carryBits_getElem?_iff (k : Nat) :
    (carryBits a b)[k]? = some true ↔ 2 ^ (a.length - k) ≤ bitsVal (a.drop k) + bitsVal (b.drop k) := by
  have hdrop : (a.drop k).length = (b.drop k).length := by simp [hlen]
  rw [← List.length_drop, ← carryOut_iff hdrop, carryOut, carryBits_drop hlen, ← List.head?_drop]
  cases (carryBits a b).drop k <;> simp

/-- The sum encodes the signed sum (40_twos_complement.md R115). -/
theorem tcEncBits_add : tcEncBits (tcValue a.length a + tcValue a.length b) a.length = sumBits a b := by
  refine tcEncBits_eq_of_modEq (sumBits_length hlen) (((tcValue_modEq _ a).add (tcValue_modEq _ b)).trans ?_)
  rw [bitsVal_sumBits hlen]
  push_cast
  exact (Int.mod_modEq _ _).symm

/-- The carries into and out of the first bit differ exactly when the signed sum is out of range
(40_twos_complement.md R115). -/
theorem carryOut_cons_xor_iff (x y : Bool) : (carryOut (x :: a) (y :: b) ^^ carryOut a b) = true ↔
    outOfRange (a.length + 1) (tcValue (a.length + 1) (x :: a) + tcValue (a.length + 1) (y :: b)) := by
  have ha : (bitsVal a : Int) < 2 ^ a.length := mod_cast bitsVal_lt a
  have hb : (bitsVal b : Int) < 2 ^ a.length := hlen ▸ mod_cast bitsVal_lt b
  have hcarry : carryOut a b = true ↔ (2 : Int) ^ a.length ≤ bitsVal a + bitsVal b :=
    (carryOut_iff hlen).trans (by norm_cast)
  rw [← not_iff_not, not_outOfRange_succ_iff, tcValue_cons x a, hlen, tcValue_cons y b, ← hlen, carryOut_cons hlen]
  cases h : carryOut a b <;> cases x <;> cases y <;> simp [h] at hcarry ⊢ <;> omega

end SameLength

theorem chainFlags_cons (c : Bool) (cs : Bits) : chainFlags (c :: cs) = { cout := c, ovf := c ^^ cs.headD false } := by
  cases cs <;> simp [chainFlags]

/-- COUT and OVF of TC.ADD: the unsigned and the signed sum do not fit (40_twos_complement.md R115). -/
theorem chainFlags_carryBits {a b : Bits} (hlen : a.length = b.length) (hpos : 1 ≤ a.length) :
    chainFlags (carryBits a b) = { cout := decide (2 ^ a.length ≤ bitsVal a + bitsVal b),
                                   ovf := tcOverflow (tcValue a.length a + tcValue a.length b) a.length } := by
  obtain ⟨x, a, rfl⟩ := List.exists_cons_of_length_pos hpos
  obtain ⟨y, b, rfl⟩ := List.exists_cons_of_length_eq_add_one hlen.symm
  have htail : a.length = b.length := Nat.succ.inj hlen
  have hcout := Bool.eq_iff_iff.2 ((carryOut_iff hlen).trans decide_eq_true_iff.symm)
  have hovf := Bool.eq_iff_iff.2 ((carryOut_cons_xor_iff htail x y).trans (tcOverflow_iff _ _).symm)
  rw [carryBits_cons htail, ← carryOut_cons htail, chainFlags_cons, ← carryOut, hovf, hcout, List.length_cons]

end Sys2Proof.Machine
end

section
/-! PROOFS, the family 40_twos_complement. The ripple-borrow subtractor (40_twos_complement.md R116) is the adder on the
complement of its first operand: `a - b` is the complement of `(complement of a) + b`. -/

namespace Sys2Proof.Machine

/-- Every bit inverted. -/
def notBits (b : Bits) : Bits := b.map (fun x => !x)

@[simp] theorem notBits_length (b : Bits) : (notBits b).length = b.length := by simp [notBits]

theorem bitsVal_notBits (b : Bits) : bitsVal (notBits b) + bitsVal b + 1 = 2 ^ b.length := by
  induction b with
  | nil => rfl
  | cons x b ih =>
    have hbit : (!x).toNat + x.toNat = 1 := by cases x <;> rfl
    rw [notBits, List.map_cons, ← notBits, bitsVal_cons, bitsVal_cons, notBits_length, List.length_cons, pow_succ]
    linear_combination ih + 2 ^ b.length * hbit

theorem notBits_drop (b : Bits) (k : Nat) : (notBits b).drop k = notBits (b.drop k) := List.map_drop.symm

/-- The signed value of the complement (40_twos_complement.md R110). -/
theorem tcValue_notBits (b : Bits) (hb : 1 ≤ b.length) :
    tcValue b.length (notBits b) = -1 - tcValue b.length b := by
  obtain ⟨x, b, rfl⟩ := List.exists_cons_of_length_pos hb
  have hnot : (bitsVal (notBits b) : Int) + bitsVal b + 1 = 2 ^ b.length := mod_cast bitsVal_notBits b
  have hcons := tcValue_cons (!x) (notBits b)
  rw [notBits_length] at hcons
  rw [List.length_cons, tcValue_cons, notBits, List.map_cons, ← notBits, hcons]
  cases x <;> simp <;> omega

/-- The range is symmetric about `-1/2` (40_twos_complement.md R110). -/
theorem tcOverflow_complement (v : Int) (w : Nat) : tcOverflow (-1 - v) w = tcOverflow v w := by
  rw [Bool.eq_iff_iff, tcOverflow_iff, tcOverflow_iff, outOfRange, outOfRange]
  omega

/-- The subtractor, by the adder (40_twos_complement.md R115, R116). -/
theorem rippleSub_eq_rippleAdd (c : Bool) (ps : List (Bool × Bool)) :
    rippleSub c ps = (rippleAdd c (ps.map (fun p => (!p.1, p.2)))).map (fun o => (!o.1, o.2)) := by
  induction ps generalizing c with
  | nil => rfl
  | cons p ps ih =>
    obtain ⟨x, y⟩ := p
    have hborrow : (!x && y || !(x ^^ y) && c) = (!x && y || !x && c || y && c) := by
      cases x <;> cases y <;> cases c <;> rfl
    simp only [rippleSub, rippleAdd, List.map_cons, hborrow, ih, Bool.not_xor, Bool.not_not]

/-- The difference, most significant bit first (40_twos_complement.md R116). -/
def diffBits (a b : Bits) : Bits := notBits (sumBits (notBits a) b)

/-- The borrows out of every bit, in the order of the difference's bits (40_twos_complement.md R116). -/
def borrowBits (a b : Bits) : Bits := carryBits (notBits a) b

/-- What TC.SUB delivers, by the bits of its subtractor. -/
theorem tcChainResults_rippleSub (a b : Bits) : tcChainResults (rippleSub false (a.reverse.zip b.reverse)) =
    { ra := bitsText (diffBits a b), rb := bitsText (borrowBits a b), flags := chainFlags (borrowBits a b) } := by
  have hzip : (a.reverse.zip b.reverse).map (fun p => (!p.1, p.2)) = (notBits a).reverse.zip b.reverse := by
    rw [notBits, ← List.map_reverse, List.zip_map_left]
    rfl
  rw [rippleSub_eq_rippleAdd, hzip, tcChainResults, ← List.map_reverse, ← addOuts, List.map_map, List.map_map]
  simp only [diffBits, borrowBits, notBits, sumBits, carryBits, List.map_map]
  rfl

section SameLength

variable {a b : Bits} (hlen : a.length = b.length)

include hlen

theorem diffBits_length : (diffBits a b).length = a.length := by
  rw [diffBits, notBits_length, sumBits_length (by simpa using hlen), notBits_length]

theorem borrowBits_length : (borrowBits a b).length = a.length := by
  rw [borrowBits, carryBits_length (by simpa using hlen), notBits_length]

theorem diffBits_modEq : (bitsVal a : Int) - bitsVal b ≡ bitsVal (diffBits a b) [ZMOD 2 ^ a.length] := by
  have hsum := bitsVal_sumBits_add_carryOut (a := notBits a) (b := b) (by simpa using hlen)
  have hnot := bitsVal_notBits a
  have hdiff := bitsVal_notBits (sumBits (notBits a) b)
  rw [← notBits_length, ← diffBits, diffBits_length hlen] at hdiff
  rw [notBits_length] at hsum
  refine Int.modEq_iff_dvd.2 ⟨(carryOut (notBits a) b).toNat, ?_⟩
  zify at hsum hnot hdiff
  linear_combination hdiff - hnot - hsum

/-- The difference is the exact difference modulo `2^w` (40_twos_complement.md R116). -/
theorem bitsVal_diffBits : (bitsVal (diffBits a b) : Int) = ((bitsVal a : Int) - bitsVal b) % 2 ^ a.length := by
  have hlt : (bitsVal (diffBits a b) : Int) < 2 ^ a.length := diffBits_length hlen ▸ mod_cast bitsVal_lt (diffBits a b)
  rw [diffBits_modEq hlen, Int.emod_eq_of_lt (by positivity) hlt]

/-- The borrow out of each bit (40_twos_complement.md R116). -/
theorem borrowBits_getElem?_iff (k : Nat) :
    (borrowBits a b)[k]? = some true ↔ bitsVal (a.drop k) < bitsVal (b.drop k) := by
  have hnot := bitsVal_notBits (a.drop k)
  rw [List.length_drop] at hnot
  rw [borrowBits, carryBits_getElem?_iff (by simpa using hlen), notBits_drop, notBits_length]
  omega

/-- The difference encodes the signed difference (40_twos_complement.md R116). -/
theorem tcEncBits_sub : tcEncBits (tcValue a.length a - tcValue a.length b) a.length = diffBits a b :=
  tcEncBits_eq_of_modEq (diffBits_length hlen)
    (((tcValue_modEq _ a).sub (tcValue_modEq _ b)).trans (diffBits_modEq hlen))

/-- COUT and OVF of TC.SUB: the unsigned difference is negative, and the signed difference does not fit
(40_twos_complement.md R116). -/
theorem chainFlags_borrowBits (hpos : 1 ≤ a.length) :
    chainFlags (borrowBits a b) = { cout := decide (bitsVal a < bitsVal b),
                                    ovf := tcOverflow (tcValue a.length a - tcValue a.length b) a.length } := by
  have hnot := bitsVal_notBits a
  have hcout : 2 ^ a.length ≤ bitsVal (notBits a) + bitsVal b ↔ bitsVal a < bitsVal b := by omega
  have hvalue : tcValue a.length (notBits a) + tcValue a.length b =
      -1 - (tcValue a.length a - tcValue a.length b) := by
    rw [tcValue_notBits a hpos]
    ring
  have hflags := chainFlags_carryBits (a := notBits a) (b := b) (by simpa using hlen) (by simpa using hpos)
  rw [notBits_length, hvalue, tcOverflow_complement] at hflags
  simpa only [borrowBits, hcout] using hflags

end SameLength

end Sys2Proof.Machine
end

section
/-! PROOFS, the family 40_twos_complement. TC.ENC, TC.DEC, TC.ADD and TC.SUB as commands: what each delivers always fits,
and every error is one of its operands' (40_twos_complement.md R112 to R116). -/

namespace Sys2Proof.Machine

/-- A legal width is at least 1 and leaves room for a sign in every buffer (00_scope.md R5, 30_encoding.md R71). -/
theorem width_bounds {s : State} {w : BitVec 8} (hs : s.inv = true) (hw : legalWidth s.cfg.tcwMax w = true) :
    1 ≤ w.toNat ∧ w.toNat + 1 ≤ s.cfg.bufmax := by
  have hcfg := ((State.inv_iff s).1 hs).cfg
  have hwidth := w.isLt
  simp only [Config.wf, legalWidth, Bool.and_eq_true, decide_eq_true_eq] at hcfg hw
  omega

/-- Texts of at most a sign and `w` characters in RA and RB fit, and the command completes with them. -/
theorem completes_of_width {s : State} {i : Instr} {w : BitVec 8} (hs : s.inv = true)
    (hw : legalWidth s.cfg.tcwMax w = true) {ra rb : Text} {flags : Flags}
    (hrule : opResult i s = .ok { ra := ra, rb := rb, flags := flags }) (hra : ra.length ≤ w.toNat + 1)
    (hrb : rb.length ≤ w.toNat + 1) : Completes i s { ra := ra, rb := rb, flags := flags } := by
  have hmax := (width_bounds hs hw).2
  exact completes_of_ok i s _ hs hrule ((Results.overCapacity_eq_false_iff _ _).2
    ⟨hra.trans hmax, hrb.trans hmax, Nat.zero_le _, Nat.zero_le _⟩) rfl

/-- Settles O41: the encoding is the value modulo `2^w`, and OVF is the range's complement. -/
theorem tcEncRule : Obligations.TcEncRule := by
  unfold Obligations.TcEncRule
  refine fun s w hs hw => ⟨commandWord_toNat w 0x08#8, fun e he => ?_, fun v hv => ?_⟩
  · refine failsWith_of_error _ _ _ ?_
    rw [opResult, tcEncode, he]
    rfl
  · refine ⟨tcEncBits v w.toNat, tcOverflow v w.toNat, tcEncBits_length _ _, bitsVal_tcEncBits _ _,
      tcOverflow_iff _ _, completes_of_width hs hw ?_ (by simp) (Nat.zero_le _)⟩
    rw [opResult, tcEncode, hv]
    rfl

/-- A signed value of `w` bits has a magnitude of `w` bits. -/
theorem tcValue_natAbs_lt (b : Bits) (hb : 1 ≤ b.length) : (tcValue b.length b).natAbs < 2 ^ b.length := by
  have hrange := tcValue_not_outOfRange b hb
  obtain ⟨n, hn⟩ := Nat.exists_eq_add_of_le' hb
  rw [hn, not_outOfRange_succ_iff] at hrange
  have hpos : 0 < 2 ^ n := by positivity
  rw [hn, pow_succ]
  zify
  rw [abs_lt]
  omega

/-- Settles O42: the text is `dec` of the signed value, which fits because a magnitude of `w` bits has at most `w`
digits. -/
theorem tcDecRule : Obligations.TcDecRule := by
  unfold Obligations.TcDecRule
  refine fun s w hs hw => ⟨commandWord_toNat w 0x09#8, fun e he => ?_, fun b hb => ?_⟩
  · refine failsWith_of_error _ _ _ ?_
    rw [opResult, tcDecode, he]
    rfl
  · have hlen : b.length = w.toNat := ((bitsOperandOf_ok_iff _ _ _).1 hb).2
    have hpos : 1 ≤ w.toNat := (width_bounds hs hw).1
    have hfit := decTextInt_length_le hpos (hlen ▸ tcValue_natAbs_lt b (hlen ▸ hpos))
    refine ⟨decTextInt (tcValue w.toNat b), decTextInt_isDecText _, completes_of_width hs hw ?_ hfit (Nat.zero_le _)⟩
    rw [opResult, tcDecode, hb, ← hlen, ← tcDecVal_eq_tcValue]
    rfl

/-- TC.ADD and TC.SUB check OPA whole before OPB (40_twos_complement.md R115; 30_encoding.md R81). -/
theorem tcOperands_error_first {w : Nat} {opa : Text} {e : Err} (h : bitsOperandOf w opa = .error e) (opb : Text) :
    tcOperands w opa opb = .error e := by
  rw [tcOperands, h]
  rfl

theorem tcOperands_error_second {w : Nat} {opa opb : Text} {a : Bits} {e : Err} (ha : bitsOperandOf w opa = .ok a)
    (h : bitsOperandOf w opb = .error e) : tcOperands w opa opb = .error e := by
  rw [tcOperands, ha, h]
  rfl

theorem tcOperands_ok {w : Nat} {opa opb : Text} {a b : Bits} (ha : bitsOperandOf w opa = .ok a)
    (hb : bitsOperandOf w opb = .ok b) : tcOperands w opa opb = .ok (a.reverse.zip b.reverse) := by
  rw [tcOperands, ha, hb]
  rfl

theorem failsWith_tcAdd {s : State} {w : BitVec 8} {e : Err}
    (h : tcOperands w.toNat s.opa.content s.opb.content = .error e) : FailsWith (.tcAdd w) s e := by
  refine failsWith_of_error _ _ _ ?_
  rw [opResult, tcAdd, h]
  rfl

theorem failsWith_tcSub {s : State} {w : BitVec 8} {e : Err}
    (h : tcOperands w.toNat s.opa.content s.opb.content = .error e) : FailsWith (.tcSub w) s e := by
  refine failsWith_of_error _ _ _ ?_
  rw [opResult, tcSub, h]
  rfl

/-- Settles O43: the laws of the ripple-carry adder (`bitsVal_sumBits`, `carryBits_getElem?_iff`, `tcEncBits_add`,
`chainFlags_carryBits`). -/
theorem tcAddRule : Obligations.TcAddRule := by
  unfold Obligations.TcAddRule
  refine fun s w hs hw => ⟨commandWord_toNat w 0x0A#8, fun e he => failsWith_tcAdd (tcOperands_error_first he _),
    fun a ha => ⟨fun e he => failsWith_tcAdd (tcOperands_error_second ha he), fun b hb => ?_⟩⟩
  have halen : a.length = w.toNat := ((bitsOperandOf_ok_iff _ _ _).1 ha).2
  have hblen : b.length = w.toNat := ((bitsOperandOf_ok_iff _ _ _).1 hb).2
  have hlen : a.length = b.length := halen.trans hblen.symm
  obtain ⟨hpos, -⟩ := width_bounds hs hw
  rw [← halen] at hpos ⊢
  refine ⟨sumBits a b, carryBits a b, _, _, sumBits_length hlen, carryBits_length hlen, bitsVal_sumBits hlen,
    fun k _ => carryBits_getElem?_iff hlen k, decide_eq_true_iff, tcOverflow_iff _ _, (tcEncBits_add hlen).symm,
    completes_of_width hs hw ?_ ?_ ?_⟩
  · rw [opResult, tcAdd, tcOperands_ok ha hb, ← chainFlags_carryBits hlen hpos, ← tcChainResults_rippleAdd]
    rfl
  · rw [bitsText_length, sumBits_length hlen, halen]
    exact w.toNat.le_succ
  · rw [bitsText_length, carryBits_length hlen, halen]
    exact w.toNat.le_succ

/-- Settles O44: the laws of the ripple-borrow subtractor, which are those of the adder on the complement of the first
operand (`bitsVal_diffBits`, `borrowBits_getElem?_iff`, `tcEncBits_sub`, `chainFlags_borrowBits`). -/
theorem tcSubRule : Obligations.TcSubRule := by
  unfold Obligations.TcSubRule
  refine fun s w hs hw => ⟨commandWord_toNat w 0x0B#8, fun e he => failsWith_tcSub (tcOperands_error_first he _),
    fun a ha => ⟨fun e he => failsWith_tcSub (tcOperands_error_second ha he), fun b hb => ?_⟩⟩
  have halen : a.length = w.toNat := ((bitsOperandOf_ok_iff _ _ _).1 ha).2
  have hblen : b.length = w.toNat := ((bitsOperandOf_ok_iff _ _ _).1 hb).2
  have hlen : a.length = b.length := halen.trans hblen.symm
  obtain ⟨hpos, -⟩ := width_bounds hs hw
  rw [← halen] at hpos ⊢
  refine ⟨diffBits a b, borrowBits a b, _, _, diffBits_length hlen, borrowBits_length hlen, bitsVal_diffBits hlen,
    fun k _ => borrowBits_getElem?_iff hlen k, decide_eq_true_iff, tcOverflow_iff _ _, (tcEncBits_sub hlen).symm,
    completes_of_width hs hw ?_ ?_ ?_⟩
  · rw [opResult, tcSub, tcOperands_ok ha hb, ← chainFlags_borrowBits hlen hpos, ← tcChainResults_rippleSub]
    rfl
  · rw [bitsText_length, diffBits_length hlen, halen]
    exact w.toNat.le_succ
  · rw [bitsText_length, borrowBits_length hlen, halen]
    exact w.toNat.le_succ

end Sys2Proof.Machine
end

section
/-! PROOFS, the family 41_ieee754_convert. The fields of a pattern, its formats and its class (41_ieee754_convert.md R130 to
R132): splitting and packing are inverse, and each class by its two fields. -/

namespace Sys2Proof.Machine

/-- The fields of a pattern put together from its three parts (41_ieee754_convert.md R130). -/
theorem splitPattern_cons_append (prec : Precision) (sign : Bool) {E : Bits} (hE : E.length = expWidth prec) (F : Bits) :
    splitPattern prec (sign :: (E ++ F)) = ⟨sign, bitsVal E, bitsVal F⟩ := by
  simp [splitPattern, ← hE, Nat.add_comm 1]

/-- A string of the pattern's length has the three parts. -/
theorem exists_parts_of_length {prec : Precision} {P : Bits} (hP : P.length = patternWidth prec) :
    ∃ (sign : Bool) (E F : Bits), E.length = expWidth prec ∧ F.length = manWidth prec ∧ P = sign :: (E ++ F) := by
  rw [patternWidth] at hP
  obtain ⟨sign, rest, rfl⟩ := List.exists_cons_of_length_pos (l := P) (by omega)
  rw [List.length_cons] at hP
  refine ⟨sign, rest.take (expWidth prec), rest.drop (expWidth prec), ?_, ?_, ?_⟩
  · rw [List.length_take]
    omega
  · rw [List.length_drop]
    omega
  · rw [List.take_append_drop]

/-- Packing the fields of a pattern gives it back. -/
theorem packPattern_splitPattern {prec : Precision} {P : Bits} (hP : P.length = patternWidth prec) :
    packPattern prec (splitPattern prec P) = P := by
  obtain ⟨sign, E, F, hE, hF, rfl⟩ := exists_parts_of_length hP
  rw [splitPattern_cons_append prec sign hE, packPattern, ← hE, ← hF, binBits_bitsVal, binBits_bitsVal]

theorem expMax_add_one (prec : Precision) : expMax prec + 1 = 2 ^ expWidth prec :=
  Nat.sub_add_cancel Nat.one_le_two_pow

@[simp] theorem expMax_ne_zero (prec : Precision) : expMax prec ≠ 0 := by
  cases prec <;> decide

@[simp] theorem zero_ne_expMax (prec : Precision) : 0 ≠ expMax prec := (expMax_ne_zero prec).symm

/-- The fields of a pattern fit its format. -/
theorem splitPattern_inFormat {prec : Precision} {P : Bits} (hP : P.length = patternWidth prec) :
    inFormat prec (splitPattern prec P) := by
  obtain ⟨sign, E, F, hE, hF, rfl⟩ := exists_parts_of_length hP
  rw [splitPattern_cons_append prec sign hE, inFormat]
  have hexp := bitsVal_lt E
  rw [hE, ← expMax_add_one] at hexp
  exact ⟨Nat.lt_succ_iff.1 hexp, hF ▸ bitsVal_lt F⟩

/-- Format HEX answers with 4 bits for each digit (30_encoding.md R77). -/
theorem hexOperandOf_length {L : Nat} {content : Text} {b : Bits} (h : hexOperandOf L content = .ok b) :
    b.length = 4 * L := by
  simp only [hexOperandOf, except_bind_ok, except_pure_eq_ok] at h
  obtain ⟨-, -, -, -, ⟨⟩, hcheck, rfl⟩ := h
  have hlen : (clean content).length = L := beq_iff_eq.1 ((require_ok _ _).1 hcheck)
  simp [List.length_flatMap, hlen, Nat.mul_comm]

theorem four_mul_patternWidth_div (prec : Precision) : 4 * (patternWidth prec / 4) = patternWidth prec := by
  cases prec <;> rfl

/-- A pattern operand has the pattern's length in either format (41_ieee754_convert.md R131). -/
theorem patternOperand_length {prec : Precision} {ty : InType} {content : Text} {P : Bits}
    (h : patternOperand prec ty content = .ok P) : P.length = patternWidth prec := by
  cases ty with
  | binary => exact ((bitsOperandOf_ok_iff _ _ _).1 h).2
  | hex => exact (hexOperandOf_length h).trans (four_mul_patternWidth_div prec)

section Classes

variable (prec : Precision) (x : FpFields)

theorem fpClass_infinity_iff : fpClass prec x = .infinity ↔ x.exp = expMax prec ∧ x.man = 0 := by
  unfold fpClass
  split_ifs <;> simp [*]

theorem fpClass_nan_iff : fpClass prec x = .nan ↔ x.exp = expMax prec ∧ x.man ≠ 0 := by
  unfold fpClass
  split_ifs <;> simp [*]

theorem fpClass_zero_iff : fpClass prec x = .zero ↔ x.exp = 0 ∧ x.man = 0 := by
  unfold fpClass
  split_ifs <;> simp [*]

theorem fpClass_denormalized_iff : fpClass prec x = .denormalized ↔ x.exp = 0 ∧ x.man ≠ 0 := by
  unfold fpClass
  split_ifs <;> simp [*]

theorem fpClass_normalized_iff : fpClass prec x = .normalized ↔ x.exp ≠ 0 ∧ x.exp ≠ expMax prec := by
  unfold fpClass
  split_ifs <;> simp [*]

end Classes

/-- Settles O46: the three parts of a pattern (`splitPattern_cons_append`), the numbers of the two formats, and one
equivalence per class. -/
theorem patternFieldsAndClasses : Obligations.PatternFieldsAndClasses := by
  unfold Obligations.PatternFieldsAndClasses
  refine ⟨fun prec sign E F hE _ => splitPattern_cons_append prec sign hE F, ⟨rfl, rfl, rfl⟩, ⟨rfl, rfl, rfl⟩,
    ⟨rfl, rfl, rfl, rfl⟩, fun _ => ⟨rfl, rfl⟩, fun _ => ⟨rfl, rfl⟩, fun prec x => ?_⟩
  exact ⟨fpClass_infinity_iff prec x, fpClass_nan_iff prec x, fpClass_zero_iff prec x, fpClass_denormalized_iff prec x,
    fpClass_normalized_iff prec x, rfl⟩

end Sys2Proof.Machine
end

section
/-! PROOFS, the family 41_ieee754_convert. Delivering a pattern (41_ieee754_convert.md R136, 42_ieee754_add.md R151): its bits
and its hex digits, which format HEX reads back, always fit; and F754.ADD, whose sum always fits the format. -/

namespace Sys2Proof.Machine

/-- The upper-case digit of a value below 16. -/
theorem hexChar_eq_caseHexChar (d : Nat) : hexChar d = caseHexChar (d, true) := by
  by_cases h : d < 10 <;> simp [hexChar, caseHexChar, h]

theorem hexChar_bounds {d : Nat} (hd : d < 16) : hexChar d ≠ chSpace ∧ (hexChar d).toNat < 0x47 := by
  interval_cases d <;> decide

/-- The hex text of a string of `4 n` bits spells `n` digits, which are the string's bits (30_encoding.md R74, R77). -/
theorem exists_digits_of_hexText (n : Nat) (b : Bits) (hb : b.length = 4 * n) :
    ∃ ds : List Nat, ds.length = n ∧ (∀ d ∈ ds, d < 16) ∧ hexText b = ds.map hexChar ∧ ds.flatMap (binBits 4) = b := by
  induction n generalizing b with
  | zero =>
    obtain rfl := List.length_eq_zero_iff.1 hb
    exact ⟨[], rfl, by simp, rfl, rfl⟩
  | succ n ih =>
    match b, hb with
    | p :: q :: r :: t :: rest, hb =>
      obtain ⟨ds, hlen, hlt, htext, hbits⟩ := ih rest (by simp only [List.length_cons] at hb; omega)
      refine ⟨bitsVal [p, q, r, t] :: ds, by rw [List.length_cons, hlen],
        List.forall_mem_cons.2 ⟨bitsVal_lt [p, q, r, t], hlt⟩, by rw [hexText, htext, List.map_cons], ?_⟩
      have hdigit : binBits 4 (bitsVal [p, q, r, t]) = [p, q, r, t] := binBits_bitsVal [p, q, r, t]
      rw [List.flatMap_cons, hbits, hdigit]
      rfl

/-- The hex text of a string of `4 n` bits, `n > 0`, is upper-case and is read back as the string by format HEX. -/
theorem hexText_read (n : Nat) (hn : n ≠ 0) (b : Bits) (hb : b.length = 4 * n) :
    (hexText b).length = n ∧ (∀ c ∈ hexText b, c.toNat < 0x47) ∧ hexOperandOf n (hexText b) = .ok b := by
  obtain ⟨ds, hlen, hlt, htext, hbits⟩ := exists_digits_of_hexText n b hb
  have hchars : ∀ c ∈ hexText b, c ≠ chSpace ∧ c.toNat < 0x47 := by
    rw [htext]
    exact List.forall_mem_map.2 fun d hd => hexChar_bounds (hlt d hd)
  have hclean : clean (hexText b) = (ds.map (fun d => (d, true))).map caseHexChar := by
    rw [clean, List.filter_eq_self.2 fun c hc => decide_eq_true (hchars c hc).1, htext, List.map_map]
    exact List.map_congr_left fun d _ => hexChar_eq_caseHexChar d
  have hfst : (ds.map (fun d => (d, true))).map Prod.fst = ds := by
    rw [List.map_map]
    exact ds.map_id
  refine ⟨by rw [htext, List.length_map, hlen], fun c hc => (hchars c hc).2, ?_⟩
  rw [hexOperandOf_of_digits n _ (ds.map (fun d => (d, true))) ?_ (List.forall_mem_map.2 hlt) hclean, List.length_map,
    if_pos hlen, hfst, hbits]
  simpa [← List.length_eq_zero_iff, hlen] using hn

/-- BUFMAX holds the longest result of an operation on patterns (00_scope.md R5). -/
theorem bufmax_ge_of_inv {s : State} (hs : s.inv = true) : 1077 ≤ s.cfg.bufmax := by
  have hcfg := ((State.inv_iff s).1 hs).cfg
  simp only [Config.wf, Bool.and_eq_true, decide_eq_true_eq] at hcfg
  tauto

theorem patternWidth_le (prec : Precision) : patternWidth prec ≤ 64 := by
  cases prec <;> decide

theorem packPattern_length (prec : Precision) (x : FpFields) : (packPattern prec x).length = patternWidth prec := by
  simp only [packPattern, patternWidth, List.length_cons, List.length_append, binBits_length]
  omega

/-- Texts no longer than the longest result fit. -/
theorem completes_of_le_bufmax {s : State} {i : Instr} (hs : s.inv = true) {ra rb : Text} {aux0 aux1 : Word}
    {flags : Flags} (hrule : opResult i s = .ok { ra := ra, rb := rb, aux0 := aux0, aux1 := aux1, flags := flags })
    (hra : ra.length ≤ 1077) (hrb : rb.length ≤ 1077) :
    Completes i s { ra := ra, rb := rb, aux0 := aux0, aux1 := aux1, flags := flags } := by
  have hmax := bufmax_ge_of_inv hs
  exact completes_of_ok i s _ hs hrule ((Results.overCapacity_eq_false_iff _ _).2
    ⟨hra.trans hmax, hrb.trans hmax, Nat.zero_le _, Nat.zero_le _⟩) rfl

/-- The hex digits of a packed pattern. -/
theorem hexText_packPattern (prec : Precision) (x : FpFields) :
    (hexText (packPattern prec x)).length = patternWidth prec / 4 ∧
      (∀ c ∈ hexText (packPattern prec x), c.toNat < 0x47) ∧
      hexOperandOf (patternWidth prec / 4) (hexText (packPattern prec x)) = .ok (packPattern prec x) :=
  hexText_read _ (by cases prec <;> decide) _
    ((packPattern_length prec x).trans (four_mul_patternWidth_div prec).symm)

/-- A command whose rule ends with a pattern completes with it: a pattern always fits. -/
theorem completes_patternResults {s : State} {i : Instr} {prec : Precision} {x : FpFields} (hs : s.inv = true)
    (hrule : opResult i s = .ok (patternResults prec x)) : Completes i s (patternResults prec x) := by
  have hwidth := patternWidth_le prec
  obtain ⟨hhex, -, -⟩ := hexText_packPattern prec x
  refine completes_of_le_bufmax hs hrule ?_ (by omega)
  rw [bitsText_length, packPattern_length]
  omega

/-- A command whose rule ends with the results of fields that fit the format delivers their pattern. -/
theorem deliversPattern_of_ok {s : State} {i : Instr} {prec : Precision} {x : FpFields} (hs : s.inv = true)
    (hx : inFormat prec x) (hrule : opResult i s = .ok (patternResults prec x)) : DeliversPattern i s prec x := by
  obtain ⟨hexp, hman⟩ := hx
  obtain ⟨hhex, hupper, hread⟩ := hexText_packPattern prec x
  have hE : bitsVal (binBits (expWidth prec) x.exp) = x.exp := by
    rw [bitsVal_binBits, Nat.mod_eq_of_lt (by rw [← expMax_add_one]; omega)]
  have hF : bitsVal (binBits (manWidth prec) x.man) = x.man := by
    rw [bitsVal_binBits, Nat.mod_eq_of_lt hman]
  exact ⟨binBits (expWidth prec) x.exp, binBits (manWidth prec) x.man, hexText (packPattern prec x), binBits_length _ _,
    binBits_length _ _, hE, hF, hhex, hupper, hread, completes_patternResults hs hrule⟩

/-- The parameter F754_CANONICAL_NAN as fields (00_scope.md R5). -/
theorem canonicalNan_inFormat (c : Config) (prec : Precision) : inFormat prec (canonicalNan c prec) := by
  cases prec with
  | single => exact ⟨Nat.le_of_lt_succ (BitVec.isLt _), BitVec.isLt _⟩
  | double => exact ⟨Nat.le_of_lt_succ (BitVec.isLt _), BitVec.isLt _⟩

theorem zeroFields_inFormat (prec : Precision) (sign : Bool) : inFormat prec ⟨sign, 0, 0⟩ :=
  ⟨Nat.zero_le _, Nat.two_pow_pos _⟩

/-- Step 1 of R151 answers with an operand, a zero or the NaN of the parameter. -/
theorem addSpecial_inFormat {c : Config} {prec : Precision} {a b x : FpFields} (ha : inFormat prec a)
    (hb : inFormat prec b) (h : addSpecial c prec a b = some x) : inFormat prec x := by
  have hnan := canonicalNan_inFormat c prec
  have hzero := zeroFields_inFormat prec (a.sign && b.sign)
  simp only [addSpecial] at h
  split_ifs at h <;> cases h <;> assumption

/-- Step 7 of R151 packs fields of the format: an exponent from EMAX on is Infinity. -/
theorem addPack_inFormat (prec : Precision) (sign : Bool) (mant : Nat) (er : Int) :
    inFormat prec (addPack prec sign mant er) := by
  have hpos := Nat.two_pow_pos (manWidth prec)
  simp only [addPack]
  generalize (if 2 ^ manWidth prec ≤ mant then er else 0) = e
  split
  · exact ⟨le_rfl, hpos⟩
  · exact ⟨Int.toNat_le.2 (by omega), Nat.mod_lt _ hpos⟩

/-- The sum of two patterns fits the format: every way through R151 ends in step 1, in a zero or in step 7. -/
theorem addFields_inFormat (c : Config) {prec : Precision} {a b : FpFields} (ha : inFormat prec a)
    (hb : inFormat prec b) : inFormat prec (addFields c prec a b) := by
  simp only [addFields]
  split
  · next hspecial => exact addSpecial_inFormat ha hb hspecial
  · split
    · exact zeroFields_inFormat prec false
    · split
      · exact zeroFields_inFormat prec _
      · exact addPack_inFormat prec _ _ _

/-- Settles O50: the two operands in their order, and the sum's fields, which fit (`addFields_inFormat`). -/
theorem f754AddCompletes : Obligations.F754AddCompletes := by
  unfold Obligations.F754AddCompletes
  refine fun s prec ty hs => ⟨?_, fun e he => failsWith_of_error _ _ _ ?_,
    fun A hA => ⟨fun e he => failsWith_of_error _ _ _ ?_, fun B hB => ?_⟩⟩
  · rw [encode, commandWord_toNat]
    cases prec <;> cases ty <;> rfl
  · rw [opResult, f754Add, he]
    rfl
  · rw [opResult, f754Add, hA, he]
    rfl
  · have hsum := addFields_inFormat s.cfg (splitPattern_inFormat (patternOperand_length hA))
      (splitPattern_inFormat (patternOperand_length hB))
    refine ⟨hsum, deliversPattern_of_ok hs hsum ?_⟩
    rw [opResult, f754Add, hA, hB]
    rfl

end Sys2Proof.Machine
end

section
/-! PROOFS, the family 41_ieee754_convert. The exact decimal expansion (41_ieee754_convert.md R135): `dectext(num / 2^k)` is
a text of the grammar of 30_encoding.md R79 that reads as `num / 2^k`, with no digit too many. -/

namespace Sys2Proof.Machine

@[simp] theorem fracDigits_zero_rem (fuel den : Nat) : fracDigits fuel 0 den = [] := by
  cases fuel <;> simp [fracDigits]

theorem fracDigits_succ (fuel : Nat) {rem : Nat} (hrem : rem ≠ 0) (den : Nat) :
    fracDigits (fuel + 1) rem den = 10 * rem / den :: fracDigits fuel (10 * rem % den) den := if_neg hrem

theorem fracDigits_length_le (fuel rem den : Nat) : (fracDigits fuel rem den).length ≤ fuel := by
  induction fuel generalizing rem with
  | zero => exact le_rfl
  | succ fuel ih =>
    by_cases hrem : rem = 0
    · simp [hrem]
    · rw [fracDigits_succ fuel hrem, List.length_cons]
      exact Nat.succ_le_succ (ih _)

theorem fracDigits_lt_ten (fuel : Nat) {rem den : Nat} (hlt : rem < den) : ∀ d ∈ fracDigits fuel rem den, d < 10 := by
  induction fuel generalizing rem with
  | zero => simp [fracDigits]
  | succ fuel ih =>
    by_cases hrem : rem = 0
    · simp [hrem]
    · rw [fracDigits_succ fuel hrem, List.forall_mem_cons]
      exact ⟨Nat.div_lt_of_lt_mul (by omega), ih (Nat.mod_lt _ (by omega))⟩

/-- What is left after a digit needs one doubling less to become a multiple of the denominator. -/
theorem dvd_two_pow_mul_mod {fuel rem den : Nat} (h : den ∣ 2 ^ (fuel + 1) * rem) :
    den ∣ 2 ^ fuel * (10 * rem % den) := by
  have hten : den ∣ 2 ^ fuel * (10 * rem) := by
    have hfactor : 2 ^ fuel * (10 * rem) = 5 * (2 ^ (fuel + 1) * rem) := by ring
    exact hfactor ▸ h.mul_left 5
  rw [Nat.dvd_iff_mod_eq_zero] at hten ⊢
  rwa [Nat.mul_mod, Nat.mod_mod, ← Nat.mul_mod]

/-- The digits spell the fraction exactly, when `fuel` doublings make it an integer. -/
theorem mul_ofDigits_fracDigits (fuel : Nat) {rem den : Nat} (hlt : rem < den) (h : den ∣ 2 ^ fuel * rem) :
    den * Nat.ofDigits 10 (fracDigits fuel rem den).reverse = rem * 10 ^ (fracDigits fuel rem den).length := by
  induction fuel generalizing rem with
  | zero =>
    have hrem : rem = 0 := Nat.eq_zero_of_dvd_of_lt (by simpa using h) hlt
    simp [hrem]
  | succ fuel ih =>
    by_cases hrem : rem = 0
    · simp [hrem]
    · have hrest := ih (Nat.mod_lt (10 * rem) (by omega)) (dvd_two_pow_mul_mod h)
      rw [fracDigits_succ fuel hrem, List.reverse_cons, Nat.ofDigits_append, Nat.ofDigits_singleton,
        List.length_reverse, List.length_cons, Nat.mul_add, hrest]
      calc _ = (den * (10 * rem / den) + 10 * rem % den) * 10 ^ (fracDigits fuel (10 * rem % den) den).length := by ring
        _ = _ := by rw [Nat.div_add_mod]; ring

/-- The last digit is not 0: digits end when nothing is left (41_ieee754_convert.md R135). -/
theorem ofDigits_fracDigits_mod_ten (fuel : Nat) {rem den : Nat} (hlt : rem < den) (h : den ∣ 2 ^ fuel * rem)
    (hne : fracDigits fuel rem den ≠ []) : Nat.ofDigits 10 (fracDigits fuel rem den).reverse % 10 ≠ 0 := by
  induction fuel generalizing rem with
  | zero => exact absurd rfl hne
  | succ fuel ih =>
    have hrem : rem ≠ 0 := by
      rintro rfl
      exact hne (fracDigits_zero_rem _ _)
    have hmod : 10 * rem % den < den := Nat.mod_lt _ (by omega)
    have hdvd := dvd_two_pow_mul_mod h
    have hdigit := fracDigits_lt_ten (fuel + 1) hlt
    rw [fracDigits_succ fuel hrem] at hdigit ⊢
    rw [List.reverse_cons, Nat.ofDigits_append, Nat.ofDigits_singleton]
    by_cases hrest : fracDigits fuel (10 * rem % den) den = []
    · have hzero : 10 * rem % den = 0 := by simpa [hrest] using (mul_ofDigits_fracDigits fuel hmod hdvd).symm
      have hpos : 10 * rem / den ≠ 0 := fun hdiv => by
        have hsum := Nat.div_add_mod (10 * rem) den
        rw [hdiv, hzero] at hsum
        omega
      simpa [hrest, Nat.mod_eq_of_lt (hdigit _ List.mem_cons_self)] using hpos
    · obtain ⟨t, ht⟩ := Nat.exists_eq_succ_of_ne_zero (mt List.length_eq_zero_iff.1 hrest)
      rw [List.length_reverse, ht, Nat.pow_succ, Nat.mul_comm _ 10, Nat.mul_assoc, Nat.add_mul_mod_self_left]
      exact ih hmod hdvd hrest

/-- A text of DECREAL's alphabet has no space. -/
theorem IsDecRealText.chSpace_not_mem {neg : Bool} {whole frac : List Nat} {t : Text}
    (h : IsDecRealText neg whole frac t) : chSpace ∉ t := fun hmem => absurd (h.alphabet _ hmem) (by decide)

/-- Format DECREAL on a text of its grammar (30_encoding.md R79). -/
theorem decRealOperand_of_isDecRealText {neg : Bool} {whole frac : List Nat} {t : Text}
    (h : IsDecRealText neg whole frac t) :
    decRealOperand t = .ok ⟨neg, Nat.ofDigits 10 (whole ++ frac).reverse, frac.length⟩ := by
  have hclean : clean t = t :=
    List.filter_eq_self.2 fun c hc => decide_eq_true fun hspace => h.chSpace_not_mem (hspace ▸ hc)
  rw [decRealOperand_eq, hclean, checkedText_of_alphabet _ _ _ h.ne_nil h.alphabet, decRealRest_of_isDecRealText h]

section Expansion

variable (num k : Nat)

/-- The digits behind the point of `num / 2^k` (41_ieee754_convert.md R135). -/
def expansionFrac : List Nat := fracDigits k (num % 2 ^ k) (2 ^ k)

/-- All digits of `num / 2^k` as one number, the point left out. -/
def expansionNum : Nat := Nat.ofDigits 10 (decDigits (num / 2 ^ k) ++ expansionFrac num k).reverse

theorem mod_two_pow_lt : num % 2 ^ k < 2 ^ k := Nat.mod_lt _ (Nat.two_pow_pos k)

theorem expansionFrac_length_le : (expansionFrac num k).length ≤ k := fracDigits_length_le _ _ _

theorem two_pow_mul_ofDigits_expansionFrac : 2 ^ k * Nat.ofDigits 10 (expansionFrac num k).reverse =
    num % 2 ^ k * 10 ^ (expansionFrac num k).length :=
  mul_ofDigits_fracDigits k (mod_two_pow_lt num k) (Nat.dvd_mul_right _ _)

/-- A fraction has digits behind the point, an integer none. -/
theorem expansionFrac_eq_nil_iff : expansionFrac num k = [] ↔ num % 2 ^ k = 0 := by
  constructor
  · intro h
    simpa [h] using (two_pow_mul_ofDigits_expansionFrac num k).symm
  · intro h
    rw [expansionFrac, h, fracDigits_zero_rem]

/-- The expansion is its digits before the point and those behind it. -/
theorem decExpansion_eq :
    decExpansion num k = (decDigits (num / 2 ^ k)).map decChar ++ pointText (expansionFrac num k) := by
  by_cases h : num % 2 ^ k = 0
  · simp [decExpansion, h, decText_eq, (expansionFrac_eq_nil_iff num k).2 h, pointText]
  · have hne : expansionFrac num k ≠ [] := mt (expansionFrac_eq_nil_iff num k).1 h
    rw [decExpansion, pointText, if_neg hne]
    simp only [h, if_false, decText_eq, expansionFrac]

/-- A sign and an expansion are a text of format DECREAL. -/
theorem decExpansion_isDecRealText (neg : Bool) : IsDecRealText neg (decDigits (num / 2 ^ k)) (expansionFrac num k)
    (signText neg ++ decExpansion num k) := by
  refine ⟨decDigits_ne_nil _, List.forall_mem_append.2 ⟨fun _ => lt_ten_of_mem_decDigits,
    fracDigits_lt_ten k (mod_two_pow_lt num k)⟩, ?_⟩
  rw [decExpansion_eq, List.append_assoc]

/-- The digits before and behind the point as one number. -/
theorem expansionNum_eq : expansionNum num k =
    Nat.ofDigits 10 (expansionFrac num k).reverse + 10 ^ (expansionFrac num k).length * (num / 2 ^ k) := by
  have hwhole : Nat.ofDigits 10 (decDigits (num / 2 ^ k)).reverse = num / 2 ^ k := by
    have h := ofDigits_decDigits (num / 2 ^ k)
    exact_mod_cast h
  rw [expansionNum, List.reverse_append, Nat.ofDigits_append, List.length_reverse, hwhole]

/-- The expansion is exact (41_ieee754_convert.md R135). -/
theorem expansionNum_div : (expansionNum num k : ℚ) / 10 ^ (expansionFrac num k).length = (num : ℚ) / 2 ^ k := by
  have hexact : expansionNum num k * 2 ^ k = num * 10 ^ (expansionFrac num k).length := by
    calc _ = 2 ^ k * Nat.ofDigits 10 (expansionFrac num k).reverse +
          2 ^ k * (num / 2 ^ k) * 10 ^ (expansionFrac num k).length := by rw [expansionNum_eq]; ring
      _ = _ := by rw [two_pow_mul_ofDigits_expansionFrac, ← Nat.add_mul, Nat.mod_add_div]
  rw [div_eq_div_iff (by positivity) (by positivity)]
  exact_mod_cast hexact

/-- The last digit behind the point is not 0 (41_ieee754_convert.md R135). -/
theorem expansionNum_mod_ten (h : expansionFrac num k ≠ []) : expansionNum num k % 10 ≠ 0 := by
  obtain ⟨t, ht⟩ := Nat.exists_eq_succ_of_ne_zero (mt List.length_eq_zero_iff.1 h)
  rw [expansionNum_eq, ht, Nat.pow_succ, Nat.mul_comm _ 10, Nat.mul_assoc, Nat.add_mul_mod_self_left]
  exact ofDigits_fracDigits_mod_ten k (mod_two_pow_lt num k) (Nat.dvd_mul_right _ _) h

/-- Format DECREAL reads a sign and an expansion back. -/
theorem decRealOperand_decExpansion (neg : Bool) : decRealOperand (signText neg ++ decExpansion num k) =
    .ok ⟨neg, expansionNum num k, (expansionFrac num k).length⟩ :=
  decRealOperand_of_isDecRealText (decExpansion_isDecRealText num k neg)

/-- An expansion has no leading zero before another digit (41_ieee754_convert.md R135). -/
theorem decExpansion_noLeadingZero (c : Byte) (rest : Text) (h : decExpansion num k = chZero :: c :: rest) :
    c = chPoint := by
  rw [decExpansion_eq] at h
  obtain ⟨d, ds, hcons⟩ := List.exists_cons_of_ne_nil (decDigits_ne_nil (num / 2 ^ k))
  rw [hcons, List.map_cons, List.cons_append, List.cons.injEq] at h
  obtain ⟨hd, htail⟩ := h
  have hzero : d = 0 := decChar_eq_chZero (lt_ten_of_mem_decDigits (v := num / 2 ^ k) (by simp [hcons])) hd
  obtain ⟨-, rfl⟩ := decDigits_zero_cons (hzero ▸ hcons)
  by_cases hfrac : expansionFrac num k = []
  · simp [pointText, hfrac] at htail
  · rw [pointText, if_neg hfrac, List.map_nil, List.nil_append, List.cons.injEq] at htail
    exact htail.1.symm

/-- `dectext(num / 2^k)` has the properties that 41_ieee754_convert.md R135 asks of it. -/
theorem decExpansion_isDecExpansion : IsDecExpansion ((num : ℚ) / 2 ^ k) (decExpansion num k) := by
  have htext := decExpansion_isDecRealText num k false
  refine ⟨expansionNum num k, (expansionFrac num k).length, decRealOperand_decExpansion num k false,
    expansionNum_div num k, fun hlen => expansionNum_mod_ten num k (mt List.length_eq_zero_iff.2 hlen),
    decExpansion_noLeadingZero num k, htext.chSpace_not_mem⟩

theorem pointText_length_le (frac : List Nat) : (pointText frac).length ≤ frac.length + 1 := by
  by_cases h : frac = [] <;> simp [pointText, h]

/-- The expansion of a number of `w` bits over `2^k`: the integer part has at most `w - k` digits or is the digit `0`, and
at most `k` stand behind the point. -/
theorem decExpansion_length_le {w : Nat} (hnum : num < 2 ^ w) :
    (decExpansion num k).length ≤ max (w - k) 1 + (k + 1) := by
  have hwhole : (decDigits (num / 2 ^ k)).length ≤ max (w - k) 1 := by
    refine decDigits_length_le (le_max_right _ _) (Nat.div_lt_of_lt_mul (hnum.trans_le ?_))
    rw [← Nat.pow_add]
    exact Nat.pow_le_pow_right two_pos (by omega)
  have hpoint : (pointText (expansionFrac num k)).length ≤ k + 1 :=
    (pointText_length_le _).trans (Nat.succ_le_succ (expansionFrac_length_le num k))
  rw [decExpansion_eq, List.length_append, List.length_map]
  exact Nat.add_le_add hwhole hpoint

end Expansion

end Sys2Proof.Machine
end

section
/-! PROOFS, the family 41_ieee754_convert. Encoding a magnitude (41_ieee754_convert.md R136): the exponent of a positive
rational is unique and is what the machine finds, and its truncated mantissa fits. -/

namespace Sys2Proof.Machine

/-- `e` is the position of the leading 1 of `x` (41_ieee754_convert.md R136). -/
def IsLeadingExp (e : Int) (x : ℚ) : Prop := 2 ^ e ≤ x ∧ x < 2 ^ (e + 1)

theorem IsLeadingExp.pos {e : Int} {x : ℚ} (h : IsLeadingExp e x) : 0 < x := lt_of_lt_of_le (by positivity) h.1

theorem IsLeadingExp.le_of_lt {e f : Int} {x : ℚ} (h : IsLeadingExp e x) (hx : x < 2 ^ (f + 1)) : e ≤ f :=
  Int.lt_add_one_iff.1 ((zpow_lt_zpow_iff_right₀ one_lt_two).1 (h.1.trans_lt hx))

theorem IsLeadingExp.unique {e f : Int} {x : ℚ} (he : IsLeadingExp e x) (hf : IsLeadingExp f x) : e = f :=
  le_antisymm (he.le_of_lt hf.2) (hf.le_of_lt he.2)

/-- The machine's exponent of a fraction from 1 on: that of its integer part. -/
theorem isLeadingExp_log2_div {num den : Nat} (hden : 0 < den) (hle : den ≤ num) :
    IsLeadingExp (Nat.log2 (num / den) : Int) ((num : ℚ) / den) := by
  have hquot : num / den ≠ 0 := (Nat.div_pos hle hden).ne'
  have hlo : 2 ^ Nat.log2 (num / den) * den ≤ num := (Nat.le_div_iff_mul_le hden).1 (Nat.log2_self_le hquot)
  have hhi : num < 2 ^ (Nat.log2 (num / den) + 1) * den := (Nat.div_lt_iff_lt_mul hden).1 Nat.lt_log2_self
  have hpos : (0 : ℚ) < den := mod_cast hden
  constructor
  · rw [le_div_iff₀ hpos]
    exact_mod_cast hlo
  · rw [div_lt_iff₀ hpos]
    exact_mod_cast hhi

/-- The machine's exponent of a fraction below 1: that of the integer part of its inverse, an exact power of two apart. -/
theorem isLeadingExp_neg_log2_div {num den : Nat} (hnum : 0 < num) (hlt : num < den) :
    IsLeadingExp (-((Nat.log2 ((den - 1) / num) : Int) + 1)) ((num : ℚ) / den) := by
  have hquot : (den - 1) / num ≠ 0 := (Nat.div_pos (by omega) hnum).ne'
  have hlo : 2 ^ Nat.log2 ((den - 1) / num) * num ≤ den - 1 :=
    (Nat.le_div_iff_mul_le hnum).1 (Nat.log2_self_le hquot)
  have hhi : den - 1 < 2 ^ (Nat.log2 ((den - 1) / num) + 1) * num :=
    (Nat.div_lt_iff_lt_mul hnum).1 Nat.lt_log2_self
  generalize Nat.log2 ((den - 1) / num) = L at hlo hhi ⊢
  have hpos : (0 : ℚ) < den := mod_cast (by omega : 0 < den)
  constructor
  · rw [zpow_neg, ← Nat.cast_succ, zpow_natCast, inv_le_comm₀ (by positivity) (by positivity), inv_div,
      div_le_iff₀ (by positivity)]
    exact_mod_cast (by omega : den ≤ 2 ^ (L + 1) * num)
  · rw [neg_add, neg_add_cancel_right, zpow_neg, zpow_natCast, lt_inv_comm₀ (by positivity) (by positivity), inv_div,
      lt_div_iff₀ (by positivity)]
    exact_mod_cast (by omega : 2 ^ L * num < den)

theorem floorLog2_isLeadingExp {num den : Nat} (hnum : 0 < num) (hden : 0 < den) :
    IsLeadingExp (floorLog2 num den) ((num : ℚ) / den) := by
  rw [floorLog2]
  split
  · next hle => exact isLeadingExp_log2_div hden hle
  · next hlt => exact isLeadingExp_neg_log2_div hnum (Nat.lt_of_not_le hlt)

/-- The machine's scaled quotient is the floor of the scaled rational (41_ieee754_convert.md R136). -/
theorem floorScaled_eq (num den : Nat) (d : Int) : (floorScaled num den d : Int) = ⌊(num : ℚ) / den / 2 ^ d⌋ := by
  rw [floorScaled]
  split
  · next hd =>
    rw [Int.natCast_div, ← Rat.floor_natCast_div_natCast, div_div, Nat.cast_mul, Nat.cast_pow, Nat.cast_two,
      ← zpow_natCast, Int.toNat_of_nonneg hd]
  · next hd =>
    rw [Int.natCast_div, ← Rat.floor_natCast_div_natCast, div_right_comm, div_eq_mul_inv _ ((2 : ℚ) ^ d), ← zpow_neg,
      Nat.cast_mul, Nat.cast_pow, Nat.cast_two, ← zpow_natCast, Int.toNat_of_nonneg (by omega)]

/-- Scaled so that its leading 1 stands at bit `m`, a magnitude has `m + 1` bits before the point. -/
theorem IsLeadingExp.floor_bounds {e : Int} {x : ℚ} (h : IsLeadingExp e x) (m : Nat) :
    2 ^ m ≤ ⌊x / 2 ^ (e - m)⌋ ∧ ⌊x / 2 ^ (e - m)⌋ < 2 ^ (m + 1) := by
  obtain ⟨hlo, hhi⟩ := h
  have hscale : (0 : ℚ) < 2 ^ (e - m) := by positivity
  constructor
  · rw [Int.le_floor, le_div_iff₀ hscale]
    push_cast
    rw [← zpow_natCast, ← zpow_add₀ two_ne_zero]
    simpa using hlo
  · rw [Int.floor_lt, div_lt_iff₀ hscale]
    push_cast
    rwa [← zpow_natCast, ← zpow_add₀ two_ne_zero, Nat.cast_succ, add_right_comm, add_sub_cancel]

theorem encodeFields_zero (prec : Precision) (neg : Bool) (den : Nat) :
    encodeFields prec neg 0 den = .ok ⟨neg, 0, 0⟩ := rfl

section Leading

variable {num den : Nat} {e : Int} (prec : Precision) (neg : Bool)

/-- Encoding a magnitude whose leading 1 stands at `e` (41_ieee754_convert.md R136). -/
theorem encodeFields_of_isLeadingExp (h : IsLeadingExp e ((num : ℚ) / den)) : encodeFields prec neg num den =
    if (expMax prec : Int) ≤ e + expBias prec then .error .range
    else if e + expBias prec ≤ 0 then .error .range
    else .ok ⟨neg, (e + expBias prec).toNat, floorScaled num den (e - manWidth prec) - 2 ^ manWidth prec⟩ := by
  have hnum : num ≠ 0 := by
    rintro rfl
    simpa using h.pos
  have hden : den ≠ 0 := by
    rintro rfl
    simpa using h.pos
  have he : floorLog2 num den = e :=
    (floorLog2_isLeadingExp (Nat.pos_of_ne_zero hnum) (Nat.pos_of_ne_zero hden)).unique h
  rw [encodeFields, if_neg hnum]
  simp only [he]

/-- Too large, or below the normalized range (41_ieee754_convert.md R138). -/
theorem encodeFields_out_of_range (h : IsLeadingExp e ((num : ℚ) / den))
    (hrange : (expMax prec : Int) ≤ e + expBias prec ∨ e + expBias prec ≤ 0) :
    encodeFields prec neg num den = .error .range := by
  rw [encodeFields_of_isLeadingExp prec neg h]
  split_ifs with hmax hmin
  · rfl
  · rfl
  · exact absurd hrange (not_or.2 ⟨hmax, hmin⟩)

/-- In the normalized range the mantissa is truncated, and fits (41_ieee754_convert.md R136). -/
theorem encodeFields_in_range (h : IsLeadingExp e ((num : ℚ) / den)) (hmin : 0 < e + expBias prec)
    (hmax : e + expBias prec < expMax prec) :
    ∃ F : Nat, F < 2 ^ manWidth prec ∧
      (F : Int) = ⌊(num : ℚ) / den / 2 ^ (e - manWidth prec)⌋ - 2 ^ manWidth prec ∧
      encodeFields prec neg num den = .ok ⟨neg, (e + expBias prec).toNat, F⟩ := by
  obtain ⟨hlo, hhi⟩ := h.floor_bounds (manWidth prec)
  rw [← floorScaled_eq] at hlo hhi ⊢
  rw [encodeFields_of_isLeadingExp prec neg h, if_neg (not_le.2 hmax), if_neg (not_le.2 hmin)]
  have hlo' : 2 ^ manWidth prec ≤ floorScaled num den (e - manWidth prec) := mod_cast hlo
  have hhi' : floorScaled num den (e - manWidth prec) < 2 ^ (manWidth prec + 1) := mod_cast hhi
  refine ⟨_, ?_, ?_, rfl⟩
  · rw [Nat.pow_succ] at hhi'
    omega
  · push_cast [hlo']
    rfl

end Leading

theorem f754Encode_of_ok {prec : Precision} {opa : Text} {v : DecReal} (h : decRealOperand opa = .ok v) :
    f754Encode prec opa = encodeFields prec v.neg v.num (10 ^ v.scale) >>= fun x => pure (patternResults prec x) := by
  rw [f754Encode, h]
  rfl

/-- What F754.ENC computes for an operand whose fields are found. -/
theorem opResult_f754Enc {s : State} {prec : Precision} {v : DecReal} {x : FpFields}
    (hv : decRealOperand s.opa.content = .ok v) (hfields : encodeFields prec v.neg v.num (10 ^ v.scale) = .ok x) :
    opResult (.f754Enc prec) s = .ok (patternResults prec x) := by
  rw [opResult, f754Encode_of_ok hv, hfields]
  rfl

theorem f754Enc_fails {s : State} {prec : Precision} {v : DecReal} {e : Err}
    (hv : decRealOperand s.opa.content = .ok v) (hfields : encodeFields prec v.neg v.num (10 ^ v.scale) = .error e) :
    FailsWith (.f754Enc prec) s e := by
  refine failsWith_of_error _ _ _ ?_
  rw [opResult, f754Encode_of_ok hv, hfields]
  rfl

theorem f754Enc_fails_of_operand {s : State} (prec : Precision) {e : Err} (he : decRealOperand s.opa.content = .error e) :
    FailsWith (.f754Enc prec) s e := by
  refine failsWith_of_error _ _ _ ?_
  rw [opResult, f754Encode, he]
  rfl

/-- Settles O48: zero, the two refusals, and the truncated mantissa (`encodeFields_in_range`). -/
theorem f754EncRule : Obligations.F754EncRule := by
  unfold Obligations.F754EncRule
  refine fun s prec hs => ⟨?_, fun e he => f754Enc_fails_of_operand prec he, fun v x hv hx => ⟨fun hzero => ?_, ?_⟩⟩
  · rw [encode, commandWord_toNat]
    cases prec <;> rfl
  · have hnum : v.num = 0 := by
      rw [hx, div_eq_zero_iff] at hzero
      exact_mod_cast hzero.resolve_right (by positivity)
    exact deliversPattern_of_ok hs (zeroFields_inFormat prec v.neg)
      (opResult_f754Enc hv (by rw [hnum, encodeFields_zero]))
  · intro e hlo hhi
    have hcast : x = (v.num : ℚ) / (10 ^ v.scale : Nat) := by rw [hx, Nat.cast_pow, Nat.cast_ofNat]
    have hlead : IsLeadingExp e ((v.num : ℚ) / (10 ^ v.scale : Nat)) := hcast ▸ ⟨hlo, hhi⟩
    refine ⟨fun hmax => f754Enc_fails hv (encodeFields_out_of_range prec _ hlead (.inl hmax)),
      fun hmin => f754Enc_fails hv (encodeFields_out_of_range prec _ hlead (.inr hmin)), fun hmin hmax => ?_⟩
    obtain ⟨F, hF, hvalue, hfields⟩ := encodeFields_in_range prec v.neg hlead hmin hmax
    rw [hcast]
    exact ⟨F, hF, hvalue, deliversPattern_of_ok hs ⟨Int.toNat_le.2 hmax.le, hF⟩ (opResult_f754Enc hv hfields)⟩

end Sys2Proof.Machine
end

section
/-! PROOFS, the family 41_ieee754_convert. F754.DEC (41_ieee754_convert.md R133): the text of a finite pattern is its sign and
the expansion of its magnitude, which always fits; and the round trip through F754.ENC (R139). -/

namespace Sys2Proof.Machine

section FinitePattern

variable {prec : Precision} {x : FpFields}

/-- The text of a magnitude, the power of two on one side or the other of the fraction. -/
theorem fpMagnitudeText_eq (prec : Precision) (x : FpFields) : fpMagnitudeText prec x =
    decExpansion (significand prec x * 2 ^ (actualExp prec x - manWidth prec).toNat)
      (-(actualExp prec x - manWidth prec)).toNat := by
  rw [fpMagnitudeText]
  split
  · next he => rw [Int.toNat_eq_zero.2 (neg_nonpos.2 he)]
  · next he => rw [Int.toNat_eq_zero.2 (by omega : actualExp prec x - manWidth prec ≤ 0), Nat.pow_zero, Nat.mul_one]

/-- The fraction that the text of a magnitude expands is the magnitude (41_ieee754_convert.md R134). -/
theorem magnitude_eq_div (prec : Precision) (x : FpFields) : magnitude prec x =
    ((significand prec x * 2 ^ (actualExp prec x - manWidth prec).toNat : Nat) : ℚ) /
      2 ^ (-(actualExp prec x - manWidth prec)).toNat := by
  have hexp : actualExp prec x - manWidth prec = ((actualExp prec x - manWidth prec).toNat : Int) -
      ((-(actualExp prec x - manWidth prec)).toNat : Int) := (Int.toNat_sub_toNat_neg _).symm
  rw [magnitude_eq]
  conv_lhs => rw [hexp, zpow_sub₀ two_ne_zero, zpow_natCast, zpow_natCast]
  push_cast
  rw [mul_div_assoc]

theorem fpMagnitudeText_isDecExpansion (prec : Precision) (x : FpFields) :
    IsDecExpansion (magnitude prec x) (fpMagnitudeText prec x) := by
  rw [fpMagnitudeText_eq, magnitude_eq_div]
  exact decExpansion_isDecExpansion _ _

theorem significand_lt (hx : inFormat prec x) : significand prec x < 2 ^ (manWidth prec + 1) := by
  have hman := hx.2
  rw [significand, Nat.pow_succ]
  split_ifs <;> omega

/-- The longest text of a magnitude is that of a double denormalized number (41_ieee754_convert.md R133). -/
theorem fpMagnitudeText_length_le (hx : inFormat prec x) (hfinite : isFinite prec x) :
    (fpMagnitudeText prec x).length ≤ 1076 := by
  have hbound : significand prec x * 2 ^ (actualExp prec x - manWidth prec).toNat <
      2 ^ (manWidth prec + 1 + (actualExp prec x - manWidth prec).toNat) := by
    rw [Nat.pow_add 2 (manWidth prec + 1)]
    exact Nat.mul_lt_mul_of_pos_right (significand_lt hx) (Nat.two_pow_pos _)
  rw [fpMagnitudeText_eq]
  refine (decExpansion_length_le _ _ hbound).trans ?_
  rw [isFinite] at hfinite
  rw [actualExp_eq]
  cases prec <;> simp only [expMax, expWidth, manWidth, expBias] at hfinite ⊢ <;> omega

/-- The text of a finite pattern, zero included: its sign and its magnitude (41_ieee754_convert.md R133). -/
theorem fpDecimalText_of_isFinite (hfinite : isFinite prec x) :
    fpDecimalText prec x = signText x.sign ++ fpMagnitudeText prec x := by
  have hsigned (t : Text) : (if x.sign then chMinus :: t else t) = signText x.sign ++ t := by
    cases x.sign <;> rfl
  cases hclass : fpClass prec x with
  | infinity => exact absurd ((fpClass_infinity_iff prec x).1 hclass).1 hfinite.ne
  | nan => exact absurd ((fpClass_nan_iff prec x).1 hclass).1 hfinite.ne
  | zero =>
    obtain ⟨hexp, hman⟩ := (fpClass_zero_iff prec x).1 hclass
    have hzero : significand prec x = 0 := by simp [significand, hexp, hman]
    have htext (k : Nat) : decExpansion 0 k = [chZero] := by
      simp only [decExpansion, Nat.zero_mod, Nat.zero_div, if_true]
      rfl
    rw [fpMagnitudeText_eq, hzero, Nat.zero_mul, htext, ← hsigned]
    simp only [fpDecimalText, hclass]
  | denormalized => simp only [fpDecimalText, hclass, hsigned]
  | normalized => simp only [fpDecimalText, hclass, hsigned]

/-- An Infinity and a NaN have no text (41_ieee754_convert.md R133). -/
theorem fpDecimalText_of_special (h : fpClass prec x = .infinity ∨ fpClass prec x = .nan) : fpDecimalText prec x = [] := by
  rcases h with h | h <;> simp only [fpDecimalText, h]

/-- A pattern is finite or special (41_ieee754_convert.md R132). -/
theorem isFinite_or_special (hx : inFormat prec x) :
    isFinite prec x ∨ fpClass prec x = .infinity ∨ fpClass prec x = .nan := by
  rw [fpClass_infinity_iff, fpClass_nan_iff, ← and_or_left, isFinite]
  exact (Nat.lt_or_eq_of_le hx.1).imp_right fun h => ⟨h, em _⟩

theorem fpDecimalText_length_le (hx : inFormat prec x) : (fpDecimalText prec x).length ≤ 1077 := by
  rcases isFinite_or_special hx with hfinite | hspecial
  · have hsign : (signText x.sign).length ≤ 1 := by cases x.sign <;> decide
    have hmag := fpMagnitudeText_length_le hx hfinite
    rw [fpDecimalText_of_isFinite hfinite, List.length_append]
    omega
  · rw [fpDecimalText_of_special hspecial]
    exact Nat.zero_le _

end FinitePattern

/-- What F754.DEC delivers for a pattern operand (41_ieee754_convert.md R133): it always fits. -/
theorem f754Dec_completes {s : State} {prec : Precision} {ty : InType} {P : Bits} (hs : s.inv = true)
    (hP : patternOperand prec ty s.opa.content = .ok P) :
    Completes (.f754Dec prec ty) s
      { ra := fpDecimalText prec (splitPattern prec P), rb := bitsText P,
        aux0 := BitVec.ofNat 32 (splitPattern prec P).exp, aux1 := fpAux1 prec (splitPattern prec P),
        flags := fpFlags prec (splitPattern prec P) } := by
  have hlen := patternOperand_length hP
  refine completes_of_le_bufmax hs ?_ (fpDecimalText_length_le (splitPattern_inFormat hlen)) ?_
  · rw [opResult, f754Decode, hP]
    rfl
  · rw [bitsText_length, hlen]
    exact (patternWidth_le prec).trans (by decide)

/-- Settles O47: the text is the sign and the expansion of the magnitude (`fpDecimalText_of_isFinite`,
`fpMagnitudeText_isDecExpansion`). -/
theorem f754DecRule : Obligations.F754DecRule := by
  unfold Obligations.F754DecRule
  refine fun s prec ty hs => ⟨?_, fun e he => failsWith_of_error _ _ _ ?_, fun P hP => patternOperand_length hP, ?_⟩
  · rw [encode, commandWord_toNat]
    cases prec <;> cases ty <;> rfl
  · rw [opResult, f754Decode, he]
    rfl
  · rintro P x hP rfl
    refine ⟨_, _, f754Dec_completes hs hP, fun hclass => ⟨fpDecimalText_of_special hclass, ?_⟩, fun hclass => ?_,
      fun hclass => ?_, fun hclass => ?_, fun hclass => ⟨_, fpDecimalText_of_isFinite ?_,
        fpMagnitudeText_isDecExpansion _ _⟩⟩
    · rcases hclass with hclass | hclass <;> simp only [fpAux1, hclass]
    · simp only [fpDecimalText, fpAux1, hclass, and_true]
      rfl
    · have hexp := ((fpClass_denormalized_iff _ _).1 hclass).1
      simp only [fpAux1, hclass, actualExp_eq, hexp]
      rfl
    · have hexp := ((fpClass_normalized_iff _ _).1 hclass).1
      simp only [fpAux1, hclass, actualExp_eq, max_eq_left (Nat.one_le_iff_ne_zero.2 hexp)]
    · rcases isFinite_or_special (splitPattern_inFormat (patternOperand_length hP)) with hfinite | hspecial
      · exact hfinite
      · rcases hclass with hclass | hclass <;> simp [hclass] at hspecial

section RoundTrip

variable {prec : Precision} {x : FpFields}

/-- Format DECREAL reads the text of a finite pattern as its sign and its magnitude. -/
theorem decRealOperand_fpDecimalText (hfinite : isFinite prec x) :
    ∃ v, decRealOperand (fpDecimalText prec x) = .ok v ∧ v.neg = x.sign ∧
      (v.num : ℚ) / (10 ^ v.scale : Nat) = magnitude prec x := by
  rw [fpDecimalText_of_isFinite hfinite, fpMagnitudeText_eq]
  refine ⟨_, decRealOperand_decExpansion _ _ x.sign, rfl, ?_⟩
  rw [Nat.cast_pow, Nat.cast_ofNat, magnitude_eq_div]
  exact expansionNum_div _ _

/-- The leading 1 of a normalized number stands at its actual exponent (41_ieee754_convert.md R132). -/
theorem magnitude_isLeadingExp (hman : x.man < 2 ^ manWidth prec) (hexp : x.exp ≠ 0) :
    IsLeadingExp ((x.exp : Int) - expBias prec) (magnitude prec x) := by
  have hlo : (2 : ℚ) ^ manWidth prec ≤ significand prec x := by
    exact_mod_cast (by simp [significand, hexp] : 2 ^ manWidth prec ≤ significand prec x)
  have hhi : (significand prec x : ℚ) < 2 ^ (manWidth prec + 1) := by
    exact_mod_cast (by simp [significand, hexp, Nat.pow_succ]; omega : significand prec x < 2 ^ (manWidth prec + 1))
  rw [magnitude_eq, actualExp_eq, max_eq_left (Nat.one_le_iff_ne_zero.2 hexp)]
  generalize (x.exp : Int) - expBias prec = e
  have hscale : (0 : ℚ) < 2 ^ (e - manWidth prec) := by positivity
  have hsplit (n : Int) : (2 : ℚ) ^ (e + n) = 2 ^ (manWidth prec + n : Int) * 2 ^ (e - manWidth prec) := by
    rw [← zpow_add₀ two_ne_zero]
    congr 1
    ring
  constructor
  · rw [← add_zero e, hsplit, add_zero, add_zero, zpow_natCast]
    exact mul_le_mul_of_nonneg_right hlo hscale.le
  · rw [hsplit, ← Nat.cast_succ, zpow_natCast]
    exact mul_lt_mul_of_pos_right hhi hscale

/-- The text of a normalized number encodes to its fields (41_ieee754_convert.md R139). -/
theorem encodeFields_of_normalized {neg : Bool} {num den : Nat} (hx : inFormat prec x)
    (hclass : fpClass prec x = .normalized) (hvalue : (num : ℚ) / den = magnitude prec x) :
    encodeFields prec neg num den = .ok ⟨neg, x.exp, x.man⟩ := by
  obtain ⟨hexp, hmax⟩ := (fpClass_normalized_iff prec x).1 hclass
  have hlead : IsLeadingExp ((x.exp : Int) - expBias prec) ((num : ℚ) / den) :=
    hvalue ▸ magnitude_isLeadingExp hx.2 hexp
  obtain ⟨F, -, hF, hfields⟩ := encodeFields_in_range prec neg hlead (by omega)
    (by have hle := hx.1; omega)
  have hfloor : ⌊(num : ℚ) / den / 2 ^ ((x.exp : Int) - expBias prec - manWidth prec)⌋ = significand prec x := by
    rw [hvalue, magnitude_eq, actualExp_eq, max_eq_left (Nat.one_le_iff_ne_zero.2 hexp),
      mul_div_cancel_right₀ _ (by positivity), Int.floor_natCast]
  have hman : F = x.man := by
    rw [hfloor, significand, if_pos hexp] at hF
    push_cast at hF
    omega
  rw [hfields, hman, sub_add_cancel, Int.toNat_natCast]

/-- A denormalized number is below the normalized range (41_ieee754_convert.md R138, R139). -/
theorem encodeFields_of_denormalized {neg : Bool} {num den : Nat} (hx : inFormat prec x)
    (hclass : fpClass prec x = .denormalized) (hden : 0 < den) (hvalue : (num : ℚ) / den = magnitude prec x) :
    encodeFields prec neg num den = .error .range := by
  obtain ⟨hexp, hman⟩ := (fpClass_denormalized_iff prec x).1 hclass
  have hmag : magnitude prec x = (x.man : ℚ) * 2 ^ (1 - (expBias prec : Int) - manWidth prec) := by
    simp [magnitude, hexp]
  have hpos : (0 : ℚ) < x.man := mod_cast Nat.pos_of_ne_zero hman
  have hsmall : magnitude prec x < 2 ^ (-(expBias prec : Int) + 1) := by
    have hlt : (x.man : ℚ) < 2 ^ manWidth prec := mod_cast hx.2
    calc magnitude prec x < 2 ^ manWidth prec * 2 ^ (1 - (expBias prec : Int) - manWidth prec) := by
          rw [hmag]
          exact mul_lt_mul_of_pos_right hlt (by positivity)
      _ = 2 ^ (-(expBias prec : Int) + 1) := by
          rw [← zpow_natCast, ← zpow_add₀ two_ne_zero]
          congr 1
          ring
  have hnum : 0 < num := by
    refine Nat.pos_of_ne_zero fun hzero => ?_
    rw [hzero, Nat.cast_zero, zero_div, hmag] at hvalue
    exact (by positivity : (x.man : ℚ) * 2 ^ (1 - (expBias prec : Int) - manWidth prec) ≠ 0) hvalue.symm
  have hlead := floorLog2_isLeadingExp hnum hden
  have hle := hlead.le_of_lt (hvalue ▸ hsmall)
  exact encodeFields_out_of_range prec neg hlead (.inr (by omega))

/-- A zero encodes to its fields (41_ieee754_convert.md R139). -/
theorem encodeFields_of_zero {neg : Bool} {num den : Nat} (hclass : fpClass prec x = .zero) (hden : 0 < den)
    (hvalue : (num : ℚ) / den = magnitude prec x) : encodeFields prec neg num den = .ok ⟨neg, x.exp, x.man⟩ := by
  obtain ⟨hexp, hman⟩ := (fpClass_zero_iff prec x).1 hclass
  have hmag : magnitude prec x = 0 := by simp [magnitude, hexp, hman]
  have hnum : num = 0 := by
    rw [hmag, div_eq_zero_iff] at hvalue
    exact_mod_cast hvalue.resolve_right (by positivity)
  rw [hnum, encodeFields_zero, hexp, hman]

end RoundTrip

/-- Settles O49: F754.ENC reads the exact magnitude back, and each class of finite patterns encodes as its lemma says. -/
theorem f754RoundTrip : Obligations.F754RoundTrip := by
  unfold Obligations.F754RoundTrip
  intro s u prec ty P hs hu hP
  have hlen := patternOperand_length hP
  have hx := splitPattern_inFormat hlen
  obtain ⟨t, hexec, -, -, hshows⟩ := f754Dec_completes hs hP
  refine ⟨t, hexec, hshows.err, fun htext => ?_⟩
  rw [hshows.ra.content] at htext
  refine ⟨fun hclass => ?_, fun hclass => ?_, fun hclass => f754Enc_fails_of_operand prec ?_⟩
  · have hfinite : isFinite prec (splitPattern prec P) := (isFinite_or_special hx).resolve_right (by
      rcases hclass with hclass | hclass <;> simp [hclass])
    obtain ⟨v, hv, hneg, hvalue⟩ := decRealOperand_fpDecimalText hfinite
    have hfields : encodeFields prec v.neg v.num (10 ^ v.scale) = .ok (splitPattern prec P) := by
      rw [hneg]
      rcases hclass with hclass | hclass
      · exact encodeFields_of_normalized hx hclass hvalue
      · exact encodeFields_of_zero hclass (by positivity) hvalue
    obtain ⟨t', hexec', -, -, hshows'⟩ := completes_patternResults hu (opResult_f754Enc (htext ▸ hv) hfields)
    exact ⟨t', hexec', hshows'.err, by rw [hshows'.ra.content, patternResults, packPattern_splitPattern hlen]⟩
  · have hfinite : isFinite prec (splitPattern prec P) := (isFinite_or_special hx).resolve_right (by simp [hclass])
    obtain ⟨v, hv, -, hvalue⟩ := decRealOperand_fpDecimalText hfinite
    exact f754Enc_fails (htext ▸ hv) (encodeFields_of_denormalized hx hclass (by positivity) hvalue)
  · rw [htext, fpDecimalText_of_special hclass]
    rfl

end Sys2Proof.Machine
end

section
/-! PROOFS, the family 42_ieee754_add. Step 1 of F754.ADD (42_ieee754_add.md R151, R153), one rule per special case, and the
symmetry of every step in its operands (R160). -/

namespace Sys2Proof.Machine

section Specials

variable (c : Config) {prec : Precision} {a b : FpFields}

theorem addSpecial_of_nan (h : fpClass prec a = .nan ∨ fpClass prec b = .nan) :
    addSpecial c prec a b = some (canonicalNan c prec) := if_pos h

theorem addSpecial_of_infinities (ha : fpClass prec a = .infinity) (hb : fpClass prec b = .infinity) :
    addSpecial c prec a b = some (if a.sign = b.sign then a else canonicalNan c prec) := by
  simp [addSpecial, ha, hb]

theorem addSpecial_of_infinity_left (ha : fpClass prec a = .infinity) (hinf : fpClass prec b ≠ .infinity)
    (hnan : fpClass prec b ≠ .nan) : addSpecial c prec a b = some a := by
  simp [addSpecial, ha, hinf, hnan]

theorem addSpecial_of_infinity_right (hb : fpClass prec b = .infinity) (hinf : fpClass prec a ≠ .infinity)
    (hnan : fpClass prec a ≠ .nan) : addSpecial c prec a b = some b := by
  simp [addSpecial, hb, hinf, hnan]

theorem addSpecial_of_zeros (ha : fpClass prec a = .zero) (hb : fpClass prec b = .zero) :
    addSpecial c prec a b = some ⟨a.sign && b.sign, 0, 0⟩ := by
  simp [addSpecial, ha, hb]

theorem addSpecial_of_zero_left (ha : fpClass prec a = .zero) (hzero : fpClass prec b ≠ .zero)
    (hnan : fpClass prec b ≠ .nan) : addSpecial c prec a b = some b := by
  simp [addSpecial, ha, hzero, hnan]

theorem addSpecial_of_zero_right (hb : fpClass prec b = .zero) (hzero : fpClass prec a ≠ .zero)
    (hnan : fpClass prec a ≠ .nan) : addSpecial c prec a b = some a := by
  simp [addSpecial, hb, hzero, hnan]

/-- The operands that need arithmetic are finite and not zero. -/
theorem addSpecial_eq_none (hanan : fpClass prec a ≠ .nan) (hainf : fpClass prec a ≠ .infinity)
    (hazero : fpClass prec a ≠ .zero) (hbnan : fpClass prec b ≠ .nan) (hbinf : fpClass prec b ≠ .infinity)
    (hbzero : fpClass prec b ≠ .zero) : addSpecial c prec a b = none := by
  simp [addSpecial, hanan, hainf, hazero, hbnan, hbinf, hbzero]

theorem addFields_of_addSpecial {x : FpFields} (h : addSpecial c prec a b = some x) : addFields c prec a b = x := by
  simp only [addFields, h]

end Specials

/-- Two infinities of one sign are one pattern. -/
theorem eq_of_infinities {prec : Precision} {a b : FpFields} (ha : fpClass prec a = .infinity)
    (hb : fpClass prec b = .infinity) (hsign : a.sign = b.sign) : a = b := by
  obtain ⟨hae, ham⟩ := (fpClass_infinity_iff prec a).1 ha
  obtain ⟨hbe, hbm⟩ := (fpClass_infinity_iff prec b).1 hb
  cases a
  cases b
  simp_all

/-- Step 1 does not depend on the order of the operands: its rules come in pairs. -/
theorem addSpecial_comm (c : Config) (prec : Precision) (a b : FpFields) :
    addSpecial c prec a b = addSpecial c prec b a := by
  by_cases hnan : fpClass prec a = .nan ∨ fpClass prec b = .nan
  · rw [addSpecial_of_nan c hnan, addSpecial_of_nan c hnan.symm]
  obtain ⟨hanan, hbnan⟩ := not_or.1 hnan
  by_cases hainf : fpClass prec a = .infinity <;> by_cases hbinf : fpClass prec b = .infinity
  · rw [addSpecial_of_infinities c hainf hbinf, addSpecial_of_infinities c hbinf hainf]
    by_cases hsign : a.sign = b.sign
    · rw [eq_of_infinities hainf hbinf hsign]
    · rw [if_neg hsign, if_neg (Ne.symm hsign)]
  · rw [addSpecial_of_infinity_left c hainf hbinf hbnan, addSpecial_of_infinity_right c hainf hbinf hbnan]
  · rw [addSpecial_of_infinity_right c hbinf hainf hanan, addSpecial_of_infinity_left c hbinf hainf hanan]
  by_cases hazero : fpClass prec a = .zero <;> by_cases hbzero : fpClass prec b = .zero
  · rw [addSpecial_of_zeros c hazero hbzero, addSpecial_of_zeros c hbzero hazero, Bool.and_comm]
  · rw [addSpecial_of_zero_left c hazero hbzero hbnan, addSpecial_of_zero_right c hazero hbzero hbnan]
  · rw [addSpecial_of_zero_right c hbzero hazero hanan, addSpecial_of_zero_left c hbzero hazero hanan]
  · rw [addSpecial_eq_none c hanan hainf hazero hbnan hbinf hbzero,
      addSpecial_eq_none c hbnan hbinf hbzero hanan hainf hazero]

@[simp] theorem stickyShift_zero (X : Nat) : stickyShift X 0 = X := rfl

/-- Step 2 shifts the operand with the smaller exponent, in either order. -/
theorem addAlign_swap (prec : Precision) (a b : FpFields) :
    addAlign prec b a = ((addAlign prec a b).2.1, (addAlign prec a b).1, (addAlign prec a b).2.2) := by
  rcases lt_trichotomy (effExp a) (effExp b) with h | h | h
  · simp [addAlign, h.le, h.not_ge]
  · simp [addAlign, h]
  · simp [addAlign, h.le, h.not_ge]

theorem magnitudeGt_eq_true_iff (prec : Precision) (a b : FpFields) : magnitudeGt prec a b = true ↔
    effExp b < effExp a ∨ (effExp a = effExp b ∧ significand prec b < significand prec a) := decide_eq_true_iff

/-- The order of step 3 is total: of two operands that differ in it, exactly one is the larger. -/
theorem magnitudeGt_swap {prec : Precision} {a b : FpFields}
    (h : ¬(effExp a = effExp b ∧ significand prec a = significand prec b)) :
    magnitudeGt prec b a = !magnitudeGt prec a b := by
  rw [Bool.eq_iff_iff, Bool.not_eq_true', ← Bool.not_eq_true, magnitudeGt_eq_true_iff, magnitudeGt_eq_true_iff]
  omega

/-- Step 3 adds or subtracts the smaller from the larger, in either order. -/
theorem addMagnitudes_swap (prec : Precision) (a b : FpFields) (Xa Xb : Nat) :
    addMagnitudes prec b a Xb Xa = addMagnitudes prec a b Xa Xb := by
  by_cases hsign : a.sign = b.sign
  · simp [addMagnitudes, hsign, Nat.add_comm]
  by_cases hsame : effExp a = effExp b ∧ significand prec a = significand prec b
  · simp [addMagnitudes, hsign, Ne.symm hsign, hsame]
  · have hsame' : ¬(effExp b = effExp a ∧ significand prec b = significand prec a) := by
      rwa [eq_comm, eq_comm (a := significand prec b)]
    rw [addMagnitudes, addMagnitudes, if_neg hsign, if_neg (Ne.symm hsign), if_neg hsame, if_neg hsame',
      magnitudeGt_swap hsame]
    cases magnitudeGt prec a b <;> rfl

theorem addFields_comm (c : Config) (prec : Precision) (a b : FpFields) :
    addFields c prec a b = addFields c prec b a := by
  simp only [addFields, addSpecial_comm c prec b a, addAlign_swap prec a b, addMagnitudes_swap prec a b]

/-- Settles O51: every step is symmetric (`addFields_comm`), and one sum ends in one set of results. -/
theorem f754AddCommutes : Obligations.F754AddCommutes := by
  unfold Obligations.F754AddCommutes
  refine ⟨addFields_comm, fun s s' t t' prec ty A B hs hs' hcfg hA hB hopa hopb ht ht' => ?_⟩
  have hsum : opResult (.f754Add prec ty) s = opResult (.f754Add prec ty) s' := by
    simp only [opResult, f754Add, hopa, hopb, hA, hB, ← hcfg]
    exact congrArg (fun x => Except.ok (patternResults prec x)) (addFields_comm _ _ _ _)
  rw [exec_eq] at ht ht'
  injection ht with ht
  injection ht' with ht'
  obtain ⟨err, r, hfinish⟩ := State.finish_eq_complete_of_cfg s.cfg (opResult (.f754Add prec ty) s)
  rw [← ht, ← ht', ← hsum, hfinish s rfl, hfinish s' hcfg.symm]
  exact (s.complete_sameResults s' err r hs hs').withFreeCount _ _

/-- A word of three adjacent fields is their weighted sum. -/
theorem toNat_eq_fields {ew m : Nat} (P : BitVec (1 + ew + m)) :
    (if P.getLsbD (ew + m) then 2 ^ (ew + m) else 0) + (P.extractLsb' m ew).toNat * 2 ^ m +
      (P.extractLsb' 0 m).toNat = P.toNat := by
  have htop : P.toNat / 2 ^ m / 2 ^ ew < 2 := by
    rw [Nat.div_div_eq_div_mul, ← Nat.pow_add, Nat.div_lt_iff_lt_mul (Nat.two_pow_pos _), ← Nat.pow_succ']
    exact P.isLt.trans_eq (by congr 1; omega)
  have hsign : (if P.getLsbD (ew + m) then 2 ^ (ew + m) else 0) = P.toNat / 2 ^ m / 2 ^ ew * 2 ^ (ew + m) := by
    rw [BitVec.getLsbD, Nat.testBit_eq_decide_div_mod_eq, Nat.add_comm ew, Nat.pow_add 2 m, ← Nat.div_div_eq_div_mul,
      Nat.mod_eq_of_lt htop]
    generalize P.toNat / 2 ^ m / 2 ^ ew = t at htop
    interval_cases t <;> simp
  rw [hsign, BitVec.extractLsb'_toNat, BitVec.extractLsb'_toNat, Nat.shiftRight_zero, Nat.shiftRight_eq_div_pow,
    Nat.pow_add, ← Nat.mul_assoc, ← Nat.add_mul, Nat.div_add_mod', Nat.div_add_mod']

/-- A configuration's NaN has the class NaN (00_scope.md R5). -/
theorem fpClass_canonicalNan {c : Config} (hc : c.wf = true) (prec : Precision) :
    fpClass prec (canonicalNan c prec) = .nan := by
  simp only [Config.wf, Bool.and_eq_true, decide_eq_true_eq] at hc
  obtain ⟨⟨⟨⟨-, hsexp⟩, hsman⟩, hdexp⟩, hdman⟩ := hc
  rw [fpClass_nan_iff]
  cases prec with
  | single => exact ⟨congrArg BitVec.toNat hsexp, fun h => hsman (BitVec.eq_of_toNat_eq h)⟩
  | double => exact ⟨congrArg BitVec.toNat hdexp, fun h => hdman (BitVec.eq_of_toNat_eq h)⟩

/-- Settles O52: each case is a rule of step 1, in either order of the operands (`addFields_comm`). -/
theorem f754AddSpecials : Obligations.F754AddSpecials := by
  unfold Obligations.F754AddSpecials
  refine fun c prec a b hc => ⟨fpClass_canonicalNan hc prec, canonicalNan_inFormat c prec,
    toNat_eq_fields (ew := 8) (m := 23) c.nanSingle, toNat_eq_fields (ew := 11) (m := 52) c.nanDouble,
    fun hnan => addFields_of_addSpecial c (addSpecial_of_nan c hnan),
    fun ha hb => ?_, fun ha hinf hnan => ?_, fun ha hzero hnan => ?_,
    fun ha hb => addFields_of_addSpecial c (addSpecial_of_zeros c ha hb)⟩
  · rw [addFields_of_addSpecial c (addSpecial_of_infinities c ha hb)]
    exact ⟨fun hsign => if_pos hsign, fun hsign => if_neg hsign⟩
  · rw [addFields_comm c prec b a, and_self]
    exact addFields_of_addSpecial c (addSpecial_of_infinity_left c ha hinf hnan)
  · rw [addFields_comm c prec b a, and_self]
    exact addFields_of_addSpecial c (addSpecial_of_zero_left c ha hzero hnan)

end Sys2Proof.Machine
end

section
/-! PROOFS, the family 42_ieee754_add. The sticky bit (42_ieee754_add.md R152): a working significand stands for an exact
rational of which its last bit says only whether anything is left. -/

namespace Sys2Proof.Machine

/-- `T` stands for `t ≥ 0`, its bit 0 being sticky (42_ieee754_add.md R152): an even `T` is exact, an odd one is the only
integer of its kind next to `t`. -/
structure IsSticky (t : ℚ) (T : Nat) : Prop where
  lower : (T : ℚ) < t + 1
  upper : t < T + 1
  exact_of_even : T % 2 = 0 → t = T

theorem isSticky_two_mul_iff (t : ℚ) (k : Nat) : IsSticky t (2 * k) ↔ t = 2 * k := by
  constructor
  · intro h
    simpa using h.exact_of_even (Nat.mul_mod_right 2 k)
  · rintro rfl
    exact ⟨by push_cast; linarith, by push_cast; linarith, fun _ => by push_cast; rfl⟩

theorem isSticky_two_mul_add_one_iff (t : ℚ) (k : Nat) : IsSticky t (2 * k + 1) ↔ 2 * k < t ∧ t < 2 * k + 2 := by
  constructor
  · rintro ⟨hlo, hhi, -⟩
    push_cast at hlo hhi
    exact ⟨by linarith, by linarith⟩
  · rintro ⟨hlo, hhi⟩
    exact ⟨by push_cast; linarith, by push_cast; linarith, fun h => by omega⟩

theorem isSticky_natCast (T : Nat) : IsSticky T T := ⟨by linarith, by linarith, fun _ => rfl⟩

namespace IsSticky

variable {t : ℚ} {T : Nat}

/-- The bits above the sticky bit are those of the exact value. -/
theorem div_two_eq_floor (h : IsSticky t T) : ((T / 2 : Nat) : Int) = ⌊t / 2⌋ := by
  symm
  obtain ⟨k, rfl | rfl⟩ := Nat.even_or_odd' T
  · rw [isSticky_two_mul_iff] at h
    rw [h, Nat.mul_div_cancel_left k two_pos, mul_div_cancel_left₀ _ two_ne_zero, Int.floor_natCast]
  · rw [isSticky_two_mul_add_one_iff] at h
    rw [Nat.mul_add_div two_pos, Int.floor_eq_iff]
    push_cast
    constructor <;> linarith [h.1, h.2]

/-- The sticky bit says whether anything lies below the bits above it. -/
theorem odd_iff_fract (h : IsSticky t T) : T % 2 = 1 ↔ Int.fract (t / 2) ≠ 0 := by
  obtain ⟨k, rfl | rfl⟩ := Nat.even_or_odd' T
  · rw [isSticky_two_mul_iff] at h
    simp [h]
  · have hfloor := h.div_two_eq_floor
    rw [Nat.mul_add_div two_pos] at hfloor
    rw [isSticky_two_mul_add_one_iff] at h
    refine iff_of_true (by omega) fun hzero => ?_
    rw [Int.fract, ← hfloor] at hzero
    push_cast at hzero
    linarith [h.1]

/-- The upper bits and the sticky bit of `2 (n + g)`: those of the integer `n` and the rest `g` apart. -/
theorem div_two_and_odd_iff {n : Nat} {g : ℚ} (h : IsSticky (2 * (n + g)) T) :
    ((T / 2 : Nat) : Int) = n + ⌊g⌋ ∧ (T % 2 = 1 ↔ Int.fract g ≠ 0) := by
  have hfloor := h.div_two_eq_floor
  have hodd := h.odd_iff_fract
  rw [mul_div_cancel_left₀ _ two_ne_zero] at hfloor hodd
  rw [Int.floor_natCast_add] at hfloor
  rw [Int.fract_natCast_add] at hodd
  exact ⟨hfloor, hodd⟩

/-- Even bounds are kept. -/
theorem two_mul_le_iff (h : IsSticky t T) (n : Nat) : 2 * n ≤ T ↔ (2 * n : ℚ) ≤ t := by
  have hfloor := h.div_two_eq_floor
  have hn : 2 * n ≤ T ↔ (n : Int) ≤ ⌊t / 2⌋ := by
    rw [← hfloor]
    omega
  rw [hn, Int.le_floor, le_div_iff₀ two_pos, Int.cast_natCast, mul_comm]

theorem two_pow_le_iff (h : IsSticky t T) {k : Nat} (hk : k ≠ 0) : 2 ^ k ≤ T ↔ (2 : ℚ) ^ k ≤ t := by
  obtain ⟨j, rfl⟩ := Nat.exists_eq_succ_of_ne_zero hk
  rw [Nat.pow_succ', h.two_mul_le_iff, pow_succ']
  push_cast
  rfl

theorem two_mul_add (h : IsSticky t T) (n : Nat) : IsSticky (2 * n + t) (2 * n + T) := by
  obtain ⟨hlo, hhi, hexact⟩ := h
  refine ⟨by push_cast; linarith, by push_cast; linarith, fun heven => ?_⟩
  rw [hexact (by omega)]
  push_cast
  rfl

theorem le_two_mul (h : IsSticky t T) {n : Nat} (hle : t ≤ 2 * n) : T ≤ 2 * n := by
  obtain ⟨hlo, -, hexact⟩ := h
  have hlt : T < 2 * n + 1 := by
    have : (T : ℚ) < 2 * n + 1 := by linarith
    exact_mod_cast this
  omega

theorem two_mul_sub (h : IsSticky t T) {n : Nat} (hle : t ≤ 2 * n) : IsSticky (2 * n - t) (2 * n - T) := by
  have hT := h.le_two_mul hle
  obtain ⟨hlo, hhi, hexact⟩ := h
  refine ⟨by push_cast [hT]; linarith, by push_cast [hT]; linarith, fun heven => ?_⟩
  rw [hexact (by omega)]
  push_cast [hT]
  rfl

end IsSticky

theorem stickyShift_of_dvd {X d : Nat} (h : 2 ^ d ∣ X) : stickyShift X d = X / 2 ^ d := by
  rw [stickyShift]
  split
  · next hd => rw [hd, Nat.pow_zero, Nat.div_one]
  · rw [if_pos (Nat.mod_eq_zero_of_dvd h), Nat.or_zero]

theorem stickyShift_of_not_dvd {X d : Nat} (h : ¬2 ^ d ∣ X) : stickyShift X d = 2 * (X / 2 ^ d / 2) + 1 := by
  have hd : d ≠ 0 := by
    rintro rfl
    exact h (one_dvd X)
  have hdiv : (X / 2 ^ d ||| 1) / 2 = X / 2 ^ d / 2 := by
    rw [Nat.or_div_two]
    exact Nat.or_zero _
  have hmod : (X / 2 ^ d ||| 1) % 2 = 1 := by
    rw [Nat.mod_two_eq_one_iff_testBit_zero, Nat.testBit_or, Nat.testBit_one_zero, Bool.or_true]
  rw [stickyShift, if_neg hd, if_neg (mt Nat.dvd_of_mod_eq_zero h)]
  omega

/-- The shift that keeps the sticky bit (42_ieee754_add.md R152) divides what the significand stands for. -/
theorem IsSticky.shift {t : ℚ} {X : Nat} (h : IsSticky t X) {d : Nat} (hd : d ≠ 0) :
    IsSticky (t / 2 ^ d) (stickyShift X d) := by
  have hpos : (0 : ℚ) < 2 ^ d := by positivity
  by_cases hdvd : 2 ^ d ∣ X
  · rw [stickyShift_of_dvd hdvd, h.exact_of_even (Nat.mod_eq_zero_of_dvd ((dvd_pow_self 2 hd).trans hdvd))]
    have hcast : ((X / 2 ^ d : Nat) : ℚ) = X / 2 ^ d := by
      rw [Nat.cast_div hdvd (by positivity), Nat.cast_pow, Nat.cast_two]
    exact hcast ▸ isSticky_natCast _
  · rw [stickyShift_of_not_dvd hdvd, isSticky_two_mul_add_one_iff]
    generalize hk : X / 2 ^ d = k
    have hlo : 2 ^ d * k + 1 ≤ X := by
      have hmod : X % 2 ^ d ≠ 0 := mt Nat.dvd_of_mod_eq_zero hdvd
      have := Nat.div_add_mod X (2 ^ d)
      rw [hk] at this
      omega
    have hhi : X + 1 ≤ 2 ^ d * (k + 1) := hk ▸ Nat.lt_mul_div_succ X (Nat.two_pow_pos d)
    obtain ⟨hhalf, hhalf'⟩ : 2 * (k / 2) ≤ k ∧ k ≤ 2 * (k / 2) + 1 := by omega
    generalize k / 2 = j at hhalf hhalf'
    qify at hlo hhi hhalf hhalf'
    rw [lt_div_iff₀ hpos, div_lt_iff₀ hpos, mul_comm, mul_comm _ ((2 : ℚ) ^ d)]
    have hlower := h.lower
    have hupper := h.upper
    constructor
    · linarith [mul_le_mul_of_nonneg_left hhalf hpos.le]
    · linarith [mul_le_mul_of_nonneg_left hhalf' hpos.le]

/-- A working significand of `t` in step 6: `T` itself, or after a left shift of step 4 twice a significand that is sticky
(42_ieee754_add.md R156). -/
def HoldsTail (left : Prop) (t : ℚ) (T : Nat) : Prop :=
  (¬left ∧ IsSticky t T) ∨ (left ∧ ∃ U, T = 2 * U ∧ IsSticky (t / 2) U)

/-- What is read of the working significand of `8 (q + f)` in step 6 (42_ieee754_add.md R158): the mantissa `q`, and G, R and
S as the bits of the tail `f`. -/
structure ReadsTail (left : Prop) (q : Nat) (f : ℚ) (T : Nat) : Prop where
  mantissa : T / 8 = q
  guard : T.testBit 2 = true ↔ 1 / 2 ≤ f
  round : T.testBit 1 = true ↔ tailR left f
  sticky : T.testBit 0 = true ↔ tailS left f

theorem testBit_eq_true_iff (T i : Nat) : T.testBit i = true ↔ T / 2 ^ i % 2 = 1 := by
  rw [Nat.testBit_eq_decide_div_mod_eq, decide_eq_true_iff]

theorem readsTail_of_isSticky {left : Prop} (hleft : ¬left) {q T : Nat} {f : ℚ} (hf0 : 0 ≤ f) (hf1 : f < 1)
    (h : IsSticky (8 * (q + f)) T) : ReadsTail left q f T := by
  have hunits : 8 * (q + f) = 2 * ((4 * q : Nat) + 4 * f) := by
    push_cast
    ring
  obtain ⟨hfloor, hodd⟩ := (hunits ▸ h).div_two_and_odd_iff
  have hlo : 0 ≤ ⌊4 * f⌋ := Int.floor_nonneg.2 (by linarith)
  have hhi : ⌊4 * f⌋ < 4 := Int.floor_lt.2 (by push_cast; linarith)
  have hguard : 1 / 2 ≤ f ↔ 2 ≤ ⌊4 * f⌋ := by
    rw [Int.le_floor]
    push_cast
    constructor <;> intro <;> linarith
  refine ⟨by omega, ?_, ?_, ?_⟩
  · rw [testBit_eq_true_iff, hguard]
    omega
  · rw [testBit_eq_true_iff, tailR]
    simp only [hleft, false_and, not_false_eq_true, true_and, false_or]
    omega
  · rw [testBit_eq_true_iff, tailS, pow_zero, Nat.div_one, hodd]
    simp only [hleft, not_false_eq_true, true_and]

theorem readsTail_of_left {left : Prop} (hleft : left) {q U : Nat} {f : ℚ} (hf0 : 0 ≤ f) (hf1 : f < 1)
    (h : IsSticky (4 * (q + f)) U) : ReadsTail left q f (2 * U) := by
  have hunits : 4 * (q + f) = 2 * ((2 * q : Nat) + 2 * f) := by
    push_cast
    ring
  obtain ⟨hfloor, hodd⟩ := (hunits ▸ h).div_two_and_odd_iff
  have hlo : 0 ≤ ⌊2 * f⌋ := Int.floor_nonneg.2 (by linarith)
  have hhi : ⌊2 * f⌋ < 2 := Int.floor_lt.2 (by push_cast; linarith)
  have hguard : 1 / 2 ≤ f ↔ 1 ≤ ⌊2 * f⌋ := by
    rw [Int.le_floor]
    push_cast
    constructor <;> intro <;> linarith
  refine ⟨by omega, ?_, ?_, ?_⟩
  · rw [testBit_eq_true_iff, hguard]
    omega
  · rw [testBit_eq_true_iff, tailR, ← hodd]
    simp only [hleft, not_true_eq_false, false_and, true_and, or_false]
    omega
  · rw [testBit_eq_true_iff, tailS]
    simp only [hleft, not_true_eq_false, false_and, iff_false]
    omega

theorem HoldsTail.reads {left : Prop} {q T : Nat} {f : ℚ} (hf0 : 0 ≤ f) (hf1 : f < 1)
    (h : HoldsTail left (8 * (q + f)) T) : ReadsTail left q f T := by
  obtain ⟨hleft, hT⟩ | ⟨hleft, U, rfl, hU⟩ := h
  · exact readsTail_of_isSticky hleft hf0 hf1 hT
  · exact readsTail_of_left hleft hf0 hf1 (by convert hU using 1; ring)

/-- Step 6 decides as the rule says of the exact tail (42_ieee754_add.md R158). -/
theorem ReadsTail.roundsUp_iff {left : Prop} {q T : Nat} {f : ℚ} (h : ReadsTail left q f T) (rule : AddRoundRule) :
    roundsUp rule (q.testBit 0) (T.testBit 2) (T.testBit 1) (T.testBit 0) = true ↔
      tailUp rule left ((q : Int) % 2 = 1) f := by
  have hodd : q.testBit 0 = true ↔ (q : Int) % 2 = 1 := by
    rw [testBit_eq_true_iff]
    omega
  cases rule with
  | nearestEvenGrs =>
    simp only [roundsUp, tailUp, Bool.and_eq_true, Bool.or_eq_true, h.guard, h.round, h.sticky, hodd, or_assoc]
  | literalRs => simp only [roundsUp, tailUp, Bool.and_eq_true, Bool.or_eq_true, h.round, h.sticky, hodd]

end Sys2Proof.Machine
end

section
/-! PROOFS, the family 42_ieee754_add. Steps 2 and 3 of F754.ADD (42_ieee754_add.md R154, R155): the aligned working
significands, the order of the magnitudes, and the working sum, which stands for the exact sum. -/

namespace Sys2Proof.Machine

/-- What bit 0 of a working significand with the biased exponent `E` counts (42_ieee754_add.md R150, R152). -/
def workingUnit (prec : Precision) (E : Int) : ℚ := 2 ^ (E - expBias prec - manWidth prec - 3)

theorem workingUnit_pos (prec : Precision) (E : Int) : 0 < workingUnit prec E := zpow_pos two_pos _

theorem workingUnit_add (prec : Precision) (E : Int) (d : Nat) :
    workingUnit prec (E + d) = 2 ^ d * workingUnit prec E := by
  rw [workingUnit, workingUnit, ← zpow_natCast, ← zpow_add₀ two_ne_zero]
  congr 1
  ring

theorem one_le_effExp (x : FpFields) : 1 ≤ effExp x := le_max_right _ _

/-- The magnitude by the working significand of R152. -/
theorem magnitude_eq_workingUnit (prec : Precision) (x : FpFields) :
    magnitude prec x = 8 * significand prec x * workingUnit prec (effExp x) := by
  have hunit : (2 : ℚ) ^ ((effExp x : Int) - expBias prec - manWidth prec) = 8 * workingUnit prec (effExp x) := by
    rw [workingUnit, (by norm_num : (8 : ℚ) = 2 ^ (3 : Int)), ← zpow_add₀ two_ne_zero]
    congr 1
    ring
  rw [magnitude_eq, actualExp_eq]
  rw [effExp] at hunit ⊢
  rw [hunit]
  ring

/-- The magnitude counted in the unit of a larger exponent, as the alignment of R154 does. -/
theorem magnitude_eq_aligned {prec : Precision} {x : FpFields} {E : Nat} (hle : effExp x ≤ E) :
    magnitude prec x = 8 * significand prec x / 2 ^ (E - effExp x) * workingUnit prec E := by
  obtain ⟨d, rfl⟩ := Nat.exists_eq_add_of_le hle
  rw [magnitude_eq_workingUnit, Nat.add_sub_cancel_left, Nat.cast_add, workingUnit_add]
  field_simp

section Operands

variable {prec : Precision} {a b : FpFields}

/-- From exponent field 1 on the implicit bit is there (42_ieee754_add.md R150). -/
theorem two_pow_le_significand (h : 1 < effExp a) : 2 ^ manWidth prec ≤ significand prec a := by
  have hexp : a.exp ≠ 0 := by
    rw [effExp] at h
    omega
  rw [significand, if_pos hexp]
  exact Nat.le_add_right _ _

/-- The working significand of the smaller exponent, shifted by `k` or more places, is below `2^(m + 4 - k)`. -/
theorem aligned_lt {E k : Nat} (hb : inFormat prec b) (hk : k ≤ E - effExp b) :
    (8 * significand prec b / 2 ^ (E - effExp b) : ℚ) * 2 ^ k < 8 * 2 ^ (manWidth prec + 1) := by
  have hsig : (significand prec b : ℚ) < 2 ^ (manWidth prec + 1) := mod_cast significand_lt hb
  have hpow : (2 : ℚ) ^ k ≤ 2 ^ (E - effExp b) := pow_le_pow_right₀ one_le_two hk
  calc (8 * significand prec b / 2 ^ (E - effExp b) : ℚ) * 2 ^ k
      ≤ 8 * significand prec b / 2 ^ (E - effExp b) * 2 ^ (E - effExp b) := by gcongr
    _ = 8 * significand prec b := by field_simp
    _ < 8 * 2 ^ (manWidth prec + 1) := by linarith

/-- The order of step 3 is that of the magnitudes (42_ieee754_add.md R155). -/
theorem magnitude_lt_of_magnitudeGt (hb : inFormat prec b) (h : magnitudeGt prec a b = true) :
    magnitude prec b < magnitude prec a := by
  rw [magnitudeGt_eq_true_iff] at h
  have hle : effExp b ≤ effExp a := by omega
  rw [magnitude_eq_aligned hle, magnitude_eq_workingUnit prec a]
  refine mul_lt_mul_of_pos_right ?_ (workingUnit_pos prec _)
  rcases h with hlt | ⟨heq, hsig⟩
  · have hbound := aligned_lt (E := effExp a) (k := 1) hb (by omega)
    have hsig : (2 : ℚ) ^ manWidth prec ≤ significand prec a :=
      mod_cast two_pow_le_significand (lt_of_le_of_lt (one_le_effExp b) hlt)
    rw [pow_one, pow_succ] at hbound
    linarith
  · rw [heq, Nat.sub_self, pow_zero, div_one]
    have : (significand prec b : ℚ) < significand prec a := mod_cast hsig
    linarith

end Operands

/-- The working sum of step 3 stands for the magnitude `r` of the exact sum (42_ieee754_add.md R155, R156): it is exact, and
a multiple of the smallest denormal, unless the exponents are at least 4 apart, when it is at most one place short. -/
structure IsWorkingSum (prec : Precision) (E : Nat) (r : ℚ) (T : Nat) : Prop where
  one_le : 1 ≤ E
  lt_two_pow : T < 2 ^ (manWidth prec + 5)
  isSticky : IsSticky (r / workingUnit prec E) T
  exact_or_large : (r = T * workingUnit prec E ∧ 8 ∣ T * 2 ^ (E - 1)) ∨ (2 ^ (manWidth prec + 2) ≤ T ∧ 5 ≤ E)

/-- Step 2 leaves the larger exponent's operand and shifts the other (42_ieee754_add.md R154). -/
theorem addAlign_of_le {prec : Precision} {a b : FpFields} (hle : effExp b ≤ effExp a) : addAlign prec a b =
    (8 * significand prec a, stickyShift (8 * significand prec b) (effExp a - effExp b), effExp a) := by
  rw [addAlign, if_pos hle, Nat.mul_comm, Nat.mul_comm (significand prec b)]

section Alignment

variable {prec : Precision} {a b : FpFields}

theorem isSticky_aligned (prec : Precision) (b : FpFields) (d : Nat) :
    IsSticky (8 * significand prec b / 2 ^ d) (stickyShift (8 * significand prec b) d) := by
  have hcast : (8 * significand prec b : ℚ) = ((8 * significand prec b : Nat) : ℚ) := by push_cast; rfl
  rw [hcast]
  rcases Nat.eq_zero_or_pos d with rfl | hd
  · simpa using isSticky_natCast (8 * significand prec b)
  · exact (isSticky_natCast _).shift hd.ne'

/-- Up to 3 places of alignment lose nothing (42_ieee754_add.md R152). -/
theorem aligned_exact {E : Nat} (hle : effExp b ≤ E) (hd : E - effExp b ≤ 3) :
    ((stickyShift (8 * significand prec b) (E - effExp b) : Nat) : ℚ) = 8 * significand prec b / 2 ^ (E - effExp b) ∧
      8 ∣ stickyShift (8 * significand prec b) (E - effExp b) * 2 ^ (E - 1) := by
  have hone := one_le_effExp b
  have hdvd : 2 ^ (E - effExp b) ∣ 8 * significand prec b :=
    (pow_dvd_pow 2 hd : 2 ^ (E - effExp b) ∣ 8).trans (Nat.dvd_mul_right _ _)
  rw [stickyShift_of_dvd hdvd]
  constructor
  · rw [Nat.cast_div hdvd (by positivity)]
    push_cast
    rfl
  · rw [(by omega : E - 1 = (E - effExp b) + (effExp b - 1)), Nat.pow_add, ← Nat.mul_assoc, Nat.div_mul_cancel hdvd,
      Nat.mul_assoc]
    exact Nat.dvd_mul_right _ _

/-- Step 3 on operands of one sign. -/
theorem isWorkingSum_add (ha : inFormat prec a) (hb : inFormat prec b) (hle : effExp b ≤ effExp a) :
    IsWorkingSum prec (effExp a) (magnitude prec a + magnitude prec b)
      (8 * significand prec a + stickyShift (8 * significand prec b) (effExp a - effExp b)) := by
  have hu := workingUnit_pos prec (effExp a)
  have hsticky := isSticky_aligned prec b (effExp a - effExp b)
  have hsum : magnitude prec a + magnitude prec b =
      (8 * significand prec a + 8 * significand prec b / 2 ^ (effExp a - effExp b)) * workingUnit prec (effExp a) := by
    rw [magnitude_eq_aligned hle, magnitude_eq_workingUnit prec a, add_mul]
  have hscaled : (magnitude prec a + magnitude prec b) / workingUnit prec (effExp a) =
      2 * (4 * significand prec a : Nat) + 8 * significand prec b / 2 ^ (effExp a - effExp b) := by
    rw [hsum, mul_div_cancel_right₀ _ hu.ne']
    push_cast
    ring
  refine ⟨one_le_effExp a, ?_, ?_, ?_⟩
  · have hsa := significand_lt ha
    have hXb : stickyShift (8 * significand prec b) (effExp a - effExp b) ≤ 2 * (8 * 2 ^ manWidth prec) := by
      refine hsticky.le_two_mul ?_
      have hlt := aligned_lt (E := effExp a) (k := 0) hb (Nat.zero_le _)
      rw [pow_succ] at hlt
      push_cast
      linarith
    rw [Nat.pow_succ] at hsa
    rw [Nat.pow_add _ _ 5]
    omega
  · rw [hscaled, (by ring : 8 * significand prec a = 2 * (4 * significand prec a))]
    exact hsticky.two_mul_add _
  · rcases Nat.lt_or_ge 3 (effExp a - effExp b) with hfar | hnear
    · have hone := one_le_effExp b
      have hsa := two_pow_le_significand (prec := prec) (a := a) (by omega)
      rw [Nat.pow_add _ _ 2]
      exact .inr ⟨by omega, by omega⟩
    · obtain ⟨hexact, hdvd⟩ := aligned_exact (prec := prec) hle hnear
      refine .inl ⟨?_, ?_⟩
      · rw [hsum, Nat.cast_add, hexact]
        push_cast
        rfl
      · rw [Nat.add_mul, Nat.mul_assoc]
        exact Nat.dvd_add (Nat.dvd_mul_right _ _) hdvd

/-- Step 3 on operands of different signs, the first of the larger magnitude. -/
theorem isWorkingSum_sub (ha : inFormat prec a) (hb : inFormat prec b) (hle : effExp b ≤ effExp a)
    (hlt : magnitude prec b < magnitude prec a) :
    IsWorkingSum prec (effExp a) (magnitude prec a - magnitude prec b)
      (8 * significand prec a - stickyShift (8 * significand prec b) (effExp a - effExp b)) := by
  have hu := workingUnit_pos prec (effExp a)
  have hsticky := isSticky_aligned prec b (effExp a - effExp b)
  have hsub : magnitude prec a - magnitude prec b =
      (8 * significand prec a - 8 * significand prec b / 2 ^ (effExp a - effExp b)) * workingUnit prec (effExp a) := by
    rw [magnitude_eq_aligned hle, magnitude_eq_workingUnit prec a, sub_mul]
  have hscaled : (magnitude prec a - magnitude prec b) / workingUnit prec (effExp a) =
      2 * (4 * significand prec a : Nat) - 8 * significand prec b / 2 ^ (effExp a - effExp b) := by
    rw [hsub, mul_div_cancel_right₀ _ hu.ne']
    push_cast
    ring
  have height : 8 * significand prec a = 2 * (4 * significand prec a) := by ring
  have hsmaller : (8 * significand prec b / 2 ^ (effExp a - effExp b) : ℚ) ≤ 2 * (4 * significand prec a : Nat) := by
    rw [← sub_nonneg, ← hscaled]
    exact (div_pos (sub_pos.2 hlt) hu).le
  have hdiff : IsSticky ((magnitude prec a - magnitude prec b) / workingUnit prec (effExp a))
      (8 * significand prec a - stickyShift (8 * significand prec b) (effExp a - effExp b)) := by
    rw [hscaled, height]
    exact hsticky.two_mul_sub hsmaller
  refine ⟨one_le_effExp a, ?_, hdiff, ?_⟩
  · have hsa := significand_lt ha
    rw [Nat.pow_succ] at hsa
    rw [Nat.pow_add _ _ 5]
    omega
  · rcases Nat.lt_or_ge 3 (effExp a - effExp b) with hfar | hnear
    · have hone := one_le_effExp b
      have hsa : (2 : ℚ) ^ manWidth prec ≤ significand prec a :=
        mod_cast two_pow_le_significand (prec := prec) (a := a) (by omega)
      have hb' := aligned_lt (E := effExp a) (k := 4) hb hfar
      refine .inr ⟨(hdiff.two_pow_le_iff (by omega)).2 ?_, by omega⟩
      rw [hscaled, pow_add]
      rw [pow_succ _ (manWidth prec)] at hb'
      push_cast
      linarith
    · obtain ⟨hexact, hdvd⟩ := aligned_exact (prec := prec) hle hnear
      have hXb : stickyShift (8 * significand prec b) (effExp a - effExp b) ≤ 8 * significand prec a := by
        rw [height]
        exact hsticky.le_two_mul hsmaller
      refine .inl ⟨?_, ?_⟩
      · rw [hsub, Nat.cast_sub hXb, hexact]
        push_cast
        rfl
      · rw [Nat.sub_mul, Nat.mul_assoc]
        exact Nat.dvd_sub (Nat.dvd_mul_right _ _) hdvd

end Alignment

/-- A value by its sign and its magnitude, if it is not 0. -/
theorem signed_facts {v r : ℚ} {sign : Bool} (hr : 0 < r) (hv : v = if sign then -r else r) :
    v ≠ 0 ∧ |v| = r ∧ decide (v < 0) = sign := by
  cases sign with
  | false =>
    rw [if_neg Bool.false_ne_true] at hv
    exact ⟨hv ▸ hr.ne', by rw [hv, abs_of_pos hr], decide_eq_false (hv ▸ hr.not_gt)⟩
  | true =>
    rw [if_pos rfl] at hv
    exact ⟨hv ▸ neg_ne_zero.2 hr.ne', by rw [hv, abs_neg, abs_of_pos hr], decide_eq_true (hv ▸ neg_neg_of_pos hr)⟩

theorem fpValue_add_of_sign_eq {prec : Precision} {a b : FpFields} (h : a.sign = b.sign) :
    fpValue prec a + fpValue prec b =
      if a.sign then -(magnitude prec a + magnitude prec b) else magnitude prec a + magnitude prec b := by
  rw [fpValue, fpValue, ← h]
  split <;> ring

theorem fpValue_add_of_sign_ne {prec : Precision} {a b : FpFields} (h : a.sign ≠ b.sign) :
    fpValue prec a + fpValue prec b =
      if a.sign then -(magnitude prec a - magnitude prec b) else magnitude prec a - magnitude prec b := by
  rw [fpValue, fpValue, Bool.eq_not_of_ne h.symm]
  cases a.sign <;> simp <;> ring

theorem magnitude_nonneg (prec : Precision) (x : FpFields) : 0 ≤ magnitude prec x := by
  rw [magnitude_eq_workingUnit]
  have := workingUnit_pos prec (effExp x)
  positivity

/-- The magnitude of operands with one effective exponent and significand. -/
theorem magnitude_eq_of_same {prec : Precision} {a b : FpFields} (hexp : effExp a = effExp b)
    (hsig : significand prec a = significand prec b) : magnitude prec a = magnitude prec b := by
  rw [magnitude_eq_workingUnit, magnitude_eq_workingUnit, hexp, hsig]

/-- Step 3 on aligned operands, the first not the smaller: none for the exact zero, else the sign of the exact sum and a
working sum that stands for its magnitude (42_ieee754_add.md R155). -/
theorem addMagnitudes_aligned {prec : Precision} {a b : FpFields} (ha : inFormat prec a) (hb : inFormat prec b)
    (hapos : 0 < magnitude prec a) (hge : magnitudeGt prec b a = false) {sum : Option (Nat × Bool)}
    (hsum : sum = addMagnitudes prec a b (8 * significand prec a)
      (stickyShift (8 * significand prec b) (effExp a - effExp b))) {v : ℚ} (hv : v = fpValue prec a + fpValue prec b) :
    (v = 0 ∧ a.sign ≠ b.sign ∧ sum = none) ∨
      (v ≠ 0 ∧ ∃ T, sum = some (T, decide (v < 0)) ∧ IsWorkingSum prec (effExp a) |v| T) := by
  have hle : effExp b ≤ effExp a := by
    rw [← Bool.not_eq_true, magnitudeGt_eq_true_iff] at hge
    omega
  by_cases hsign : a.sign = b.sign
  · obtain ⟨hne, habs, hneg⟩ := signed_facts (add_pos_of_pos_of_nonneg hapos (magnitude_nonneg prec b))
      (hv.trans (fpValue_add_of_sign_eq hsign))
    refine .inr ⟨hne, _, ?_, habs ▸ isWorkingSum_add ha hb hle⟩
    rw [hsum, hneg, addMagnitudes, if_pos hsign]
  rw [addMagnitudes, if_neg hsign] at hsum
  rw [fpValue_add_of_sign_ne hsign] at hv
  by_cases hsame : effExp a = effExp b ∧ significand prec a = significand prec b
  · rw [magnitude_eq_of_same hsame.1 hsame.2, sub_self, neg_zero, ite_self] at hv
    exact .inl ⟨hv, hsign, hsum.trans (if_pos hsame)⟩
  · have hgt : magnitudeGt prec a b = true := by rw [← Bool.not_eq_false', ← magnitudeGt_swap hsame, hge]
    have hlt := magnitude_lt_of_magnitudeGt hb hgt
    obtain ⟨hne, habs, hneg⟩ := signed_facts (sub_pos.2 hlt) hv
    refine .inr ⟨hne, _, ?_, habs ▸ isWorkingSum_sub ha hb hle hlt⟩
    rw [hsum, if_neg hsame, if_pos hgt, hneg]

end Sys2Proof.Machine
end

section
/-! PROOFS, the family 42_ieee754_add. Steps 4 and 5 of F754.ADD (42_ieee754_add.md R156, R157): the leading 1 comes to the
implicit position, or below the normal range to the place of a denormal, and the flush to zero cannot happen. -/

namespace Sys2Proof.Machine

/-- `e` is the exponent of the pattern that a positive magnitude `r` rounds to before any carry: the position of its leading
1, but no less than that of a denormal (42_ieee754_add.md R156, R157). -/
structure IsResultExp (prec : Precision) (e : Int) (r : ℚ) : Prop where
  denormal_le : 1 - (expBias prec : Int) ≤ e
  lt_zpow : r < 2 ^ (e + 1)
  zpow_le_or : 2 ^ e ≤ r ∨ e = 1 - (expBias prec : Int)

theorem IsResultExp.unique {prec : Precision} {e e' : Int} {r : ℚ} (h : IsResultExp prec e r)
    (h' : IsResultExp prec e' r) : e = e' := by
  have hle {i j : Int} (hi : IsResultExp prec i r) (hj : IsResultExp prec j r) : i ≤ j := by
    rcases hi.zpow_le_or with hlead | hmin
    · exact Int.lt_add_one_iff.1 ((zpow_lt_zpow_iff_right₀ one_lt_two).1 (hlead.trans_lt hj.lt_zpow))
    · exact hmin.trans_le hj.denormal_le
  exact le_antisymm (hle h h') (hle h' h)

theorem IsLeadingExp.isResultExp {prec : Precision} {e : Int} {r : ℚ} (h : IsLeadingExp e r)
    (he : 1 - (expBias prec : Int) ≤ e) : IsResultExp prec e r := ⟨he, h.2, .inl h.1⟩

/-- Below the normal range the exponent is that of a denormal. -/
theorem IsLeadingExp.isResultExp_denormal {prec : Precision} {e : Int} {r : ℚ} (h : IsLeadingExp e r)
    (he : e ≤ 1 - (expBias prec : Int)) : IsResultExp prec (1 - expBias prec) r :=
  ⟨le_rfl, h.2.trans_le (zpow_le_zpow_right₀ one_le_two (by omega)), .inr rfl⟩

/-- The leading 1 of a magnitude from that of what its working significand stands for. -/
theorem isLeadingExp_of_scaled {prec : Precision} {E : Nat} {r : ℚ} {k : Nat}
    (hlo : (2 : ℚ) ^ k ≤ r / workingUnit prec E) (hhi : r / workingUnit prec E < 2 ^ (k + 1)) :
    IsLeadingExp (E + k - expBias prec - manWidth prec - 3) r := by
  have hpow (j : Nat) : (2 : ℚ) ^ ((E : Int) + j - expBias prec - manWidth prec - 3) = 2 ^ j * workingUnit prec E := by
    rw [← workingUnit_add, workingUnit]
  constructor
  · rwa [hpow, ← le_div_iff₀ (workingUnit_pos prec _)]
  · have hsucc : (E : Int) + k - expBias prec - manWidth prec - 3 + 1 =
        E + (k + 1 : Nat) - expBias prec - manWidth prec - 3 := by omega
    rwa [hsucc, hpow, ← div_lt_iff₀ (workingUnit_pos prec _)]

theorem IsSticky.isLeadingExp {prec : Precision} {E T k : Nat} {r : ℚ} (h : IsSticky (r / workingUnit prec E) T)
    (hk : k ≠ 0) (hlo : 2 ^ k ≤ T) (hhi : T < 2 ^ (k + 1)) :
    IsLeadingExp (E + k - expBias prec - manWidth prec - 3) r :=
  isLeadingExp_of_scaled ((h.two_pow_le_iff hk).1 hlo) (lt_of_not_ge fun hge =>
    hhi.not_ge ((h.two_pow_le_iff k.succ_ne_zero).2 hge))

section Equations

variable {prec : Precision} {T : Nat} {er : Int}

theorem addNormalize_of_carry (h : 2 ^ (manWidth prec + 4) ≤ T) :
    addNormalize prec T er = (stickyShift T 1, er + 1) := if_pos h

theorem addNormalize_of_in_place (hhi : T < 2 ^ (manWidth prec + 4)) (hlo : 2 ^ (manWidth prec + 3) ≤ T) :
    addNormalize prec T er = (T, er) := by
  rw [addNormalize, if_neg hhi.not_ge, if_neg hlo.not_gt]

/-- The left shift of step 4, for a leading 1 at bit `k`. -/
theorem addNormalize_of_left {k : Nat} (hk : k + 1 ≤ manWidth prec + 3) (hlo : 2 ^ k ≤ T) (hhi : T < 2 ^ (k + 1)) :
    addNormalize prec T er = (T * 2 ^ (manWidth prec + 3 - k), er - (manWidth prec + 3 - k : Nat)) := by
  have hT : T ≠ 0 := (Nat.two_pow_pos k).trans_le hlo |>.ne'
  have hlog : Nat.log2 T = k := (Nat.log2_eq_iff hT).2 ⟨hlo, hhi⟩
  have hsmall : T < 2 ^ (manWidth prec + 3) := hhi.trans_le (Nat.pow_le_pow_right two_pos hk)
  have hbig : T < 2 ^ (manWidth prec + 4) := hsmall.trans (Nat.pow_lt_pow_right one_lt_two (Nat.lt_succ_self _))
  have hlz : manWidth prec + 4 - (k + 1) = manWidth prec + 3 - k := by omega
  simp only [addNormalize, if_neg hbig.not_ge, if_pos hsmall, bitLength, if_neg hT, hlog, hlz]

theorem addUnderflow_of_one_le (h : 1 ≤ er) : addUnderflow prec T er = some (T, er) := if_neg h.not_gt

theorem addUnderflow_of_lt_one (hlt : er < 1) (hge : 1 - (manWidth prec : Int) ≤ er) :
    addUnderflow prec T er = some (stickyShift T (1 - er).toNat, 1) := by
  rw [addUnderflow, if_pos hlt, if_neg hge.not_gt]

end Equations

/-- What steps 4 and 5 make of the working sum of a magnitude `r`: the biased exponent of the result and a significand that
holds the exact tail, read as after a left shift when the exponent went below that of step 2. -/
def IsNormalized (prec : Precision) (E : Nat) (r : ℚ) (out : Option (Nat × Int)) : Prop :=
  ∃ T e, out = some (T, e + (expBias prec : Int)) ∧ IsResultExp prec e r ∧
    HoldsTail (e < E - expBias prec) (r / workingUnit prec (e + expBias prec)) T

/-- An exact working sum stays exact when it is shifted left. -/
theorem holdsTail_of_exact {prec : Precision} {E T : Nat} {r : ℚ} (hexact : r = T * workingUnit prec E) {k : Nat}
    {e : Int} (he : e + k = E - expBias prec) :
    HoldsTail (e < E - expBias prec) (r / workingUnit prec (e + expBias prec)) (T * 2 ^ k) := by
  have hunit : workingUnit prec E = 2 ^ k * workingUnit prec (e + expBias prec) := by
    rw [← workingUnit_add]
    congr 1
    omega
  have hvalue : r / workingUnit prec (e + expBias prec) = ((T * 2 ^ k : Nat) : ℚ) := by
    rw [hexact, hunit, ← mul_assoc, mul_div_cancel_right₀ _ (workingUnit_pos prec _).ne']
    push_cast
    rfl
  rw [hvalue]
  cases k with
  | zero => exact .inl ⟨by omega, isSticky_natCast _⟩
  | succ j =>
    refine .inr ⟨by omega, T * 2 ^ j, by ring, ?_⟩
    convert isSticky_natCast (T * 2 ^ j) using 1
    push_cast
    ring

section Normalize

variable {prec : Precision} {E T : Nat} {r : ℚ}

/-- Step 4 after a carry. -/
theorem isNormalized_of_carry (h : IsWorkingSum prec E r T) (hlo : 2 ^ (manWidth prec + 4) ≤ T) :
    IsNormalized prec E r (addUnderflow prec (addNormalize prec T E).1 (addNormalize prec T E).2) := by
  have hE := h.one_le
  have hlead := h.isSticky.isLeadingExp (by omega) hlo h.lt_two_pow
  rw [addNormalize_of_carry hlo, addUnderflow_of_one_le (by omega)]
  refine ⟨_, E + 1 - expBias prec, by rw [sub_add_cancel], ?_, .inl ⟨by omega, ?_⟩⟩
  · convert hlead.isResultExp (prec := prec) (by push_cast; omega) using 1
    omega
  · have hunit := workingUnit_add prec E 1
    rw [sub_add_cancel, ← Nat.cast_one (R := Int), hunit, mul_comm, ← div_div]
    exact h.isSticky.shift one_ne_zero

/-- Step 4 with the leading 1 in place. -/
theorem isNormalized_of_in_place (h : IsWorkingSum prec E r T) (hhi : T < 2 ^ (manWidth prec + 4))
    (hlo : 2 ^ (manWidth prec + 3) ≤ T) :
    IsNormalized prec E r (addUnderflow prec (addNormalize prec T E).1 (addNormalize prec T E).2) := by
  have hE := h.one_le
  have hlead := h.isSticky.isLeadingExp (by omega) hlo hhi
  rw [addNormalize_of_in_place hhi hlo, addUnderflow_of_one_le (by omega)]
  refine ⟨_, E - expBias prec, by rw [sub_add_cancel], ?_, .inl ⟨by omega, ?_⟩⟩
  · convert hlead.isResultExp (prec := prec) (by push_cast; omega) using 1
    omega
  · rw [sub_add_cancel]
    exact h.isSticky

/-- A left shift of an inexact working sum is by one place, and stays in the normal range (42_ieee754_add.md R156). -/
theorem isNormalized_of_left_one (h : IsWorkingSum prec E r T) (hlo : 2 ^ (manWidth prec + 2) ≤ T) (hE : 5 ≤ E)
    (hhi : T < 2 ^ (manWidth prec + 3)) :
    IsNormalized prec E r (addUnderflow prec (addNormalize prec T E).1 (addNormalize prec T E).2) := by
  have hlead := h.isSticky.isLeadingExp (by omega) hlo hhi
  have hone : manWidth prec + 3 - (manWidth prec + 2) = 1 := by omega
  rw [addNormalize_of_left le_rfl hlo hhi, hone, addUnderflow_of_one_le (by omega)]
  refine ⟨_, E - 1 - expBias prec, by rw [sub_add_cancel]; rfl, ?_, .inr ⟨by omega, T, by ring, ?_⟩⟩
  · convert hlead.isResultExp (prec := prec) (by push_cast; omega) using 1
    omega
  · have hunit := workingUnit_add prec (E - 1) 1
    rw [Nat.cast_one, sub_add_cancel, pow_one] at hunit
    rw [sub_add_cancel, div_div, mul_comm, ← hunit]
    exact h.isSticky

/-- A left shift of an exact working sum, and the way back below the normal range, which never goes as far as the flush
(42_ieee754_add.md R157). -/
theorem isNormalized_of_left_exact (h : IsWorkingSum prec E r T) (hr : 0 < r) (hexact : r = T * workingUnit prec E)
    (hdvd : 8 ∣ T * 2 ^ (E - 1)) (hhi : T < 2 ^ (manWidth prec + 3)) :
    IsNormalized prec E r (addUnderflow prec (addNormalize prec T E).1 (addNormalize prec T E).2) := by
  have hE := h.one_le
  have hu := workingUnit_pos prec E
  have hT : T ≠ 0 := by
    rintro rfl
    simp [hexact] at hr
  obtain ⟨k, hlog⟩ : ∃ k, Nat.log2 T = k := ⟨_, rfl⟩
  obtain ⟨hklo, hkhi⟩ := (Nat.log2_eq_iff hT).1 hlog
  have hk : k + 1 ≤ manWidth prec + 3 := (Nat.pow_lt_pow_iff_right one_lt_two).1 (hklo.trans_lt hhi)
  have hscaled : r / workingUnit prec E = T := by rw [hexact, mul_div_cancel_right₀ _ hu.ne']
  have hlead : IsLeadingExp (E + k - expBias prec - manWidth prec - 3) r :=
    isLeadingExp_of_scaled (by rw [hscaled]; exact_mod_cast hklo) (by rw [hscaled]; exact_mod_cast hkhi)
  obtain ⟨lz, hlz⟩ : ∃ lz, lz + k = manWidth prec + 3 := ⟨manWidth prec + 3 - k, by omega⟩
  rw [addNormalize_of_left hk hklo hkhi, (by omega : manWidth prec + 3 - k = lz)]
  rcases Nat.lt_or_ge lz E with hnormal | hbelow
  · rw [addUnderflow_of_one_le (by omega)]
    refine ⟨_, E - lz - expBias prec, by rw [sub_add_cancel], ?_, holdsTail_of_exact hexact (by omega)⟩
    convert hlead.isResultExp (prec := prec) (by omega) using 1
    omega
  · have hflush : lz ≤ E - 1 + manWidth prec := by
      have hlarge : 2 ^ 3 ≤ T * 2 ^ (E - 1) := Nat.le_of_dvd (by positivity) hdvd
      have hlt : 2 ^ 3 < 2 ^ (k + 1 + (E - 1)) := by
        rw [Nat.pow_add 2 (k + 1)]
        exact hlarge.trans_lt (Nat.mul_lt_mul_of_pos_right hkhi (Nat.two_pow_pos _))
      have := (Nat.pow_lt_pow_iff_right one_lt_two).1 hlt
      omega
    rw [addUnderflow_of_lt_one (by omega) (by omega)]
    have hback : stickyShift (T * 2 ^ lz) (1 - ((E : Int) - lz)).toNat = T * 2 ^ (E - 1) := by
      have hsplit : lz = E - 1 + (1 - ((E : Int) - lz)).toNat := by omega
      generalize (1 - ((E : Int) - lz)).toNat = d at hsplit ⊢
      rw [hsplit, Nat.pow_add, ← Nat.mul_assoc, stickyShift_of_dvd (Nat.dvd_mul_left _ _),
        Nat.mul_div_cancel _ (Nat.two_pow_pos d)]
    rw [hback]
    exact ⟨_, 1 - expBias prec, by rw [sub_add_cancel], hlead.isResultExp_denormal (by omega),
      holdsTail_of_exact hexact (by omega)⟩

/-- Steps 4 and 5, by where the leading 1 of the working sum stands. -/
theorem IsWorkingSum.isNormalized (h : IsWorkingSum prec E r T) (hr : 0 < r) :
    IsNormalized prec E r (addUnderflow prec (addNormalize prec T E).1 (addNormalize prec T E).2) := by
  rcases Nat.lt_or_ge T (2 ^ (manWidth prec + 4)) with hhi | hcarry
  · rcases Nat.lt_or_ge T (2 ^ (manWidth prec + 3)) with hleft | hlo
    · rcases h.exact_or_large with ⟨hexact, hdvd⟩ | ⟨hlarge, hE⟩
      · exact isNormalized_of_left_exact h hr hexact hdvd hleft
      · exact isNormalized_of_left_one h hlarge hE hleft
    · exact isNormalized_of_in_place h hhi hlo
  · exact isNormalized_of_carry h hcarry

end Normalize

end Sys2Proof.Machine
end

section
/-! PROOFS, the family 42_ieee754_add. Steps 6 and 7 of F754.ADD (42_ieee754_add.md R158, R159): the fields that a number of
units of the last mantissa place is packed to. -/

namespace Sys2Proof.Machine

/-- One unit of the last mantissa place at the exponent `e` (42_ieee754_add.md R150). -/
def ulpAt (prec : Precision) (e : Int) : ℚ := 2 ^ (e - manWidth prec)

theorem ulpAt_pos (prec : Precision) (e : Int) : 0 < ulpAt prec e := zpow_pos two_pos _

theorem two_pow_mul_ulpAt (prec : Precision) (e : Int) (k : Nat) : 2 ^ k * ulpAt prec e = ulpAt prec (e + k) := by
  rw [ulpAt, ulpAt, ← zpow_natCast, ← zpow_add₀ two_ne_zero]
  congr 1
  ring

theorem ulpAt_add_manWidth (prec : Precision) (e : Int) : ulpAt prec (e + manWidth prec) = 2 ^ e := by
  rw [ulpAt, add_sub_cancel_right]

theorem ulpAt_le_ulpAt (prec : Precision) {e e' : Int} (h : e ≤ e') : ulpAt prec e ≤ ulpAt prec e' :=
  zpow_le_zpow_right₀ one_le_two (by omega)

theorem magnitude_eq_ulpAt (prec : Precision) (x : FpFields) :
    magnitude prec x = significand prec x * ulpAt prec (effExp x - expBias prec) := by
  rw [magnitude_eq, actualExp_eq]
  rfl

theorem expMax_eq (prec : Precision) : expMax prec = 2 * expBias prec + 1 := by
  cases prec <;> rfl

theorem one_lt_expMax (prec : Precision) : 1 < expMax prec := by
  cases prec <;> decide

theorem two_dvd_two_pow_manWidth (prec : Precision) : 2 ∣ 2 ^ manWidth prec := by
  cases prec <;> exact dvd_pow_self 2 (by decide)

/-- The fields for `w ≤ 2^(m+1)` units at the biased exponent `er`: a carry out of the mantissa goes to the exponent
(42_ieee754_add.md R158), and step 7 packs. -/
def packUnits (prec : Precision) (sign : Bool) (w : Nat) (er : Int) : FpFields :=
  if w = 2 ^ (manWidth prec + 1) then addPack prec sign (2 ^ manWidth prec) (er + 1) else addPack prec sign w er

/-- A mantissa `w` that step 7 packs at the biased exponent `er`: normalized, or at the exponent of a denormal. -/
structure IsPackable (prec : Precision) (w : Nat) (er : Int) : Prop where
  lt_two_pow : w < 2 ^ (manWidth prec + 1)
  one_le : 1 ≤ er
  normal_or : 2 ^ manWidth prec ≤ w ∨ er = 1

section Pack

variable {prec : Precision} {w : Nat} {er : Int}

@[simp] theorem addPack_sign (prec : Precision) (sign : Bool) (w : Nat) (er : Int) :
    (addPack prec sign w er).sign = sign := by
  simp only [addPack]
  split <;> split <;> rfl

@[simp] theorem packUnits_sign (prec : Precision) (sign : Bool) (w : Nat) (er : Int) :
    (packUnits prec sign w er).sign = sign := by
  rw [packUnits]
  split <;> exact addPack_sign _ _ _ _

/-- From EMAX on step 7 packs the signed Infinity. -/
theorem addPack_of_overflow (h : IsPackable prec w er) (sign : Bool) (hmax : (expMax prec : Int) ≤ er) :
    addPack prec sign w er = ⟨sign, expMax prec, 0⟩ := by
  have hnormal : 2 ^ manWidth prec ≤ w := h.normal_or.resolve_right fun hone => by
    have := one_lt_expMax prec
    omega
  simp only [addPack, if_pos hnormal, if_pos hmax]

/-- Below EMAX step 7 packs the mantissa and its exponent. -/
theorem addPack_of_lt (h : IsPackable prec w er) (sign : Bool) (hmax : er < expMax prec) :
    isFinite prec (addPack prec sign w er) ∧ significand prec (addPack prec sign w er) = w ∧
      (effExp (addPack prec sign w er) : Int) = er := by
  obtain ⟨hlt, hone, hnormal⟩ := h
  rw [Nat.pow_succ] at hlt
  by_cases hman : 2 ^ manWidth prec ≤ w
  · have hmod : w % 2 ^ manWidth prec = w - 2 ^ manWidth prec := by
      rw [Nat.mod_eq_sub_mod hman, Nat.mod_eq_of_lt (by omega)]
    simp only [addPack, if_pos hman, if_neg hmax.not_ge, isFinite, significand, effExp, hmod]
    refine ⟨by omega, ?_, by omega⟩
    rw [if_pos (by omega)]
    omega
  · have her := hnormal.resolve_left hman
    have hpos : ¬(expMax prec : Int) ≤ 0 := by omega
    simp only [addPack, if_neg hman, if_neg hpos, isFinite, significand, effExp, Nat.mod_eq_of_lt (not_le.1 hman)]
    refine ⟨by omega, by simp, by omega⟩

/-- The overflow test of step 7 by the value (42_ieee754_add.md R159). -/
theorem IsPackable.expMax_le_iff (h : IsPackable prec w er) :
    (expMax prec : Int) ≤ er ↔ 2 ^ ((expBias prec : Int) + 1) ≤ w * ulpAt prec (er - expBias prec) := by
  have hu := ulpAt_pos prec (er - expBias prec)
  have hmax := expMax_eq prec
  constructor
  · intro hle
    have hnormal : 2 ^ manWidth prec ≤ w := h.normal_or.resolve_right fun hone => by
      have := one_lt_expMax prec
      omega
    calc (2 : ℚ) ^ ((expBias prec : Int) + 1) = ulpAt prec (expBias prec + 1 + manWidth prec) :=
          (ulpAt_add_manWidth prec _).symm
      _ ≤ ulpAt prec (er - expBias prec + manWidth prec) := ulpAt_le_ulpAt prec (by omega)
      _ = 2 ^ manWidth prec * ulpAt prec (er - expBias prec) := (two_pow_mul_ulpAt prec _ _).symm
      _ ≤ w * ulpAt prec (er - expBias prec) := by
          have : (2 : ℚ) ^ manWidth prec ≤ w := mod_cast hnormal
          gcongr
  · intro hle
    by_contra hlt
    have hw : (w : ℚ) < 2 ^ (manWidth prec + 1) := mod_cast h.lt_two_pow
    refine hle.not_gt ?_
    calc (w : ℚ) * ulpAt prec (er - expBias prec) < 2 ^ (manWidth prec + 1) * ulpAt prec (er - expBias prec) := by gcongr
      _ = ulpAt prec (er - expBias prec + 1 + manWidth prec) := by
          rw [two_pow_mul_ulpAt]
          congr 1
          push_cast
          ring
      _ ≤ ulpAt prec (expBias prec + 1 + manWidth prec) := ulpAt_le_ulpAt prec (by omega)
      _ = 2 ^ ((expBias prec : Int) + 1) := ulpAt_add_manWidth prec _

/-- Units after the carry of step 6: the same value and, when even, the same parity. -/
theorem packUnits_eq_addPack (hw : w ≤ 2 ^ (manWidth prec + 1)) (hone : 1 ≤ er)
    (hnormal : 2 ^ manWidth prec ≤ w ∨ er = 1) (sign : Bool) :
    ∃ w' er', packUnits prec sign w er = addPack prec sign w' er' ∧ IsPackable prec w' er' ∧
      w' * ulpAt prec (er' - expBias prec) = w * ulpAt prec (er - expBias prec) ∧ (w % 2 = 0 → w' % 2 = 0) := by
  by_cases hcarry : w = 2 ^ (manWidth prec + 1)
  · refine ⟨2 ^ manWidth prec, er + 1, if_pos hcarry,
      ⟨Nat.pow_lt_pow_right one_lt_two (Nat.lt_succ_self _), by omega, .inl le_rfl⟩, ?_,
      fun _ => Nat.mod_eq_zero_of_dvd (two_dvd_two_pow_manWidth prec)⟩
    rw [hcarry]
    push_cast
    rw [two_pow_mul_ulpAt, two_pow_mul_ulpAt]
    congr 1
    push_cast
    ring
  · exact ⟨w, er, if_neg hcarry, ⟨lt_of_le_of_ne hw hcarry, hone, hnormal⟩, rfl, id⟩

/-- What the packed units are (42_ieee754_add.md R159): from `2^(bias + 1)` on the signed Infinity, below it a finite pattern
of exactly that magnitude, with an even mantissa for an even number of units. -/
theorem packUnits_spec (hw : w ≤ 2 ^ (manWidth prec + 1)) (hone : 1 ≤ er) (hnormal : 2 ^ manWidth prec ≤ w ∨ er = 1)
    (sign : Bool) :
    (2 ^ ((expBias prec : Int) + 1) ≤ w * ulpAt prec (er - expBias prec) →
      (packUnits prec sign w er).exp = expMax prec ∧ (packUnits prec sign w er).man = 0) ∧
    (w * ulpAt prec (er - expBias prec) < 2 ^ ((expBias prec : Int) + 1) → isFinite prec (packUnits prec sign w er) ∧
      magnitude prec (packUnits prec sign w er) = w * ulpAt prec (er - expBias prec) ∧
      (w % 2 = 0 → (packUnits prec sign w er).man % 2 = 0)) := by
  obtain ⟨w', er', hpack, hpackable, hvalue, hparity⟩ := packUnits_eq_addPack hw hone hnormal sign
  rw [hpack, ← hvalue, ← not_le, ← hpackable.expMax_le_iff]
  refine ⟨fun hmax => ?_, fun hmax => ?_⟩
  · rw [addPack_of_overflow hpackable sign hmax]
    exact ⟨rfl, rfl⟩
  · obtain ⟨hfinite, hsig, hexp⟩ := addPack_of_lt hpackable sign (not_le.1 hmax)
    refine ⟨hfinite, by rw [magnitude_eq_ulpAt, hsig, hexp], fun heven => ?_⟩
    have hdvd := two_dvd_two_pow_manWidth prec
    have heven' := hparity heven
    rw [significand] at hsig
    split at hsig <;> omega

end Pack

/-- Step 7 packs a finite pattern's own significand to the pattern. -/
theorem packUnits_significand {prec : Precision} {x : FpFields} (hx : inFormat prec x) (hfinite : isFinite prec x) :
    packUnits prec x.sign (significand prec x) (effExp x) = x := by
  rw [packUnits, if_neg (significand_lt hx).ne]
  obtain ⟨sign, exp, man⟩ := x
  obtain ⟨-, hman⟩ := hx
  simp only [isFinite] at hfinite
  simp only at hman
  by_cases hexp : exp = 0
  · simp [addPack, significand, hexp, hman.not_ge, Nat.mod_eq_of_lt hman]
  · have hmax : ¬(expMax prec : Int) ≤ max (exp : Int) 1 := by omega
    have heff : (max (exp : Int) 1).toNat = exp := by omega
    simp [addPack, significand, effExp, hexp, hmax, heff, Nat.mod_eq_of_lt hman]

end Sys2Proof.Machine
end

section
/-! PROOFS, the family 42_ieee754_add. The whole of F754.ADD on finite patterns (42_ieee754_add.md R151): the exact sum in
units of its last mantissa place, rounded as step 6 says of its tail, and packed. -/

namespace Sys2Proof.Machine

section Steps

variable {c : Config} {prec : Precision} {a b : FpFields}

theorem addFields_of_exact_zero (hspecial : addSpecial c prec a b = none)
    (hsum : addMagnitudes prec a b (addAlign prec a b).1 (addAlign prec a b).2.1 = none) :
    addFields c prec a b = ⟨false, 0, 0⟩ := by
  simp only [addFields, hspecial, hsum]

/-- The way through R151 that ends in steps 6 and 7. -/
theorem addFields_of_steps {T T' : Nat} {sr : Bool} {er : Int} (hspecial : addSpecial c prec a b = none)
    (hsum : addMagnitudes prec a b (addAlign prec a b).1 (addAlign prec a b).2.1 = some (T, sr))
    (hnormal : addUnderflow prec (addNormalize prec T (addAlign prec a b).2.2).1
      (addNormalize prec T (addAlign prec a b).2.2).2 = some (T', er)) :
    addFields c prec a b =
      addPack prec sr (addRound c.addRoundRule prec T' er).1 (addRound c.addRoundRule prec T' er).2 := by
  simp only [addFields, hspecial, hsum, hnormal]

end Steps

/-- `w` is the number of units that step 6 makes of `q + f` (42_ieee754_add.md R158). -/
def IsRoundedTo (rule : AddRoundRule) (left : Prop) (q : Nat) (f : ℚ) (w : Nat) : Prop :=
  (tailUp rule left ((q : Int) % 2 = 1) f → w = q + 1) ∧ (¬tailUp rule left ((q : Int) % 2 = 1) f → w = q)

/-- The shift of step 4 was to the left: the sum's leading bit is below the larger operand's exponent. -/
abbrev isLeftShifted (prec : Precision) (a b : FpFields) (e : Int) : Prop :=
  e < ((max (max a.exp b.exp) 1 : Nat) : Int) - expBias prec

/-- The units that step 7 packs when step 6 read the tail of `q + f`. -/
theorem addPack_addRound {rule : AddRoundRule} {left : Prop} {q T w : Nat} {f : ℚ} (h : ReadsTail left q f T)
    (hw : IsRoundedTo rule left q f w) {prec : Precision} (hq : q < 2 ^ (manWidth prec + 1)) (sign : Bool) (er : Int) :
    addPack prec sign (addRound rule prec T er).1 (addRound rule prec T er).2 = packUnits prec sign w er := by
  by_cases hup : tailUp rule left ((q : Int) % 2 = 1) f
  · have hbits := (h.roundsUp_iff rule).2 hup
    rw [hw.1 hup]
    simp only [addRound, h.mantissa, if_pos hbits, packUnits]
    split
    · next hcarry => rw [hcarry, Nat.pow_succ, Nat.mul_div_cancel _ two_pos]
    · rfl
  · have hbits := mt (h.roundsUp_iff rule).1 hup
    rw [hw.2 hup, packUnits, if_neg hq.ne]
    simp only [addRound, h.mantissa, if_neg hbits]

section Units

variable {prec : Precision} {e : Int} {r f : ℚ} {q : Nat}

theorem units_lt_two_pow (he : IsResultExp prec e r) (hr : r = (q + f) * ulpAt prec e) (hf0 : 0 ≤ f) :
    q < 2 ^ (manWidth prec + 1) := by
  have hlt : (q + f) * ulpAt prec e < 2 ^ (manWidth prec + 1) * ulpAt prec e := by
    have hexp : e + (manWidth prec + 1 : Nat) = e + 1 + manWidth prec := by push_cast; ring
    rw [two_pow_mul_ulpAt, hexp, ulpAt_add_manWidth, ← hr]
    exact he.lt_zpow
  have := lt_of_mul_lt_mul_right hlt (ulpAt_pos prec e).le
  have hq : (q : ℚ) < 2 ^ (manWidth prec + 1) := by linarith
  exact_mod_cast hq

theorem two_pow_le_units_or (he : IsResultExp prec e r) (hr : r = (q + f) * ulpAt prec e) (hf1 : f < 1) :
    2 ^ manWidth prec ≤ q ∨ e + expBias prec = 1 := by
  refine he.zpow_le_or.imp (fun hle => ?_) (fun hmin => by omega)
  rw [← ulpAt_add_manWidth prec, ← two_pow_mul_ulpAt, hr] at hle
  have := le_of_mul_le_mul_right hle (ulpAt_pos prec e)
  have hlt : (2 : ℚ) ^ manWidth prec < q + 1 := by linarith
  exact Nat.lt_succ_iff.1 (by exact_mod_cast hlt)

end Units

theorem not_tailUp_zero (rule : AddRoundRule) (left odd : Prop) : ¬tailUp rule left odd 0 := by
  cases rule with
  | nearestEvenGrs => norm_num [tailUp]
  | literalRs => simp [tailUp, tailR]

section Finite

variable {prec : Precision} {a b : FpFields}

theorem significand_eq_zero_iff (prec : Precision) (x : FpFields) : significand prec x = 0 ↔ fpClass prec x = .zero := by
  rw [significand, fpClass_zero_iff]
  split <;> simp_all

theorem magnitude_eq_zero_iff (prec : Precision) (x : FpFields) : magnitude prec x = 0 ↔ fpClass prec x = .zero := by
  rw [magnitude_eq_ulpAt, mul_eq_zero, or_iff_left (ulpAt_pos prec _).ne', Nat.cast_eq_zero, significand_eq_zero_iff]

theorem fpValue_of_zero (h : fpClass prec a = .zero) : fpValue prec a = 0 := by
  rw [fpValue, (magnitude_eq_zero_iff prec a).2 h, neg_zero, ite_self]

theorem fpClass_ne_of_isFinite (h : isFinite prec a) : fpClass prec a ≠ .infinity ∧ fpClass prec a ≠ .nan := by
  rw [Ne, Ne, fpClass_infinity_iff, fpClass_nan_iff]
  exact ⟨fun hinf => h.ne hinf.1, fun hnan => h.ne hnan.1⟩

theorem addSpecial_of_finite (c : Config) (ha : isFinite prec a) (hb : isFinite prec b) (hazero : fpClass prec a ≠ .zero)
    (hbzero : fpClass prec b ≠ .zero) : addSpecial c prec a b = none := by
  obtain ⟨hainf, hanan⟩ := fpClass_ne_of_isFinite ha
  obtain ⟨hbinf, hbnan⟩ := fpClass_ne_of_isFinite hb
  exact addSpecial_eq_none c hanan hainf hazero hbnan hbinf hbzero

/-- The magnitude of a pattern has the pattern's own exponent. -/
theorem isResultExp_magnitude (ha : inFormat prec a) : IsResultExp prec (effExp a - expBias prec) (magnitude prec a) := by
  have hu := ulpAt_pos prec (effExp a - expBias prec)
  have hone := one_le_effExp a
  rw [magnitude_eq_ulpAt]
  refine ⟨by omega, ?_, ?_⟩
  · have hsig : (significand prec a : ℚ) < 2 ^ (manWidth prec + 1) := mod_cast significand_lt ha
    rw [← ulpAt_add_manWidth prec, add_right_comm, add_assoc _ (manWidth prec : Int), ← Nat.cast_succ,
      ← two_pow_mul_ulpAt]
    exact mul_lt_mul_of_pos_right hsig hu
  · rcases Nat.lt_or_ge 1 (effExp a) with hlt | hle
    · have hsig : (2 : ℚ) ^ manWidth prec ≤ significand prec a := mod_cast two_pow_le_significand hlt
      rw [← ulpAt_add_manWidth prec, ← two_pow_mul_ulpAt]
      exact .inl (mul_le_mul_of_nonneg_right hsig hu.le)
    · exact .inr (by omega)

/-- A pattern is what its own value rounds to. -/
theorem eq_packUnits_of_value (ha : inFormat prec a) (hfinite : isFinite prec a) (hne : fpValue prec a ≠ 0) {e : Int}
    {q w : Nat} {f : ℚ} (he : IsResultExp prec e |fpValue prec a|) (hr : |fpValue prec a| = (q + f) * ulpAt prec e)
    (hf0 : 0 ≤ f) (hf1 : f < 1) {rule : AddRoundRule} {left : Prop} (hw : IsRoundedTo rule left q f w) :
    a = packUnits prec (decide (fpValue prec a < 0)) w (e + expBias prec) := by
  have hzero : magnitude prec a ≠ 0 := fun h => hne (fpValue_of_zero ((magnitude_eq_zero_iff prec a).1 h))
  obtain ⟨-, habs, hsign⟩ := signed_facts (lt_of_le_of_ne (magnitude_nonneg prec a) hzero.symm)
    (v := fpValue prec a) (sign := a.sign) rfl
  rw [habs] at he hr
  have hexp := he.unique (isResultExp_magnitude ha)
  rw [hexp, magnitude_eq_ulpAt] at hr
  have hunits : (significand prec a : ℚ) = q + f := mul_right_cancel₀ (ulpAt_pos prec _).ne' hr
  have hq : significand prec a = q := by
    have hlo : (q : ℚ) ≤ significand prec a := by linarith
    have hhi : (significand prec a : ℚ) < q + 1 := by linarith
    exact le_antisymm (Nat.lt_succ_iff.1 (by exact_mod_cast hhi)) (by exact_mod_cast hlo)
  have hf : f = 0 := by
    rw [hq] at hunits
    linarith
  subst hf
  rw [hsign, hw.2 (not_tailUp_zero rule left _), ← hq, hexp, sub_add_cancel]
  exact (packUnits_significand ha hfinite).symm

end Finite

section Sum

variable {c : Config} {prec : Precision} {a b : FpFields} {v : ℚ}

theorem magnitude_pos_of_ne_zero (h : fpClass prec a ≠ .zero) : 0 < magnitude prec a :=
  lt_of_le_of_ne (magnitude_nonneg prec a) (Ne.symm (mt (magnitude_eq_zero_iff prec a).1 h))

theorem effExp_eq_max (h : effExp b ≤ effExp a) : effExp a = max (max a.exp b.exp) 1 := by
  rw [effExp, effExp] at h
  rw [effExp]
  omega

theorem fpValue_eq_zero_iff (prec : Precision) (x : FpFields) : fpValue prec x = 0 ↔ fpClass prec x = .zero := by
  rw [← magnitude_eq_zero_iff, fpValue]
  split
  · exact neg_eq_zero
  · rfl

theorem magnitudeGt_asymm (h : magnitudeGt prec b a ≠ false) : magnitudeGt prec a b = false := by
  rw [Ne, Bool.not_eq_false, magnitudeGt_eq_true_iff] at h
  rw [← Bool.not_eq_true, magnitudeGt_eq_true_iff]
  omega

theorem effExp_le_of_magnitudeGt_eq_false (h : magnitudeGt prec b a = false) : effExp b ≤ effExp a := by
  rw [← Bool.not_eq_true, magnitudeGt_eq_true_iff] at h
  omega

/-- Steps 2 and 3 on finite operands that are not zero, the first not the smaller. -/
theorem addMagnitudes_addAlign (ha : inFormat prec a) (hb : inFormat prec b) (hazero : fpClass prec a ≠ .zero)
    (hge : magnitudeGt prec b a = false) (hv : v = fpValue prec a + fpValue prec b) :
    (v = 0 ∧ a.sign ≠ b.sign ∧
      addMagnitudes prec a b (addAlign prec a b).1 (addAlign prec a b).2.1 = none) ∨
    (v ≠ 0 ∧ ∃ T, addMagnitudes prec a b (addAlign prec a b).1 (addAlign prec a b).2.1 = some (T, decide (v < 0)) ∧
      IsWorkingSum prec (addAlign prec a b).2.2 |v| T) := by
  rw [addAlign_of_le (effExp_le_of_magnitudeGt_eq_false hge)]
  exact addMagnitudes_aligned ha hb (magnitude_pos_of_ne_zero hazero) hge rfl hv

/-- The exact zero of two finite patterns (42_ieee754_add.md R153, R155). -/
theorem addFields_of_sum_zero (c : Config) (ha : inFormat prec a) (hb : inFormat prec b) (hafin : isFinite prec a)
    (hbfin : isFinite prec b) (hv : fpValue prec a + fpValue prec b = 0) :
    addFields c prec a b = ⟨a.sign && b.sign, 0, 0⟩ := by
  have hclass : fpClass prec a = .zero ↔ fpClass prec b = .zero := by
    rw [← fpValue_eq_zero_iff, ← fpValue_eq_zero_iff]
    constructor <;> intro h <;> linarith
  by_cases hazero : fpClass prec a = .zero
  · exact addFields_of_addSpecial c (addSpecial_of_zeros c hazero (hclass.1 hazero))
  have hbzero := mt hclass.2 hazero
  wlog hge : magnitudeGt prec b a = false generalizing a b with hwlog
  · rw [addFields_comm, Bool.and_comm]
    exact hwlog hb ha hbfin hafin (by rw [add_comm, hv]) hclass.symm hbzero hazero (magnitudeGt_asymm hge)
  obtain ⟨-, hsign, hsum⟩ | ⟨hne, -⟩ := addMagnitudes_addAlign ha hb hazero hge hv.symm
  · have hand : (a.sign && b.sign) = false := by
      rw [Bool.eq_not_of_ne hsign, Bool.not_and_self]
    rw [hand]
    exact addFields_of_exact_zero (addSpecial_of_finite c hafin hbfin hazero hbzero) hsum
  · exact absurd rfl hne

/-- The way through steps 2 to 7, for operands that are not zero. -/
theorem addFields_eq_packUnits_of_nonzero (c : Config) (ha : inFormat prec a) (hb : inFormat prec b)
    (hafin : isFinite prec a) (hbfin : isFinite prec b) (hazero : fpClass prec a ≠ .zero)
    (hbzero : fpClass prec b ≠ .zero) (hge : magnitudeGt prec b a = false) (hv : v = fpValue prec a + fpValue prec b)
    (hne : v ≠ 0) {e : Int} {q w : Nat} {f : ℚ} (he : IsResultExp prec e |v|) (hr : |v| = (q + f) * ulpAt prec e)
    (hf0 : 0 ≤ f) (hf1 : f < 1) (hw : IsRoundedTo c.addRoundRule (isLeftShifted prec a b e) q f w) :
    addFields c prec a b = packUnits prec (decide (v < 0)) w (e + expBias prec) := by
  obtain ⟨hv0, -⟩ | ⟨-, T, hsum, hworking⟩ := addMagnitudes_addAlign ha hb hazero hge hv
  · exact absurd hv0 hne
  obtain ⟨T', e', hnormal, he', htail⟩ := hworking.isNormalized (abs_pos.2 hne)
  obtain rfl := he'.unique he
  have hscaled : |v| / workingUnit prec (e' + expBias prec) = 8 * (q + f) := by
    have hunit : ulpAt prec e' = 8 * workingUnit prec (e' + expBias prec) := by
      rw [ulpAt, workingUnit, (by norm_num : (8 : ℚ) = 2 ^ (3 : Int)), ← zpow_add₀ two_ne_zero]
      congr 1
      ring
    rw [hr, hunit, div_eq_iff (workingUnit_pos prec _).ne']
    ring
  have hle := effExp_le_of_magnitudeGt_eq_false hge
  have hE : (addAlign prec a b).2.2 = max (max a.exp b.exp) 1 := by
    rw [addAlign_of_le hle]
    exact effExp_eq_max hle
  rw [hscaled, hE] at htail
  rw [addFields_of_steps (addSpecial_of_finite c hafin hbfin hazero hbzero) hsum hnormal]
  exact addPack_addRound (htail.reads hf0 hf1) hw (units_lt_two_pow he hr hf0) _ _

/-- The sum of two finite patterns is the exact sum in units of its last mantissa place, rounded as step 6 says of the tail
(42_ieee754_add.md R151, R158), whether or not step 1 answers. -/
theorem addFields_eq_packUnits (c : Config) (ha : inFormat prec a) (hb : inFormat prec b)
    (hafin : isFinite prec a) (hbfin : isFinite prec b) (hv : v = fpValue prec a + fpValue prec b)
    (hne : v ≠ 0) {e : Int} {q w : Nat} {f : ℚ} (he : IsResultExp prec e |v|) (hr : |v| = (q + f) * ulpAt prec e)
    (hf0 : 0 ≤ f) (hf1 : f < 1) (hw : IsRoundedTo c.addRoundRule (isLeftShifted prec a b e) q f w) :
    addFields c prec a b = packUnits prec (decide (v < 0)) w (e + expBias prec) := by
  wlog hge : magnitudeGt prec b a = false generalizing a b with hwlog
  · rw [addFields_comm]
    exact hwlog hb ha hbfin hafin (by rw [hv, add_comm]) (by rwa [isLeftShifted, max_comm b.exp])
      (magnitudeGt_asymm hge)
  by_cases hbzero : fpClass prec b = .zero
  · rw [fpValue_of_zero hbzero, add_zero] at hv
    subst hv
    have hazero : fpClass prec a ≠ .zero := mt (fpValue_eq_zero_iff prec a).2 hne
    rw [addFields_of_addSpecial c (addSpecial_of_zero_right c hbzero hazero (fpClass_ne_of_isFinite hafin).2)]
    exact eq_packUnits_of_value ha hafin hne he hr hf0 hf1 hw
  by_cases hazero : fpClass prec a = .zero
  · rw [fpValue_of_zero hazero, zero_add] at hv
    subst hv
    rw [addFields_of_addSpecial c (addSpecial_of_zero_left c hazero hbzero (fpClass_ne_of_isFinite hbfin).2)]
    exact eq_packUnits_of_value hb hbfin hne he hr hf0 hf1 hw
  · exact addFields_eq_packUnits_of_nonzero c ha hb hafin hbfin hazero hbzero hge hv hne he hr hf0 hf1 hw

end Sum

end Sys2Proof.Machine
end

section
/-! PROOFS, the family 42_ieee754_add. Correct rounding (42_ieee754_add.md R158, R159): the rule `nearest_even_grs` takes the
nearest number of units, no pattern lies strictly between two neighbours, and overflow begins half an ulp above the largest
finite number. -/

namespace Sys2Proof.Machine

theorem abs_fpValue (prec : Precision) (x : FpFields) : |fpValue prec x| = magnitude prec x := by
  rw [fpValue]
  split
  · rw [abs_neg, abs_of_nonneg (magnitude_nonneg prec x)]
  · exact abs_of_nonneg (magnitude_nonneg prec x)

theorem exists_isResultExp (prec : Precision) {r : ℚ} (hr : 0 < r) : ∃ e, IsResultExp prec e r := by
  obtain ⟨n, hlo, hhi⟩ := exists_mem_Ico_zpow hr one_lt_two
  have hlead : IsLeadingExp n r := ⟨hlo, hhi⟩
  rcases le_total (1 - (expBias prec : Int)) n with hnormal | hbelow
  · exact ⟨n, hlead.isResultExp hnormal⟩
  · exact ⟨_, hlead.isResultExp_denormal hbelow⟩

theorem exists_units (prec : Precision) (e : Int) {r : ℚ} (hr : 0 ≤ r) :
    ∃ (q : Nat) (f : ℚ), r = (q + f) * ulpAt prec e ∧ 0 ≤ f ∧ f < 1 := by
  have hu := ulpAt_pos prec e
  refine ⟨⌊r / ulpAt prec e⌋₊, r / ulpAt prec e - ⌊r / ulpAt prec e⌋₊, ?_,
    sub_nonneg.2 (Nat.floor_le (by positivity)), ?_⟩
  · rw [add_sub_cancel, div_mul_cancel₀ _ hu.ne']
  · have := Nat.lt_floor_add_one (r / ulpAt prec e)
    linarith

theorem exists_isRoundedTo (rule : AddRoundRule) (left : Prop) (q : Nat) (f : ℚ) : ∃ w, IsRoundedTo rule left q f w := by
  by_cases hup : tailUp rule left ((q : Int) % 2 = 1) f
  · exact ⟨q + 1, fun _ => rfl, fun h => absurd hup h⟩
  · exact ⟨q, fun h => absurd h hup, fun _ => rfl⟩

section Rounded

variable {prec : Precision} {rule : AddRoundRule} {left : Prop} {e : Int} {r f : ℚ} {q w : Nat}

theorem IsRoundedTo.eq_or (h : IsRoundedTo rule left q f w) : w = q + 1 ∨ w = q := by
  by_cases hup : tailUp rule left ((q : Int) % 2 = 1) f
  · exact .inl (h.1 hup)
  · exact .inr (h.2 hup)

/-- What the rounded units of a magnitude are packed to. -/
theorem packUnits_of_isRoundedTo (he : IsResultExp prec e r) (hr : r = (q + f) * ulpAt prec e) (hf0 : 0 ≤ f)
    (hf1 : f < 1) (hw : IsRoundedTo rule left q f w) (sign : Bool) :
    (2 ^ ((expBias prec : Int) + 1) ≤ w * ulpAt prec e →
      (packUnits prec sign w (e + expBias prec)).exp = expMax prec ∧
      (packUnits prec sign w (e + expBias prec)).man = 0) ∧
    (w * ulpAt prec e < 2 ^ ((expBias prec : Int) + 1) →
      isFinite prec (packUnits prec sign w (e + expBias prec)) ∧
      magnitude prec (packUnits prec sign w (e + expBias prec)) = w * ulpAt prec e ∧
      (w % 2 = 0 → (packUnits prec sign w (e + expBias prec)).man % 2 = 0)) := by
  have hq := units_lt_two_pow he hr hf0
  have hw' := hw.eq_or
  have hone : 1 ≤ e + expBias prec := by
    have := he.denormal_le
    omega
  have hspec := packUnits_spec (prec := prec) (w := w) (by omega) hone
    ((two_pow_le_units_or he hr hf1).imp_left (by omega)) sign
  rwa [add_sub_cancel_right] at hspec

/-- Below a set G, R and S say whether the tail is other than one half, after a left shift too (42_ieee754_add.md R158). -/
theorem tailR_or_tailS_iff (hhalf : 1 / 2 ≤ f) (hf1 : f < 1) : tailR left f ∨ tailS left f ↔ f ≠ 1 / 2 := by
  by_cases hleft : left
  · have hfloor : ⌊2 * f⌋ = 1 := Int.floor_eq_iff.2 ⟨by push_cast; linarith, by push_cast; linarith⟩
    simp only [tailR, tailS, hleft, not_true_eq_false, false_and, true_and, or_false, Int.fract, hfloor, Int.cast_one]
    rw [not_iff_not]
    constructor <;> intro h <;> linarith
  · simp only [tailR, tailS, hleft, not_false_eq_true, false_and, true_and, false_or]
    constructor
    · rintro hbits rfl
      have hfloor : ⌊(4 * (1 / 2) : ℚ)⌋ = 2 := Int.floor_eq_iff.2 (by norm_num)
      norm_num [Int.fract, hfloor] at hbits
    · intro hne
      by_contra! hbits
      obtain ⟨heven, hint⟩ := hbits
      rw [Int.fract, sub_eq_zero] at hint
      have hgt : (2 : ℚ) < ⌊4 * f⌋ := by
        rw [← hint]
        linarith [lt_of_le_of_ne hhalf hne.symm]
      have hlt : (⌊4 * f⌋ : ℚ) < 4 := by
        rw [← hint]
        linarith
      have hgt' : 2 < ⌊4 * f⌋ := by exact_mod_cast hgt
      have hlt' : ⌊4 * f⌋ < 4 := by exact_mod_cast hlt
      omega

/-- Under `nearest_even_grs` G, R, S and L tell the tail's side of one half, and the tie (42_ieee754_add.md R158). -/
theorem tailUp_nearestEvenGrs_iff {odd : Prop} (hf1 : f < 1) :
    tailUp .nearestEvenGrs left odd f ↔ 1 / 2 < f ∨ (f = 1 / 2 ∧ odd) := by
  rw [tailUp, ← or_assoc]
  constructor
  · rintro ⟨hhalf, htail⟩
    rw [tailR_or_tailS_iff hhalf hf1] at htail
    rcases hhalf.eq_or_lt with heq | hlt
    · exact .inr ⟨heq.symm, htail.resolve_left (not_not.2 heq.symm)⟩
    · exact .inl hlt
  · rintro (hlt | ⟨rfl, hodd⟩)
    · exact ⟨hlt.le, .inl ((tailR_or_tailS_iff hlt.le hf1).2 hlt.ne')⟩
    · exact ⟨le_rfl, .inr hodd⟩

/-- Under `nearest_even_grs` the units are the nearer neighbour, and an even one on a tie. -/
theorem IsRoundedTo.nearest (h : IsRoundedTo .nearestEvenGrs left q f w) (hf1 : f < 1) :
    (w = q ∧ f ≤ 1 / 2 ∨ w = q + 1 ∧ 1 / 2 ≤ f) ∧ (f = 1 / 2 → w % 2 = 0) := by
  obtain ⟨hup, hdown⟩ := h
  rw [tailUp_nearestEvenGrs_iff hf1] at hup hdown
  rcases lt_trichotomy f (1 / 2) with hlt | heq | hgt
  · exact ⟨.inl ⟨hdown (by rintro (h | ⟨h, -⟩) <;> linarith), hlt.le⟩, fun h => absurd h hlt.ne⟩
  · by_cases hodd : (q : Int) % 2 = 1
    · have hw := hup (.inr ⟨heq, hodd⟩)
      exact ⟨.inr ⟨hw, heq.ge⟩, fun _ => by omega⟩
    · have hw := hdown (by rintro (h | ⟨-, h⟩); exacts [h.ne' heq, hodd h])
      exact ⟨.inl ⟨hw, heq.le⟩, fun _ => by omega⟩
  · exact ⟨.inr ⟨hup (.inl hgt), hgt.le⟩, fun h => absurd h hgt.ne'⟩

/-- Nothing that avoids the gap between the neighbours is nearer to `q + f` than the rounded units. -/
theorem IsRoundedTo.nearest_of_gap (h : IsRoundedTo .nearestEvenGrs left q f w) (hf0 : 0 ≤ f) (hf1 : f < 1) {z : ℚ}
    (hz : z ≤ q ∨ q + 1 ≤ z) :
    |w - (q + f)| ≤ |z - (q + f)| ∧ (|z - (q + f)| = |w - (q + f)| → z ≠ w → w % 2 = 0) := by
  obtain ⟨hcases, heven⟩ := h.nearest hf1
  have hdist : |z - (q + f)| = q + f - z ∧ z ≤ q ∨ |z - (q + f)| = z - (q + f) ∧ q + 1 ≤ z := by
    rcases hz with hle | hge
    · exact .inl ⟨by rw [abs_of_nonpos (by linarith)]; ring, hle⟩
    · exact .inr ⟨abs_of_nonneg (by linarith), hge⟩
  rcases hcases with ⟨rfl, hhalf⟩ | ⟨rfl, hhalf⟩
  · rw [(by ring : (w : ℚ) - (w + f) = -f), abs_neg, abs_of_nonneg hf0]
    rcases hdist with ⟨hd, hle⟩ | ⟨hd, hge⟩ <;> rw [hd]
    · exact ⟨by linarith, fun htie hne => absurd (by linarith) hne⟩
    · exact ⟨by linarith, fun htie _ => heven (by linarith)⟩
  · push_cast
    rw [(by ring : (q : ℚ) + 1 - (q + f) = 1 - f), abs_of_nonneg (by linarith)]
    rcases hdist with ⟨hd, hle⟩ | ⟨hd, hge⟩ <;> rw [hd]
    · exact ⟨by linarith, fun htie _ => heven (by linarith)⟩
    · exact ⟨by linarith, fun htie hne => absurd (by linarith) hne⟩

/-- No finite pattern lies strictly between two neighbouring numbers of units. -/
theorem magnitude_gap (he : IsResultExp prec e r) (hr : r = (q + f) * ulpAt prec e) (hf1 : f < 1) {y : FpFields}
    (hy : inFormat prec y) : magnitude prec y ≤ q * ulpAt prec e ∨ (q + 1) * ulpAt prec e ≤ magnitude prec y := by
  have hu := ulpAt_pos prec e
  rw [magnitude_eq_ulpAt]
  rcases le_or_gt e (effExp y - expBias prec) with hcoarse | hfine
  · obtain ⟨k, hk⟩ := Int.le.dest hcoarse
    rw [← hk, ← two_pow_mul_ulpAt, ← mul_assoc]
    rcases Nat.lt_or_ge q (significand prec y * 2 ^ k) with hlt | hle
    · have : (q + 1 : ℚ) ≤ significand prec y * 2 ^ k := mod_cast hlt
      exact .inr (mul_le_mul_of_nonneg_right this hu.le)
    · have : (significand prec y * 2 ^ k : ℚ) ≤ q := mod_cast hle
      exact .inl (mul_le_mul_of_nonneg_right this hu.le)
  · have hone := one_le_effExp y
    have hq : (2 : ℚ) ^ manWidth prec ≤ q :=
      mod_cast (two_pow_le_units_or he hr hf1).resolve_right (by omega)
    have hsig : (significand prec y : ℚ) ≤ 2 ^ (manWidth prec + 1) := mod_cast (significand_lt hy).le
    refine .inl ?_
    calc (significand prec y : ℚ) * ulpAt prec (effExp y - expBias prec)
        ≤ 2 ^ (manWidth prec + 1) * ulpAt prec (e - 1) :=
          mul_le_mul hsig (ulpAt_le_ulpAt prec (by omega)) (ulpAt_pos prec _).le (by positivity)
      _ = 2 ^ manWidth prec * ulpAt prec e := by
          rw [two_pow_mul_ulpAt, two_pow_mul_ulpAt]
          congr 1
          push_cast
          ring
      _ ≤ q * ulpAt prec e := mul_le_mul_of_nonneg_right hq hu.le

/-- Half an ulp above the largest finite number (42_ieee754_add.md R159). -/
def overflowThreshold (prec : Precision) : ℚ :=
  (2 ^ (manWidth prec + 2) - 1) * 2 ^ ((expBias prec : Int) - manWidth prec - 1)

theorem overflowThreshold_eq (prec : Precision) :
    overflowThreshold prec = (2 ^ (manWidth prec + 1) - 1 / 2) * ulpAt prec (expBias prec) := by
  rw [overflowThreshold, ulpAt, zpow_sub_one₀ two_ne_zero]
  ring

theorem overflowThreshold_pos (prec : Precision) : 0 < overflowThreshold prec := by
  have hone : (1 : ℚ) ≤ 2 ^ (manWidth prec + 1) := one_le_pow₀ one_le_two
  rw [overflowThreshold_eq]
  exact mul_pos (by linarith) (ulpAt_pos prec _)

theorem zpow_bias_add_one (prec : Precision) :
    (2 : ℚ) ^ ((expBias prec : Int) + 1) = 2 ^ (manWidth prec + 1) * ulpAt prec (expBias prec) := by
  rw [two_pow_mul_ulpAt, ← ulpAt_add_manWidth prec]
  congr 1
  push_cast
  ring

/-- In units of the largest exponent the threshold separates what rounds to `2^(m+1)` units. -/
theorem threshold_units_iff (hq : q < 2 ^ (manWidth prec + 1)) (hf1 : f < 1)
    (hw : IsRoundedTo .nearestEvenGrs left q f w) :
    (2 ^ (manWidth prec + 1) - 1 / 2 : ℚ) ≤ q + f ↔ (2 ^ (manWidth prec + 1) : ℚ) ≤ w := by
  obtain ⟨hcases, heven⟩ := hw.nearest hf1
  have hN : 2 ∣ 2 ^ (manWidth prec + 1) := dvd_pow_self 2 (Nat.succ_ne_zero _)
  have hcast : (2 : ℚ) ^ (manWidth prec + 1) = ((2 ^ (manWidth prec + 1) : Nat) : ℚ) := by push_cast; rfl
  rw [hcast, Nat.cast_le]
  generalize 2 ^ (manWidth prec + 1) = N at hq hN
  have hq' : (q + 1 : ℚ) ≤ N := mod_cast hq
  rcases hcases with ⟨rfl, hhalf⟩ | ⟨rfl, hhalf⟩
  · refine iff_of_false (fun hle => ?_) hq.not_ge
    have hw0 := heven (by linarith)
    have hNw : (N : ℚ) ≤ w + 1 := by linarith
    have hNw' : N ≤ w + 1 := by exact_mod_cast hNw
    omega
  · constructor
    · intro hle
      have hlt : (N : ℚ) < q + 2 := by linarith
      exact Nat.lt_succ_iff.1 (by exact_mod_cast hlt)
    · intro hle
      have : (N : ℚ) ≤ q + 1 := mod_cast hle
      linarith

/-- The rounded units reach `2^(bias + 1)` exactly from the overflow threshold on. -/
theorem overflowThreshold_le_iff (he : IsResultExp prec e r) (hr : r = (q + f) * ulpAt prec e) (hf0 : 0 ≤ f)
    (hf1 : f < 1) (hw : IsRoundedTo .nearestEvenGrs left q f w) :
    overflowThreshold prec ≤ r ↔ 2 ^ ((expBias prec : Int) + 1) ≤ w * ulpAt prec e := by
  have hq := units_lt_two_pow he hr hf0
  have hu := ulpAt_pos prec e
  have huB := ulpAt_pos prec (expBias prec)
  have hone : (1 : ℚ) ≤ 2 ^ (manWidth prec + 1) := one_le_pow₀ one_le_two
  have hdouble {i j : Int} (hij : i < j) : 2 * ulpAt prec i ≤ ulpAt prec j := by
    rw [← pow_one (2 : ℚ), two_pow_mul_ulpAt]
    exact ulpAt_le_ulpAt prec (by push_cast; omega)
  rw [overflowThreshold_eq, zpow_bias_add_one]
  rcases lt_trichotomy e (expBias prec) with hlt | rfl | hgt
  · have hulp := mul_le_mul_of_nonneg_left (hdouble hlt) (zero_le_one.trans hone)
    have hthreshold := mul_le_mul_of_nonneg_right hone huB.le
    have hq' : (q + 1 : ℚ) ≤ 2 ^ (manWidth prec + 1) := mod_cast hq
    have hw' : (w : ℚ) ≤ 2 ^ (manWidth prec + 1) := by
      have : w ≤ q + 1 := by have := hw.eq_or; omega
      exact hq'.trans' (by exact_mod_cast this)
    have hsum := mul_lt_mul_of_pos_right (by linarith : q + f < 2 ^ (manWidth prec + 1)) hu
    have hunits := mul_le_mul_of_nonneg_right hw' hu.le
    exact iff_of_false (by linarith) (by linarith)
  · rw [hr, mul_le_mul_iff_left₀ huB, mul_le_mul_iff_left₀ huB]
    exact threshold_units_iff hq hf1 hw
  · have hbias : 1 < 2 * expBias prec + 1 := expMax_eq prec ▸ one_lt_expMax prec
    have hnormal := (two_pow_le_units_or he hr hf1).resolve_right (by omega)
    have hulp : 2 ^ (manWidth prec + 1) * ulpAt prec (expBias prec) ≤ 2 ^ manWidth prec * ulpAt prec e := by
      rw [pow_succ, mul_assoc]
      exact mul_le_mul_of_nonneg_left (hdouble hgt) (by positivity)
    have hq' : (2 : ℚ) ^ manWidth prec ≤ q := mod_cast hnormal
    have hw' : (2 : ℚ) ^ manWidth prec ≤ w := by
      have : 2 ^ manWidth prec ≤ w := by have := hw.eq_or; omega
      exact_mod_cast this
    have hsum := mul_le_mul_of_nonneg_right (by linarith : (2 : ℚ) ^ manWidth prec ≤ q + f) hu.le
    have hunits := mul_le_mul_of_nonneg_right hw' hu.le
    rw [hr]
    exact iff_of_true (by linarith) (by linarith)

end Rounded

/-- The difference of two values seen from the side of `v`, in units of `u`. -/
theorem abs_sub_eq_units {v t u : ℚ} (hu : 0 < u) {sign : Bool} (hv : v = if sign then -(t * u) else t * u) (y : ℚ) :
    |y - v| = |(if sign then -y else y) / u - t| * u := by
  have hscale : |(if sign then -y else y) / u - t| * u = |(if sign then -y else y) - t * u| := by
    rw [← abs_of_pos hu, ← abs_mul, abs_of_pos hu, sub_mul, div_mul_cancel₀ _ hu.ne']
  rw [hscale, hv]
  cases sign with
  | false => rfl
  | true =>
    simp only [if_true]
    rw [← abs_neg]
    congr 1
    ring

/-- A number by its sign and its absolute value. -/
theorem eq_signed_abs (v : ℚ) : v = if decide (v < 0) then -|v| else |v| := by
  by_cases h : v < 0
  · rw [decide_eq_true h, if_pos rfl, abs_of_neg h, neg_neg]
  · rw [decide_eq_false h, if_neg Bool.false_ne_true, abs_of_nonneg (not_lt.1 h)]

section Nearest

variable {prec : Precision} {left : Prop} {e : Int} {v f : ℚ} {q w : Nat} {x y : FpFields}

/-- Seen from the side of `v`, a finite pattern avoids the gap between the neighbours of `v`. -/
theorem value_gap (he : IsResultExp prec e |v|) (hr : |v| = (q + f) * ulpAt prec e) (hf1 : f < 1) (hy : inFormat prec y)
    (sign : Bool) : (if sign then -fpValue prec y else fpValue prec y) / ulpAt prec e ≤ q ∨
      q + 1 ≤ (if sign then -fpValue prec y else fpValue prec y) / ulpAt prec e := by
  have hu := ulpAt_pos prec e
  have hmag := magnitude_nonneg prec y
  have hq : 0 ≤ (q : ℚ) * ulpAt prec e := by positivity
  rw [div_le_iff₀ hu, le_div_iff₀ hu]
  obtain hvalue | hvalue : (if sign then -fpValue prec y else fpValue prec y) = magnitude prec y ∨
      (if sign then -fpValue prec y else fpValue prec y) = -magnitude prec y := by
    rw [fpValue]
    cases sign <;> cases y.sign <;> simp
  · rw [hvalue]
    exact magnitude_gap he hr hf1 hy
  · rw [hvalue]
    exact .inl (by linarith)

/-- A finite pattern of the rounded units and the sign of `v` is nearest to `v`, with an even mantissa on a tie. -/
theorem nearest_of_isRoundedTo (he : IsResultExp prec e |v|) (hr : |v| = (q + f) * ulpAt prec e) (hf0 : 0 ≤ f)
    (hf1 : f < 1) (hw : IsRoundedTo .nearestEvenGrs left q f w) (hsign : x.sign = decide (v < 0))
    (hmag : magnitude prec x = w * ulpAt prec e) (heven : w % 2 = 0 → x.man % 2 = 0) (hy : inFormat prec y) :
    |fpValue prec x - v| ≤ |fpValue prec y - v| ∧
      (|fpValue prec y - v| = |fpValue prec x - v| → fpValue prec y ≠ fpValue prec x → x.man % 2 = 0) := by
  have hu := ulpAt_pos prec e
  have hv : v = if x.sign then -((q + f) * ulpAt prec e) else (q + f) * ulpAt prec e := by
    rw [← hr, hsign]
    exact eq_signed_abs v
  have hx : (if x.sign then -fpValue prec x else fpValue prec x) / ulpAt prec e = w := by
    rw [div_eq_iff hu.ne', ← hmag, fpValue]
    cases x.sign <;> simp
  obtain ⟨hle, htie⟩ := hw.nearest_of_gap hf0 hf1 (value_gap he hr hf1 hy x.sign)
  rw [abs_sub_eq_units hu hv (fpValue prec y), abs_sub_eq_units hu hv (fpValue prec x), hx]
  refine ⟨mul_le_mul_of_nonneg_right hle hu.le, fun hdist hne => heven (htie (mul_right_cancel₀ hu.ne' hdist) ?_)⟩
  intro heq
  rw [← hx, div_left_inj' hu.ne'] at heq
  refine hne ?_
  cases hxs : x.sign <;> simp [hxs] at heq <;> exact heq

end Nearest

/-- Under `nearest_even_grs` the sum of finite patterns is the exact sum rounded to nearest, ties to even. -/
theorem addFields_nearest {c : Config} (hrule : c.addRoundRule = .nearestEvenGrs) {prec : Precision} {a b : FpFields}
    (ha : inFormat prec a) (hb : inFormat prec b) (hafin : isFinite prec a) (hbfin : isFinite prec b) {v : ℚ}
    (hv : v = fpValue prec a + fpValue prec b) (hne : v ≠ 0) :
    (addFields c prec a b).sign = decide (v < 0) ∧
    (overflowThreshold prec ≤ |v| → (addFields c prec a b).exp = expMax prec ∧ (addFields c prec a b).man = 0) ∧
    (|v| < overflowThreshold prec → isFinite prec (addFields c prec a b) ∧
      ∀ y, inFormat prec y → |fpValue prec (addFields c prec a b) - v| ≤ |fpValue prec y - v| ∧
        (|fpValue prec y - v| = |fpValue prec (addFields c prec a b) - v| →
          fpValue prec y ≠ fpValue prec (addFields c prec a b) → (addFields c prec a b).man % 2 = 0)) := by
  obtain ⟨e, he⟩ := exists_isResultExp prec (abs_pos.2 hne)
  obtain ⟨q, f, hr, hf0, hf1⟩ := exists_units prec e (abs_nonneg v)
  obtain ⟨w, hw⟩ := exists_isRoundedTo c.addRoundRule (isLeftShifted prec a b e) q f
  obtain ⟨hover, hfin⟩ := packUnits_of_isRoundedTo he hr hf0 hf1 hw (decide (v < 0))
  rw [addFields_eq_packUnits c ha hb hafin hbfin hv hne he hr hf0 hf1 hw]
  rw [hrule] at hw
  have hthreshold := overflowThreshold_le_iff he hr hf0 hf1 hw
  refine ⟨packUnits_sign _ _ _ _, fun hle => hover (hthreshold.1 hle), fun hlt => ?_⟩
  obtain ⟨hfinite, hmag, heven⟩ := hfin (lt_of_not_ge (mt hthreshold.2 hlt.not_ge))
  exact ⟨hfinite, fun y hy => nearest_of_isRoundedTo he hr hf0 hf1 hw (packUnits_sign _ _ _ _) hmag heven hy⟩

/-- Under either rule the sum of finite patterns is `q` or `q + 1` units of its last mantissa place, as the rule says of the
tail. -/
theorem addFields_units {c : Config} {prec : Precision} {a b : FpFields} (ha : inFormat prec a) (hb : inFormat prec b)
    (hafin : isFinite prec a) (hbfin : isFinite prec b) {v : ℚ} (hv : v = fpValue prec a + fpValue prec b) (hne : v ≠ 0)
    {e : Int} {q w : Nat} {f : ℚ} (he : IsResultExp prec e |v|) (hr : |v| = (q + f) * ulpAt prec e) (hf0 : 0 ≤ f)
    (hf1 : f < 1) (hw : IsRoundedTo c.addRoundRule (isLeftShifted prec a b e) q f w) :
    (addFields c prec a b).sign = decide (v < 0) ∧
    (2 ^ ((expBias prec : Int) + 1) ≤ w * ulpAt prec e →
      (addFields c prec a b).exp = expMax prec ∧ (addFields c prec a b).man = 0) ∧
    (w * ulpAt prec e < 2 ^ ((expBias prec : Int) + 1) →
      isFinite prec (addFields c prec a b) ∧ |fpValue prec (addFields c prec a b)| = w * ulpAt prec e) := by
  obtain ⟨hover, hfin⟩ := packUnits_of_isRoundedTo he hr hf0 hf1 hw (decide (v < 0))
  rw [addFields_eq_packUnits c ha hb hafin hbfin hv hne he hr hf0 hf1 hw]
  refine ⟨packUnits_sign _ _ _ _, hover, fun hlt => ?_⟩
  obtain ⟨hfinite, hmag, -⟩ := hfin hlt
  exact ⟨hfinite, (abs_fpValue prec _).trans hmag⟩

/-- The exact sum's units are a natural number, and so is what they are rounded to. -/
theorem exists_nat_units {rule : AddRoundRule} {left : Prop} {q w : Int} {f ulp r : ℚ} (hr0 : 0 ≤ r) (hulp : 0 < ulp)
    (hr : r = (q + f) * ulp) (hf1 : f < 1) (hup : tailUp rule left (q % 2 = 1) f → w = q + 1)
    (hdown : ¬tailUp rule left (q % 2 = 1) f → w = q) :
    ∃ q' w' : Nat, q = q' ∧ w = w' ∧ IsRoundedTo rule left q' f w' := by
  have hq : 0 ≤ q := by
    have hsum : 0 ≤ q + f := nonneg_of_mul_nonneg_left (hr ▸ hr0) hulp
    have hlt : (-1 : ℚ) < q := by linarith
    have : -1 < q := by exact_mod_cast hlt
    omega
  lift q to Nat using hq
  obtain ⟨w', hw'⟩ := exists_isRoundedTo rule left q f
  refine ⟨q, w', rfl, ?_, hw'⟩
  by_cases htail : tailUp rule left ((q : Int) % 2 = 1) f
  · rw [hup htail, hw'.1 htail, Nat.cast_succ]
  · rw [hdown htail, hw'.2 htail]

/-- Settles O53: the exact zero (`addFields_of_sum_zero`), correct rounding (`addFields_nearest`) and step 6 on the exact
tail (`addFields_units`). -/
theorem f754AddCorrectlyRounded : Obligations.F754AddCorrectlyRounded := by
  unfold Obligations.F754AddCorrectlyRounded
  constructor
  · rintro c prec a b x v hrule ha hb hafin hbfin hv rfl
    have hthreshold := overflowThreshold_pos prec
    refine ⟨addFields_inFormat c ha hb, fun hzero => addFields_of_sum_zero c ha hb hafin hbfin (hv ▸ hzero), ?_⟩
    by_cases hzero : v = 0
    · rw [addFields_of_sum_zero c ha hb hafin hbfin (hv ▸ hzero), hzero, abs_zero]
      refine ⟨fun hne => absurd rfl hne, fun hle => absurd hle hthreshold.not_ge,
        fun _ => ⟨Nat.pos_of_ne_zero (expMax_ne_zero prec), fun y _ _ => ⟨?_, fun _ _ => rfl⟩⟩⟩
      rw [fpValue_of_zero ((fpClass_zero_iff prec _).2 ⟨rfl, rfl⟩), sub_zero, abs_zero]
      exact abs_nonneg _
    · obtain ⟨hsign, hover, hfin⟩ := addFields_nearest hrule ha hb hafin hbfin hv hzero
      exact ⟨fun _ => hsign, hover, fun hlt => ⟨(hfin hlt).1, fun y hy _ => (hfin hlt).2 y hy⟩⟩
  · rintro c prec a b x v ha hb hafin hbfin hv rfl
    refine ⟨addFields_inFormat c ha hb, fun hzero => addFields_of_sum_zero c ha hb hafin hbfin (hv ▸ hzero), ?_⟩
    rintro hne e q w f ulp hmin hlt hlead rfl hr hf0 hf1 hup hdown
    obtain ⟨q, w, rfl, rfl, hw⟩ := exists_nat_units (abs_nonneg v) (ulpAt_pos prec e) hr hf1 hup hdown
    exact addFields_units ha hb hafin hbfin hv hne ⟨hmin, hlt, hlead⟩ hr hf0 hf1 hw

end Sys2Proof.Machine
end

section
/-! PROOFS, the family 43_crc. The remainder as congruence modulo the generator (43_crc.md R171): when it is 0, when two
words share it, and what a flipped bit does to it. -/

namespace Sys2Proof.Machine

open Polynomial

@[simp] theorem zeroBits_length (n : Nat) : (zeroBits n).length = n := List.length_replicate

theorem isZeroBits_iff (b : Bits) : isZeroBits b = true ↔ b = zeroBits b.length := by
  simp [isZeroBits, zeroBits, List.eq_replicate_iff]

@[simp] theorem bitsPoly_zeroBits (n : Nat) : bitsPoly (zeroBits n) = 0 := by
  induction n with
  | zero => rfl
  | succ n ih => rw [zeroBits, List.replicate_succ, bitsPoly_cons_false, ← zeroBits, ih]

theorem bitsPoly_append (a b : Bits) : bitsPoly (a ++ b) = bitsPoly a * X ^ b.length + bitsPoly b := by
  rw [bitsPoly, List.foldl_append, bitsPoly_foldl]
  rfl

/-- The first bit is the coefficient of the highest degree (00_scope.md R7). -/
theorem coeff_bitsPoly_cons (x : Bool) (b : Bits) :
    (bitsPoly (x :: b)).coeff b.length = if x then 1 else 0 := by
  have hlow : (bitsPoly b).coeff b.length = 0 := coeff_eq_zero_of_degree_lt (degree_bitsPoly_lt b)
  cases x <;> simp [hlow]

/-- Words of one length with one polynomial are equal (00_scope.md R7). -/
theorem bitsPoly_injective {a b : Bits} (hlen : a.length = b.length) (h : bitsPoly a = bitsPoly b) : a = b := by
  induction a generalizing b with
  | nil => exact (List.eq_nil_of_length_eq_zero hlen.symm).symm
  | cons x a ih =>
    obtain ⟨y, b, rfl⟩ : ∃ y b', b = y :: b' := List.exists_cons_of_length_eq_add_one hlen.symm
    have hlen : a.length = b.length := Nat.succ.inj hlen
    have hhead : x = y := by
      have hx := coeff_bitsPoly_cons x a
      rw [h, hlen, coeff_bitsPoly_cons] at hx
      cases x <;> cases y <;> simp_all
    rw [bitsPoly_cons, bitsPoly_cons, hhead, hlen, add_right_inj] at h
    rw [hhead, ih hlen h]

/-- Flipping bit `p` adds the term of its place (43_crc.md R175). -/
theorem bitsPoly_flipBit {b : Bits} {p : Nat} (hp : p < b.length) :
    bitsPoly (flipBit b p) = bitsPoly b + X ^ (b.length - 1 - p) := by
  induction b generalizing p with
  | nil => simp at hp
  | cons x b ih =>
    cases p with
    | zero =>
      have hflip : flipBit (x :: b) 0 = (x ^^ true) :: b := by simp [flipBit]
      rw [hflip, bitsPoly_cons, bitsPoly_cons, bitCoeff_xor]
      simp only [List.length_cons, Nat.add_sub_cancel, Nat.sub_zero, if_true]
      ring
    | succ p =>
      have hp : p < b.length := by simpa using hp
      have hflip : flipBit (x :: b) (p + 1) = x :: flipBit b p := rfl
      have hlen : (flipBit b p).length = b.length := List.length_modify _ _ _
      have hplace : (x :: b).length - 1 - (p + 1) = b.length - 1 - p := by simp; omega
      rw [hflip, bitsPoly_cons, bitsPoly_cons, ih hp, hlen, hplace]
      ring

@[simp] theorem flipBit_length (b : Bits) (p : Nat) : (flipBit b p).length = b.length := List.length_modify _ _ _

/-- A flip inverts that bit and no other (43_crc.md R175). -/
theorem flipBit_getElem? (b : Bits) (p j : Nat) :
    (flipBit b p)[j]? = if j = p then b[j]?.map (fun x => !x) else b[j]? := by
  rw [flipBit, List.getElem?_modify]
  rcases eq_or_ne j p with rfl | h
  · simp
  · simp [h, h.symm]

/-- Two flips of one bit cancel. -/
@[simp] theorem flipBit_flipBit (b : Bits) (p : Nat) : flipBit (flipBit b p) p = b := by
  apply List.ext_getElem?
  intro j
  rw [flipBit_getElem?, flipBit_getElem?]
  by_cases h : j = p <;> simp [h, Function.comp_def]

section Division

/-- A division of 43_crc.md R171: a generator that passed the checks of R170, and `k` positions. -/
structure IsDivision (W G : Bits) (k : Nat) : Prop where
  msb : G.head? = some true
  length : W.length = k + (G.length - 1)

variable {W V G : Bits} {k : Nat}

theorem IsDivision.congrLength (hW : IsDivision W G k) (h : V.length = W.length) : IsDivision V G k :=
  ⟨hW.msb, h.trans hW.length⟩

theorem crcRem_length (hW : IsDivision W G k) : (crcRem W G k).length = G.length - 1 := by
  obtain ⟨-, hdivision⟩ := crcRemainderIsPolynomialRemainder
  exact (hdivision W G k hW.msb hW.length).1

theorem bitsPoly_crcRem (hW : IsDivision W G k) : bitsPoly (crcRem W G k) = bitsPoly W %ₘ bitsPoly G := by
  obtain ⟨-, hdivision⟩ := crcRemainderIsPolynomialRemainder
  obtain ⟨-, -, hpoly⟩ := hdivision W G k hW.msb hW.length
  exact hpoly

theorem monic_bitsPoly (hG : G.head? = some true) : (bitsPoly G).Monic := by
  obtain ⟨g, rfl⟩ : ∃ g, G = true :: g := List.head?_eq_some_iff.1 hG
  exact monic_bitsPoly_cons_true g

/-- Two words have one remainder iff their sum is a multiple of the generator. -/
theorem crcRem_eq_iff_dvd (hW : IsDivision W G k) (hV : IsDivision V G k) :
    crcRem W G k = crcRem V G k ↔ bitsPoly G ∣ bitsPoly W + bitsPoly V := by
  have hmonic := monic_bitsPoly hW.msb
  rw [← CharTwo.sub_eq_add, ← modByMonic_eq_zero_iff_dvd hmonic, sub_modByMonic, sub_eq_zero, ← bitsPoly_crcRem hW,
    ← bitsPoly_crcRem hV]
  exact ⟨congrArg _, bitsPoly_injective ((crcRem_length hW).trans (crcRem_length hV).symm)⟩

/-- The remainder is 0 iff the word is a multiple of the generator. -/
theorem crcRem_eq_zeroBits_iff_dvd (hW : IsDivision W G k) :
    crcRem W G k = zeroBits (G.length - 1) ↔ bitsPoly G ∣ bitsPoly W := by
  rw [← modByMonic_eq_zero_iff_dvd (monic_bitsPoly hW.msb), ← bitsPoly_crcRem hW]
  refine ⟨fun h => by rw [h, bitsPoly_zeroBits], fun h => bitsPoly_injective (by simp [crcRem_length hW]) ?_⟩
  rw [h, bitsPoly_zeroBits]

/-- The self-check of CRC.ENC passes: `M·x^r + (M·x^r mod G)` is a multiple of `G` (43_crc.md R173). -/
theorem crcRem_codeword (M : Bits) (hG : G.head? = some true) :
    crcRem (M ++ crcRem (M ++ zeroBits (G.length - 1)) G M.length) G M.length = zeroBits (G.length - 1) := by
  have hW : IsDivision (M ++ zeroBits (G.length - 1)) G M.length := ⟨hG, by simp⟩
  have hrem := crcRem_length hW
  rw [crcRem_eq_zeroBits_iff_dvd ⟨hG, by rw [List.length_append, hrem]⟩, bitsPoly_append, bitsPoly_crcRem hW, hrem,
    bitsPoly_append, bitsPoly_zeroBits, add_zero, zeroBits_length, add_comm, ← CharTwo.sub_eq_add]
  exact dvd_modByMonic_sub _ _

/-- The syndrome of a valid codeword with one bit flipped is that of the bit alone (43_crc.md R177). -/
theorem crcRem_flipBit_of_valid (hW : IsDivision W G k) (hvalid : crcRem W G k = zeroBits (G.length - 1)) {p : Nat}
    (hp : p < W.length) : crcRem (flipBit W p) G k = crcRem (flipBit (zeroBits W.length) p) G k := by
  rw [crcRem_eq_zeroBits_iff_dvd hW] at hvalid
  rw [crcRem_eq_iff_dvd (hW.congrLength (by simp)) (hW.congrLength (by simp)), bitsPoly_flipBit hp,
    bitsPoly_flipBit (by simpa using hp), bitsPoly_zeroBits, zero_add, zeroBits_length, add_assoc,
    CharTwo.add_self_eq_zero, add_zero]
  exact hvalid

/-- Flipping a bit zeroes the remainder iff the remainder is that of the bit alone (43_crc.md R176). -/
theorem crcRem_flipBit_eq_zeroBits_iff (hW : IsDivision W G k) {q : Nat} (hq : q < W.length) :
    crcRem (flipBit W q) G k = zeroBits (G.length - 1) ↔
      crcRem W G k = crcRem (flipBit (zeroBits W.length) q) G k := by
  rw [crcRem_eq_zeroBits_iff_dvd (hW.congrLength (by simp)), crcRem_eq_iff_dvd hW (hW.congrLength (by simp)),
    bitsPoly_flipBit hq, bitsPoly_flipBit (by simpa using hq), bitsPoly_zeroBits, zero_add, zeroBits_length]

end Division

end Sys2Proof.Machine
end

section
/-! PROOFS, the family 43_crc. CRC.ENC and CRC.DEC as commands (43_crc.md R170 to R177): the checks of their operands,
what each delivers, and the position that CRC.DEC reports. -/

namespace Sys2Proof.Machine

section Operands

variable {opa opb : Text} {M G : Bits} {e : Err}

theorem crcOperands_error_first (h : bitsOperand opa = .error e) : crcOperands opa opb = .error e := by
  rw [crcOperands, h]
  rfl

theorem crcOperands_error_second (hM : bitsOperand opa = .ok M) (h : bitsOperand opb = .error e) :
    crcOperands opa opb = .error e := by
  rw [crcOperands, hM, h]
  rfl

/-- The checks of the generator (43_crc.md R170). -/
theorem crcOperands_of_bits (hM : bitsOperand opa = .ok M) (hG : bitsOperand opb = .ok G) : crcOperands opa opb =
    if 2 ≤ G.length then if G.head? = some true then .ok (M, G) else .error .genMsb else .error .range := by
  have hchecks : crcOperands opa opb = (require (decide (2 ≤ G.length)) .range >>= fun _ =>
      require (G.headD false) .genMsb >>= fun _ => pure (M, G)) := by
    rw [crcOperands, hM, hG]
    rfl
  rw [hchecks, require_bind, require_bind]
  rcases G with _ | ⟨_ | _, g⟩ <;> simp [pure, Except.pure]

/-- What the checks of 43_crc.md R170 accept. -/
theorem crcOperands_ok_iff : crcOperands opa opb = .ok (M, G) ↔
    bitsOperand opa = .ok M ∧ bitsOperand opb = .ok G ∧ 2 ≤ G.length ∧ G.head? = some true := by
  constructor
  · intro h
    obtain ⟨M', hM, hrest⟩ := (except_bind_ok _ _ _).1 h
    obtain ⟨G', hG, -⟩ := (except_bind_ok _ _ _).1 hrest
    rw [crcOperands_of_bits hM hG] at h
    split at h
    case isTrue hlen =>
      split at h <;> cases h
      exact ⟨hM, hG, hlen, ‹_›⟩
    case isFalse => cases h
  · rintro ⟨hM, hG, hlen, hmsb⟩
    rw [crcOperands_of_bits hM hG, if_pos hlen, if_pos hmsb]

theorem failsWith_crcEnc {s : State} (h : crcOperands s.opa.content s.opb.content = .error e) :
    FailsWith .crcEnc s e := by
  refine failsWith_of_error _ _ _ ?_
  rw [opResult, crcEncode, h]
  rfl

theorem failsWith_crcDec {s : State} (fix : Bool) (h : crcOperands s.opa.content s.opb.content = .error e) :
    FailsWith (.crcDec fix) s e := by
  refine failsWith_of_error _ _ _ ?_
  rw [opResult, crcDecode, h]
  rfl

end Operands

/-- Settles O29: the checks one after the other, and an error of theirs ends either command. -/
theorem crcOperandChecks : Obligations.CrcOperandChecks := by
  unfold Obligations.CrcOperandChecks
  refine ⟨fun opa opb => ⟨fun e he => crcOperands_error_first he, fun M hM =>
    ⟨fun e he => crcOperands_error_second hM he, fun G hG => ?_⟩⟩,
    fun s fix e he => ⟨failsWith_crcEnc he, failsWith_crcDec fix he⟩⟩
  rw [crcOperands_of_bits hM hG]
  exact ⟨fun hshort => if_neg (by omega), fun hlen hmsb => by rw [if_pos hlen, if_neg (by simp [hmsb])],
    fun hlen hmsb => by rw [if_pos hlen, if_pos hmsb]⟩

/-- An operand is no longer than its buffer may be (10_state.md R24). -/
theorem bitsOperand_length_le_bufmax {s : State} (hs : s.inv = true) {R : Bits}
    (hR : bitsOperand s.opa.content = .ok R) : R.length ≤ s.cfg.bufmax := by
  have hopa := ((State.inv_iff s).1 hs).opa
  exact (bitsOperand_length_le s.opa R hR).trans ((Buffer.ok_iff _ _).1 hopa).1

/-! CRC.ENC (43_crc.md R172). -/

/-- The remainder that CRC.ENC appends (43_crc.md R172). -/
def crcRemainder (M G : Bits) : Bits := crcRem (M ++ zeroBits (G.length - 1)) G M.length

theorem crcRemainder_length (M : Bits) {G : Bits} (hG : G.head? = some true) :
    (crcRemainder M G).length = G.length - 1 :=
  crcRem_length ⟨hG, by simp⟩

/-- What CRC.ENC delivers (43_crc.md R172). -/
def crcEncResults (M G : Bits) : Results :=
  { ra := bitsText (M ++ crcRemainder M G), rb := bitsText (crcRemainder M G),
    aux0 := BitVec.ofNat 32 M.length, aux1 := BitVec.ofNat 32 (G.length - 1), flags := { valid := true } }

/-- The self-check of CRC.ENC passes (43_crc.md R173). -/
theorem crcEncode_of_operands {opa opb : Text} {M G : Bits} (h : crcOperands opa opb = .ok (M, G)) :
    crcEncode opa opb = .ok (crcEncResults M G) := by
  obtain ⟨-, -, -, hmsb⟩ := crcOperands_ok_iff.1 h
  have hcheck : isZeroBits (crcRem (M ++ crcRemainder M G) G M.length) = true := by
    rw [crcRemainder, crcRem_codeword M hmsb, isZeroBits_iff, zeroBits_length]
  rw [crcEncode, h, crcEncResults, ← hcheck]
  rfl

theorem crcEncResults_overCapacity_iff (c : Config) (M : Bits) {G : Bits} (hG : G.head? = some true) :
    (crcEncResults M G).overCapacity c = false ↔ M.length + (G.length - 1) ≤ c.bufmax := by
  rw [Results.overCapacity_eq_false_iff, crcEncResults]
  simp only [bitsText_length, List.length_append, crcRemainder_length M hG, List.length_nil]
  omega

theorem crcEnc_completes {s : State} (hs : s.inv = true) {M G : Bits}
    (h : crcOperands s.opa.content s.opb.content = .ok (M, G)) (hfit : M.length + (G.length - 1) ≤ s.cfg.bufmax) :
    Completes .crcEnc s (crcEncResults M G) := by
  obtain ⟨-, -, -, hmsb⟩ := crcOperands_ok_iff.1 h
  exact completes_of_ok _ s _ hs (crcEncode_of_operands h) ((crcEncResults_overCapacity_iff _ M hmsb).2 hfit) rfl

/-- Settles O31: the codeword divides (`crcRem_codeword`), so the self-check passes, and its length decides between
delivery and E_CAPACITY. -/
theorem crcEncRule : Obligations.CrcEncRule := by
  unfold Obligations.CrcEncRule
  refine ⟨by decide, fun s hs => ⟨fun e he => failsWith_crcEnc he, fun M G h => ?_⟩⟩
  obtain ⟨-, -, -, hmsb⟩ := crcOperands_ok_iff.1 h
  refine ⟨crcRemainder M G, rfl, crcRem_codeword M hmsb, crcEnc_completes hs h, fun hlong => ?_⟩
  refine failsWith_capacity _ s _ (crcEncode_of_operands h) ?_
  rw [← Bool.not_eq_false, crcEncResults_overCapacity_iff _ M hmsb]
  omega

/-! CRC.DEC (43_crc.md R175, R176). -/

/-- The word whose first bits CRC.DEC takes for the message (43_crc.md R175). -/
def crcSource (R : Bits) : Option Nat → Bits
  | some p => flipBit R p
  | none => R

@[simp] theorem crcSource_length (R : Bits) (pos : Option Nat) : (crcSource R pos).length = R.length := by
  cases pos with
  | none => rfl
  | some p => exact flipBit_length R p

/-- The position that CRC.DEC reports, if any (43_crc.md R175, R176). -/
def crcReported (order : CrcFixOrder) (draw : Nat) (fix : Bool) (R G : Bits) (k : Nat) : Option Nat :=
  if !isZeroBits (crcRem R G k) && fix then chooseFix order draw (crcFixes R G k) else none

/-- What CRC.DEC delivers when it reports `pos` (43_crc.md R175). -/
def crcDecResults (fix : Bool) (R G : Bits) (k : Nat) (pos : Option Nat) : Results :=
  { ra := bitsText ((crcSource R pos).take k), rb := bitsText (crcRem R G k),
    rc := if pos.isSome then bitsText (crcSource R pos) else [],
    aux0 := BitVec.ofNat 32 (pos.getD 0), aux1 := BitVec.ofNat 32 k,
    flags := { valid := isZeroBits (crcRem R G k), corr := pos.isSome,
               uncorr := !isZeroBits (crcRem R G k) && fix && pos.isNone } }

section Decode

variable {opa opb : Text} {R G : Bits} {k : Nat}

/-- The word may not be shorter than the generator (43_crc.md R175). -/
theorem crcDecode_of_short (order : CrcFixOrder) (draw : Nat) (fix : Bool) (h : crcOperands opa opb = .ok (R, G))
    (hshort : R.length < G.length) : crcDecode order draw fix opa opb = .error .range := by
  have hcheck : decide (G.length - 1 + 1 ≤ R.length) = false := decide_eq_false (by omega)
  rw [crcDecode, h]
  simp only [bind, Except.bind, hcheck, require_false]

theorem crcDecode_of_operands (order : CrcFixOrder) (draw : Nat) (fix : Bool) (h : crcOperands opa opb = .ok (R, G))
    (hk : 1 ≤ k) (hlen : R.length = k + (G.length - 1)) : crcDecode order draw fix opa opb =
      .ok (crcDecResults fix R G k (crcReported order draw fix R G k)) := by
  obtain rfl : k = R.length - (G.length - 1) := by omega
  have hcheck : decide (G.length - 1 + 1 ≤ R.length) = true := decide_eq_true (by omega)
  rw [crcDecode, h]
  simp only [bind, Except.bind, hcheck, require_true]
  rfl

theorem isDivision_of_operands (h : crcOperands opa opb = .ok (R, G)) (hlen : R.length = k + (G.length - 1)) :
    IsDivision R G k := by
  obtain ⟨-, -, -, hmsb⟩ := crcOperands_ok_iff.1 h
  exact ⟨hmsb, hlen⟩

end Decode

theorem crcDec_completes {s : State} (hs : s.inv = true) {R G : Bits} {k : Nat}
    (h : crcOperands s.opa.content s.opb.content = .ok (R, G)) (hk : 1 ≤ k) (hlen : R.length = k + (G.length - 1))
    (fix : Bool) : Completes (.crcDec fix) s
      (crcDecResults fix R G k (crcReported s.cfg.crcFixOrder s.freeCount fix R G k)) := by
  obtain ⟨hR, -, -, -⟩ := crcOperands_ok_iff.1 h
  have hmax := bitsOperand_length_le_bufmax hs hR
  have hrem := crcRem_length (isDivision_of_operands h hlen)
  refine completes_of_ok _ s _ hs (crcDecode_of_operands _ _ _ h hk hlen)
    ((Results.overCapacity_eq_false_iff _ _).2 ⟨?_, ?_, ?_, Nat.zero_le _⟩) rfl
  · simp only [crcDecResults, bitsText_length, List.length_take, crcSource_length]
    omega
  · simp only [crcDecResults, bitsText_length, hrem]
    omega
  · simp only [crcDecResults]
    split <;> simp [hmax]

section Reported

variable {R G : Bits} {k : Nat}

theorem isZeroBits_crcRem_iff (hR : IsDivision R G k) :
    isZeroBits (crcRem R G k) = true ↔ crcRem R G k = zeroBits (G.length - 1) := by
  rw [isZeroBits_iff, crcRem_length hR]

/-- The admissible positions (43_crc.md R176). -/
theorem mem_crcFixes_iff (hR : IsDivision R G k) (p : Nat) :
    p ∈ crcFixes R G k ↔ p < R.length ∧ crcRem (flipBit R p) G k = zeroBits (G.length - 1) := by
  rw [crcFixes, List.mem_filter, List.mem_range, isZeroBits_crcRem_iff (hR.congrLength (flipBit_length R p))]

/-- A choice is made among the admissible positions whenever there is one, under either order (43_crc.md R176). -/
theorem exists_chooseFix (order : CrcFixOrder) (draw : Nat) {fixes : List Nat} (h : fixes ≠ []) :
    ∃ p ∈ fixes, chooseFix order draw fixes = some p := by
  cases order with
  | leftmostFirst => exact ⟨fixes.head h, List.head_mem h, List.head?_eq_some_head h⟩
  | any =>
    have hlt : Config.crcFixPick draw % fixes.length < fixes.length := Nat.mod_lt _ (List.length_pos_iff.2 h)
    exact ⟨_, List.getElem_mem hlt, List.getElem?_eq_getElem hlt⟩

/-- The admissible positions are scanned in ascending order, so the first is the least. -/
theorem chooseFix_leftmostFirst_le (draw : Nat) {p q : Nat} (hq : q ∈ crcFixes R G k)
    (h : chooseFix .leftmostFirst draw (crcFixes R G k) = some p) : p ≤ q := by
  have hsorted : (crcFixes R G k).Pairwise (· < ·) := List.pairwise_lt_range.filter _
  obtain ⟨rest, hrest⟩ := List.head?_eq_some_iff.1 h
  rw [hrest] at hsorted hq
  rcases List.mem_cons.1 hq with rfl | hq
  · exact le_rfl
  · exact (List.rel_of_pairwise_cons hsorted hq).le

variable (order : CrcFixOrder) (draw : Nat) (fix : Bool)

theorem crcReported_of_valid (h : isZeroBits (crcRem R G k) = true) : crcReported order draw fix R G k = none := by
  simp [crcReported, h]

theorem crcReported_noFix : crcReported order draw false R G k = none := by simp [crcReported]

theorem crcReported_fix (h : isZeroBits (crcRem R G k) = false) :
    crcReported order draw true R G k = chooseFix order draw (crcFixes R G k) := by
  simp [crcReported, h]

theorem chooseFix_nil : chooseFix order draw [] = none := by cases order <;> rfl

end Reported

/-- Settles O32: no position is reported for a valid word, without FIX or where no flip zeroes the syndrome; otherwise
one of the admissible positions is. -/
theorem crcDecRule : Obligations.CrcDecRule := by
  unfold Obligations.CrcDecRule
  refine ⟨by decide, by decide, flipBit_getElem?, fun s fix hs => ⟨fun e he => failsWith_crcDec fix he,
    fun R G h => ⟨fun hshort => failsWith_of_error _ _ _ (crcDecode_of_short _ _ fix h hshort),
      fun k hk hlen => ?_⟩⟩⟩
  have hR := isDivision_of_operands h hlen
  have hcompletes := crcDec_completes hs h hk hlen fix
  rw [← isZeroBits_crcRem_iff hR, Ne, ← isZeroBits_crcRem_iff hR, Bool.not_eq_true]
  refine ⟨fun hvalid => ?_, fun hinvalid hfix => ?_, fun hinvalid hfix hnone => ?_,
    fun hinvalid hfix q hq hzero => ?_⟩
  · simpa [crcReported_of_valid _ _ _ hvalid, crcDecResults, crcSource, hvalid] using hcompletes
  · subst hfix
    simpa [crcReported_noFix, crcDecResults, crcSource, hinvalid] using hcompletes
  · subst hfix
    have hfixes : crcFixes R G k = [] := List.eq_nil_iff_forall_not_mem.2 fun p hp =>
      have ⟨hlt, hzero⟩ := (mem_crcFixes_iff hR p).1 hp
      hnone p hlt hzero
    simpa [crcReported_fix _ _ hinvalid, hfixes, chooseFix_nil, crcDecResults, crcSource, hinvalid] using hcompletes
  · subst hfix
    have hmem : q ∈ crcFixes R G k := (mem_crcFixes_iff hR q).2 ⟨hq, hzero⟩
    obtain ⟨p, hp, hchoice⟩ := exists_chooseFix s.cfg.crcFixOrder s.freeCount (List.ne_nil_of_mem hmem)
    obtain ⟨hlt, hpzero⟩ := (mem_crcFixes_iff hR p).1 hp
    refine ⟨p, hlt, hpzero, fun horder => chooseFix_leftmostFirst_le s.freeCount hmem (horder ▸ hchoice), ?_⟩
    simpa [crcReported_fix _ _ hinvalid, hchoice, crcDecResults, crcSource, hinvalid] using hcompletes

/-- The text of bits holds no space, so cleaning leaves it (30_encoding.md R75). -/
theorem bitsOperand_bitsText {b : Bits} (hb : b ≠ []) : bitsOperand (bitsText b) = .ok b := by
  have hspace (x : Bool) : bitChar x ≠ chSpace := by cases x <;> decide
  refine (bitsOperand_ok_iff _ _).2 ⟨hb, List.filter_eq_self.2 fun c hc => ?_⟩
  obtain ⟨x, -, rfl⟩ := List.mem_map.1 hc
  simpa using hspace x

/-- Settles O33: the codeword's syndrome is 0 (`crcRem_codeword`), and its first `k` bits are the message. -/
theorem crcRoundTrip : Obligations.CrcRoundTrip := by
  unfold Obligations.CrcRoundTrip
  intro s u fix M G hs hu h hfit
  obtain ⟨hM, hG, hlen, hmsb⟩ := crcOperands_ok_iff.1 h
  obtain ⟨t, hexec, -, -, ht⟩ := crcEnc_completes hs h hfit
  refine ⟨t, hexec, ht.err, fun hopa hopb => ?_⟩
  have hMne : M ≠ [] := ((bitsOperand_ok_iff _ _).1 hM).1
  have hu' : crcOperands u.opa.content u.opb.content = .ok (M ++ crcRemainder M G, G) := by
    refine crcOperands_ok_iff.2 ⟨?_, hopb ▸ hG, hlen, hmsb⟩
    rw [hopa, ht.ra.content]
    exact bitsOperand_bitsText (by simp [hMne])
  obtain ⟨-, -, -, hdec⟩ := crcDecRule
  obtain ⟨-, hword⟩ := (hdec u fix hu).2 _ G hu'
  obtain ⟨hvalid, -⟩ := hword M.length (List.length_pos_iff.2 hMne)
    (by rw [List.length_append, crcRemainder_length M hmsb])
  obtain ⟨v, hv, -, -, hshow⟩ := hvalid (crcRem_codeword M hmsb)
  refine ⟨v, hv, hshow.err, hshow.flags, ?_, hshow.rc.len⟩
  rw [hshow.ra.content, List.take_left]

/-- Settles O34: the syndrome of the received word is that of the flipped bit (`crcRem_flipBit_of_valid`), and a flip
that zeroes it is at a position of the same syndrome (`crcRem_flipBit_eq_zeroBits_iff`). -/
theorem crcSingleErrorFixed : Obligations.CrcSingleErrorFixed := by
  unfold Obligations.CrcSingleErrorFixed
  intro s C G k p syn hs h hk hlen hp hvalid hsyn
  have hR : IsDivision (flipBit C p) G k := isDivision_of_operands h (by rw [flipBit_length, hlen])
  have hC : IsDivision C G k := hR.congrLength (flipBit_length C p).symm
  have hrem : crcRem (flipBit C p) G k = syn p := by rw [crcRem_flipBit_of_valid hC hvalid hp, hsyn p hp]
  have hzero {q : Nat} (hq : q < C.length) :
      crcRem (flipBit (flipBit C p) q) G k = zeroBits (G.length - 1) ↔ syn p = syn q := by
    rw [crcRem_flipBit_eq_zeroBits_iff hR (by simpa using hq), hrem, flipBit_length, hsyn q hq]
  obtain ⟨-, -, -, hdec⟩ := crcDecRule
  obtain ⟨hok, -, -, hcorr⟩ := ((hdec s true hs).2 _ G h).2 k hk hR.length
  rw [hrem] at hok hcorr
  refine ⟨fun hne hunique => ?_, hok⟩
  obtain ⟨q, hq, hqzero, -, hcompletes⟩ := hcorr hne rfl p (by simpa using hp) ((hzero hp).2 rfl)
  have hq : q < C.length := by simpa using hq
  obtain rfl : q = p := hunique q hq ((hzero hq).1 hqzero).symm
  rwa [flipBit_flipBit] at hcompletes

end Sys2Proof.Machine
end

section
/-! PROOFS, the family 43_crc. The parity equations of the Hamming code (44_hamming.md R190 to R197): why the self-checks
of HAM.ENC and HAM.DEC always pass. -/

namespace Sys2Proof.Machine

/-- The positions of parity are the powers of two (44_hamming.md R190). -/
theorem isPow2_iff (j : Nat) : isPow2 j = true ↔ ∃ e, j = 2 ^ e := by
  simp only [isPow2, Bool.and_eq_true, bne_iff_ne, beq_iff_eq]
  constructor
  · exact fun ⟨_, h⟩ => ⟨_, h.symm⟩
  · rintro ⟨e, rfl⟩
    exact ⟨by positivity, by rw [Nat.log2_two_pow]⟩

/-- A power of two has one bit set, so one row selects it (44_hamming.md R194). -/
theorem hamH_two_pow (p r e : Nat) : hamH p r (2 ^ e) = true ↔ e = p - r := by
  rw [hamH, beq_iff_eq, ← testBit_eq_true_iff, Nat.testBit_two_pow, decide_eq_true_iff]

/-- The row numbers are 1 to `p` (44_hamming.md R191). -/
theorem mem_hamRows (p r : Nat) : r ∈ hamRows p ↔ 1 ≤ r ∧ r ≤ p := by
  simp only [hamRows, List.mem_map, List.mem_range]
  exact ⟨by rintro ⟨t, ht, rfl⟩; omega, fun h => ⟨r - 1, by omega, by omega⟩⟩

/-- The columns of `H` spell their numbers (44_hamming.md R191). -/
theorem map_hamH_range (p j : Nat) : (List.range p).map (fun t => hamH p (t + 1) j) = binBits p j := by
  induction p with
  | zero => rfl
  | succ p ih =>
    rw [List.range_succ_eq_map, List.map_cons, List.map_map, binBits, ← ih]
    refine congrArg₂ List.cons ?_ (List.map_congr_left fun t _ => ?_)
    · rw [Bool.eq_iff_iff, hamH, beq_iff_eq, testBit_eq_true_iff]
      simp
    · rw [Function.comp_apply, hamH, hamH, show p + 1 - (t.succ + 1) = p - (t + 1) by omega]

/-- Selections that agree from the first position on give one sum. -/
theorem xorSelected_congr {sel sel' : Nat → Bool} (w : Bits) {j0 : Nat} (h : ∀ j, j0 ≤ j → sel j = sel' j) :
    xorSelected sel j0 w = xorSelected sel' j0 w := by
  induction w generalizing j0 with
  | nil => rfl
  | cons b w ih => rw [xorSelected, xorSelected, h j0 le_rfl, ih fun j hj => h j (by omega)]

/-- Replacing a bit changes a row's sum by the change of the bit, if the row selects it. -/
theorem xorSelected_set (sel : Nat → Bool) (w : Bits) (j0 i : Nat) (x : Bool) (h : i < w.length) :
    xorSelected sel j0 (w.set i x) = (xorSelected sel j0 w ^^ (sel (j0 + i) && (w[i] ^^ x))) := by
  induction w generalizing j0 i with
  | nil => simp at h
  | cons b w ih =>
    cases i with
    | zero =>
      simp only [List.set_cons_zero, xorSelected, Nat.add_zero, List.getElem_cons_zero]
      cases sel j0 <;> cases b <;> cases x <;> cases xorSelected sel (j0 + 1) w <;> rfl
    | succ i =>
      rw [List.set_cons_succ, xorSelected, xorSelected, ih (j0 + 1) i (by simpa using h), List.getElem_cons_succ,
        Bool.xor_assoc, show j0 + 1 + i = j0 + (i + 1) by omega]

/-- A sum is the sum over the other positions and the bit left out. -/
theorem xorSelected_eq_others (sel : Nat → Bool) (w : Bits) (j0 i : Nat) (h : i < w.length) :
    xorSelected sel j0 w =
      (xorSelected (fun j => sel j && j != j0 + i) j0 w ^^ (sel (j0 + i) && w[i])) := by
  induction w generalizing j0 i with
  | nil => simp at h
  | cons b w ih =>
    cases i with
    | zero =>
      have hrest : xorSelected (fun j => sel j && j != j0) (j0 + 1) w = xorSelected sel (j0 + 1) w :=
        xorSelected_congr w fun j hj => by simp [show j ≠ j0 by omega]
      simp [xorSelected, hrest, Bool.xor_comm]
    | succ i =>
      have hne : (j0 != j0 + (i + 1)) = true := bne_iff_ne.2 (by omega)
      have hih := ih (j0 + 1) i (by simpa using h)
      rw [show j0 + 1 + i = j0 + (i + 1) by omega] at hih
      rw [xorSelected, xorSelected, hih, hne, Bool.and_true, Bool.xor_assoc, List.getElem_cons_succ]

/-- One row of `H · codeword` (44_hamming.md R192). -/
def rowParity (p : Nat) (c : Bits) (r : Nat) : Bool := xorSelected (hamH p r) 1 c

theorem hamSyndrome_eq_map_rowParity (c : Bits) (p : Nat) :
    hamSyndrome c p = (List.range p).map (fun t => rowParity p c (t + 1)) := rfl

/-- A syndrome of `p` bits is 0 iff every row is. -/
theorem hamZero_hamSyndrome_iff (c : Bits) (p : Nat) :
    hamZero (hamSyndrome c p) = true ↔ ∀ r ∈ hamRows p, rowParity p c r = false := by
  simp [hamZero, hamSyndrome_eq_map_rowParity, hamRows]

@[simp] theorem hamSetParity_length (p : Nat) (c : Bits) (r : Nat) : (hamSetParity p c r).length = c.length :=
  List.length_set

/-- Setting the parity bit of row `r` makes that row even and leaves the others (44_hamming.md R194). -/
theorem rowParity_hamSetParity {p r r' : Nat} (hr : r ∈ hamRows p) (hr' : r' ∈ hamRows p) {c : Bits}
    (hc : 2 ^ (p - 1) ≤ c.length) :
    rowParity p (hamSetParity p c r) r' = if r' = r then false else rowParity p c r' := by
  rw [mem_hamRows] at hr hr'
  have hpos : 1 ≤ 2 ^ (p - r) := Nat.one_le_two_pow
  have hle : 2 ^ (p - r) ≤ 2 ^ (p - 1) := Nat.pow_le_pow_right two_pos (by omega)
  have hweight : 1 + (2 ^ (p - r) - 1) = 2 ^ (p - r) := by omega
  have hlt : 2 ^ (p - r) - 1 < c.length := by omega
  rw [rowParity, hamSetParity, xorSelected_set _ _ _ _ _ hlt, hweight]
  split
  case isTrue h =>
    have hothers := xorSelected_eq_others (hamH p r) c 1 _ hlt
    rw [hweight, (hamH_two_pow p r _).2 rfl] at hothers
    rw [h, (hamH_two_pow p r _).2 rfl, hothers]
    simp
  case isFalse h =>
    have hunselected : hamH p r' (2 ^ (p - r)) = false := by
      rw [← Bool.not_eq_true, hamH_two_pow]
      omega
    rw [hunselected, Bool.false_and, Bool.xor_false, rowParity]

/-- After the equations of some rows are solved, those rows are even. -/
theorem rowParity_foldl_hamSetParity {p : Nat} (rows : List Nat) (hrows : ∀ r ∈ rows, r ∈ hamRows p) {c : Bits}
    (hc : 2 ^ (p - 1) ≤ c.length) {r : Nat} (hr : r ∈ hamRows p) :
    rowParity p (rows.foldl (hamSetParity p) c) r = if r ∈ rows then false else rowParity p c r := by
  induction rows generalizing c with
  | nil => simp
  | cons r₀ rows ih =>
    obtain ⟨hr₀, hrows⟩ := List.forall_mem_cons.1 hrows
    rw [List.foldl_cons, ih hrows (by simpa using hc), rowParity_hamSetParity hr₀ hr hc]
    by_cases h : r ∈ rows <;> simp [h]

/-- The search for the number of parity bits finds the least that suffices (44_hamming.md R193). -/
theorem hamParityFrom_spec (k fuel p : Nat) (h : k + (p + fuel) + 1 ≤ 2 ^ (p + fuel)) :
    p ≤ hamParityFrom k fuel p ∧ k + hamParityFrom k fuel p + 1 ≤ 2 ^ hamParityFrom k fuel p ∧
      ∀ q, p ≤ q → k + q + 1 ≤ 2 ^ q → hamParityFrom k fuel p ≤ q := by
  induction fuel generalizing p with
  | zero => exact ⟨le_rfl, h, fun q hq _ => hq⟩
  | succ fuel ih =>
    rw [hamParityFrom]
    split
    case isTrue hp => exact ⟨le_rfl, hp, fun q hq _ => hq⟩
    case isFalse hp =>
      obtain ⟨hle, hsuff, hleast⟩ := ih (p + 1) (by rwa [show p + 1 + fuel = p + (fuel + 1) by omega])
      refine ⟨by omega, hsuff, fun q hq hqsuff => hleast q ?_ hqsuff⟩
      exact Nat.lt_of_le_of_ne hq fun heq => hp (heq ▸ hqsuff)

theorem hamParity_spec (k : Nat) : 1 ≤ hamParity k ∧ k + hamParity k + 1 ≤ 2 ^ hamParity k ∧
    ∀ q, 1 ≤ q → k + q + 1 ≤ 2 ^ q → hamParity k ≤ q := by
  refine hamParityFrom_spec k k 1 ?_
  have hlt : k < 2 ^ k := Nat.lt_two_pow_self
  rw [Nat.pow_add]
  omega

/-- Every parity position is a position of the codeword (44_hamming.md R194). -/
theorem two_pow_hamParity_le (k : Nat) : 2 ^ (hamParity k - 1) ≤ k + hamParity k := by
  obtain ⟨hpos, -, hleast⟩ := hamParity_spec k
  by_contra hlt
  rcases Nat.eq_or_lt_of_le hpos with hone | htwo
  · rw [← hone] at hlt
    simp at hlt
  · have := hleast (hamParity k - 1) (by omega) (by omega)
    omega

@[simp] theorem hamPlace_length (n j : Nat) (D : Bits) : (hamPlace n j D).length = n := by
  induction n generalizing j D with
  | zero => rfl
  | succ n ih =>
    rw [hamPlace]
    split <;> simp [ih]

/-- The codeword's syndrome is 0 (44_hamming.md R194). -/
theorem hamZero_hamSyndrome_hamCodeword (D : Bits) :
    hamZero (hamSyndrome (hamCodeword D) (hamParity D.length)) = true := by
  rw [hamZero_hamSyndrome_iff]
  intro r hr
  rw [hamCodeword, rowParity_foldl_hamSetParity _ (fun _ h => h) (by simpa using two_pow_hamParity_le D.length) hr,
    if_pos hr]

/-- Each row selects one parity position, its own weight (44_hamming.md R194). -/
theorem hamRowOk_of_mem {n p r : Nat} (hr : r ∈ hamRows p) (hn : 2 ^ (p - 1) ≤ n) : hamRowOk n p r = true := by
  rw [mem_hamRows] at hr
  have hpos : 1 ≤ 2 ^ (p - r) := Nat.one_le_two_pow
  have hle : 2 ^ (p - r) ≤ 2 ^ (p - 1) := Nat.pow_le_pow_right two_pos (by omega)
  have hsel (i : Nat) : (hamH p r (i + 1) && isPow2 (i + 1)) = (i == 2 ^ (p - r) - 1) := by
    rw [Bool.eq_iff_iff, Bool.and_eq_true, isPow2_iff, beq_iff_eq]
    constructor
    · rintro ⟨hrow, e, he⟩
      rw [he, hamH_two_pow] at hrow
      rw [← hrow]
      omega
    · intro hi
      have hi : i + 1 = 2 ^ (p - r) := by omega
      exact ⟨by rw [hi, hamH_two_pow], _, hi⟩
  have hmem : 2 ^ (p - r) - 1 ∈ List.range n := List.mem_range.2 (by omega)
  simp only [hamRowOk, hsel, beq_iff_eq]
  rw [← List.countP_eq_length_filter]
  exact List.count_eq_one_of_mem List.nodup_range hmem

/-- A row of a word is the bit that the number of its syndrome spells (44_hamming.md R192). -/
theorem rowParity_eq_hamH_bitsVal (c : Bits) {p r : Nat} (hr : r ∈ hamRows p) :
    rowParity p c r = hamH p r (bitsVal (hamSyndrome c p)) := by
  have h := binBits_bitsVal (hamSyndrome c p)
  rw [hamSyndrome_eq_map_rowParity, List.length_map, List.length_range, ← map_hamH_range, List.map_inj_left] at h
  obtain ⟨t, ht, rfl⟩ := List.mem_map.1 hr
  exact (h t ht).symm

/-- Flipping a position adds its column to every row (44_hamming.md R197). -/
theorem rowParity_flipBit (c : Bits) (p r : Nat) {j : Nat} (hpos : 1 ≤ j) (hj : j ≤ c.length) :
    rowParity p (flipBit c (j - 1)) r = (rowParity p c r ^^ hamH p r j) := by
  have hlt : j - 1 < c.length := by omega
  rw [flipBit, List.modify_eq_set_get _ hlt, rowParity, xorSelected_set _ _ _ _ _ hlt, show 1 + (j - 1) = j by omega]
  simp [rowParity]

/-- The decoder's re-verification passes: flipping position `S` adds the column that spells `S` to a syndrome that
spells it (44_hamming.md R197). -/
theorem hamZero_hamSyndrome_flipBit (c : Bits) (p : Nat) (hpos : bitsVal (hamSyndrome c p) ≠ 0)
    (hle : bitsVal (hamSyndrome c p) ≤ c.length) :
    hamZero (hamSyndrome (flipBit c (bitsVal (hamSyndrome c p) - 1)) p) = true := by
  rw [hamZero_hamSyndrome_iff]
  intro r hr
  rw [rowParity_flipBit c p r (Nat.one_le_iff_ne_zero.2 hpos) hle, rowParity_eq_hamH_bitsVal c hr, Bool.xor_self]

end Sys2Proof.Machine
end

section
/-! PROOFS, the family 43_crc. E_INTERNAL (60_exceptions.md R255) is never reached: no check of an operation raises it,
and every self-check passes (43_crc.md R173, 44_hamming.md R194, R197). -/

namespace Sys2Proof.Machine

/-- A reading whose checks do not raise E_INTERNAL. -/
def NoInternal {α : Type} (x : Except Err α) : Prop := x ≠ .error .internal

theorem NoInternal.pure {α : Type} (a : α) : NoInternal (pure a : Except Err α) := by
  simp [NoInternal, Pure.pure, Except.pure]

theorem NoInternal.require (b : Bool) {e : Err} (he : e ≠ .internal) : NoInternal (require b e) := by
  cases b <;> simp [NoInternal, he]

theorem NoInternal.bind {α β : Type} {x : Except Err α} {f : α → Except Err β} (hx : NoInternal x)
    (hf : ∀ a, NoInternal (f a)) : NoInternal (x >>= f) := by
  rw [NoInternal, Ne, except_bind_error]
  rintro (h | ⟨a, -, h⟩)
  · exact hx h
  · exact hf a h

/-- A check within a chain. -/
theorem NoInternal.check {α : Type} (b : Bool) {e : Err} (he : e ≠ .internal) {f : Unit → Except Err α}
    (hf : ∀ u, NoInternal (f u)) : NoInternal (Machine.require b e >>= f) :=
  (NoInternal.require b he).bind hf

theorem bitsOperand_noInternal (t : Text) : NoInternal (bitsOperand t) :=
  .check _ (by decide) fun _ => .check _ (by decide) fun _ => .pure _

theorem bitsOperandOf_noInternal (L : Nat) (t : Text) : NoInternal (bitsOperandOf L t) :=
  (bitsOperand_noInternal t).bind fun _ => .check _ (by decide) fun _ => .pure _

theorem hexOperandOf_noInternal (L : Nat) (t : Text) : NoInternal (hexOperandOf L t) :=
  .check _ (by decide) fun _ => .check _ (by decide) fun _ => .check _ (by decide) fun _ => .pure _

theorem patternOperand_noInternal (prec : Precision) (ty : InType) (t : Text) :
    NoInternal (patternOperand prec ty t) := by
  cases ty with
  | binary => exact bitsOperandOf_noInternal _ t
  | hex => exact hexOperandOf_noInternal _ t

theorem decIntOperand_noInternal (t : Text) : NoInternal (decIntOperand t) :=
  .check _ (by decide) fun _ => .check _ (by decide) fun _ => .check _ (by decide) fun _ => .pure _

theorem decRealOperand_noInternal (t : Text) : NoInternal (decRealOperand t) :=
  .check _ (by decide) fun _ => .check _ (by decide) fun _ => .check _ (by decide) fun _ =>
    .check _ (by decide) fun _ => .pure _

theorem grayOperand_noInternal (t : Text) : NoInternal (grayOperand t) :=
  .check _ (by decide) fun _ => .check _ (by decide) fun _ => by split <;> exact .pure _

theorem crcOperands_noInternal (opa opb : Text) : NoInternal (crcOperands opa opb) :=
  (bitsOperand_noInternal opa).bind fun _ => (bitsOperand_noInternal opb).bind fun _ =>
    .check _ (by decide) fun _ => .check _ (by decide) fun _ => .pure _

theorem tcOperands_noInternal (w : Nat) (opa opb : Text) : NoInternal (tcOperands w opa opb) :=
  (bitsOperandOf_noInternal w opa).bind fun _ => (bitsOperandOf_noInternal w opb).bind fun _ => .pure _

theorem encodeFields_noInternal (prec : Precision) (neg : Bool) (num den : Nat) :
    NoInternal (encodeFields prec neg num den) := by
  simp only [NoInternal, encodeFields]
  repeat' split
  all_goals simp

theorem kmParsed_noInternal (ts : List KmTok) : NoInternal (kmParsed ts) := by
  simp only [NoInternal, kmParsed]
  split <;> simp

theorem kmPrimes?_noInternal (c : Config) (n : Nat) (on dc : Word) : NoInternal (kmPrimes? c n on dc) :=
  .check _ (by decide) fun _ => .check _ (by decide) fun _ => .pure _

/-- An operation's rule that cannot end in E_INTERNAL (30_encoding.md R81): no check raises it, and the self-check of
the results passes. -/
structure SelfChecked (x : Except Err Results) : Prop where
  noInternal : NoInternal x
  selfCheck : ∀ r, x = .ok r → r.selfCheck = true

theorem SelfChecked.pure {r : Results} (h : r.selfCheck = true) : SelfChecked (pure r) where
  noInternal := .pure r
  selfCheck _ hr := (except_pure_eq_ok _ _).1 hr ▸ h

/-- What is computed from an operand after its checks. -/
theorem SelfChecked.bind {α : Type} {x : Except Err α} {f : α → Except Err Results} (hx : NoInternal x)
    (hf : ∀ a, x = .ok a → SelfChecked (f a)) : SelfChecked (x >>= f) where
  noInternal h := by
    rcases (except_bind_error _ _ _).1 h with h | ⟨a, ha, h⟩
    · exact hx h
    · exact (hf a ha).noInternal h
  selfCheck r h := by
    obtain ⟨a, ha, h⟩ := (except_bind_ok _ _ _).1 h
    exact (hf a ha).selfCheck r h

theorem SelfChecked.check (b : Bool) {e : Err} (he : e ≠ .internal) {f : Unit → Except Err Results}
    (hf : ∀ u, SelfChecked (f u)) : SelfChecked (require b e >>= f) :=
  .bind (.require b he) fun u _ => hf u

/-- The self-check of CRC.ENC (43_crc.md R173). -/
theorem crcEncode_selfChecked (opa opb : Text) : SelfChecked (crcEncode opa opb) where
  noInternal := (crcOperands_noInternal opa opb).bind fun _ => .pure _
  selfCheck r hr := by
    obtain ⟨⟨M, G⟩, h, -⟩ := (except_bind_ok _ _ _).1 hr
    rw [crcEncode_of_operands h] at hr
    cases hr
    rfl

/-- The self-checks of HAM.ENC (44_hamming.md R194): every row selects one parity position, and the syndrome is 0. -/
theorem hamEncode_selfChecked (opa : Text) : SelfChecked (hamEncode opa) :=
  .bind (bitsOperand_noInternal opa) fun D _ => .pure <| by
    rw [Bool.and_eq_true, List.all_eq_true]
    exact ⟨fun _ hr => hamRowOk_of_mem hr (two_pow_hamParity_le D.length), hamZero_hamSyndrome_hamCodeword D⟩

/-- The re-verification of HAM.DEC (44_hamming.md R197). -/
theorem hamDecode_selfChecked (opa : Text) : SelfChecked (hamDecode opa) :=
  .bind (bitsOperand_noInternal opa) fun C _ => .check _ (by decide) fun _ => .pure <| by
    cases hcorrected : bitsVal (hamSyndrome C (hamInferParity C.length)) != 0 &&
      decide (bitsVal (hamSyndrome C (hamInferParity C.length)) ≤ C.length) with
    | false => simp only [Bool.not_false, Bool.true_or]
    | true =>
      simp only [Bool.not_true, Bool.false_or, if_true]
      rw [Bool.and_eq_true, bne_iff_ne, decide_eq_true_iff] at hcorrected
      exact hamZero_hamSyndrome_flipBit C _ hcorrected.1 hcorrected.2

/-- No operation's rule can end in E_INTERNAL (60_exceptions.md R255). -/
theorem opResult_selfChecked (i : Instr) (s : State) : SelfChecked (opResult i s) := by
  cases i with
  | crcEnc => exact crcEncode_selfChecked _ _
  | crcDec fix => exact .bind (crcOperands_noInternal _ _) fun _ _ => .check _ (by decide) fun _ => .pure rfl
  | hamEnc => exact hamEncode_selfChecked _
  | hamDec => exact hamDecode_selfChecked _
  | f754Dec prec ty => exact .bind (patternOperand_noInternal prec ty _) fun _ _ => .pure rfl
  | f754Enc prec =>
    exact .bind (decRealOperand_noInternal _) fun _ _ => .bind (encodeFields_noInternal prec _ _ _) fun _ _ =>
      .pure rfl
  | f754Add prec ty =>
    exact .bind (patternOperand_noInternal prec ty _) fun _ _ =>
      .bind (patternOperand_noInternal prec ty _) fun _ _ => .pure rfl
  | tcEnc w => exact .bind (decIntOperand_noInternal _) fun _ _ => .pure rfl
  | tcDec w => exact .bind (bitsOperandOf_noInternal _ _) fun _ _ => .pure rfl
  | tcAdd w => exact .bind (tcOperands_noInternal _ _ _) fun _ _ => .pure rfl
  | tcSub w => exact .bind (tcOperands_noInternal _ _ _) fun _ _ => .pure rfl
  | grayEnc => exact .bind (grayOperand_noInternal _) fun _ _ => .pure rfl
  | grayDec => exact .bind (bitsOperand_noInternal _) fun _ _ => .pure rfl
  | kmEval n =>
    exact .check _ (by decide) fun _ => .check _ (by decide) fun _ => .bind (kmParsed_noInternal _) fun _ _ =>
      .check _ (by decide) fun _ => .pure rfl
  | kmPi n => exact .bind (kmPrimes?_noInternal _ _ _ _) fun _ _ => .pure rfl
  | kmCover n => exact .bind (kmPrimes?_noInternal _ _ _ _) fun _ _ => .pure rfl

/-- The code 8 is that of E_INTERNAL alone (10_state.md R29). -/
theorem Err.code_ne_internal {e : Err} (h : e ≠ .internal) : e.code ≠ 8#4 :=
  fun hcode => h (Err.code_injective hcode)

/-- The end of a self-checked rule does not show E_INTERNAL (30_encoding.md R81). -/
theorem State.finish_err_ne_internal (s : State) {x : Except Err Results} (hx : SelfChecked x) :
    (s.finish x).err ≠ 8#4 := by
  rcases s.finish_cases x with ⟨e, he, h⟩ | ⟨r, -, -, h⟩ | ⟨r, hr, -, hfail, -⟩ | ⟨r, -, -, -, h⟩
  · rw [h, State.failWith_eq_complete, State.complete_err]
    exact Err.code_ne_internal fun hint => hx.noInternal (hint ▸ he)
  · rw [h, State.failWith_eq_complete, State.complete_err]
    exact Err.code_ne_internal (by decide)
  · rw [hx.selfCheck r hr] at hfail
    cases hfail
  · rw [h, State.deliver_eq_complete, State.complete_err]
    decide

/-- A pending command never ends with E_INTERNAL (60_exceptions.md R255). -/
theorem engineTurn_err_ne_internal {s t : State} (hbusy : s.busy = true) (ht : engineTurn s = .next t) :
    t.err ≠ 8#4 := by
  rcases engineTurn_cases s with ⟨hidle, -⟩ | ⟨-, -, -, hturn⟩ | ⟨-, i, -, hturn⟩
  · rw [hbusy] at hidle
    cases hidle
  · rw [hturn] at ht
    cases ht
    rw [State.failWith_eq_complete, State.complete_err]
    exact Err.code_ne_internal (by decide)
  · rw [hturn] at ht
    cases ht
    exact s.finish_err_ne_internal (opResult_selfChecked i s)

/-- An engine's turn, idle or not, keeps ERR free of E_INTERNAL. -/
theorem engineTurn_keeps_err_ne_internal {s t : State} (hs : s.err ≠ 8#4) (ht : engineTurn s = .next t) :
    t.err ≠ 8#4 := by
  cases hbusy : s.busy with
  | false =>
    rw [engineTurn, hbusy] at ht
    cases ht
    exact hs
  | true => exact engineTurn_err_ne_internal hbusy ht

/-- Settles O12: no operation's rule ends in E_INTERNAL (`opResult_selfChecked`), and a host action leaves ERR. -/
theorem noInternalError : Obligations.NoInternalError := by
  unfold Obligations.NoInternalError
  refine ⟨fun s t => engineTurn_err_ne_internal, fun s t hs ht => ?_⟩
  rcases step_cases s with ⟨-, hstep⟩ | ⟨rest, -, hstep⟩ | ⟨a, rest, -, hstep⟩ <;> rw [hstep] at ht
  · exact engineTurn_keeps_err_ne_internal hs ht
  · exact engineTurn_keeps_err_ne_internal (s := { s with schedule := rest }) hs ht
  · rw [(hostAct_resultsKept _ t a ht).err]
    exact hs

end Sys2Proof.Machine
end

section
/-! PROOFS, the family 44_hamming. The statements' own words for a codeword (44_hamming.md R190 to R192), which are
`isTwoPower`, `oddParity` and `dataBits`, against the machine's; how many parity positions a word has (R196); and that a
codeword gives back its data (R193), with a syndrome that spells a flipped position (R198). -/

namespace Sys2Proof.Machine

/-- The two tests for a parity position agree (44_hamming.md R190). -/
theorem isTwoPower_eq_isPow2 (j : Nat) : isTwoPower j = isPow2 j := by
  rw [Bool.eq_iff_iff, isPow2_iff, isTwoPower, List.any_eq_true]
  constructor
  · rintro ⟨e, -, he⟩
    exact ⟨e, (beq_iff_eq.1 he).symm⟩
  · rintro ⟨e, rfl⟩
    exact ⟨e, List.mem_range.2 Nat.lt_two_pow_self, beq_self_eq_true _⟩

/-- One more bit changes the parity of a count exactly when it is 1. -/
theorem xor_odd (x : Bool) (n : Nat) : (x ^^ (n % 2 == 1)) = ((n + if x = true then 1 else 0) % 2 == 1) := by
  cases x with
  | false => simp
  | true => rcases Nat.mod_two_eq_zero_or_one n with h | h <;> simp [h, Nat.add_mod]

/-- The XOR of the selected bits is the parity of how many of them are 1. -/
theorem xorSelected_eq_odd (sel : Nat → Bool) (j0 : Nat) (c : Bits) : xorSelected sel j0 c =
    ((List.range c.length).countP (fun i => c.getD i false && sel (i + j0)) % 2 == 1) := by
  induction c generalizing j0 with
  | nil => rfl
  | cons b c ih =>
    have hshift (i : Nat) : i + 1 + j0 = i + (j0 + 1) := by omega
    rw [xorSelected, ih, List.length_cons, List.range_succ_eq_map, List.countP_cons, List.countP_map]
    simp only [Function.comp_def, List.getD_cons_succ, List.getD_cons_zero, Nat.zero_add, hshift]
    rw [Bool.and_comm, xor_odd]

/-- A row of `H · codeword`, named by its weight instead of its number (44_hamming.md R191, R192). -/
theorem oddParity_two_pow (c : Bits) (p r : Nat) : oddParity c (2 ^ (p - r)) = rowParity p c r := by
  rw [rowParity, xorSelected_eq_odd, oddParity, ← List.countP_eq_length_filter]
  rfl

/-- The syndrome, top row first (44_hamming.md R192). -/
theorem map_oddParity_eq_hamSyndrome (c : Bits) (p : Nat) :
    (List.range p).map (fun r => oddParity c (2 ^ (p - 1 - r))) = hamSyndrome c p := by
  rw [hamSyndrome_eq_map_rowParity]
  refine List.map_congr_left fun t _ => ?_
  rw [← oddParity_two_pow, show p - 1 - t = p - (t + 1) by omega]

/-- The decoder's scan for data bits selects them by position (44_hamming.md R196). -/
theorem hamData_eq_filter (j0 : Nat) (c : Bits) : hamData j0 c =
    ((List.range c.length).filter (fun i => !isPow2 (i + j0))).map (fun i => c.getD i false) := by
  induction c generalizing j0 with
  | nil => rfl
  | cons b c ih =>
    have hshift (i : Nat) : i + 1 + j0 = i + (j0 + 1) := by omega
    rw [hamData, ih, List.length_cons, List.range_succ_eq_map, List.filter_cons, List.filter_map]
    simp only [Function.comp_def, Nat.zero_add, Nat.succ_eq_add_one, hshift]
    cases isPow2 j0 <;> simp

theorem hamData_one_eq_dataBits (c : Bits) : hamData 1 c = dataBits c := by
  simp only [hamData_eq_filter, dataBits, isTwoPower_eq_isPow2]

theorem dataBits_length_le (c : Bits) : (dataBits c).length ≤ c.length := by
  rw [dataBits, List.length_map]
  simpa using List.length_filter_le (fun i => !isTwoPower (i + 1)) (List.range c.length)

/-! How many parity positions there are (44_hamming.md R196). -/

theorem hamInferParity_succ (n : Nat) :
    hamInferParity (n + 1) = hamInferParity n + if isPow2 (n + 1) then 1 else 0 := by
  rw [hamInferParity, hamInferParity, List.range_succ, List.filter_append, List.length_append]
  cases h : isPow2 (n + 1) <;> simp [h]

/-- The powers of two up to `n` are those with an exponent below their number. -/
theorem lt_hamInferParity_iff (n e : Nat) : e < hamInferParity n ↔ 2 ^ e ≤ n := by
  induction n generalizing e with
  | zero => simp [hamInferParity]
  | succ n ih =>
    rw [hamInferParity_succ]
    split
    case isTrue h =>
      obtain ⟨k, hk⟩ := (isPow2_iff _).1 h
      have hcount (e : Nat) : e < hamInferParity n ↔ e < k := by
        rw [ih, ← Nat.lt_succ_iff, Nat.succ_eq_add_one, hk, Nat.pow_lt_pow_iff_right one_lt_two]
      have heq : hamInferParity n = k := Nat.le_antisymm
        (Nat.le_of_not_lt fun hlt => absurd ((hcount k).1 hlt) (lt_irrefl k))
        (Nat.le_of_not_lt fun hlt => absurd ((hcount _).2 hlt) (lt_irrefl _))
      rw [heq, hk, Nat.pow_le_pow_iff_right one_lt_two, Nat.lt_succ_iff]
    case isFalse h =>
      have hne : 2 ^ e ≠ n + 1 := fun he => h ((isPow2_iff _).2 ⟨e, he.symm⟩)
      rw [Nat.add_zero, ih]
      omega

/-- A word of `2^(p-1)` to `2^p - 1` bits has `p` parity positions (44_hamming.md R196). -/
theorem hamInferParity_eq {n p : Nat} (hlow : 2 ^ (p - 1) ≤ n) (hhigh : n < 2 ^ p) : hamInferParity n = p := by
  have hp : p ≠ 0 := by
    rintro rfl
    omega
  have hge := (lt_hamInferParity_iff n (p - 1)).2 hlow
  have hle : ¬p < hamInferParity n := mt (lt_hamInferParity_iff n p).1 hhigh.not_ge
  omega

/-- A word has a data position besides its parity positions from 3 bits on (44_hamming.md R196). -/
theorem hamInferParity_lt_iff (n : Nat) : hamInferParity n + 1 ≤ n ↔ 3 ≤ n := by
  constructor
  · intro h
    by_contra hshort
    have hnone : ∀ m < 3, ¬hamInferParity m + 1 ≤ m := by decide
    exact hnone n (by omega) h
  · intro h
    by_contra hfull
    have hpow : 2 ^ (n - 1) ≤ n := (lt_hamInferParity_iff n (n - 1)).1 (by omega)
    obtain ⟨m, rfl⟩ : ∃ m, n = m + 3 := ⟨n - 3, by omega⟩
    have hlt : m < 2 ^ m := Nat.lt_two_pow_self
    rw [show m + 3 - 1 = m + 2 by omega, Nat.pow_add] at hpow
    omega

/-- The decoder finds the encoder's number of parity bits from the length alone (44_hamming.md R193, R196). -/
theorem hamInferParity_codeword (k : Nat) : hamInferParity (k + hamParity k) = hamParity k := by
  obtain ⟨-, hsuff, -⟩ := hamParity_spec k
  exact hamInferParity_eq (two_pow_hamParity_le k) (by omega)

/-- The other positions are the data positions. -/
theorem countP_not_isPow2 (n : Nat) :
    (List.range n).countP (fun i => !isPow2 (i + 1)) = n - hamInferParity n := by
  have htotal := List.length_eq_countP_add_countP (fun i => isPow2 (i + 1)) (l := List.range n)
  rw [hamInferParity, ← List.countP_eq_length_filter]
  simp only [List.length_range, Bool.not_eq_true, Bool.decide_eq_false] at htotal
  omega

/-! The data of a codeword (44_hamming.md R193). -/

/-- The data placed at as many data positions as it has bits is read back. -/
theorem hamData_hamPlace (n j : Nat) (D : Bits)
    (hcount : (List.range n).countP (fun i => !isPow2 (i + j)) = D.length) : hamData j (hamPlace n j D) = D := by
  induction n generalizing j D with
  | zero => simp_all [hamPlace, hamData, eq_comm]
  | succ n ih =>
    have hshift (i : Nat) : i + 1 + j = i + (j + 1) := by omega
    rw [List.range_succ_eq_map, List.countP_cons, List.countP_map] at hcount
    simp only [Function.comp_def, Nat.succ_eq_add_one, Nat.zero_add, hshift] at hcount
    rw [hamPlace]
    cases h : isPow2 j with
    | true =>
      rw [if_pos rfl, hamData, if_pos h]
      exact ih _ _ (by simpa [h] using hcount)
    | false =>
      have hlen : D.length = (List.range n).countP (fun i => !isPow2 (i + (j + 1))) + 1 := by
        simpa [h] using hcount.symm
      obtain ⟨b, D, rfl⟩ := List.exists_cons_of_length_eq_add_one hlen
      rw [if_neg Bool.false_ne_true, hamData, if_neg (by simp [h]), List.tail_cons, List.headD_cons, ih]
      simpa [h] using hcount

/-- Data positions are not parity positions. -/
theorem hamData_set (c : Bits) (j i : Nat) (x : Bool) (h : isPow2 (j + i) = true) :
    hamData j (c.set i x) = hamData j c := by
  induction c generalizing j i with
  | nil => rfl
  | cons b c ih =>
    cases i with
    | zero =>
      rw [Nat.add_zero] at h
      rw [List.set_cons_zero, hamData, hamData, if_pos h, if_pos h]
    | succ i => rw [List.set_cons_succ, hamData, hamData, ih _ _ (by rwa [show j + 1 + i = j + (i + 1) by omega])]

theorem hamData_hamSetParity (p r : Nat) (c : Bits) : hamData 1 (hamSetParity p c r) = hamData 1 c := by
  have hpos : 1 ≤ 2 ^ (p - r) := Nat.one_le_two_pow
  exact hamData_set c 1 _ _ ((isPow2_iff _).2 ⟨p - r, by omega⟩)

/-- Solving the parity equations leaves the data. -/
theorem hamData_foldl_hamSetParity (p : Nat) (rows : List Nat) (c : Bits) :
    hamData 1 (rows.foldl (hamSetParity p) c) = hamData 1 c := by
  induction rows generalizing c with
  | nil => rfl
  | cons r rows ih => rw [List.foldl_cons, ih, hamData_hamSetParity]

theorem length_foldl_hamSetParity (p : Nat) (rows : List Nat) (c : Bits) :
    (rows.foldl (hamSetParity p) c).length = c.length := by
  induction rows generalizing c with
  | nil => rfl
  | cons r rows ih => rw [List.foldl_cons, ih, hamSetParity_length]

@[simp] theorem hamCodeword_length (D : Bits) : (hamCodeword D).length = D.length + hamParity D.length := by
  rw [hamCodeword, length_foldl_hamSetParity, hamPlace_length]

/-- A codeword holds its data at its data positions (44_hamming.md R193). -/
@[simp] theorem dataBits_hamCodeword (D : Bits) : dataBits (hamCodeword D) = D := by
  rw [← hamData_one_eq_dataBits, hamCodeword, hamData_foldl_hamSetParity]
  refine hamData_hamPlace _ _ D ?_
  rw [countP_not_isPow2, hamInferParity_codeword, Nat.add_sub_cancel]

/-- Every row of a codeword is even (44_hamming.md R193). -/
theorem rowParity_hamCodeword (D : Bits) {r : Nat} (hr : r ∈ hamRows (hamParity D.length)) :
    rowParity (hamParity D.length) (hamCodeword D) r = false :=
  (hamZero_hamSyndrome_iff _ _).1 (hamZero_hamSyndrome_hamCodeword D) r hr

theorem hamSyndrome_hamCodeword (D : Bits) :
    hamSyndrome (hamCodeword D) (hamParity D.length) = zeroBits (hamParity D.length) := by
  rw [hamSyndrome_eq_map_rowParity, zeroBits, List.eq_replicate_iff]
  refine ⟨by simp, fun x hx => ?_⟩
  obtain ⟨t, ht, rfl⟩ := List.mem_map.1 hx
  exact rowParity_hamCodeword D (List.mem_map.2 ⟨t, ht, rfl⟩)

/-- The syndrome of a codeword with one position flipped spells the position (44_hamming.md R198). -/
theorem hamSyndrome_flipBit_hamCodeword (D : Bits) {j : Nat} (hj : j < D.length + hamParity D.length) :
    hamSyndrome (flipBit (hamCodeword D) j) (hamParity D.length) = binBits (hamParity D.length) (j + 1) := by
  rw [hamSyndrome_eq_map_rowParity, ← map_hamH_range]
  refine List.map_congr_left fun t ht => ?_
  have hflip := rowParity_flipBit (hamCodeword D) (hamParity D.length) (t + 1) (Nat.le_add_left 1 j)
    (by rwa [hamCodeword_length])
  rw [Nat.add_sub_cancel] at hflip
  rw [hflip, rowParity_hamCodeword D (List.mem_map.2 ⟨t, ht, rfl⟩), Bool.false_xor]

end Sys2Proof.Machine
end

section
/-! PROOFS, the family 44_hamming. HAM.ENC and HAM.DEC as commands (44_hamming.md R193 to R198): what each delivers, and
the position that HAM.DEC corrects. -/

namespace Sys2Proof.Machine

/-! HAM.ENC (44_hamming.md R193). -/

/-- The mask of the parity positions of a word of `n` bits (44_hamming.md R193). -/
def hamMask (n : Nat) : Bits := (List.range n).map (fun i => isPow2 (i + 1))

@[simp] theorem hamMask_length (n : Nat) : (hamMask n).length = n := by simp [hamMask]

theorem hamMask_getElem?_eq_true_iff (n i : Nat) : (hamMask n)[i]? = some true ↔ i < n ∧ ∃ e, i + 1 = 2 ^ e := by
  rw [← isPow2_iff, hamMask]
  by_cases h : i < n <;> simp [h]

/-- What HAM.ENC delivers (44_hamming.md R193). -/
def hamEncResults (D : Bits) : Results :=
  { ra := bitsText (hamCodeword D), rb := bitsText (hamMask (D.length + hamParity D.length)),
    aux0 := BitVec.ofNat 32 (hamParity D.length), aux1 := BitVec.ofNat 32 (D.length + hamParity D.length) }

/-- The self-checks of HAM.ENC pass (44_hamming.md R194). -/
theorem hamEncode_of_operand {opa : Text} {D : Bits} (h : bitsOperand opa = .ok D) :
    hamEncode opa = .ok (hamEncResults D) := by
  obtain ⟨check, hrule⟩ : ∃ check, hamEncode opa = .ok { hamEncResults D with selfCheck := check } := by
    rw [hamEncode, h]
    exact ⟨_, rfl⟩
  obtain rfl : check = true := (hamEncode_selfChecked opa).selfCheck _ hrule
  exact hrule

theorem hamEncResults_overCapacity_iff (c : Config) (D : Bits) :
    (hamEncResults D).overCapacity c = false ↔ D.length + hamParity D.length ≤ c.bufmax := by
  rw [Results.overCapacity_eq_false_iff, hamEncResults]
  simp

theorem hamEnc_completes {s : State} (hs : s.inv = true) {D : Bits} (h : bitsOperand s.opa.content = .ok D)
    (hfit : D.length + hamParity D.length ≤ s.cfg.bufmax) : Completes .hamEnc s (hamEncResults D) :=
  completes_of_ok _ s _ hs (hamEncode_of_operand h) ((hamEncResults_overCapacity_iff _ D).2 hfit) rfl

theorem hamEnc_capacity {s : State} {D : Bits} (h : bitsOperand s.opa.content = .ok D)
    (hlong : s.cfg.bufmax < D.length + hamParity D.length) : FailsWith .hamEnc s .capacity := by
  refine failsWith_capacity _ s _ (hamEncode_of_operand h) ?_
  rw [← Bool.not_eq_false, hamEncResults_overCapacity_iff]
  omega

/-- Settles O35: the parity equations leave the data (`dataBits_hamCodeword`) and make every row even
(`rowParity_hamCodeword`), so the self-checks pass, and the length decides between delivery and E_CAPACITY. -/
theorem hamEncRule : Obligations.HamEncRule := by
  unfold Obligations.HamEncRule
  refine ⟨by decide, fun s hs => ⟨fun e he => failsWith_of_error _ _ _ ?_, fun D h p hpos hsuff hleast => ?_⟩⟩
  · rw [opResult, hamEncode, he]
    rfl
  · obtain ⟨hpos', hsuff', hleast'⟩ := hamParity_spec D.length
    obtain rfl : p = hamParity D.length := Nat.le_antisymm (hleast _ hpos' hsuff') (hleast' p hpos hsuff)
    refine ⟨hamCodeword D, hamMask (D.length + hamParity D.length), hamCodeword_length D, dataBits_hamCodeword D,
      fun e he => ?_, hamMask_length _, hamMask_getElem?_eq_true_iff _, hamEnc_completes hs h, hamEnc_capacity h⟩
    have hrow := rowParity_hamCodeword D ((mem_hamRows _ (hamParity D.length - e)).2 (by omega))
    rwa [← oddParity_two_pow, Nat.sub_sub_self he.le] at hrow

/-! HAM.DEC (44_hamming.md R196). -/

/-- The syndrome's number is a position of the word (44_hamming.md R196). -/
def hamCorrects (C : Bits) (p : Nat) : Bool :=
  bitsVal (hamSyndrome C p) != 0 && decide (bitsVal (hamSyndrome C p) ≤ C.length)

/-- The word whose data bits HAM.DEC delivers: the corrected one, or the received one (44_hamming.md R196). -/
def hamSource (C : Bits) (p : Nat) : Bits :=
  if hamCorrects C p then flipBit C (bitsVal (hamSyndrome C p) - 1) else C

@[simp] theorem hamSource_length (C : Bits) (p : Nat) : (hamSource C p).length = C.length := by
  rw [hamSource]
  split <;> simp

/-- What HAM.DEC delivers for a word with `p` parity positions (44_hamming.md R196). -/
def hamDecResults (C : Bits) (p : Nat) : Results :=
  { ra := bitsText (dataBits (hamSource C p)), rb := bitsText (hamSyndrome C p),
    rc := if hamCorrects C p then bitsText (hamSource C p) else [],
    aux0 := BitVec.ofNat 32 (bitsVal (hamSyndrome C p)), aux1 := BitVec.ofNat 32 p,
    flags := { valid := bitsVal (hamSyndrome C p) == 0, corr := hamCorrects C p,
               uncorr := bitsVal (hamSyndrome C p) != 0 && !hamCorrects C p } }

section Results

variable {C : Bits} {p : Nat}

theorem hamDecResults_of_valid (h : bitsVal (hamSyndrome C p) = 0) : hamDecResults C p =
    { ra := bitsText (dataBits C), rb := bitsText (hamSyndrome C p), aux1 := BitVec.ofNat 32 p,
      flags := { valid := true } } := by
  simp [hamDecResults, hamSource, hamCorrects, h]

theorem hamDecResults_of_corrected (hne : bitsVal (hamSyndrome C p) ≠ 0)
    (hle : bitsVal (hamSyndrome C p) ≤ C.length) : hamDecResults C p =
    { ra := bitsText (dataBits (flipBit C (bitsVal (hamSyndrome C p) - 1))), rb := bitsText (hamSyndrome C p),
      rc := bitsText (flipBit C (bitsVal (hamSyndrome C p) - 1)),
      aux0 := BitVec.ofNat 32 (bitsVal (hamSyndrome C p)), aux1 := BitVec.ofNat 32 p, flags := { corr := true } } := by
  simp [hamDecResults, hamSource, hamCorrects, hne, hle]

theorem hamDecResults_of_uncorrectable (hlt : C.length < bitsVal (hamSyndrome C p)) : hamDecResults C p =
    { ra := bitsText (dataBits C), rb := bitsText (hamSyndrome C p),
      aux0 := BitVec.ofNat 32 (bitsVal (hamSyndrome C p)), aux1 := BitVec.ofNat 32 p,
      flags := { uncorr := true } } := by
  have hne : bitsVal (hamSyndrome C p) ≠ 0 := by omega
  simp [hamDecResults, hamSource, hamCorrects, hne, hlt.not_ge]

end Results

section Decode

variable {opa : Text} {C : Bits}

/-- One or two bits hold no data position (44_hamming.md R196). -/
theorem hamDecode_of_short (h : bitsOperand opa = .ok C) (hshort : C.length ≤ 2) :
    hamDecode opa = .error .range := by
  have hcheck : decide (hamInferParity C.length + 1 ≤ C.length) = false :=
    decide_eq_false (by rw [hamInferParity_lt_iff]; omega)
  rw [hamDecode, h]
  simp only [bind, Except.bind, hcheck, require_false]

/-- The re-verification of HAM.DEC passes (44_hamming.md R197). -/
theorem hamDecode_of_operand (h : bitsOperand opa = .ok C) (hlen : 3 ≤ C.length) :
    hamDecode opa = .ok (hamDecResults C (hamInferParity C.length)) := by
  have hcheck : decide (hamInferParity C.length + 1 ≤ C.length) = true :=
    decide_eq_true ((hamInferParity_lt_iff _).2 hlen)
  obtain ⟨check, hrule⟩ :
      ∃ check, hamDecode opa = .ok { hamDecResults C (hamInferParity C.length) with selfCheck := check } := by
    rw [hamDecode, h]
    simp only [bind, Except.bind, hcheck, require_true, hamData_one_eq_dataBits]
    exact ⟨_, rfl⟩
  obtain rfl : check = true := (hamDecode_selfChecked opa).selfCheck _ hrule
  exact hrule

end Decode

theorem hamDec_completes {s : State} (hs : s.inv = true) {C : Bits} (h : bitsOperand s.opa.content = .ok C)
    (hlen : 3 ≤ C.length) : Completes .hamDec s (hamDecResults C (hamInferParity C.length)) := by
  have hmax := bitsOperand_length_le_bufmax hs h
  have hdata := dataBits_length_le (hamSource C (hamInferParity C.length))
  have hparity := (hamInferParity_lt_iff _).2 hlen
  refine completes_of_ok _ s _ hs (hamDecode_of_operand h hlen)
    ((Results.overCapacity_eq_false_iff _ _).2 ⟨?_, ?_, ?_, Nat.zero_le _⟩) rfl
  · rw [hamSource_length] at hdata
    rw [hamDecResults, bitsText_length]
    omega
  · simp only [hamDecResults, bitsText_length, hamSyndrome, List.length_map, List.length_range]
    omega
  · simp only [hamDecResults]
    split <;> simp [hmax]

/-- Settles O36: the syndrome's number is 0, a position of the word, or past it. -/
theorem hamDecRule : Obligations.HamDecRule := by
  unfold Obligations.HamDecRule
  refine ⟨by decide, fun s hs => ⟨fun e he => failsWith_of_error _ _ _ ?_, fun C h =>
    ⟨fun hshort => failsWith_of_error _ _ _ (hamDecode_of_short h hshort), ?_⟩⟩⟩
  · rw [opResult, hamDecode, he]
    rfl
  · rintro hlen p syn hlow hhigh rfl
    have hcompletes := hamDec_completes hs h hlen
    rw [hamInferParity_eq hlow hhigh] at hcompletes
    rw [map_oddParity_eq_hamSyndrome]
    refine ⟨fun hvalid => ?_, ?_, ?_⟩
    · rwa [hamDecResults_of_valid hvalid] at hcompletes
    · rintro S rfl hne hle
      rwa [hamDecResults_of_corrected hne hle] at hcompletes
    · rintro S rfl hlt
      rwa [hamDecResults_of_uncorrectable hlt] at hcompletes

/-! Encoding and decoding together (44_hamming.md R198). -/

@[simp] theorem bitsVal_zeroBits (n : Nat) : bitsVal (zeroBits n) = 0 := by
  induction n with
  | zero => rfl
  | succ n ih =>
    rw [zeroBits, List.replicate_succ, bitsVal_cons, ← zeroBits, ih]
    simp

/-- Exchanging the character of a bit flips the bit. -/
theorem bitsText_modify (c : Bits) (j : Nat) :
    (bitsText c).modify j (fun x => if x = 0x30#8 then 0x31#8 else 0x30#8) = bitsText (flipBit c j) := by
  have hchar (x : Bool) : (if bitChar x = 0x30#8 then 0x31#8 else 0x30#8) = bitChar (!x) := by cases x <;> decide
  apply List.ext_getElem?
  intro i
  rw [List.getElem?_modify, bitsText, bitsText, List.getElem?_map, List.getElem?_map, flipBit_getElem?]
  rcases eq_or_ne i j with rfl | hne
  · simp [Function.comp_def, hchar]
  · simp [hne, hne.symm]

/-- A successful HAM.ENC holds the codeword in RA: E_CAPACITY is its only other end. -/
theorem hamEnc_ra_of_err_zero {s t : State} (hs : s.inv = true) {D : Bits} (h : bitsOperand s.opa.content = .ok D)
    (hexec : exec .hamEnc s = .next t) (herr : t.err = 0#4) : Holds s.ra t.ra (bitsText (hamCodeword D)) := by
  by_cases hfit : D.length + hamParity D.length ≤ s.cfg.bufmax
  · obtain ⟨t', hexec', -, -, hshow⟩ := hamEnc_completes hs h hfit
    rw [hexec'] at hexec
    cases hexec
    exact hshow.ra
  · obtain ⟨t', hexec', -, -, hshow⟩ := hamEnc_capacity h (not_le.1 hfit)
    rw [hexec'] at hexec
    cases hexec
    exact absurd (hshow.err.symm.trans herr) (Err.code_bounds _).1

/-- A codeword of one data bit or more has at least two parity bits (44_hamming.md R193). -/
theorem three_le_hamCodeword_length {D : Bits} (hD : D ≠ []) : 3 ≤ (hamCodeword D).length := by
  obtain ⟨hpos, hsuff, -⟩ := hamParity_spec D.length
  have hk := List.length_pos_iff.2 hD
  rw [hamCodeword_length]
  by_contra hshort
  have hone : hamParity D.length = 1 := by omega
  rw [hone] at hsuff
  omega

/-- HAM.DEC on the text of a word as long as a codeword takes as many parity positions as HAM.ENC gave it. -/
theorem hamDec_completes_of_text {u : State} (hu : u.inv = true) {C D : Bits} (hD : D ≠ [])
    (hC : C.length = (hamCodeword D).length) (htext : u.opa.content = bitsText C) :
    Completes .hamDec u (hamDecResults C (hamParity D.length)) := by
  have hlen : 3 ≤ C.length := hC ▸ three_le_hamCodeword_length hD
  have hne : C ≠ [] := List.length_pos_iff.1 (by omega)
  have hcompletes := hamDec_completes hu (htext ▸ bitsOperand_bitsText hne) hlen
  rwa [hC, hamCodeword_length, hamInferParity_codeword] at hcompletes

/-- What HAM.DEC delivers for a codeword (44_hamming.md R198). -/
theorem hamDecResults_hamCodeword (D : Bits) : hamDecResults (hamCodeword D) (hamParity D.length) =
    { ra := bitsText D, rb := bitsText (zeroBits (hamParity D.length)),
      aux1 := BitVec.ofNat 32 (hamParity D.length), flags := { valid := true } } := by
  have hsyn := hamSyndrome_hamCodeword D
  rw [hamDecResults_of_valid (by rw [hsyn, bitsVal_zeroBits]), hsyn, dataBits_hamCodeword]

/-- What HAM.DEC delivers for a codeword with one bit flipped (44_hamming.md R198). -/
theorem hamDecResults_flipBit_hamCodeword (D : Bits) {j : Nat} (hj : j < (hamCodeword D).length) :
    hamDecResults (flipBit (hamCodeword D) j) (hamParity D.length) =
      { ra := bitsText D, rb := bitsText (binBits (hamParity D.length) (j + 1)), rc := bitsText (hamCodeword D),
        aux0 := BitVec.ofNat 32 (j + 1), aux1 := BitVec.ofNat 32 (hamParity D.length), flags := { corr := true } } := by
  have hlen := hamCodeword_length D
  obtain ⟨-, hsuff, -⟩ := hamParity_spec D.length
  have hsyn := hamSyndrome_flipBit_hamCodeword D (hlen ▸ hj)
  have hval : bitsVal (hamSyndrome (flipBit (hamCodeword D) j) (hamParity D.length)) = j + 1 := by
    rw [hsyn, bitsVal_binBits, Nat.mod_eq_of_lt (by omega)]
  rw [hamDecResults_of_corrected (by omega) (by rw [hval, flipBit_length]; omega), hval, hsyn, Nat.add_sub_cancel,
    flipBit_flipBit, dataBits_hamCodeword]

/-- Settles O37: the syndrome of a codeword is 0 (`hamDecResults_hamCodeword`), and with one bit flipped it spells the
position (`hamDecResults_flipBit_hamCodeword`). -/
theorem hamSingleErrorCorrected : Obligations.HamSingleErrorCorrected := by
  unfold Obligations.HamSingleErrorCorrected
  intro s t u D hs hu h hexec herr
  have hra := hamEnc_ra_of_err_zero hs h hexec herr
  obtain ⟨hD, -⟩ := (bitsOperand_ok_iff _ _).1 h
  refine ⟨fun hsame => ?_, fun j hj hflip => ?_⟩
  · obtain ⟨v, hv, -, -, hshow⟩ := hamDec_completes_of_text hu hD rfl (hsame.trans hra.content)
    rw [hamDecResults_hamCodeword] at hshow
    refine ⟨v, hv, hshow.err, hshow.flags, fun c hc => ?_, hshow.ra.content⟩
    rw [hshow.rb.content] at hc
    obtain ⟨x, hx, rfl⟩ := List.mem_map.1 hc
    rw [List.eq_of_mem_replicate hx]
    rfl
  · rw [hra.content, bitsText_modify] at hflip
    rw [hra.len, bitsText_length] at hj
    obtain ⟨v, hv, -, -, hshow⟩ := hamDec_completes_of_text hu hD (flipBit_length _ j) hflip
    rw [hamDecResults_flipBit_hamCodeword D hj] at hshow
    exact ⟨v, hv, hshow.err, hshow.flags, hshow.ra.content, hshow.rc.content.trans hra.content.symm, hshow.aux0⟩

end Sys2Proof.Machine
end

section
/-! PROOFS, the family 45_gray. The Gray code on BitStrings (45_gray.md R211 to R213): its bits, its inverse, and its
value. -/

namespace Sys2Proof.Machine

/-- The code of the bits `B` after a bit `prev`, as `bitsOfGray prev` decodes it (45_gray.md R211, R212). -/
def grayAfter (prev : Bool) (B : Bits) : Bits := List.zipWith (fun x y => x ^^ y) B (prev :: B)

theorem grayOfBits_eq_grayAfter (B : Bits) : grayOfBits B = grayAfter false B := rfl

@[simp] theorem grayAfter_nil (prev : Bool) : grayAfter prev [] = [] := rfl

@[simp] theorem grayAfter_cons (prev x : Bool) (B : Bits) :
    grayAfter prev (x :: B) = (x ^^ prev) :: grayAfter x B := rfl

@[simp] theorem grayOfBits_length (B : Bits) : (grayOfBits B).length = B.length := by simp [grayOfBits]

theorem grayOfBits_getElem?_zero (B : Bits) : (grayOfBits B)[0]? = B[0]? := by
  cases B <;> simp [grayOfBits_eq_grayAfter]

/-- Past the first bit, a bit of the code is the XOR of two neighbours (45_gray.md R211). -/
theorem grayOfBits_getElem?_succ {B : Bits} {i : Nat} {x y : Bool} (hx : B[i]? = some x) (hy : B[i + 1]? = some y) :
    (grayOfBits B)[i + 1]? = some (y ^^ x) := by
  simp [grayOfBits, List.getElem?_zipWith, hx, hy]

@[simp] theorem bitsOfGray_length (prev : Bool) (G : Bits) : (bitsOfGray prev G).length = G.length := by
  induction G generalizing prev with
  | nil => rfl
  | cons g G ih => simp [bitsOfGray, ih]

theorem bitsOfGray_getElem?_zero (G : Bits) : (bitsOfGray false G)[0]? = G[0]? := by
  cases G <;> simp [bitsOfGray]

/-- Past the first bit, a decoded bit is the XOR of the code's bit and the decoded bit before (45_gray.md R212). -/
theorem bitsOfGray_getElem?_succ {prev : Bool} {G : Bits} {i : Nat} {x y : Bool}
    (hx : (bitsOfGray prev G)[i]? = some x) (hy : G[i + 1]? = some y) :
    (bitsOfGray prev G)[i + 1]? = some (y ^^ x) := by
  induction G generalizing prev i with
  | nil => simp at hy
  | cons g G ih =>
    cases i with
    | zero =>
      cases G with
      | nil => simp at hy
      | cons g' G =>
        cases hx
        cases hy
        rfl
    | succ i => exact ih hx hy

/-- Decoding inverts encoding, from any bit before the first (45_gray.md R213). -/
theorem bitsOfGray_grayAfter (prev : Bool) (B : Bits) : bitsOfGray prev (grayAfter prev B) = B := by
  induction B generalizing prev with
  | nil => rfl
  | cons x B ih =>
    have hx : (x ^^ prev ^^ prev) = x := by simp
    rw [grayAfter_cons, bitsOfGray, hx, ih]

/-! The code as an integer (45_gray.md R213). -/

/-- A bit after the last doubles the value and adds itself (00_scope.md R6). -/
theorem bitsVal_concat (b : Bits) (x : Bool) : bitsVal (b ++ [x]) = Nat.bit x (bitsVal b) := by
  rw [bitsVal_append, bitsVal_cons, Nat.bit_val, bitsVal_nil]
  simp [Nat.mul_comm]

/-- The value of the bitwise XOR of two strings of one length. -/
theorem bitsVal_zipWith_xor {a b : Bits} (hlen : a.length = b.length) :
    bitsVal (List.zipWith (fun x y => x ^^ y) a b) = bitsVal a ^^^ bitsVal b := by
  induction a using List.reverseRecOn generalizing b with
  | nil =>
    obtain rfl := List.length_eq_zero_iff.1 hlen.symm
    rfl
  | append_singleton a x ih =>
    rcases List.eq_nil_or_concat' b with rfl | ⟨b, y, rfl⟩
    · simp at hlen
    · have hlen : a.length = b.length := by simpa using hlen
      rw [List.zipWith_append hlen, List.zipWith_cons_cons, List.zipWith_nil_left, bitsVal_concat, bitsVal_concat,
        bitsVal_concat, ih hlen, Nat.xor_bit, Bool.bne_eq_xor]

/-- The last bit takes part in the last bit of the code alone: the second string is the first, shifted right. -/
theorem grayAfter_concat (prev x : Bool) (B : Bits) :
    grayAfter prev (B ++ [x]) = List.zipWith (fun x y => x ^^ y) (B ++ [x]) (prev :: B) := by
  induction B generalizing prev with
  | nil => rfl
  | cons b B ih => rw [List.cons_append, grayAfter_cons, ih, List.zipWith_cons_cons]

/-- "Gray = Binary XOR (Binary right-shifted by 1)", of the values (45_gray.md R211, R213). -/
theorem bitsVal_grayOfBits (B : Bits) : bitsVal (grayOfBits B) = bitsVal B ^^^ bitsVal B >>> 1 := by
  rcases List.eq_nil_or_concat' B with rfl | ⟨B, x, rfl⟩
  · rfl
  · have hshift : bitsVal (B ++ [x]) >>> 1 = bitsVal (false :: B) := by
      rw [bitsVal_concat, Nat.bit_shiftRight_one]
      simp
    rw [grayOfBits_eq_grayAfter, grayAfter_concat, bitsVal_zipWith_xor (by simp), hshift]

/-! Neighbouring codes (45_gray.md R213): the bits in which `i` and `i + 1` differ are a run at the end, and the code,
which is linear, keeps the first bit of that run alone. -/

/-- The code of a bitwise XOR is the bitwise XOR of the codes. -/
theorem zipWith_xor_grayAfter {a b : Bits} (hlen : a.length = b.length) (p q : Bool) :
    List.zipWith (fun x y => x ^^ y) (grayAfter p a) (grayAfter q b) =
      grayAfter (p ^^ q) (List.zipWith (fun x y => x ^^ y) a b) := by
  induction a, b, hlen using sameLength_induction generalizing p q with
  | nil => rfl
  | cons x y a b hlen ih =>
    have hhead : ((x ^^ p) ^^ (y ^^ q)) = ((x ^^ y) ^^ (p ^^ q)) := by
      rw [Bool.xor_assoc, Bool.xor_assoc, Bool.xor_left_comm p y q]
    rw [grayAfter_cons, grayAfter_cons, List.zipWith_cons_cons, List.zipWith_cons_cons, grayAfter_cons, ih, hhead]

theorem grayAfter_replicate (n : Nat) (x : Bool) : grayAfter x (List.replicate n x) = zeroBits n := by
  induction n with
  | zero => rfl
  | succ n ih => rw [List.replicate_succ, grayAfter_cons, ih, Bool.xor_self, zeroBits, zeroBits, List.replicate_succ]

/-- The code of a run at the end has one bit set, the run's first. -/
theorem count_grayAfter_run (m k : Nat) :
    (grayAfter false (zeroBits m ++ List.replicate (k + 1) true)).count true = 1 := by
  induction m with
  | zero => simp [zeroBits, List.replicate_succ, grayAfter_replicate, List.count_replicate]
  | succ m ih => simpa [zeroBits, List.replicate_succ] using ih

/-- The last bit of `bin_L(v)` apart. -/
theorem binBits_succ_eq_concat (n v : Nat) : binBits (n + 1) v = binBits n (v / 2) ++ [v.testBit 0] := by
  induction n with
  | zero => rfl
  | succ n ih => rw [binBits, ih, binBits, Nat.testBit_succ, List.cons_append]

/-- `bin_L` takes its argument modulo `2^L` (00_scope.md R6). -/
theorem binBits_mod (n v : Nat) : binBits n (v % 2 ^ n) = binBits n v := by
  rw [← binBits_add_mul n (v / 2 ^ n) (v % 2 ^ n), Nat.mul_comm, Nat.div_add_mod]

theorem zipWith_xor_self (a : Bits) : List.zipWith (fun x y => x ^^ y) a a = zeroBits a.length := by
  simp [List.zipWith_self, zeroBits]

/-- The bits in which `i` and `i + 1` differ: the carry runs from the last bit up to the first 0. -/
theorem exists_run_of_successor (n i : Nat) : ∃ m k,
    List.zipWith (fun x y => x ^^ y) (binBits (n + 1) i) (binBits (n + 1) (i + 1)) =
      zeroBits m ++ List.replicate (k + 1) true := by
  induction n generalizing i with
  | zero => exact ⟨0, 0, by simp [binBits, zeroBits]; omega⟩
  | succ n ih =>
    rw [binBits_succ_eq_concat (n + 1), binBits_succ_eq_concat (n + 1), List.zipWith_append (by simp),
      List.zipWith_cons_cons, List.zipWith_nil_left]
    have hlast : (i.testBit 0 ^^ (i + 1).testBit 0) = true := by
      rcases Nat.mod_two_eq_zero_or_one i with h | h <;> simp [Nat.testBit_zero, Nat.add_mod, h]
    rw [hlast]
    rcases Nat.mod_two_eq_zero_or_one i with heven | hodd
    · have hhalf : (i + 1) / 2 = i / 2 := by omega
      rw [hhalf, zipWith_xor_self]
      exact ⟨_, 0, rfl⟩
    · have hhalf : (i + 1) / 2 = i / 2 + 1 := by omega
      obtain ⟨m, k, hrun⟩ := ih (i / 2)
      rw [hhalf, hrun, List.append_assoc, ← List.replicate_succ']
      exact ⟨m, k + 1, rfl⟩

/-- The codes of `i` and of `i + 1` differ in one bit (45_gray.md R213). -/
theorem count_zipWith_xor_grayOfBits (n i : Nat) : (List.zipWith (fun x y => x ^^ y)
    (grayOfBits (binBits (n + 1) i)) (grayOfBits (binBits (n + 1) (i + 1)))).count true = 1 := by
  obtain ⟨m, k, hrun⟩ := exists_run_of_successor n i
  rw [grayOfBits_eq_grayAfter, grayOfBits_eq_grayAfter, zipWith_xor_grayAfter (by simp), hrun]
  exact count_grayAfter_run m k

/-- Settles O40: the inverse, the adjacency modulo `2^n` (`binBits_mod`) and the integer form, and the sequence of 3
bits. -/
theorem grayLaws : Obligations.GrayLaws := by
  unfold Obligations.GrayLaws
  refine ⟨bitsOfGray_grayAfter false, fun n i hn _ => ?_, bitsVal_grayOfBits, by decide⟩
  obtain ⟨n, rfl⟩ := Nat.exists_eq_add_of_le' hn
  rw [binBits_mod]
  exact count_zipWith_xor_grayOfBits n i

end Sys2Proof.Machine
end

section
/-! PROOFS, the family 45_gray. The operand of GRAY.ENC (45_gray.md R210): bits as they stand, or a decimal number in
the least width. -/

namespace Sys2Proof.Machine

/-- What the operand of GRAY.ENC is after its two checks (45_gray.md R210). -/
def grayRest (t : Text) : Except Err (Bool × Bits) :=
  if t.all isBitChar then .ok (false, t.map (fun c => c == chOne))
  else .ok (true, binBits (bitLength (decVal t)) (decVal t))

theorem grayOperand_eq (content : Text) : grayOperand content = checkedText isDecChar grayRest (clean content) := rfl

/-- On digits both checks pass. -/
theorem grayOperand_of_digits {content : Text} {ds : List Nat} (hne : ds ≠ []) (hds : ∀ d ∈ ds, d < 10)
    (hclean : clean content = ds.map decChar) : grayOperand content = grayRest (ds.map decChar) := by
  rw [grayOperand_eq, hclean]
  exact checkedText_of_alphabet _ _ _ (by simpa using hne) (List.all_eq_true.1 (all_isDecChar_map_decChar ds hds))

theorem isBitChar_decChar_iff {d : Nat} (hd : d < 10) : isBitChar (decChar d) = true ↔ d < 2 := by
  interval_cases d <;> decide

theorem decChar_beq_chOne {d : Nat} (hd : d < 10) : (decChar d == chOne) = (d == 1) := by
  interval_cases d <;> rfl

theorem all_isBitChar_map_decChar_iff {ds : List Nat} (hds : ∀ d ∈ ds, d < 10) :
    (ds.map decChar).all isBitChar = true ↔ ∀ d ∈ ds, d < 2 := by
  rw [List.all_map, List.all_eq_true]
  exact forall₂_congr fun d hd => isBitChar_decChar_iff (hds d hd)

/-- Digits 0 and 1 are bits as they stand. -/
theorem grayRest_of_bits {ds : List Nat} (hbits : ∀ d ∈ ds, d < 2) :
    grayRest (ds.map decChar) = .ok (false, ds.map (fun d => d == 1)) := by
  have hds : ∀ d ∈ ds, d < 10 := fun d hd => (hbits d hd).trans (by decide)
  have hread : (ds.map decChar).map (fun c => c == chOne) = ds.map (fun d => d == 1) := by
    rw [List.map_map]
    exact List.map_congr_left fun d hd => decChar_beq_chOne (hds d hd)
  rw [grayRest, if_pos ((all_isBitChar_map_decChar_iff hds).2 hbits), hread]

/-- With a digit past 1 the operand is the decimal number. -/
theorem grayRest_of_decimal {ds : List Nat} (hds : ∀ d ∈ ds, d < 10) (hdec : ∃ d ∈ ds, 2 ≤ d) :
    grayRest (ds.map decChar) =
      .ok (true, binBits (bitLength (Nat.ofDigits 10 ds.reverse)) (Nat.ofDigits 10 ds.reverse)) := by
  rw [grayRest, if_neg, decVal_map_decChar ds hds]
  rw [all_isBitChar_map_decChar_iff hds]
  obtain ⟨d, hd, htwo⟩ := hdec
  exact fun hbits => absurd (hbits d hd) (by omega)

/-- A number that is not 0 in its least width: no leading zero, and the number itself (45_gray.md R210). -/
theorem binBits_bitLength {v : Nat} (hv : v ≠ 0) :
    (binBits (bitLength v) v).head? = some true ∧ bitsVal (binBits (bitLength v) v) = v := by
  rw [bitLength, if_neg hv, bitsVal_binBits, Nat.mod_eq_of_lt Nat.lt_log2_self, binBits, List.head?_cons,
    Nat.testBit_log2 hv]
  exact ⟨rfl, rfl⟩

/-- Settles O28: the two checks (`checkedText`), then bits as they stand, or the least width of a number that a digit
past 1 keeps from being 0. -/
theorem grayOperandFormat : Obligations.GrayOperandFormat := by
  unfold Obligations.GrayOperandFormat
  refine fun content => ⟨fun hempty => ?_, ?_, fun ds hne hds hclean => ⟨fun hbits => ?_, fun hdec => ?_⟩⟩
  · rw [grayOperand_eq, hempty, checkedText_nil]
  · rintro ⟨c, hc, hdigit⟩
    rw [grayOperand_eq]
    exact checkedText_of_char _ _ _ c hc (by rwa [← Bool.not_eq_true, isDecChar_iff])
  · rw [grayOperand_of_digits hne hds hclean, grayRest_of_bits hbits]
  · have hpos : Nat.ofDigits 10 ds.reverse ≠ 0 := fun hzero => by
      obtain ⟨d, hd, htwo⟩ := hdec
      have := Nat.digits_zero_of_eq_zero (by decide) hzero d (List.mem_reverse.2 hd)
      omega
    obtain ⟨hhead, hval⟩ := binBits_bitLength hpos
    exact ⟨_, (grayOperand_of_digits hne hds hclean).trans (grayRest_of_decimal hds hdec), hhead, hval⟩

end Sys2Proof.Machine
end

section
/-! PROOFS, the family 45_gray. GRAY.ENC and GRAY.DEC as commands (45_gray.md R211, R212). -/

namespace Sys2Proof.Machine

/-- What GRAY.ENC delivers (45_gray.md R211). -/
def grayEncResults (isDec : Bool) (B : Bits) : Results :=
  { ra := bitsText (grayOfBits B), aux0 := if isDec then 1#32 else 0#32, aux1 := BitVec.ofNat 32 B.length }

theorem grayEncode_of_operand {opa : Text} {isDec : Bool} {B : Bits} (h : grayOperand opa = .ok (isDec, B)) :
    grayEncode opa = .ok (grayEncResults isDec B) := by
  rw [grayEncode, h]
  cases isDec <;> rfl

/-- Settles O38: the bits of the code, and its length decides between delivery and E_CAPACITY. -/
theorem grayEncRule : Obligations.GrayEncRule := by
  unfold Obligations.GrayEncRule
  refine ⟨by decide, fun s hs => ⟨fun e he => failsWith_of_error _ _ _ ?_, fun isDec B h => ?_⟩⟩
  · rw [opResult, grayEncode, he]
    rfl
  · have hcapacity : (grayEncResults isDec B).overCapacity s.cfg = false ↔ B.length ≤ s.cfg.bufmax := by
      rw [Results.overCapacity_eq_false_iff, grayEncResults]
      simp
    refine ⟨fun hfit => ⟨grayOfBits B, grayOfBits_length B, grayOfBits_getElem?_zero B,
      fun i x y hx hy => grayOfBits_getElem?_succ hx hy, ?_⟩, fun hlong => ?_⟩
    · exact completes_of_ok _ s _ hs (grayEncode_of_operand h) (hcapacity.2 hfit) rfl
    · refine failsWith_capacity _ s _ (grayEncode_of_operand h) ?_
      rw [← Bool.not_eq_false, hcapacity]
      omega

theorem grayDecode_of_operand {opa : Text} {G : Bits} (h : bitsOperand opa = .ok G) :
    grayDecode opa = .ok { ra := bitsText (bitsOfGray false G) } := by
  rw [grayDecode, h]
  rfl

/-- Settles O39: the decoded bits are as many as the operand's, so they fit (`bitsOperand_length_le_bufmax`). -/
theorem grayDecRule : Obligations.GrayDecRule := by
  unfold Obligations.GrayDecRule
  refine ⟨by decide, fun s hs => ⟨fun e he => failsWith_of_error _ _ _ ?_, fun G h => ?_⟩⟩
  · rw [opResult, grayDecode, he]
    rfl
  · refine ⟨bitsOfGray false G, bitsOfGray_length false G, bitsOfGray_getElem?_zero G,
      fun i x y hx hy => bitsOfGray_getElem?_succ hx hy, ?_⟩
    refine completes_of_ok _ s _ hs (grayDecode_of_operand h) ((Results.overCapacity_eq_false_iff _ _).2 ?_) rfl
    simpa using bitsOperand_length_le_bufmax hs h

end Sys2Proof.Machine
end

section
/-! PROOFS, the family 46_kmap. The expression reader and the grammar of 46_kmap.md R222: what is read derives, and what
derives is read, whatever follows it that cannot continue it. -/

namespace Sys2Proof.Machine

/-- The primes after an atom are read one by one (46_kmap.md R222). -/
theorem kmPrimes_reads (a : KmExpr) (ts : List KmTok) :
    ∃ k rest, ts = List.replicate k .prime ++ rest ∧ kmPrimes a ts = (primesOf k a, rest) := by
  induction ts generalizing a with
  | nil => exact ⟨0, [], rfl, rfl⟩
  | cons tok ts ih =>
    by_cases htok : tok = .prime
    · obtain ⟨k, rest, rfl, hread⟩ := ih (.not a)
      exact ⟨k + 1, rest, by rw [htok]; rfl, by rw [htok]; exact hread⟩
    · refine ⟨0, tok :: ts, rfl, ?_⟩
      cases tok <;> simp_all [kmPrimes, primesOf]

/-- All the primes before a symbol of another kind are read. -/
theorem kmPrimes_replicate (a : KmExpr) (k : Nat) {rest : List KmTok} (hrest : rest.head? ≠ some .prime) :
    kmPrimes a (List.replicate k .prime ++ rest) = (primesOf k a, rest) := by
  induction k generalizing a with
  | zero => rcases rest with _ | ⟨_ | _ | _ | _ | _ | _ | _, _⟩ <;> simp_all [kmPrimes, primesOf]
  | succ k ih => exact ih (.not a)

/-- One turn of the reader of expressions: a term, and after `+` another expression (46_kmap.md R222). -/
theorem kmParseExpr_eq_some_iff (fuel : Nat) (ts rest : List KmTok) (e : KmExpr) :
    kmParseExpr (fuel + 1) ts = some (e, rest) ↔
      (kmParseTerm fuel ts = some (e, rest) ∧ rest.head? ≠ some .plus) ∨
      ∃ a us b, kmParseTerm fuel ts = some (a, .plus :: us) ∧ kmParseExpr fuel us = some (b, rest) ∧ e = .or a b := by
  rw [kmParseExpr]
  rcases kmParseTerm fuel ts with _ | ⟨a, _ | ⟨tok, us⟩⟩
  · simp
  · grind
  · by_cases htok : tok = .plus
    · subst htok
      rcases kmParseExpr fuel us with _ | ⟨b, ws⟩ <;> grind
    · cases tok <;> grind

/-- One turn of the reader of terms: a factor, and after `·` or before the start of a factor another term (46_kmap.md
R222). -/
theorem kmParseTerm_eq_some_iff (fuel : Nat) (ts rest : List KmTok) (e : KmExpr) :
    kmParseTerm (fuel + 1) ts = some (e, rest) ↔
      (kmParseFactor fuel ts = some (e, rest) ∧ rest.head? ≠ some .dot ∧ startsFactor rest = false) ∨
      ∃ a us b, (kmParseFactor fuel ts = some (a, .dot :: us) ∨
          kmParseFactor fuel ts = some (a, us) ∧ startsFactor us = true) ∧
        kmParseTerm fuel us = some (b, rest) ∧ e = .and a b := by
  rw [kmParseTerm]
  rcases kmParseFactor fuel ts with _ | ⟨a, _ | ⟨tok, us⟩⟩
  · simp
  · grind [startsFactor]
  · by_cases htok : tok = .dot
    · subst htok
      rcases kmParseTerm fuel us with _ | ⟨b, ws⟩ <;> grind [startsFactor]
    · rcases hread : kmParseTerm fuel (tok :: us) with _ | ⟨b, ws⟩ <;> cases tok <;> grind [startsFactor]

/-- One turn of the reader of factors, by the symbol that it begins with (46_kmap.md R222). -/
theorem kmParseFactor_eq_some_iff (fuel : Nat) (ts rest : List KmTok) (e : KmExpr) :
    kmParseFactor (fuel + 1) ts = some (e, rest) ↔
      (∃ us a, ts = .bang :: us ∧ kmParseFactor fuel us = some (a, rest) ∧ e = .not a) ∨
      (∃ v us, ts = .var v :: us ∧ kmPrimes (.var v) us = (e, rest)) ∨
      ∃ us a ws, ts = .lpar :: us ∧ kmParseExpr fuel us = some (a, .rpar :: ws) ∧ kmPrimes a ws = (e, rest) := by
  rcases ts with _ | ⟨tok, us⟩
  · simp [kmParseFactor]
  · cases tok <;> simp only [kmParseFactor] <;> grind

/-- What `parse` reads off the front derives from the sort. -/
def ReadsOnly (sort : KmSort) (parse : List KmTok → Option (KmExpr × List KmTok)) : Prop :=
  ∀ ts e rest, parse ts = some (e, rest) → ∃ pre, ts = pre ++ rest ∧ KmDerives sort pre e

theorem readsOnly_expr {fuel : Nat} (hterm : ReadsOnly .term (kmParseTerm fuel))
    (hexpr : ReadsOnly .expr (kmParseExpr fuel)) : ReadsOnly .expr (kmParseExpr (fuel + 1)) := by
  intro ts e rest h
  rcases (kmParseExpr_eq_some_iff _ _ _ _).1 h with ⟨hone, -⟩ | ⟨a, us, b, ha, hb, rfl⟩
  · obtain ⟨pre, rfl, hpre⟩ := hterm _ _ _ hone
    exact ⟨pre, rfl, .exprOne hpre⟩
  · obtain ⟨pre, rfl, hpre⟩ := hterm _ _ _ ha
    obtain ⟨mid, rfl, hmid⟩ := hexpr _ _ _ hb
    exact ⟨pre ++ .plus :: mid, by simp, .exprOr hpre hmid⟩

theorem readsOnly_term {fuel : Nat} (hfactor : ReadsOnly .factor (kmParseFactor fuel))
    (hterm : ReadsOnly .term (kmParseTerm fuel)) : ReadsOnly .term (kmParseTerm (fuel + 1)) := by
  intro ts e rest h
  rcases (kmParseTerm_eq_some_iff _ _ _ _).1 h with ⟨hone, -⟩ | ⟨a, us, b, hdot | ⟨hadj, -⟩, hb, rfl⟩
  · obtain ⟨pre, rfl, hpre⟩ := hfactor _ _ _ hone
    exact ⟨pre, rfl, .termOne hpre⟩
  · obtain ⟨pre, rfl, hpre⟩ := hfactor _ _ _ hdot
    obtain ⟨mid, rfl, hmid⟩ := hterm _ _ _ hb
    exact ⟨pre ++ .dot :: mid, by simp, .termDot hpre hmid⟩
  · obtain ⟨pre, rfl, hpre⟩ := hfactor _ _ _ hadj
    obtain ⟨mid, rfl, hmid⟩ := hterm _ _ _ hb
    exact ⟨pre ++ mid, by simp, .termAdjacent hpre hmid⟩

/-- An atom and the primes read after it are a factor. -/
theorem derives_factor_of_kmPrimes {pre us rest : List KmTok} {a e : KmExpr} (hatom : KmDerives .atom pre a)
    (h : kmPrimes a us = (e, rest)) : ∃ all, pre ++ us = all ++ rest ∧ KmDerives .factor all e := by
  obtain ⟨k, rest', rfl, hread⟩ := kmPrimes_reads a us
  obtain ⟨rfl, rfl⟩ := Prod.mk.inj (hread.symm.trans h)
  exact ⟨pre ++ List.replicate k .prime, by simp, .factorAtom k hatom⟩

theorem readsOnly_factor {fuel : Nat} (hfactor : ReadsOnly .factor (kmParseFactor fuel))
    (hexpr : ReadsOnly .expr (kmParseExpr fuel)) : ReadsOnly .factor (kmParseFactor (fuel + 1)) := by
  intro ts e rest h
  rcases (kmParseFactor_eq_some_iff _ _ _ _).1 h with
    ⟨us, a, rfl, ha, rfl⟩ | ⟨v, us, rfl, hv⟩ | ⟨us, a, ws, rfl, ha, hp⟩
  · obtain ⟨pre, rfl, hpre⟩ := hfactor _ _ _ ha
    exact ⟨.bang :: pre, rfl, .factorBang hpre⟩
  · exact derives_factor_of_kmPrimes .atomVar hv
  · obtain ⟨pre, rfl, hpre⟩ := hexpr _ _ _ ha
    obtain ⟨all, heq, hall⟩ := derives_factor_of_kmPrimes (.atomGroup hpre) hp
    exact ⟨all, by simpa using heq, hall⟩

/-- Whatever the fuel, each of the three readers reads its own sort only. -/
theorem readers_readOnly (fuel : Nat) : ReadsOnly .expr (kmParseExpr fuel) ∧ ReadsOnly .term (kmParseTerm fuel) ∧
    ReadsOnly .factor (kmParseFactor fuel) := by
  induction fuel with
  | zero => exact ⟨fun _ _ _ h => (nomatch h), fun _ _ _ h => (nomatch h), fun _ _ _ h => (nomatch h)⟩
  | succ fuel ih =>
    obtain ⟨hexpr, hterm, hfactor⟩ := ih
    exact ⟨readsOnly_expr hterm hexpr, readsOnly_term hfactor hterm, readsOnly_factor hfactor hexpr⟩

theorem startsFactor_append {ts : List KmTok} (h : startsFactor ts = true) (us : List KmTok) :
    startsFactor (ts ++ us) = true := by
  rcases ts with _ | ⟨_ | _ | _ | _ | _ | _ | _, _⟩ <;> simp_all [startsFactor]

/-- Every derivation begins as a factor does (46_kmap.md R222). -/
theorem startsFactor_of_derives {sort : KmSort} {ts : List KmTok} {e : KmExpr} (h : KmDerives sort ts e) :
    startsFactor ts = true := by
  induction h with
  | exprOne _ ih | termOne _ ih => exact ih
  | exprOr _ _ ih _ | termDot _ _ ih _ | termAdjacent _ _ ih _ | factorAtom _ _ ih => exact startsFactor_append ih _
  | factorBang | atomVar | atomGroup => rfl

/-- The symbols after a factor, a term or an expression that do not continue it (46_kmap.md R222). -/
def endsSort : KmSort → List KmTok → Prop
  | .atom, _ => True
  | .factor, rest => rest.head? ≠ some .prime
  | .term, rest => rest.head? ≠ some .prime ∧ rest.head? ≠ some .dot ∧ startsFactor rest = false
  | .expr, rest => rest.head? ≠ some .prime ∧ rest.head? ≠ some .dot ∧ startsFactor rest = false ∧
      rest.head? ≠ some .plus

/-- A factor ends where another begins. -/
theorem endsSort_factor_of_startsFactor {ts : List KmTok} (h : startsFactor ts = true) : endsSort .factor ts := by
  rcases ts with _ | ⟨_ | _ | _ | _ | _ | _ | _, _⟩ <;> simp_all [endsSort, startsFactor]

/-- The derivation is found by the reader of its sort, before any symbols that do not continue it, with the fuel that
`kmParse` counts: three turns for each symbol. An atom is read as part of its factor. -/
def IsRead : KmSort → List KmTok → KmExpr → Prop
  | .expr, ts, e => ∀ fuel rest, 3 * ts.length + 3 ≤ fuel → endsSort .expr rest →
      kmParseExpr fuel (ts ++ rest) = some (e, rest)
  | .term, ts, e => ∀ fuel rest, 3 * ts.length + 2 ≤ fuel → endsSort .term rest →
      kmParseTerm fuel (ts ++ rest) = some (e, rest)
  | .factor, ts, e => ∀ fuel rest, 3 * ts.length + 1 ≤ fuel → endsSort .factor rest →
      kmParseFactor fuel (ts ++ rest) = some (e, rest)
  | .atom, ts, e => ∀ fuel rest, 3 * ts.length + 1 ≤ fuel →
      kmParseFactor fuel (ts ++ rest) = some (kmPrimes e rest)

theorem exists_fuel_pred {k fuel : Nat} (h : k + 1 ≤ fuel) : ∃ f, fuel = f + 1 ∧ k ≤ f :=
  ⟨fuel - 1, by omega, by omega⟩

theorem isRead_exprOne {ts : List KmTok} {a : KmExpr} (ha : IsRead .term ts a) : IsRead .expr ts a := by
  intro fuel rest hfuel hrest
  obtain ⟨hprime, hdot, hstart, hplus⟩ := hrest
  obtain ⟨fuel, rfl, hfuel⟩ := exists_fuel_pred hfuel
  exact (kmParseExpr_eq_some_iff _ _ _ _).2 (.inl ⟨ha fuel rest (by omega) ⟨hprime, hdot, hstart⟩, hplus⟩)

theorem isRead_exprOr {ts us : List KmTok} {a b : KmExpr} (ha : IsRead .term ts a) (hb : IsRead .expr us b) :
    IsRead .expr (ts ++ .plus :: us) (.or a b) := by
  intro fuel rest hfuel hrest
  rw [List.length_append, List.length_cons] at hfuel
  obtain ⟨fuel, rfl, hfuel⟩ := exists_fuel_pred hfuel
  refine (kmParseExpr_eq_some_iff _ _ _ _).2 (.inr ⟨a, us ++ rest, b, ?_, hb fuel rest (by omega) hrest, rfl⟩)
  rw [List.append_assoc]
  exact ha fuel _ (by omega) (by simp [endsSort, startsFactor])

theorem isRead_termOne {ts : List KmTok} {a : KmExpr} (ha : IsRead .factor ts a) : IsRead .term ts a := by
  intro fuel rest hfuel hrest
  obtain ⟨hprime, hdot, hstart⟩ := hrest
  obtain ⟨fuel, rfl, hfuel⟩ := exists_fuel_pred hfuel
  exact (kmParseTerm_eq_some_iff _ _ _ _).2 (.inl ⟨ha fuel rest (by omega) hprime, hdot, hstart⟩)

theorem isRead_termDot {ts us : List KmTok} {a b : KmExpr} (ha : IsRead .factor ts a) (hb : IsRead .term us b) :
    IsRead .term (ts ++ .dot :: us) (.and a b) := by
  intro fuel rest hfuel hrest
  rw [List.length_append, List.length_cons] at hfuel
  obtain ⟨fuel, rfl, hfuel⟩ := exists_fuel_pred hfuel
  refine (kmParseTerm_eq_some_iff _ _ _ _).2 (.inr ⟨a, us ++ rest, b, .inl ?_, hb fuel rest (by omega) hrest, rfl⟩)
  rw [List.append_assoc]
  exact ha fuel _ (by omega) (by simp [endsSort])

/-- The second term starts as a factor does, so the first factor ends before it. -/
theorem isRead_termAdjacent {ts us : List KmTok} {a b : KmExpr} (hts : startsFactor ts = true)
    (hus : startsFactor us = true) (ha : IsRead .factor ts a) (hb : IsRead .term us b) :
    IsRead .term (ts ++ us) (.and a b) := by
  intro fuel rest hfuel hrest
  have hpos : 0 < ts.length := List.length_pos_iff.2 (by rintro rfl; simp [startsFactor] at hts)
  rw [List.length_append] at hfuel
  obtain ⟨fuel, rfl, hfuel⟩ := exists_fuel_pred hfuel
  have hstart := startsFactor_append hus rest
  rw [List.append_assoc]
  exact (kmParseTerm_eq_some_iff _ _ _ _).2 (.inr ⟨a, us ++ rest, b,
    .inr ⟨ha fuel _ (by omega) (endsSort_factor_of_startsFactor hstart), hstart⟩, hb fuel rest (by omega) hrest, rfl⟩)

theorem isRead_factorBang {ts : List KmTok} {a : KmExpr} (ha : IsRead .factor ts a) :
    IsRead .factor (.bang :: ts) (.not a) := by
  intro fuel rest hfuel hrest
  rw [List.length_cons] at hfuel
  obtain ⟨fuel, rfl, hfuel⟩ := exists_fuel_pred hfuel
  exact (kmParseFactor_eq_some_iff _ _ _ _).2 (.inl ⟨_, a, rfl, ha fuel rest (by omega) hrest, rfl⟩)

theorem isRead_factorAtom {ts : List KmTok} {a : KmExpr} (k : Nat) (ha : IsRead .atom ts a) :
    IsRead .factor (ts ++ List.replicate k .prime) (primesOf k a) := by
  intro fuel rest hfuel hrest
  rw [List.length_append] at hfuel
  rw [List.append_assoc, ha fuel _ (by omega), kmPrimes_replicate a k hrest]

theorem isRead_atomVar (v : Nat) : IsRead .atom [.var v] (.var v) := by
  intro fuel rest hfuel
  obtain ⟨fuel, rfl, hfuel⟩ := exists_fuel_pred hfuel
  exact (kmParseFactor_eq_some_iff _ _ _ _).2 (.inr (.inl ⟨v, rest, rfl, rfl⟩))

theorem isRead_atomGroup {ts : List KmTok} {a : KmExpr} (ha : IsRead .expr ts a) :
    IsRead .atom (.lpar :: ts ++ [.rpar]) a := by
  intro fuel rest hfuel
  rw [List.length_append, List.length_cons] at hfuel
  obtain ⟨fuel, rfl, hfuel⟩ := exists_fuel_pred hfuel
  have hinner : kmParseExpr fuel (ts ++ .rpar :: rest) = some (a, .rpar :: rest) :=
    ha fuel _ (by omega) (by simp [endsSort, startsFactor])
  exact (kmParseFactor_eq_some_iff _ _ _ _).2 (.inr (.inr ⟨_, a, rest, by simp, hinner, rfl⟩))

/-- Every derivation is read. -/
theorem isRead_of_derives {sort : KmSort} {ts : List KmTok} {e : KmExpr} (h : KmDerives sort ts e) :
    IsRead sort ts e := by
  induction h with
  | exprOne _ ih => exact isRead_exprOne ih
  | exprOr _ _ iha ihb => exact isRead_exprOr iha ihb
  | termOne _ ih => exact isRead_termOne ih
  | termDot _ _ iha ihb => exact isRead_termDot iha ihb
  | termAdjacent ha hb iha ihb =>
    exact isRead_termAdjacent (startsFactor_of_derives ha) (startsFactor_of_derives hb) iha ihb
  | factorBang _ ih => exact isRead_factorBang ih
  | factorAtom k _ ih => exact isRead_factorAtom k ih
  | atomVar => exact isRead_atomVar _
  | atomGroup _ ih => exact isRead_atomGroup ih

theorem kmParse_eq_some_iff (ts : List KmTok) (e : KmExpr) :
    kmParse ts = some e ↔ kmParseExpr (3 * ts.length + 3) ts = some (e, []) := by
  rw [kmParse]
  rcases kmParseExpr (3 * ts.length + 3) ts with _ | ⟨a, _ | ⟨tok, rest⟩⟩ <;> simp

/-- Settles O54: what the reader reads off the whole string derives (`readers_readOnly`), and what derives is read
(`isRead_of_derives`). -/
theorem kmParserIsGrammar : Obligations.KmParserIsGrammar := by
  unfold Obligations.KmParserIsGrammar
  intro ts e
  rw [kmParse_eq_some_iff]
  constructor
  · intro h
    obtain ⟨pre, hts, hpre⟩ := (readers_readOnly _).1 _ _ _ h
    rwa [hts, List.append_nil]
  · intro h
    simpa using isRead_of_derives h _ [] (Nat.le_refl _) (by simp [endsSort, startsFactor])

end Sys2Proof.Machine
end

section
/-! PROOFS, the family 46_kmap. KM.EVAL as a command (46_kmap.md R224): its symbols, the variables of an expression, and
the truth table. -/

namespace Sys2Proof.Machine

/-- What KM.EVAL computes from text within its alphabet (46_kmap.md R224). -/
def kmEvalRest (n : Nat) (t : Text) : Except Err Results := do
  let e ← kmParsed (kmTokens t)
  require (e.varsBelow n) .range
  return { kmTt := kmTruthTable n e, aux0 := BitVec.ofNat 32 (popcount (kmTruthTable n e)) }

theorem kmEval_eq (n : Nat) (content : Text) :
    kmEval n content = checkedText (fun c => (kmTok? c).isSome) (kmEvalRest n) (clean content) := rfl

theorem kmTok?_eq_none_iff (c : Byte) : kmTok? c = none ↔ ∀ k, ¬IsKmSymbol c k := by
  simp only [Option.eq_none_iff_forall_ne_some, ne_eq, kmTok?_eq_some_iff]

/-- A text is read as the symbols that its characters stand for (46_kmap.md R222). -/
theorem kmTokens_of_symbols {t : Text} {ts : List KmTok} (h : List.Forall₂ IsKmSymbol t ts) :
    kmTokens t = ts ∧ ∀ c ∈ t, (kmTok? c).isSome = true := by
  induction h with
  | nil => exact ⟨rfl, by simp⟩
  | @cons c k t ts hc _ ih =>
    obtain ⟨htokens, hall⟩ := ih
    have htok := (kmTok?_eq_some_iff c k).2 hc
    exact ⟨by rw [kmTokens, List.filterMap_cons_some htok, ← kmTokens, htokens],
      List.forall_mem_cons.2 ⟨by rw [htok]; rfl, hall⟩⟩

@[simp] theorem varsBelow_primesOf (n k : Nat) (e : KmExpr) : (primesOf k e).varsBelow n = e.varsBelow n := by
  induction k generalizing e with
  | zero => rfl
  | succ k ih => exact ih (.not e)

/-- The variables of an expression are those of the symbols that it derives from. -/
theorem varsBelow_iff_of_derives {sort : KmSort} {ts : List KmTok} {e : KmExpr} (h : KmDerives sort ts e) (n : Nat) :
    e.varsBelow n = true ↔ ∀ v, KmTok.var v ∈ ts → v < n := by
  induction h with
  | exprOne _ ih | termOne _ ih => exact ih
  | exprOr _ _ iha ihb | termDot _ _ iha ihb | termAdjacent _ _ iha ihb =>
    simp [KmExpr.varsBelow, iha, ihb, or_imp, forall_and]
  | factorBang _ ih => simp [KmExpr.varsBelow, ih]
  | factorAtom _ _ ih => simp [ih, List.mem_replicate]
  | atomVar => simp [KmExpr.varsBelow]
  | atomGroup _ ih => simp [ih]

theorem getLsbD_kmTruthTable {n : Nat} (hn : n ≤ 5) (e : KmExpr) (t : Nat) :
    (kmTruthTable n e).getLsbD t = true ↔ t < 2 ^ n ∧ e.eval n t = true := by
  have hsize : 2 ^ n ≤ 32 := Nat.pow_le_pow_right (n := 2) (by decide) hn
  rw [kmTruthTable, ← mem, mem_mintermMap, List.mem_filter, List.mem_range]
  exact ⟨fun h => h.2, fun h => ⟨h.1.trans_le hsize, h⟩⟩

/-- Counting below `N` counts all when nothing is found past `M`. -/
theorem filter_range_length_eq {M N : Nat} (h : M ≤ N) (p : Nat → Bool) (hp : ∀ t, p t = true → t < M) :
    ((List.range N).filter p).length = ((List.range M).filter p).length := by
  obtain ⟨k, rfl⟩ := Nat.exists_eq_add_of_le h
  have hpast : ((List.range k).map (fun x => M + x)).filter p = [] := by
    simp only [List.filter_eq_nil_iff, List.forall_mem_map]
    exact fun x _ hx => absurd (hp _ hx) (by omega)
  rw [List.range_add, List.filter_append, hpast, List.append_nil]

/-- The number of 1 bits of the truth table (46_kmap.md R224). -/
theorem popcount_kmTruthTable {n : Nat} (hn : n ≤ 5) (e : KmExpr) :
    popcount (kmTruthTable n e) = ((List.range (2 ^ n)).filter (fun t => e.eval n t)).length := by
  rw [popcount, filter_range_length_eq (Nat.pow_le_pow_right (n := 2) (by decide) hn) _
    fun t ht => ((getLsbD_kmTruthTable hn e t).1 ht).1]
  congr 1
  refine List.filter_congr fun t ht => ?_
  rw [Bool.eq_iff_iff, getLsbD_kmTruthTable hn]
  exact ⟨fun h => h.2, fun h => ⟨List.mem_range.1 ht, h⟩⟩

theorem kmValue_eq_one_iff (n t : Nat) (e : KmExpr) : kmValue n t e = 1 ↔ e.eval n t = true := by
  rw [kmValue_eq_eval]
  cases e.eval n t <;> simp

/-- A legal NVARS (30_encoding.md R71). -/
theorem legalNvars_iff (n : BitVec 8) : legalNvars n = true ↔ 1 ≤ n.toNat ∧ n.toNat ≤ 5 := by
  simp [legalNvars]

/-- The results of KM.EVAL (46_kmap.md R224). -/
def kmEvalResults (n : Nat) (e : KmExpr) : Results :=
  { kmTt := kmTruthTable n e, aux0 := BitVec.ofNat 32 (popcount (kmTruthTable n e)) }

section Symbols

variable {s : State} {n : BitVec 8} {ts : List KmTok}

/-- What KM.EVAL answers to a text within its alphabet. -/
theorem opResult_kmEval_of_symbols (hne : ts ≠ []) (hts : List.Forall₂ IsKmSymbol (clean s.opa.content) ts) :
    opResult (.kmEval n) s = (kmParsed ts >>= fun e => require (e.varsBelow n.toNat) .range >>= fun _ =>
      .ok (kmEvalResults n.toNat e)) := by
  obtain ⟨htokens, hall⟩ := kmTokens_of_symbols hts
  have htext : clean s.opa.content ≠ [] := fun h => hne (by rw [← htokens, h]; rfl)
  rw [opResult, kmEval_eq, checkedText_of_alphabet _ _ _ htext hall, kmEvalRest, htokens]
  rfl

/-- E_FORMAT for a string of symbols that does not derive from `expr`. -/
theorem opResult_kmEval_of_not_derives (hne : ts ≠ []) (hts : List.Forall₂ IsKmSymbol (clean s.opa.content) ts)
    (hnot : ¬∃ e, KmDerives .expr ts e) : opResult (.kmEval n) s = .error .format := by
  have hparse : kmParse ts = none :=
    Option.eq_none_iff_forall_ne_some.2 fun e he => hnot ⟨e, (kmParserIsGrammar ts e).1 he⟩
  rw [opResult_kmEval_of_symbols hne hts, kmParsed, hparse]
  rfl

/-- The outcome for an expression: E_RANGE, or the truth table. -/
theorem opResult_kmEval_of_derives (hne : ts ≠ []) (hts : List.Forall₂ IsKmSymbol (clean s.opa.content) ts)
    {e : KmExpr} (he : KmDerives .expr ts e) : opResult (.kmEval n) s =
      if e.varsBelow n.toNat = true then .ok (kmEvalResults n.toNat e) else .error .range := by
  rw [opResult_kmEval_of_symbols hne hts, kmParsed, (kmParserIsGrammar ts e).2 he]
  exact require_bind _ _ _

end Symbols

/-- Settles O55: the checks in their order (`checkedText`, then `kmParserIsGrammar` and `varsBelow_iff_of_derives`), and
the truth table bit by bit. -/
theorem kmEvalRule : Obligations.KmEvalRule := by
  unfold Obligations.KmEvalRule
  refine fun s n hs hn => ⟨commandWord_toNat n 0x0E#8, fun hempty => ?_, ?_, fun ts hne hts =>
    ⟨fun hnot => failsWith_of_error _ _ _ (opResult_kmEval_of_not_derives hne hts hnot), fun e he => ?_⟩⟩
  · refine failsWith_of_error _ _ _ ?_
    rw [opResult, kmEval_eq, hempty, checkedText_nil]
  · rintro ⟨c, hc, hbad⟩
    refine failsWith_of_error _ _ _ ?_
    rw [opResult, kmEval_eq]
    exact checkedText_of_char _ _ _ c hc (by rw [(kmTok?_eq_none_iff c).2 hbad]; rfl)
  · obtain ⟨-, hmax⟩ := (legalNvars_iff n).1 hn
    have hvars := varsBelow_iff_of_derives he n.toNat
    have hrule := opResult_kmEval_of_derives (n := n) hne hts he
    refine ⟨?_, fun hsmall => ⟨kmTruthTable n.toNat e, fun t => ?_, ?_⟩⟩
    · rintro ⟨v, hv, hnv⟩
      rw [if_neg fun hbelow => absurd (hvars.1 hbelow v hv) (by omega)] at hrule
      exact failsWith_of_error _ _ _ hrule
    · rw [getLsbD_kmTruthTable hmax, kmValue_eq_one_iff]
    · rw [if_pos (hvars.2 hsmall)] at hrule
      simp only [kmValue_eq_one_iff, Bool.decide_eq_true, ← popcount_kmTruthTable hmax]
      exact completes_of_ok _ s _ hs hrule (by simp [Results.overCapacity]) rfl

end Sys2Proof.Machine
end

section
/-! PROOFS, the family 46_kmap. The enumeration of rectangles (46_kmap.md R228, R231): every rectangle of the grid, in
order, and the order of the cell sets after dropping those seen before. -/

namespace Sys2Proof.Machine

/-- The rectangles of a size, by `i0` and then by `j0` (46_kmap.md R231). -/
def sizeRects (layout size : Nat × Nat) : List Rect :=
  (List.range (2 ^ layout.1)).flatMap fun i0 => (List.range (2 ^ layout.2)).map fun j0 => ⟨size.1, size.2, i0, j0⟩

/-- Every rectangle of the grid, in the order of 46_kmap.md R231. -/
def allRects (layout : Nat × Nat) : List Rect := (kmSizes layout).flatMap (sizeRects layout)

/-- The cell set of a rectangle (46_kmap.md R228). -/
def rectCells (layout : Nat × Nat) (r : Rect) : Word := kmRect layout r.hb r.wb r.i0 r.j0

theorem kmRects_eq_map (layout : Nat × Nat) : kmRects layout = (allRects layout).map (rectCells layout) := by
  simp only [kmRects, allRects, sizeRects, List.map_flatMap, List.map_map]
  rfl

theorem mem_kmSizes_iff (layout size : Nat × Nat) : size ∈ kmSizes layout ↔ size.1 ≤ layout.1 ∧ size.2 ≤ layout.2 := by
  obtain ⟨hb, wb⟩ := size
  simp only [kmSizes, List.mem_flatMap, List.mem_reverse, List.mem_range, List.mem_filterMap,
    Option.ite_none_right_eq_some, Option.some.injEq, Prod.mk.injEq]
  constructor
  · rintro ⟨area, -, h, hh, ⟨-, hw⟩, rfl, rfl⟩
    exact ⟨Nat.le_of_lt_succ hh, hw⟩
  · rintro ⟨hh, hw⟩
    exact ⟨hb + wb, by omega, hb, by omega, ⟨by omega, by omega⟩, rfl, by omega⟩

theorem mem_allRects_iff (layout : Nat × Nat) (r : Rect) : r ∈ allRects layout ↔
    r.hb ≤ layout.1 ∧ r.wb ≤ layout.2 ∧ r.i0 < 2 ^ layout.1 ∧ r.j0 < 2 ^ layout.2 := by
  obtain ⟨hb, wb, i0, j0⟩ := r
  simp only [allRects, sizeRects, List.mem_flatMap, List.mem_map, List.mem_range, mem_kmSizes_iff, Rect.mk.injEq]
  constructor
  · rintro ⟨⟨h, w⟩, ⟨hh, hw⟩, i, hi, j, hj, rfl, rfl, rfl, rfl⟩
    exact ⟨hh, hw, hi, hj⟩
  · rintro ⟨hh, hw, hi, hj⟩
    exact ⟨(hb, wb), ⟨hh, hw⟩, i0, hi, j0, hj, rfl, rfl, rfl, rfl⟩

/-- A cell set of 46_kmap.md R228 is that of an enumerated rectangle. -/
theorem rectIs_iff_mem_allRects {layout : Nat × Nat} (hl : layout.1 + layout.2 ≤ 5) (r : Rect) (Q : Word) :
    RectIs layout r Q ↔ r ∈ allRects layout ∧ rectCells layout r = Q := by
  rw [rectIs_iff _ _ _ hl, mem_allRects_iff, rectCells, eq_comm]
  tauto

theorem pairwise_range_reverse (n : Nat) : (List.range n).reverse.Pairwise (· > ·) :=
  List.pairwise_reverse.2 List.pairwise_lt_range

/-- The sizes come by area descending, then by height descending (46_kmap.md R231). -/
theorem pairwise_kmSizes (layout : Nat × Nat) : (kmSizes layout).Pairwise fun p q =>
    q.1 + q.2 < p.1 + p.2 ∨ q.1 + q.2 = p.1 + p.2 ∧ q.1 < p.1 := by
  refine List.pairwise_flatMap.2 ⟨fun area _ => List.pairwise_filterMap.2 ?_, ?_⟩
  · refine (pairwise_range_reverse _).imp fun {h h'} hlt p hp q hq => ?_
    simp only [Option.ite_none_right_eq_some, Option.some.injEq] at hp hq
    obtain ⟨hp, rfl⟩ := hp
    obtain ⟨hq, rfl⟩ := hq
    exact .inr ⟨by omega, hlt⟩
  · refine (pairwise_range_reverse _).imp fun {a a'} hlt p hp q hq => ?_
    simp only [List.mem_filterMap, Option.ite_none_right_eq_some, Option.some.injEq] at hp hq
    obtain ⟨h, -, hh, rfl⟩ := hp
    obtain ⟨h', -, hh', rfl⟩ := hq
    exact .inl (by omega)

theorem pairwise_sizeRects (layout size : Nat × Nat) : (sizeRects layout size).Pairwise Rect.before := by
  refine List.pairwise_flatMap.2 ⟨fun i0 _ => List.pairwise_map.2 ?_, ?_⟩
  · exact List.pairwise_lt_range.imp fun hlt => .inr ⟨rfl, .inr ⟨rfl, .inr ⟨rfl, hlt⟩⟩⟩
  · refine List.pairwise_lt_range.imp fun {i i'} hlt r hr r' hr' => ?_
    obtain ⟨j, -, rfl⟩ := List.mem_map.1 hr
    obtain ⟨j', -, rfl⟩ := List.mem_map.1 hr'
    exact .inr ⟨rfl, .inr ⟨rfl, .inl hlt⟩⟩

/-- The rectangles come in the order of 46_kmap.md R231. -/
theorem pairwise_allRects (layout : Nat × Nat) : (allRects layout).Pairwise Rect.before := by
  refine List.pairwise_flatMap.2 ⟨fun size _ => pairwise_sizeRects layout size, ?_⟩
  refine (pairwise_kmSizes layout).imp fun {p q} hpq r hr r' hr' => ?_
  simp only [sizeRects, List.mem_flatMap, List.mem_map] at hr hr'
  obtain ⟨i, -, j, -, rfl⟩ := hr
  obtain ⟨i', -, j', -, rfl⟩ := hr'
  simp only [Rect.before]
  omega

theorem Rect.before_asymm {r r' : Rect} (h : r.before r') : ¬r'.before r := by
  simp only [Rect.before] at h ⊢
  omega

/-- The cell sets of the rectangles `rs`, each at its first occurrence (46_kmap.md R229 "deduplicate"). -/
def firstCells (layout : Nat × Nat) (rs : List Rect) : List Word := (rs.map (rectCells layout)).foldl appendNew []

section FirstCells

variable (layout : Nat × Nat) (rs : List Rect)

theorem firstCells_concat (r : Rect) : firstCells layout (rs ++ [r]) =
    if rectCells layout r ∈ firstCells layout rs then firstCells layout rs
    else firstCells layout rs ++ [rectCells layout r] := by
  by_cases h : rectCells layout r ∈ firstCells layout rs <;> simp [firstCells, appendNew] at h ⊢ <;> simp [h]

theorem mem_firstCells_iff (Q : Word) : Q ∈ firstCells layout rs ↔ ∃ r ∈ rs, rectCells layout r = Q := by
  induction rs using List.reverseRecOn with
  | nil => simp [firstCells]
  | append_singleton rs r ih =>
    rw [firstCells_concat]
    split <;> grind

theorem nodup_firstCells : (firstCells layout rs).Nodup := by
  induction rs using List.reverseRecOn with
  | nil => exact List.nodup_nil
  | append_singleton rs r ih =>
    rw [firstCells_concat]
    split
    · exact ih
    · exact List.nodup_append.2 ⟨ih, List.nodup_singleton _, by grind⟩

end FirstCells

/-- Of two cell sets kept, some rectangle of the first comes before every rectangle of the second. -/
theorem pairwise_firstCells {layout : Nat × Nat} {rs : List Rect} (hrs : rs.Pairwise Rect.before) :
    (firstCells layout rs).Pairwise fun Q Q' =>
      ∃ r ∈ rs, rectCells layout r = Q ∧ ∀ r' ∈ rs, rectCells layout r' = Q' → r.before r' := by
  induction rs using List.reverseRecOn with
  | nil => exact List.Pairwise.nil
  | append_singleton rs x ih =>
    obtain ⟨hrs, -, hlast⟩ := List.pairwise_append.1 hrs
    have hkept : (firstCells layout rs).Pairwise fun Q Q' =>
        ∃ r ∈ rs ++ [x], rectCells layout r = Q ∧ ∀ r' ∈ rs ++ [x], rectCells layout r' = Q' → r.before r' := by
      refine (ih hrs).imp ?_
      rintro Q Q' ⟨r, hr, hQ, hall⟩
      exact ⟨r, by simp [hr], hQ, by grind⟩
    rw [firstCells_concat]
    split
    · exact hkept
    · rename_i hnew
      refine List.pairwise_append.2 ⟨hkept, List.pairwise_singleton _ _, fun Q hQ Q' hQ' => ?_⟩
      obtain ⟨r, hr, hQ⟩ := (mem_firstCells_iff layout rs Q).1 hQ
      rw [mem_firstCells_iff] at hnew
      exact ⟨r, by simp [hr], hQ, by grind⟩

end Sys2Proof.Machine
end

section
/-! PROOFS, the family 46_kmap. The prime list (46_kmap.md R229 to R231): the machine's is the one list of all prime
implicants in enumeration order, and every required minterm lies in one of them. -/

namespace Sys2Proof.Machine

/-- The layout of a legal NVARS has as many bits (46_kmap.md R226). -/
theorem kmLayoutOf_sum {c : Config} (hc : c.wf = true) {n : Nat} (hn : 1 ≤ n ∧ n ≤ 5) :
    (kmLayoutOf c n).1 + (kmLayoutOf c n).2 = n := by
  have hsums : c.kmLayout.map (fun p => p.1 + p.2) = [1, 2, 3, 4, 5] := by
    simp only [Config.wf, Bool.and_eq_true, decide_eq_true_eq] at hc
    tauto
  have hget : (kmLayoutOf c n).1 + (kmLayoutOf c n).2 = [1, 2, 3, 4, 5].getD (n - 1) (0 + n) := by
    rw [← hsums]
    exact (List.getD_map c.kmLayout (0, n) fun p => p.1 + p.2).symm
  obtain ⟨hpos, hmax⟩ := hn
  rw [hget]
  interval_cases n <;> rfl

section Implicants

variable {layout : Nat × Nat} (hl : layout.1 + layout.2 ≤ 5) (on dc : Word)

theorem kmImplicants_eq_firstCells : kmImplicants layout on dc =
    firstCells layout ((allRects layout).filter fun r => kmValid on dc (rectCells layout r)) := by
  rw [kmImplicants, kmRects_eq_map, List.filter_map]
  rfl

include hl

theorem mem_kmImplicants_iff (Q : Word) : Q ∈ kmImplicants layout on dc ↔ isImplicant layout on dc Q := by
  simp only [kmImplicants_eq_firstCells, mem_firstCells_iff, List.mem_filter, isImplicant, ← kmValid_iff,
    rectIs_iff_mem_allRects hl]
  constructor
  · rintro ⟨r, ⟨hr, hvalid⟩, rfl⟩
    exact ⟨⟨r, hr, rfl⟩, hvalid⟩
  · rintro ⟨⟨r, hr, rfl⟩, hvalid⟩
    exact ⟨r, ⟨hr, hvalid⟩, rfl⟩

/-- The implicants keep the order of the enumeration: every rectangle of a valid cell set is enumerated. -/
theorem pairwise_kmImplicants : (kmImplicants layout on dc).Pairwise (metBefore layout) := by
  have hvalid (Q : Word) (hQ : Q ∈ kmImplicants layout on dc) : kmValid on dc Q = true :=
    (kmValid_iff on dc Q).2 ((mem_kmImplicants_iff hl on dc Q).1 hQ).2
  have horder := pairwise_firstCells (layout := layout)
    ((pairwise_allRects layout).filter fun r => kmValid on dc (rectCells layout r))
  rw [← kmImplicants_eq_firstCells] at horder
  refine horder.imp_of_mem ?_
  rintro Q Q' - hQ' ⟨r, hr, hQ, hbefore⟩
  refine ⟨r, (rectIs_iff_mem_allRects hl r Q).2 ⟨(List.mem_filter.1 hr).1, hQ⟩, fun r' hr' => ?_⟩
  obtain ⟨hmem, hcells⟩ := (rectIs_iff_mem_allRects hl r' Q').1 hr'
  exact hbefore r' (List.mem_filter.2 ⟨hmem, by rw [hcells]; exact hvalid Q' hQ'⟩) hcells

theorem mem_kmPrimeList_iff (Q : Word) : Q ∈ kmPrimeList layout on dc ↔ isPrimeImplicant layout on dc Q := by
  simp only [kmPrimeList, List.mem_filter, Bool.not_eq_true', List.any_eq_false, Bool.and_eq_true, subsetMap_iff,
    bne_iff_ne, mem_kmImplicants_iff hl, isPrimeImplicant]
  refine and_congr_right fun _ => forall₂_congr fun Q' _ => ?_
  rw [not_and, not_not]
  exact imp_congr_right fun _ => eq_comm

/-- The machine's list is a prime list of 46_kmap.md R230. -/
theorem kmPrimeList_isPrimeList : IsPrimeList layout on dc (kmPrimeList layout on dc) where
  nodup := by
    rw [kmPrimeList, kmImplicants_eq_firstCells]
    exact (nodup_firstCells _ _).filter _
  primes := mem_kmPrimeList_iff hl on dc
  order := (pairwise_kmImplicants hl on dc).filter _

end Implicants

/-- Of two cell sets not both is met before the other. -/
theorem metBefore_asymm {layout : Nat × Nat} {Q Q' : Word} (h : metBefore layout Q Q') : ¬metBefore layout Q' Q := by
  rintro ⟨r', hr', hbefore'⟩
  obtain ⟨r, hr, hbefore⟩ := h
  exact Rect.before_asymm (hbefore r' hr') (hbefore' r hr)

/-- There is one prime list. -/
theorem IsPrimeList.unique {layout : Nat × Nat} {on dc : Word} {P P' : List Word} (h : IsPrimeList layout on dc P)
    (h' : IsPrimeList layout on dc P') : P = P' := by
  refine List.Perm.eq_of_pairwise (fun Q Q' _ _ hlt hlt' => absurd hlt' (metBefore_asymm hlt)) h.order h'.order ?_
  exact (List.perm_ext_iff_of_nodup h.nodup h'.nodup).2 fun Q => (h.primes Q).trans (h'.primes Q).symm

/-- Encoding inverts decoding, from any bit before the first (45_gray.md R213). -/
theorem grayAfter_bitsOfGray (prev : Bool) (G : Bits) : grayAfter prev (bitsOfGray prev G) = G := by
  induction G generalizing prev with
  | nil => rfl
  | cons g G ih =>
    have hg : (g ^^ prev ^^ prev) = g := by simp
    rw [bitsOfGray, grayAfter_cons, ih, hg]

/-- Every code of `k` bits is that of a position of `k` bits (46_kmap.md R227). -/
theorem exists_gray_eq {k x : Nat} (hx : x < 2 ^ k) : ∃ i, i < 2 ^ k ∧ i ^^^ i >>> 1 = x := by
  refine ⟨bitsVal (bitsOfGray false (binBits k x)), ?_, ?_⟩
  · simpa using bitsVal_lt (bitsOfGray false (binBits k x))
  · rw [← bitsVal_grayOfBits, grayOfBits_eq_grayAfter, grayAfter_bitsOfGray, bitsVal_binBits, Nat.mod_eq_of_lt hx]

/-- Every minterm of the grid is the cell of a 1 × 1 rectangle (46_kmap.md R230). -/
theorem exists_single_rect (layout : Nat × Nat) {t : Nat} (ht : t < 2 ^ (layout.1 + layout.2)) :
    ∃ r, r ∈ allRects layout ∧ r.hb = 0 ∧ r.wb = 0 ∧ gridCell layout.2 r.i0 r.j0 = t := by
  obtain ⟨i, hi, hrow⟩ := exists_gray_eq (k := layout.1) (x := t / 2 ^ layout.2)
    (Nat.div_lt_of_lt_mul (by rwa [← Nat.pow_add, Nat.add_comm]))
  obtain ⟨j, hj, hcol⟩ := exists_gray_eq (Nat.mod_lt t (Nat.two_pow_pos layout.2))
  refine ⟨⟨0, 0, i, j⟩, (mem_allRects_iff _ _).2 ⟨Nat.zero_le _, Nat.zero_le _, hi, hj⟩, rfl, rfl, ?_⟩
  rw [gridCell, hrow, hcol, Nat.mul_comm, Nat.div_add_mod]

/-- A valid implicant is contained in a maximal one (46_kmap.md R230). -/
theorem exists_prime_of_implicant {layout : Nat × Nat} {on dc Q : Word} (hQ : isImplicant layout on dc Q) :
    ∃ Q', isPrimeImplicant layout on dc Q' ∧ ∀ t, mem Q t → mem Q' t := by
  have hfinite := Set.toFinite {Q' | isImplicant layout on dc Q' ∧ ∀ t, mem Q t → mem Q' t}
  obtain ⟨Q', ⟨hQ', hsub⟩, hmax⟩ :=
    hfinite.exists_maximalFor (fun Q' : Word => {t | mem Q' t}) _ ⟨Q, hQ, fun _ => id⟩
  refine ⟨Q', ⟨hQ', fun Q'' hQ'' hsub'' => ?_⟩, hsub⟩
  exact mem_ext _ _ fun t => ⟨fun ht => hmax ⟨hQ'', fun u hu => hsub'' u (hsub u hu)⟩ hsub'' ht, hsub'' t⟩

section Cover

variable {layout : Nat × Nat} (hl : layout.1 + layout.2 ≤ 5) {on dc : Word}

include hl

/-- The cell of a required minterm is a valid implicant. -/
theorem exists_implicant_of_mem {t : Nat} (ht : t < 2 ^ (layout.1 + layout.2)) (hon : mem on t) :
    ∃ Q, isImplicant layout on dc Q ∧ mem Q t := by
  obtain ⟨r, hr, hh, hw, hcell⟩ := exists_single_rect layout ht
  obtain ⟨-, -, hi, hj⟩ := (mem_allRects_iff _ _).1 hr
  have hcells (u : Nat) : mem (rectCells layout r) u ↔ u = t := by
    rw [rectCells, mem_kmRect _ _ _ _ _ _ hl, hh, hw]
    simp [Nat.mod_eq_of_lt hi, Nat.mod_eq_of_lt hj, hcell]
  refine ⟨rectCells layout r, ⟨⟨r, (rectIs_iff_mem_allRects hl r _).2 ⟨hr, rfl⟩⟩, ?_⟩, (hcells t).2 rfl⟩
  simp only [hcells]
  exact ⟨fun u hu => .inl (hu ▸ hon), t, rfl, hon⟩

/-- Every required minterm lies in a prime implicant. -/
theorem IsPrimeList.covers {P : List Word} (hP : IsPrimeList layout on dc P) {t : Nat}
    (ht : t < 2 ^ (layout.1 + layout.2)) (hon : mem on t) : ∃ Q ∈ P, mem Q t := by
  obtain ⟨Q, hQ, hmem⟩ := exists_implicant_of_mem hl (dc := dc) ht hon
  obtain ⟨Q', hprime, hsub⟩ := exists_prime_of_implicant hQ
  exact ⟨Q', (hP.primes Q').2 hprime, hsub t hmem⟩

end Cover

end Sys2Proof.Machine
end

section
/-! PROOFS, the family 46_kmap. KM.PI as a command (46_kmap.md R230): the checks of its operands and the delivery of the
prime list. -/

namespace Sys2Proof.Machine

/-- No bit is set at an index of `k` or above (46_kmap.md R230). -/
theorem shiftRight_eq_zero_iff (A : Word) (k : Nat) : A >>> k = 0#32 ↔ ∀ t, mem A t → t < k := by
  rw [← not_iff_not, ← ne_eq, ne_zero_iff]
  simp only [mem, BitVec.getLsbD_ushiftRight, not_forall, Nat.not_lt]
  exact ⟨fun ⟨t, ht⟩ => ⟨k + t, ht, Nat.le_add_right _ _⟩, fun ⟨t, ht, hk⟩ => ⟨t - k, by rwa [Nat.add_sub_cancel' hk]⟩⟩

/-- No minterm is in both sets (46_kmap.md R230). -/
theorem and_eq_zero_iff (A B : Word) : A &&& B = 0#32 ↔ ∀ t, ¬(mem A t ∧ mem B t) := by
  rw [← not_iff_not, ← ne_eq, ne_zero_iff]
  simp [mem]

theorem kmOperandsLegal_iff (n : Nat) (on dc : Word) : kmOperandsLegal n on dc ↔
    (on >>> (2 ^ n) == 0#32 && dc >>> (2 ^ n) == 0#32) = true ∧ (on &&& dc == 0#32) = true := by
  simp only [kmOperandsLegal, Bool.and_eq_true, beq_iff_eq, shiftRight_eq_zero_iff, and_eq_zero_iff, forall_and, or_imp]

/-- The checks of KM.PI and KM.COVER, and the prime list when they pass. -/
theorem kmPrimes?_of_legal {c : Config} {n : Nat} {on dc : Word} (h : kmOperandsLegal n on dc) :
    kmPrimes? c n on dc = .ok (kmPrimeList (kmLayoutOf c n) on dc) := by
  obtain ⟨hrange, hdisjoint⟩ := (kmOperandsLegal_iff n on dc).1 h
  rw [kmPrimes?, hrange, hdisjoint]
  rfl

theorem kmPrimes?_of_not_legal {c : Config} {n : Nat} {on dc : Word} (h : ¬kmOperandsLegal n on dc) :
    kmPrimes? c n on dc = .error .range := by
  rw [kmOperandsLegal_iff, not_and_or, Bool.not_eq_true, Bool.not_eq_true] at h
  rw [kmPrimes?, require_bind, require_bind]
  rcases h with hrange | hdisjoint
  · rw [hrange]
    rfl
  · rw [hdisjoint]
    split <;> rfl

/-- What the invariant and a legal NVARS give of the grid (00_scope.md R5, 46_kmap.md R226). -/
theorem kmLayout_of_legal {s : State} {n : BitVec 8} (hs : s.inv = true) (hn : legalNvars n = true) :
    (kmLayoutOf s.cfg n.toNat).1 + (kmLayoutOf s.cfg n.toNat).2 = n.toNat ∧ n.toNat ≤ 5 := by
  have hbounds := (legalNvars_iff n).1 hn
  exact ⟨kmLayoutOf_sum ((State.inv_iff s).1 hs).cfg hbounds, hbounds.2⟩

/-- Under the checks a prime list is the machine's, and every required minterm lies in it. -/
theorem primeList_of_legal {s : State} {n : BitVec 8} (hs : s.inv = true) (hn : legalNvars n = true)
    (hlegal : kmOperandsLegal n.toNat s.kmOn s.kmDc) :
    IsPrimeList (kmLayoutOf s.cfg n.toNat) s.kmOn s.kmDc (kmPrimeList (kmLayoutOf s.cfg n.toNat) s.kmOn s.kmDc) ∧
    ∀ P, IsPrimeList (kmLayoutOf s.cfg n.toNat) s.kmOn s.kmDc P →
      kmPrimes? s.cfg n.toNat s.kmOn s.kmDc = .ok P ∧ ∀ t, mem s.kmOn t → ∃ Q ∈ P, mem Q t := by
  obtain ⟨hsum, hmax⟩ := kmLayout_of_legal hs hn
  have hl := hsum.trans_le hmax
  have hlist := kmPrimeList_isPrimeList hl s.kmOn s.kmDc
  refine ⟨hlist, fun P hP => ⟨?_, fun t ht => ?_⟩⟩
  · rw [kmPrimes?_of_legal hlegal, hP.unique hlist]
  · exact hP.covers hl (hsum.symm ▸ (hlegal t).1 (.inl ht)) ht

/-- The results of KM.PI (46_kmap.md R230). -/
def kmPiResults (P : List Word) : Results :=
  { pi := P.map (fun Q => ⟨Q, 0#32⟩), aux0 := BitVec.ofNat 32 P.length }

theorem kmPiResults_overCapacity_iff (c : Config) (P : List Word) :
    (kmPiResults P).overCapacity c = true ↔ c.pimax < P.length := by
  simp [Results.overCapacity, kmPiResults]

/-- Settles O56: the machine's prime list is the one list that the rule describes (`IsPrimeList.unique`). -/
theorem kmPiRule : Obligations.KmPiRule := by
  unfold Obligations.KmPiRule
  refine fun s n hs hn => ⟨commandWord_toNat n 0x0F#8, fun hnot => ?_, fun hlegal => ?_⟩
  · refine failsWith_of_error _ _ _ ?_
    rw [opResult, kmPi, kmPrimes?_of_not_legal hnot]
    rfl
  · obtain ⟨hlist, hall⟩ := primeList_of_legal hs hn hlegal
    refine ⟨⟨_, hlist⟩, fun P hP => ?_⟩
    obtain ⟨hread, hcovers⟩ := hall P hP
    have hrule : opResult (.kmPi n) s = .ok (kmPiResults P) := by
      rw [opResult, kmPi, hread]
      rfl
    have hcapacity := kmPiResults_overCapacity_iff s.cfg P
    refine ⟨hcovers, fun hfit => ?_, fun hlong => failsWith_capacity _ s _ hrule (hcapacity.2 hlong)⟩
    exact completes_of_ok _ s _ hs hrule (Bool.eq_false_iff.2 fun h => absurd (hcapacity.1 h) (Nat.not_lt.2 hfit)) rfl

end Sys2Proof.Machine
end

section
/-! PROOFS, the family 46_kmap. The literals of an implicant, its product term and the SOP text (46_kmap.md R235,
R236). -/

namespace Sys2Proof.Machine

/-- The literals, by what the bit of the variable is across the set (46_kmap.md R235). -/
theorem kmLiteral_eq_ite (n v : Nat) (Q : Word) : kmLiteral n Q v =
    if ∀ t, t < 2 ^ n → mem Q t → t.testBit (n - 1 - v) = true then [kmVarChar v]
    else if ∀ t, t < 2 ^ n → mem Q t → t.testBit (n - 1 - v) = false then [kmVarChar v, chPrime] else [] := by
  have hall (p : Nat → Bool) : (((List.range (2 ^ n)).filter (fun t => Q.getLsbD t)).all p = true) ↔
      ∀ t, t < 2 ^ n → mem Q t → p t = true := by
    simp only [List.all_eq_true, List.mem_filter, List.mem_range, and_imp]
  simp only [kmLiteral, hall, kmVarAt, Bool.not_eq_true']

section Literal

variable {n v : Nat} {Q : Word}

theorem kmLiteral_of_one (h : ∀ t, t < 2 ^ n → mem Q t → t.testBit (n - 1 - v) = true) :
    kmLiteral n Q v = [kmVarChar v] := by
  rw [kmLiteral_eq_ite, if_pos h]

theorem kmLiteral_of_zero (hne : ∃ t, t < 2 ^ n ∧ mem Q t)
    (h : ∀ t, t < 2 ^ n → mem Q t → t.testBit (n - 1 - v) = false) : kmLiteral n Q v = [kmVarChar v, chPrime] := by
  obtain ⟨t, ht, hmem⟩ := hne
  rw [kmLiteral_eq_ite, if_neg fun hone => by simpa [h t ht hmem] using hone t ht hmem, if_pos h]

theorem kmLiteral_of_varies {t t' : Nat} (ht : t < 2 ^ n) (ht' : t' < 2 ^ n) (hmem : mem Q t) (hmem' : mem Q t')
    (h : t.testBit (n - 1 - v) ≠ t'.testBit (n - 1 - v)) : kmLiteral n Q v = [] := by
  rw [kmLiteral_eq_ite, if_neg fun hone => h ((hone t ht hmem).trans (hone t' ht' hmem').symm),
    if_neg fun hzero => h ((hzero t ht hmem).trans (hzero t' ht' hmem').symm)]

/-- A literal without a prime says that the variable is 1 across the set. -/
theorem one_of_kmLiteral (h : kmLiteral n Q v = [kmVarChar v]) {t : Nat} (ht : t < 2 ^ n) (hmem : mem Q t) :
    t.testBit (n - 1 - v) = true := by
  rw [kmLiteral_eq_ite] at h
  split_ifs at h with hone
  · exact hone t ht hmem
  all_goals simp at h

/-- A literal with a prime says that the variable is 0 across the set. -/
theorem zero_of_kmLiteral (h : kmLiteral n Q v = [kmVarChar v, chPrime]) {t : Nat} (ht : t < 2 ^ n) (hmem : mem Q t) :
    t.testBit (n - 1 - v) = false := by
  rw [kmLiteral_eq_ite] at h
  split_ifs at h with hone hzero
  · simp at h
  · exact hzero t ht hmem

end Literal

theorem kmTerm_of_no_literal {n : Nat} {Q : Word} (h : ∀ v, v < n → kmLiteral n Q v = []) : kmTerm n Q = [chOne] := by
  have hlits : (List.range n).flatMap (kmLiteral n Q) = [] :=
    List.flatMap_eq_nil_iff.2 fun v hv => h v (List.mem_range.1 hv)
  rw [kmTerm, hlits]
  rfl

theorem kmTerm_of_literal {n v : Nat} {Q : Word} (hv : v < n) (h : kmLiteral n Q v ≠ []) :
    kmTerm n Q = (List.range n).flatMap (kmLiteral n Q) := by
  have hlits : (List.range n).flatMap (kmLiteral n Q) ≠ [] := fun hnil =>
    h (List.flatMap_eq_nil_iff.1 hnil v (List.mem_range.2 hv))
  simp [kmTerm, hlits]

/-- Settles O59: the literals by `kmLiteral_eq_ite`, the term by whether it has a literal, and the text term by term. -/
theorem kmSopText : Obligations.KmSopText := by
  unfold Obligations.KmSopText
  refine ⟨fun n v Q _ hne => ⟨kmLiteral_of_one, kmLiteral_of_zero hne, ?_⟩,
    fun n Q => ⟨kmTerm_of_no_literal, ?_⟩, fun n P i j rest => ⟨rfl, rfl, ?_⟩⟩
  · rintro ⟨t, t', ht, ht', hmem, hmem', hvaries⟩
    exact kmLiteral_of_varies ht ht' hmem hmem' hvaries
  · rintro ⟨v, hv, hliteral⟩
    exact kmTerm_of_literal hv hliteral
  · simp [kmSop, joinPlus, chPlus]

end Sys2Proof.Machine
end

section
/-! PROOFS, the family 46_kmap. When a rectangle is a product of literals (46_kmap.md R232): it is the product of a run
of rows and a run of columns, and a run on a side of at most 4 positions fixes some bits of the code and leaves the others
free. -/

namespace Sys2Proof.Machine

/-- The code at position `i` of the grid (46_kmap.md R227). -/
def gridCode (i : Nat) : Nat := i ^^^ i >>> 1

/-- `x` is a code of the run of `2^w` of the `2^k` positions that starts at `i` and wraps (46_kmap.md R228). -/
abbrev inRun (k w i x : Nat) : Prop := ∃ a, a < 2 ^ w ∧ x = gridCode ((i + a) % 2 ^ k)

/-- The run fixes the bits of `care` at `value` and leaves the other bits free. -/
abbrev runFixes (k w i care value : Nat) : Prop := ∀ x, x < 2 ^ k → (inRun k w i x ↔ x &&& care = value)

/-- "With a side of 2 or 4 positions every power-of-two run of Gray-ordered codes, wrapping or not, is a subcube"
(46_kmap.md R232). -/
theorem exists_runFixes_of_le_two {k w i : Nat} (hk : k ≤ 2) (hw : w ≤ k) (hi : i < 2 ^ k) :
    ∃ care value, care < 2 ^ k ∧ value < 2 ^ k ∧ runFixes k w i care value := by
  have hfinite : ∀ w ≤ k, ∀ i < 2 ^ k, ∃ care < 2 ^ k, ∃ value < 2 ^ k, runFixes k w i care value := by
    interval_cases k <;> decide
  obtain ⟨care, hcare, value, hvalue, h⟩ := hfinite w hw i hi
  exact ⟨care, value, hcare, hvalue, h⟩

/-- Of 8 positions a run of 4 from an even start is one too (46_kmap.md R232). -/
theorem exists_runFixes_of_even {i : Nat} (hi : i < 2 ^ 3) (heven : i % 2 = 0) :
    ∃ care value, care < 2 ^ 3 ∧ value < 2 ^ 3 ∧ runFixes 3 2 i care value := by
  have hfinite : ∀ i < 2 ^ 3, i % 2 = 0 → ∃ care < 2 ^ 3, ∃ value < 2 ^ 3, runFixes 3 2 i care value := by decide
  obtain ⟨care, hcare, value, hvalue, h⟩ := hfinite i hi heven
  exact ⟨care, value, hcare, hvalue, h⟩

theorem gridCode_lt {i k : Nat} (h : i < 2 ^ k) : gridCode i < 2 ^ k := gray_lt i k h

/-- The row code stands above the column code (46_kmap.md R227). -/
theorem eq_gridCell_iff {colBits i j t : Nat} (hj : j < 2 ^ colBits) :
    t = gridCell colBits i j ↔ t / 2 ^ colBits = gridCode i ∧ t % 2 ^ colBits = gridCode j := by
  have hcode := gridCode_lt hj
  have hpos := Nat.two_pow_pos colBits
  rw [gridCell, ← gridCode, ← gridCode]
  constructor
  · rintro rfl
    rw [Nat.mul_comm, Nat.mul_add_div hpos, Nat.mul_add_mod, Nat.div_eq_of_lt hcode, Nat.mod_eq_of_lt hcode]
    exact ⟨rfl, rfl⟩
  · rintro ⟨hrow, hcol⟩
    rw [← hrow, ← hcol, Nat.mul_comm, Nat.div_add_mod]

/-- A rectangle is a run of rows times a run of columns (46_kmap.md R228). -/
theorem mem_iff_inRun {layout : Nat × Nat} {r : Rect} {Q : Word} (h : RectIs layout r Q) (t : Nat) : mem Q t ↔
    inRun layout.1 r.hb r.i0 (t / 2 ^ layout.2) ∧ inRun layout.2 r.wb r.j0 (t % 2 ^ layout.2) := by
  obtain ⟨-, -, -, -, hcells⟩ := h
  simp only [hcells, eq_gridCell_iff (Nat.mod_lt _ (Nat.two_pow_pos layout.2))]
  constructor
  · rintro ⟨a, b, ha, hb, hrow, hcol⟩
    exact ⟨⟨a, ha, hrow⟩, b, hb, hcol⟩
  · rintro ⟨⟨a, ha, hrow⟩, b, hb, hcol⟩
    exact ⟨a, b, ha, hb, hrow, hcol⟩

/-- Fixed bits of the row and fixed bits of the column are fixed bits of the minterm. -/
theorem and_eq_iff_row_col {k careRow valueRow careCol valueCol : Nat} (hcare : careCol < 2 ^ k)
    (hvalue : valueCol < 2 ^ k) (t : Nat) : t &&& (careRow * 2 ^ k + careCol) = valueRow * 2 ^ k + valueCol ↔
      t / 2 ^ k &&& careRow = valueRow ∧ t % 2 ^ k &&& careCol = valueCol := by
  have hdiv {a b : Nat} (hb : b < 2 ^ k) : (a * 2 ^ k + b) / 2 ^ k = a := by
    rw [Nat.mul_comm, Nat.mul_add_div (Nat.two_pow_pos k), Nat.div_eq_of_lt hb, Nat.add_zero]
  have hmod {a b : Nat} (hb : b < 2 ^ k) : (a * 2 ^ k + b) % 2 ^ k = b := by
    rw [Nat.mul_comm, Nat.mul_add_mod, Nat.mod_eq_of_lt hb]
  have hsplit (x y : Nat) : x = y ↔ x / 2 ^ k = y / 2 ^ k ∧ x % 2 ^ k = y % 2 ^ k :=
    ⟨fun h => by simp [h], fun h => by rw [← Nat.div_add_mod x (2 ^ k), h.1, h.2, Nat.div_add_mod]⟩
  rw [hsplit, Nat.and_div_two_pow, Nat.and_mod_two_pow, hdiv hcare, hdiv hvalue, hmod hcare, hmod hvalue]

/-- The product of a run of rows and a run of columns that fix bits fixes bits. -/
theorem isSubcube_of_runs {layout : Nat × Nat} {r : Rect} {Q : Word} (h : RectIs layout r Q)
    (hrow : ∃ care value, care < 2 ^ layout.1 ∧ value < 2 ^ layout.1 ∧ runFixes layout.1 r.hb r.i0 care value)
    (hcol : ∃ care value, care < 2 ^ layout.2 ∧ value < 2 ^ layout.2 ∧ runFixes layout.2 r.wb r.j0 care value) :
    isSubcube (layout.1 + layout.2) Q := by
  obtain ⟨careRow, valueRow, -, -, hrow⟩ := hrow
  obtain ⟨careCol, valueCol, hcare, hvalue, hcol⟩ := hcol
  refine ⟨careRow * 2 ^ layout.2 + careCol, valueRow * 2 ^ layout.2 + valueCol, fun t ht => ?_⟩
  have hhigh : t / 2 ^ layout.2 < 2 ^ layout.1 := Nat.div_lt_of_lt_mul (by rwa [← Nat.pow_add, Nat.add_comm])
  rw [mem_iff_inRun h, and_eq_iff_row_col hcare hvalue, hrow _ hhigh, hcol _ (Nat.mod_lt _ (Nat.two_pow_pos _))]

/-- With three minterms a product of literals holds the bitwise sum of them: it is fixed where they are. -/
theorem isSubcube.xor_mem {n : Nat} {Q : Word} (h : isSubcube n Q) {x y z : Nat} (hx : x < 2 ^ n) (hy : y < 2 ^ n)
    (hz : z < 2 ^ n) (hxQ : mem Q x) (hyQ : mem Q y) (hzQ : mem Q z) : mem Q (x ^^^ y ^^^ z) := by
  obtain ⟨care, value, hfix⟩ := h
  rw [hfix _ (Nat.xor_lt_two_pow (Nat.xor_lt_two_pow hx hy) hz), Nat.and_xor_distrib_right, Nat.and_xor_distrib_right,
    (hfix x hx).1 hxQ, (hfix y hy).1 hyQ, (hfix z hz).1 hzQ]
  simp

/-- With 8 columns "a run of 4 that starts at an odd position is not": the codes at its first, second and fourth
positions sum to a code outside (46_kmap.md R232). -/
theorem not_isSubcube_of_odd {r : Rect} {Q : Word} (h : RectIs (2, 3) r Q) (hw : r.wb = 2) (hodd : r.j0 % 2 = 1) :
    ¬isSubcube 5 Q := by
  intro hcube
  obtain ⟨-, -, hi, hj, hcells⟩ := id h
  have hmem (b : Nat) (hb : b < 4) : mem Q (gridCell 3 (r.i0 % 4) ((r.j0 + b) % 8)) :=
    (hcells _).2 ⟨0, b, Nat.two_pow_pos _, by rw [hw]; exact hb, rfl⟩
  have hlt (b : Nat) : gridCell 3 (r.i0 % 4) ((r.j0 + b) % 8) < 2 ^ 5 :=
    gridCell_lt 2 3 _ _ (Nat.mod_lt _ (by decide)) (Nat.mod_lt _ (by decide))
  have hsum := hcube.xor_mem (hlt 0) (hlt 1) (hlt 3) (hmem 0 (by decide)) (hmem 1 (by decide)) (hmem 3 (by decide))
  obtain ⟨-, hrun⟩ := (mem_iff_inRun h _).1 hsum
  rw [hw] at hrun
  have hfinite : ∀ i < 4, ∀ j < 8, j % 2 = 1 → ¬inRun 3 2 j
      ((gridCell 3 (i % 4) ((j + 0) % 8) ^^^ gridCell 3 (i % 4) ((j + 1) % 8) ^^^ gridCell 3 (i % 4) ((j + 3) % 8)) %
        2 ^ 3) := by decide
  exact hfinite r.i0 hi r.j0 hj hodd hrun

/-- The literals of a product spell it: a bit that the product fixes has a literal (46_kmap.md R235). -/
theorem mem_iff_literals {n : Nat} {Q : Word} (hcube : isSubcube n Q) (hne : ∃ t, t < 2 ^ n ∧ mem Q t) {t : Nat}
    (ht : t < 2 ^ n) : mem Q t ↔ ∀ v, v < n →
      (kmLiteral n Q v = [kmVarChar v] → t.testBit (n - 1 - v) = true) ∧
      (kmLiteral n Q v = [kmVarChar v, chPrime] → t.testBit (n - 1 - v) = false) := by
  refine ⟨fun hmem v _ => ⟨fun h => one_of_kmLiteral h ht hmem, fun h => zero_of_kmLiteral h ht hmem⟩, fun h => ?_⟩
  obtain ⟨care, value, hfix⟩ := hcube
  obtain ⟨m, hm, hmQ⟩ := hne
  rw [hfix t ht, ← (hfix m hm).1 hmQ]
  refine Nat.eq_of_testBit_eq fun p => ?_
  rw [Nat.testBit_and, Nat.testBit_and]
  by_cases hp : p < n
  · cases hcare : care.testBit p with
    | false => simp
    | true =>
      have hbit : n - 1 - (n - 1 - p) = p := by omega
      have hsame (u : Nat) (hu : u < 2 ^ n) (huQ : mem Q u) : u.testBit p = m.testBit p := by
        have hand := congrArg (fun x => x.testBit p) (((hfix u hu).1 huQ).trans ((hfix m hm).1 hmQ).symm)
        simpa [hcare] using hand
      obtain ⟨hone, hzero⟩ := h (n - 1 - p) (by omega)
      rw [hbit] at hone hzero
      cases hmp : m.testBit p with
      | true => rw [hone (kmLiteral_of_one fun u hu huQ => by rw [hbit, hsame u hu huQ, hmp])]
      | false => rw [hzero (kmLiteral_of_zero ⟨m, hm, hmQ⟩ fun u hu huQ => by rw [hbit, hsame u hu huQ, hmp])]
  · have hpow : 2 ^ n ≤ 2 ^ p := Nat.pow_le_pow_right (n := 2) (by decide) (Nat.le_of_not_lt hp)
    rw [Nat.testBit_lt_two_pow (ht.trans_le hpow), Nat.testBit_lt_two_pow (hm.trans_le hpow)]

/-- The default layouts of up to 4 variables have sides of at most 4 positions (46_kmap.md R226). -/
theorem default_layout_sides {n : Nat} (hpos : 1 ≤ n) (hmax : n ≤ 4) :
    (kmLayoutOf Config.default n).1 ≤ 2 ∧ (kmLayoutOf Config.default n).2 ≤ 2 := by
  interval_cases n <;> decide

/-- Settles O60: a rectangle is a product of runs (`isSubcube_of_runs`), the runs by their sides, and the literals by
`mem_iff_literals`. -/
theorem kmTermsAreProducts : Obligations.KmTermsAreProducts := by
  unfold Obligations.KmTermsAreProducts
  refine ⟨fun c n layout h => ?_, by decide, fun n r Q hpos hmax h => ?_, fun r Q h hw => ?_,
    fun n Q hcube hne t ht => mem_iff_literals hcube hne ht⟩
  · rw [kmLayoutOf, List.getD_eq_getElem?_getD, h, Option.getD_some]
  · obtain ⟨hrows, hcols⟩ := default_layout_sides hpos hmax
    obtain ⟨hh, hw, hi, hj, -⟩ := id h
    rw [← kmLayoutOf_sum (by decide : Config.default.wf = true) (n := n) ⟨hpos, by omega⟩]
    exact isSubcube_of_runs h (exists_runFixes_of_le_two hrows hh hi) (exists_runFixes_of_le_two hcols hw hj)
  · obtain ⟨hh, -, hi, hj, -⟩ := id h
    refine ⟨fun hcube => ?_, fun heven => ?_⟩
    · by_contra hodd
      exact not_isSubcube_of_odd h hw (by omega) hcube
    · exact isSubcube_of_runs h (exists_runFixes_of_le_two (Nat.le_refl 2) hh hi)
        (by rw [hw]; exact exists_runFixes_of_even hj heven)

end Sys2Proof.Machine
end

section
/-! PROOFS, the family 46_kmap. The selection of KM.COVER (46_kmap.md R233): which implicants are essential, what a pick
gains, and that the greedy loop ends with every required minterm covered. -/

namespace Sys2Proof.Machine

theorem mem_foldl_or (L : List Word) (u : Word) (t : Nat) :
    mem (L.foldl (fun u Q => u ||| Q) u) t ↔ mem u t ∨ ∃ Q ∈ L, mem Q t := by
  induction L generalizing u with
  | nil => simp
  | cons Q L ih => simp [ih, mem, or_assoc]

theorem mem_not_iff (A : Word) (t : Nat) : mem (~~~A) t ↔ t < 32 ∧ ¬mem A t := by
  simp [mem]

theorem lt_of_mem {A : Word} {t : Nat} (h : mem A t) : t < 32 := by
  by_contra hge
  rw [mem, BitVec.getLsbD_of_ge _ _ (Nat.le_of_not_lt hge)] at h
  exact Bool.false_ne_true h

/-- An index past the list names the empty set. -/
theorem lt_length_of_mem {P : List Word} {i t : Nat} (h : mem (P.getD i 0#32) t) : i < P.length := by
  by_contra hge
  rw [List.getD_eq_default _ _ (Nat.le_of_not_lt hge)] at h
  simp [mem] at h

/-- The union of the implicants at the other indices (46_kmap.md R233). -/
theorem mem_othersUnion_iff (P : List Word) (i t : Nat) :
    mem (othersUnion P i) t ↔ ∃ j, j < P.length ∧ j ≠ i ∧ mem (P.getD j 0#32) t := by
  simp only [othersUnion, mem_foldl_or, List.mem_eraseIdx_iff_getElem]
  constructor
  · rintro (hzero | ⟨Q, ⟨j, hj, hne, rfl⟩, hmem⟩)
    · simp [mem] at hzero
    · exact ⟨j, hj, hne, by rwa [List.getD_eq_getElem _ _ hj]⟩
  · rintro ⟨j, hj, hne, hmem⟩
    exact .inr ⟨_, ⟨j, hj, hne, rfl⟩, by rwa [List.getD_eq_getElem _ _ hj] at hmem⟩

theorem isEssential_iff (P : List Word) (on : Word) (i : Nat) :
    isEssential P on i ↔ i < P.length ∧ kmEssential P on i = true := by
  refine and_congr_right fun _ => ?_
  rw [kmEssential, bne_iff_ne, ne_zero_iff]
  have hmeet (t : Nat) : mem (on &&& P.getD i 0#32 &&& ~~~othersUnion P i) t ↔
      (mem on t ∧ mem (P.getD i 0#32) t) ∧ mem (~~~othersUnion P i) t := by simp [mem]
  simp only [hmeet, mem_not_iff, mem_othersUnion_iff]
  constructor
  · rintro ⟨t, hon, hmem, halone⟩
    exact ⟨t, ⟨hon, hmem⟩, lt_of_mem hon, fun ⟨j, hj, hne, hother⟩ => halone j hj hne hother⟩
  · rintro ⟨t, ⟨hon, hmem⟩, -, halone⟩
    exact ⟨t, hon, hmem, fun j hj hne hother => halone ⟨j, hj, hne, hother⟩⟩

theorem mem_kmCovered_iff (P : List Word) (on : Word) (sel : List Nat) (t : Nat) :
    mem (kmCovered P on sel) t ↔ mem on t ∧ ∃ i ∈ sel, mem (P.getD i 0#32) t := by
  rw [kmCovered, ← List.foldl_map (f := fun i => P.getD i 0#32 &&& on), mem_foldl_or]
  simp only [List.mem_map, exists_exists_and_eq_and, mem, BitVec.getLsbD_and, Bool.and_eq_true, BitVec.getLsbD_zero,
    Bool.false_eq_true, false_or]
  exact ⟨fun ⟨i, hi, hmem, hon⟩ => ⟨hon, i, hi, hmem⟩, fun ⟨hon, i, hi, hmem⟩ => ⟨i, hi, hmem, hon⟩⟩

/-- Everything required is covered (46_kmap.md R233). -/
theorem kmCovered_eq_iff (P : List Word) (on : Word) (sel : List Nat) :
    kmCovered P on sel = on ↔ ∀ t, mem on t → ∃ i ∈ sel, mem (P.getD i 0#32) t := by
  constructor
  · intro h t ht
    rw [← h, mem_kmCovered_iff] at ht
    exact ht.2
  · intro h
    exact mem_ext _ _ fun t => (mem_kmCovered_iff P on sel t).trans ⟨fun ht => ht.1, fun ht => ⟨ht, h t ht⟩⟩

/-- `gain(i)` counts the required minterms of `P[i]` not covered yet (46_kmap.md R233). -/
theorem kmGain_eq_newlyCovered (P : List Word) (on : Word) (sel : List Nat) (i : Nat) :
    kmGain P on (kmCovered P on sel) i = newlyCovered P on sel i := by
  rw [kmGain, popcount, newlyCovered]
  congr 1
  refine List.filter_congr fun t ht => ?_
  have hcovered := mem_kmCovered_iff P on sel t
  have hlt := List.mem_range.1 ht
  rw [Bool.eq_iff_iff]
  simp only [BitVec.getLsbD_and, BitVec.getLsbD_not, Bool.and_eq_true, Bool.not_eq_true', ← Bool.not_eq_true, hcovered,
    List.all_eq_true, decide_eq_true hlt]
  grind

theorem newlyCovered_pos_iff (P : List Word) (on : Word) (sel : List Nat) (i : Nat) : 0 < newlyCovered P on sel i ↔
    ∃ t, mem on t ∧ mem (P.getD i 0#32) t ∧ ∀ k ∈ sel, ¬mem (P.getD k 0#32) t := by
  rw [newlyCovered, List.length_pos_iff_exists_mem]
  simp only [List.mem_filter, List.mem_range, Bool.and_eq_true, List.all_eq_true, Bool.not_eq_true', ← Bool.not_eq_true]
  constructor
  · rintro ⟨t, -, ⟨hmem, hon⟩, hfree⟩
    exact ⟨t, hon, hmem, hfree⟩
  · rintro ⟨t, hon, hmem, hfree⟩
    exact ⟨t, lt_of_mem hon, ⟨hmem, hon⟩, hfree⟩

/-- The implicants of maximal gain among those not selected (46_kmap.md R233). -/
theorem mem_kmBest_iff (P : List Word) (on : Word) (sel : List Nat) (i : Nat) :
    i ∈ kmBest P on (kmCovered P on sel) sel ↔ (i < P.length ∧ i ∉ sel) ∧
      ∀ j, j < P.length → j ∉ sel → newlyCovered P on sel j ≤ newlyCovered P on sel i := by
  simp only [kmBest, kmGain_eq_newlyCovered, List.mem_filter, List.mem_range, List.all_eq_true, Bool.not_eq_true',
    List.contains_eq_mem, decide_eq_false_iff_not, decide_eq_true_eq, and_imp]

theorem pairwise_kmBest (P : List Word) (on covered : Word) (sel : List Nat) :
    (kmBest P on covered sel).Pairwise (· < ·) :=
  (List.pairwise_lt_range.filter _).filter _

/-- Some implicant not selected has maximal gain, if one is left. -/
theorem kmBest_ne_nil {P : List Word} (on : Word) {sel : List Nat} {j : Nat} (hj : j < P.length) (hsel : j ∉ sel) :
    kmBest P on (kmCovered P on sel) sel ≠ [] := by
  obtain ⟨i, hi, hmax⟩ := ((Finset.range P.length).filter (· ∉ sel)).exists_max_image (newlyCovered P on sel)
    ⟨j, by simp [hj, hsel]⟩
  simp only [Finset.mem_filter, Finset.mem_range] at hi hmax
  exact List.ne_nil_of_mem ((mem_kmBest_iff P on sel i).2 ⟨hi, fun j hj hsel => hmax j ⟨hj, hsel⟩⟩)

/-- Of some tied indices one is chosen, the first under `lowest_index` (46_kmap.md R233). -/
theorem chooseTie_of_ne_nil (tie : KmGreedyTie) (draw picks : Nat) {best : List Nat} (h : best ≠ []) :
    ∃ i ∈ best, chooseTie tie draw picks best = some i ∧ (tie = .lowestIndex → best.head? = some i) := by
  cases tie with
  | lowestIndex => exact ⟨best.head h, List.head_mem h, List.head?_eq_some_head h, fun _ => List.head?_eq_some_head h⟩
  | any =>
    have hlt : Config.greedyPick draw picks % best.length < best.length := Nat.mod_lt _ (List.length_pos_iff.2 h)
    exact ⟨_, List.getElem_mem hlt, List.getElem?_eq_getElem hlt, nofun⟩

/-- A greedy pick after the selection `sel` (46_kmap.md R233). -/
structure IsPick (tie : KmGreedyTie) (P : List Word) (on : Word) (sel : List Nat) (i : Nat) : Prop where
  index : i < P.length
  fresh : i ∉ sel
  gain : 0 < newlyCovered P on sel i
  best : ∀ j, j < P.length → j ∉ sel → newlyCovered P on sel j ≤ newlyCovered P on sel i ∧
    (tie = .lowestIndex → newlyCovered P on sel j = newlyCovered P on sel i → i ≤ j)

/-- While a required minterm is uncovered, the machine picks an implicant that gains (46_kmap.md R233). -/
theorem exists_pick {P : List Word} {on : Word} (hcovers : ∀ t, mem on t → ∃ Q ∈ P, mem Q t) {sel : List Nat}
    (hopen : kmCovered P on sel ≠ on) (tie : KmGreedyTie) (draw picks : Nat) :
    ∃ i, chooseTie tie draw picks (kmBest P on (kmCovered P on sel) sel) = some i ∧ IsPick tie P on sel i := by
  rw [ne_eq, kmCovered_eq_iff] at hopen
  push Not at hopen
  obtain ⟨t, hon, hfree⟩ := hopen
  obtain ⟨Q, hQ, hmem⟩ := hcovers t hon
  obtain ⟨j, hj, rfl⟩ := List.mem_iff_getElem.1 hQ
  rw [← List.getD_eq_getElem _ 0#32 hj] at hmem
  have hsel : j ∉ sel := fun hj => hfree j hj hmem
  obtain ⟨i, hi, hchoose, hleast⟩ := chooseTie_of_ne_nil tie draw picks (kmBest_ne_nil on hj hsel)
  obtain ⟨⟨hindex, hfresh⟩, hmax⟩ := (mem_kmBest_iff P on sel i).1 hi
  have hgain : 0 < newlyCovered P on sel j := (newlyCovered_pos_iff P on sel j).2 ⟨t, hon, hmem, hfree⟩
  refine ⟨i, hchoose, hindex, hfresh, hgain.trans_le (hmax j hj hsel), fun k hk hksel => ⟨hmax k hk hksel, ?_⟩⟩
  intro htie heq
  have hkbest : k ∈ kmBest P on (kmCovered P on sel) sel :=
    (mem_kmBest_iff P on sel k).2 ⟨⟨hk, hksel⟩, fun j hj hjsel => heq ▸ hmax j hj hjsel⟩
  obtain ⟨rest, hbest⟩ := List.head?_eq_some_iff.1 (hleast htie)
  have horder := pairwise_kmBest P on (kmCovered P on sel) sel
  rw [hbest] at horder hkbest
  rcases List.mem_cons.1 hkbest with rfl | hrest
  · exact Nat.le_refl _
  · exact (List.rel_of_pairwise_cons horder hrest).le

/-- The greedy loop appends picks until everything required is covered; every turn takes an implicant not selected
before, so as many turns as there are such implicants suffice (46_kmap.md R233). -/
theorem kmGreedy_picks {P : List Word} {on : Word} (hcovers : ∀ t, mem on t → ∃ Q ∈ P, mem Q t) (tie : KmGreedyTie)
    (draw fuel : Nat) (sel : List Nat) (hfuel : (Finset.range P.length \ sel.toFinset).card ≤ fuel) :
    ∃ picks, kmGreedy tie draw P on fuel sel = sel ++ picks ∧
      (∀ k i, picks[k]? = some i → IsPick tie P on (sel ++ picks.take k) i) ∧
      kmCovered P on (sel ++ picks) = on := by
  induction fuel generalizing sel with
  | zero =>
    have hdone : kmCovered P on sel = on := by
      by_contra hopen
      obtain ⟨i, -, hpick⟩ := exists_pick hcovers hopen tie draw 0
      have hi : i ∈ Finset.range P.length \ sel.toFinset := by simp [hpick.index, hpick.fresh]
      rw [Finset.card_eq_zero.1 (Nat.le_zero.1 hfuel)] at hi
      exact absurd hi (Finset.notMem_empty i)
    exact ⟨[], by simp [kmGreedy], by simp, by simpa using hdone⟩
  | succ fuel ih =>
    by_cases hdone : kmCovered P on sel = on
    · exact ⟨[], by simp [kmGreedy, hdone], by simp, by simpa using hdone⟩
    · obtain ⟨i, hchoose, hpick⟩ := exists_pick hcovers hdone tie draw sel.length
      have hless : (Finset.range P.length \ (sel ++ [i]).toFinset).card ≤ fuel := by
        have hi : i ∈ Finset.range P.length \ sel.toFinset := by simp [hpick.index, hpick.fresh]
        have hrest :
            Finset.range P.length \ (sel ++ [i]).toFinset = (Finset.range P.length \ sel.toFinset).erase i := by
          ext j
          simp only [Finset.mem_erase, Finset.mem_sdiff, Finset.mem_range, List.mem_toFinset, List.mem_append,
            List.mem_singleton]
          tauto
        rw [hrest, Finset.card_erase_of_mem hi]
        omega
      obtain ⟨picks, hrun, hall, hcovered⟩ := ih (sel ++ [i]) hless
      refine ⟨i :: picks, ?_, fun k j hk => ?_, by simpa using hcovered⟩
      · simp [kmGreedy, hdone, hchoose, hrun]
      · cases k with
        | zero =>
          obtain rfl : i = j := by simpa using hk
          simpa using hpick
        | succ k => simpa using hall k j (by simpa using hk)

/-- What the machine selects is a selection of 46_kmap.md R233. -/
theorem kmSelect_isSelection {P : List Word} {on : Word} (hcovers : ∀ t, mem on t → ∃ Q ∈ P, mem Q t)
    (tie : KmGreedyTie) (draw : Nat) : IsSelection tie P on (kmSelect tie draw P on) := by
  have hfuel (ess : List Nat) : (Finset.range P.length \ ess.toFinset).card ≤ P.length := by
    simpa using Finset.card_le_card (Finset.sdiff_subset (s := Finset.range P.length) (t := ess.toFinset))
  obtain ⟨picks, hrun, hall, hcovered⟩ := kmGreedy_picks hcovers tie draw P.length
    ((List.range P.length).filter (kmEssential P on)) (hfuel _)
  rw [kmSelect, hrun]
  refine ⟨⟨_, picks, rfl, List.pairwise_lt_range.filter _, fun i => ?_, fun k i hk => ?_⟩,
    (kmCovered_eq_iff P on _).1 hcovered⟩
  · rw [isEssential_iff, List.mem_filter, List.mem_range]
  · obtain ⟨hindex, hfresh, hgain, hbest⟩ := hall k i hk
    exact ⟨hindex, hfresh, hgain, hbest⟩

end Sys2Proof.Machine
end

section
/-! PROOFS, the family 46_kmap. KM.COVER as a command (46_kmap.md R234 to R237): the table entries, the length of the
SOP text, which always fits, and the cover that the table shows. -/

namespace Sys2Proof.Machine

section Selection

variable {tie : KmGreedyTie} {P : List Word} {on : Word} {sel : List Nat}

/-- Every selected implicant covers a required minterm that those before it do not (46_kmap.md R233). -/
theorem IsSelection.adds (h : IsSelection tie P on sel) {k : Nat} (hk : k < sel.length) :
    0 < newlyCovered P on (sel.take k) sel[k] := by
  obtain ⟨ess, picks, rfl, hsorted, hess, hpicks⟩ := h.split
  by_cases hfirst : k < ess.length
  · rw [List.getElem_append_left hfirst, List.take_append_of_le_length hfirst.le]
    obtain ⟨-, t, hon, hmem, halone⟩ := (hess _).1 (List.getElem_mem hfirst)
    refine (newlyCovered_pos_iff _ _ _ _).2 ⟨t, hon, hmem, fun j hj => halone j ?_ ?_⟩
    · exact ((hess j).1 (List.mem_of_mem_take hj)).1
    · obtain ⟨l, hl, rfl⟩ := List.mem_take_iff_getElem.1 hj
      exact (List.pairwise_iff_getElem.1 hsorted l k (by omega) hfirst (by omega)).ne
  · have hge := Nat.le_of_not_lt hfirst
    rw [List.getElem_append_right hge, List.take_append, List.take_of_length_le hge]
    obtain ⟨-, -, hgain, -⟩ := hpicks _ _ (List.getElem?_eq_getElem _)
    exact hgain

/-- So there are at most as many as there are minterms. -/
theorem IsSelection.length_le (h : IsSelection tie P on sel) : sel.length ≤ 32 := by
  have hadds (k : Fin sel.length) : ∃ t : Fin 32, mem (P.getD sel[k] 0#32) t ∧
      ∀ j ∈ sel.take k, ¬mem (P.getD j 0#32) t := by
    obtain ⟨t, hon, hmem, hfree⟩ := (newlyCovered_pos_iff _ _ _ _).1 (h.adds k.isLt)
    exact ⟨⟨t, lt_of_mem hon⟩, hmem, hfree⟩
  choose minterm hmem hfree using hadds
  have hinj : Function.Injective minterm := by
    refine Function.Injective.of_lt_imp_ne fun k l hkl heq => hfree l sel[k] ?_ (heq ▸ hmem k)
    exact List.mem_take_iff_getElem.2 ⟨k, by omega, rfl⟩
  simpa using Fintype.card_le_of_injective minterm hinj

/-- The place in the selection order, counted from 1, is at most the number of minterms (46_kmap.md R234). -/
theorem IsSelection.rank_lt (h : IsSelection tie P on sel) (i : Nat) :
    (if i ∈ sel then sel.idxOf i + 1 else 0) < 256 := by
  have hlen := h.length_le
  split
  · rename_i hi
    have hplace := List.idxOf_lt_length_iff.2 hi
    omega
  · decide

/-- The fields of INFO, by their bits (10_state.md R33). -/
theorem getLsbD_kmInfo (P : List Word) (on : Word) (sel : List Nat) (i k : Nat) :
    (kmInfo P on sel i).getLsbD k =
      if k = 0 then kmEssential P on i else if k = 1 then sel.contains i else if k < 8 then false
      else (BitVec.ofNat 8 (if i ∈ sel then sel.idxOf i + 1 else 0)).getLsbD (k - 8) := by
  simp only [kmInfo, BitVec.getLsbD_append, BitVec.getLsbD_ofBool, BitVec.getLsbD_zero]
  grind

/-- What INFO holds at RANK (10_state.md R33). -/
theorem IsSelection.kmInfo_rank (h : IsSelection tie P on sel) (i : Nat) :
    (kmInfo P on sel i).toNat / 256 = if i ∈ sel then sel.idxOf i + 1 else 0 := by
  have hlt := h.rank_lt i
  have hrank : kmInfo P on sel i >>> 8 = BitVec.ofNat 32 (if i ∈ sel then sel.idxOf i + 1 else 0) := by
    refine BitVec.eq_of_getLsbD_eq fun k hk => ?_
    rw [BitVec.getLsbD_ushiftRight, getLsbD_kmInfo, if_neg (by omega), if_neg (by omega), if_neg (by omega),
      Nat.add_sub_cancel_left, BitVec.getLsbD_ofNat, BitVec.getLsbD_ofNat, decide_eq_true hk]
    by_cases hbyte : k < 8
    · rw [decide_eq_true hbyte]
    · have hpow : 2 ^ 8 ≤ 2 ^ k := Nat.pow_le_pow_right (n := 2) (by decide) (Nat.le_of_not_lt hbyte)
      rw [Nat.testBit_lt_two_pow (hlt.trans_le hpow), Bool.and_false, Bool.and_false]
  have hnum := congrArg BitVec.toNat hrank
  rw [BitVec.toNat_ushiftRight, Nat.shiftRight_eq_div_pow, BitVec.toNat_ofNat, Nat.mod_eq_of_lt (by omega)] at hnum
  exact hnum

/-- The machine's table entry is that of 46_kmap.md R234. -/
theorem IsSelection.isTableEntry (h : IsSelection tie P on sel) {i : Nat} (hi : i < P.length) :
    IsTableEntry P on sel i ⟨P.getD i 0#32, kmInfo P on sel i⟩ where
  cells := rfl
  ess := by rw [isEssential_iff, getLsbD_kmInfo]; simp [hi]
  picked := by rw [getLsbD_kmInfo]; simp
  rank := h.kmInfo_rank i
  rest k hk hk' := by rw [getLsbD_kmInfo]; grind

end Selection

theorem kmLiteral_length_le (n : Nat) (Q : Word) (v : Nat) : (kmLiteral n Q v).length ≤ 2 := by
  rw [kmLiteral_eq_ite]
  split_ifs <;> simp

theorem kmTerm_length_le (n : Nat) (Q : Word) : (kmTerm n Q).length ≤ 2 * n + 1 := by
  have hlits : ((List.range n).flatMap (kmLiteral n Q)).length ≤ 2 * n := by
    rw [List.length_flatMap]
    refine (List.sum_le_card_nsmul _ 2 ?_).trans (by simp [Nat.mul_comm])
    simp only [List.forall_mem_map]
    exact fun v _ => kmLiteral_length_le n Q v
  rw [kmTerm]
  split
  · simp
  · omega

theorem joinPlus_length_le (ts : List Text) (m : Nat) (h : ∀ t ∈ ts, t.length ≤ m) :
    (joinPlus ts).length ≤ ts.length * (m + 1) := by
  induction ts with
  | nil => simp [joinPlus]
  | cons t rest ih =>
    obtain ⟨ht, hrest⟩ := List.forall_mem_cons.1 h
    have hjoin := ih hrest
    cases rest with
    | nil => simpa [joinPlus] using ht.trans (Nat.le_succ m)
    | cons u rest =>
      have hstep : joinPlus (t :: u :: rest) = t ++ chPlus :: joinPlus (u :: rest) := rfl
      rw [hstep, List.length_append, List.length_cons, List.length_cons, Nat.succ_mul]
      omega

/-- At most 32 terms of at most 5 literals and their `+` signs fit every buffer (00_scope.md R5). -/
theorem kmSop_length_le {n : Nat} (hn : n ≤ 5) (P : List Word) {sel : List Nat} (hsel : sel.length ≤ 32) :
    (kmSop n P sel).length ≤ 384 := by
  rw [kmSop]
  split
  · simp
  · have hjoin := joinPlus_length_le (sel.map fun i => kmTerm n (P.getD i 0#32)) (2 * n + 1)
      (List.forall_mem_map.2 fun i _ => kmTerm_length_le n _)
    rw [List.length_map] at hjoin
    exact hjoin.trans (Nat.mul_le_mul hsel (by omega : 2 * n + 1 + 1 ≤ 12))

/-- The results of KM.COVER (46_kmap.md R234). -/
def kmCoverResults (n : Nat) (P : List Word) (on : Word) (sel : List Nat) : Results :=
  { ra := kmSop n P sel
    pi := (List.range P.length).map (fun i => ⟨P.getD i 0#32, kmInfo P on sel i⟩)
    aux0 := BitVec.ofNat 32 P.length
    aux1 := BitVec.ofNat 32 sel.length }

section Command

variable {s : State} {n : BitVec 8} {P : List Word}

/-- What KM.COVER computes once its operands passed the checks. -/
theorem opResult_kmCover (hread : kmPrimes? s.cfg n.toNat s.kmOn s.kmDc = .ok P) : opResult (.kmCover n) s =
    .ok (kmCoverResults n.toNat P s.kmOn (kmSelect s.cfg.kmGreedyTie s.freeCount P s.kmOn)) := by
  rw [opResult, kmCover, hread]
  rfl

/-- The text of a selection fits, so the table alone decides. -/
theorem kmCoverResults_overCapacity_iff (hs : s.inv = true) (hn : n.toNat ≤ 5) {tie : KmGreedyTie} {on : Word}
    {sel : List Nat} (hsel : IsSelection tie P on sel) :
    (kmCoverResults n.toNat P on sel).overCapacity s.cfg = true ↔ s.cfg.pimax < P.length := by
  have htext := kmSop_length_le hn P hsel.length_le
  have hbufmax : 1077 ≤ s.cfg.bufmax := by
    have hcfg := ((State.inv_iff s).1 hs).cfg
    simp only [Config.wf, Bool.and_eq_true, decide_eq_true_eq] at hcfg
    tauto
  have hfits : ¬s.cfg.bufmax < (kmSop n.toNat P sel).length := by omega
  simp [Results.overCapacity, kmCoverResults, hfits]

/-- KM.COVER completes with the table of its selection (46_kmap.md R234). -/
theorem completes_kmCover (hs : s.inv = true) (hn : n.toNat ≤ 5)
    (hread : kmPrimes? s.cfg n.toNat s.kmOn s.kmDc = .ok P) (hcovers : ∀ t, mem s.kmOn t → ∃ Q ∈ P, mem Q t)
    (hfit : P.length ≤ s.cfg.pimax) :
    ∃ (sel : List Nat) (table : List PiEntry), IsSelection s.cfg.kmGreedyTie P s.kmOn sel ∧
      table.length = P.length ∧ (∀ i e, table[i]? = some e → IsTableEntry P s.kmOn sel i e) ∧
      Completes (.kmCover n) s { ra := kmSop n.toNat P sel, pi := table, aux0 := BitVec.ofNat 32 P.length,
                                 aux1 := BitVec.ofNat 32 sel.length } := by
  have hsel := kmSelect_isSelection hcovers s.cfg.kmGreedyTie s.freeCount
  refine ⟨_, _, hsel, by simp, fun i e he => ?_, completes_of_ok _ s _ hs (opResult_kmCover hread)
    (Bool.eq_false_iff.2 fun h => ?_) rfl⟩
  · simp only [List.getElem?_map, Option.map_eq_some_iff, List.getElem?_eq_some_iff, List.getElem_range,
      List.length_range] at he
    obtain ⟨j, ⟨hi, rfl⟩, rfl⟩ := he
    exact hsel.isTableEntry hi
  · exact absurd ((kmCoverResults_overCapacity_iff hs hn hsel).1 h) (Nat.not_lt.2 hfit)

/-- Settles O57: the machine's selection is one of the rule (`kmSelect_isSelection`), and the text always fits. -/
theorem kmCoverRule : Obligations.KmCoverRule := by
  unfold Obligations.KmCoverRule
  refine fun s n hs hn => ⟨commandWord_toNat n 0x10#8, fun hnot => ?_, fun hlegal => ?_⟩
  · refine failsWith_of_error _ _ _ ?_
    rw [opResult, kmCover, kmPrimes?_of_not_legal hnot]
    rfl
  · obtain ⟨-, hmax⟩ := (legalNvars_iff n).1 hn
    obtain ⟨hlist, hall⟩ := primeList_of_legal hs hn hlegal
    refine ⟨⟨_, hlist⟩, fun P hP => ?_⟩
    obtain ⟨hread, hcovers⟩ := hall P hP
    have hsel := kmSelect_isSelection hcovers s.cfg.kmGreedyTie s.freeCount
    exact ⟨completes_kmCover hs hmax hread hcovers, fun hlong => failsWith_capacity _ s _ (opResult_kmCover hread)
      ((kmCoverResults_overCapacity_iff hs hmax hsel).2 hlong)⟩

/-- A command that fails shows an error code that is not 0 (60_exceptions.md R252). -/
theorem FailsWith.err_ne_zero {i : Instr} {s t : State} {e : Err} (h : FailsWith i s e) (ht : exec i s = .next t) :
    t.err ≠ 0#4 := by
  obtain ⟨u, hu, -, -, hshow⟩ := h
  injection hu.symm.trans ht with hut
  rw [← hut, hshow.err]
  exact e.code_bounds.1

/-- KM.COVER with `ERR = 0` passed its checks, and its table shows a selection of the prime list (46_kmap.md R234). -/
theorem kmCover_of_err_zero {t : State} (hs : s.inv = true) (hn : (Instr.kmCover n).wf s.cfg.tcwMax = true)
    (ht : exec (.kmCover n) s = .next t) (herr : t.err = 0#4) :
    ∃ (P : List Word) (sel : List Nat), IsPrimeList (kmLayoutOf s.cfg n.toNat) s.kmOn s.kmDc P ∧
      IsSelection s.cfg.kmGreedyTie P s.kmOn sel ∧ t.piTable.length = P.length ∧
      ∀ i e, t.piTable[i]? = some e → IsTableEntry P s.kmOn sel i e := by
  obtain ⟨-, hnot, hlegal⟩ := kmCoverRule s n hs hn
  by_cases hlegal' : kmOperandsLegal n.toNat s.kmOn s.kmDc
  · obtain ⟨⟨P, hP⟩, hall⟩ := hlegal hlegal'
    obtain ⟨hfit, hlong⟩ := hall P hP
    rcases Nat.lt_or_ge s.cfg.pimax P.length with hlt | hle
    · exact absurd herr ((hlong hlt).err_ne_zero ht)
    · obtain ⟨sel, table, hsel, hlen, hentries, u, hu, -, -, hshow⟩ := hfit hle
      injection hu.symm.trans ht with hut
      rw [← hut, hshow.piTable]
      exact ⟨P, sel, hP, hsel, hlen, hentries⟩
  · exact absurd herr ((hnot hlegal').err_ne_zero ht)

end Command

/-- Settles O58: the selection covers what is required, and each of its implicants is valid (46_kmap.md R229). -/
theorem kmCoverIsComplete : Obligations.KmCoverIsComplete := by
  unfold Obligations.KmCoverIsComplete
  intro s t n hs hn ht herr
  obtain ⟨P, sel, hP, hsel, hlen, hentries⟩ := kmCover_of_err_zero hs hn ht herr
  have hcovers (m : Nat) (hm : mem s.kmOn m) : ∃ e ∈ t.piTable, e.info.getLsbD 1 = true ∧ mem e.cells m := by
    obtain ⟨i, hi, hmem⟩ := hsel.covers m hm
    have hlt : i < t.piTable.length := hlen ▸ lt_length_of_mem hmem
    have hentry := hentries i _ (List.getElem?_eq_getElem hlt)
    exact ⟨_, List.getElem_mem hlt, hentry.picked.2 hi, hentry.cells ▸ hmem⟩
  have hsound (m : Nat) (hm : ∃ e ∈ t.piTable, e.info.getLsbD 1 = true ∧ mem e.cells m) :
      mem s.kmOn m ∨ mem s.kmDc m := by
    obtain ⟨e, he, -, hmem⟩ := hm
    obtain ⟨i, hi⟩ := List.mem_iff_getElem?.1 he
    rw [(hentries i e hi).cells] at hmem
    have hlt := lt_length_of_mem hmem
    rw [List.getD_eq_getElem _ _ hlt] at hmem
    obtain ⟨⟨-, hvalid, -⟩, -⟩ := (hP.primes _).1 (List.getElem_mem hlt)
    exact hvalid m hmem
  refine ⟨hcovers, hsound, fun hdc m => ⟨fun hm => ?_, hcovers m⟩⟩
  rcases hsound m hm with hon | hmem
  · exact hon
  · rw [hdc] at hmem
    simp [mem] at hmem

end Sys2Proof.Machine
end

section
/-! PROOFS, the family 60_exceptions. A pending command that ends with an error is one error completion, and nothing of
its results is written (60_exceptions.md R252). -/

namespace Sys2Proof.Machine

/-- STATUS with DONE, a code and no flag (10_state.md R26): the code is the digit of weight 16. -/
theorem statusWord_done_noFlags (err : BitVec 4) :
    statusWord false true err {} = 0x2#32 + 0x10#32 * err.setWidth 32 := by
  revert err
  decide

/-- A pending command that ends with a code other than 0 ended in an error completion: the delivery of results writes
`ERR = 0` (30_encoding.md R81, 60_exceptions.md R252). -/
theorem engineTurn_eq_failWith {s t : State} (hbusy : s.busy = true) (ht : engineTurn s = .next t)
    (herr : t.err ≠ 0#4) : ∃ e n, t = { s.failWith e with freeCount := n } := by
  rcases engineTurn_cases s with ⟨hidle, -⟩ | ⟨-, -, -, hturn⟩ | ⟨-, i, -, hturn⟩
  · rw [hbusy] at hidle
    cases hidle
  · rw [hturn] at ht
    cases ht
    exact ⟨.illegalCmd, s.freeCount, rfl⟩
  · rw [hturn] at ht
    cases ht
    rcases s.finish_fails_or_delivers (opResult i s) with ⟨e, hend⟩ | ⟨r, -, -, hend⟩
    · exact ⟨e, _, by rw [hend]⟩
    · have hzero : (s.finish (opResult i s)).err = 0#4 := by
        rw [hend, State.deliver_eq_complete, State.complete_err]
      exact absurd hzero herr

/-- Settles O11: the codes by their definition; and the end with an error is an error completion
(`engineTurn_eq_failWith`), which shows its code and nothing else (`State.failWith_shows`). -/
theorem errorCompletionClears : Obligations.ErrorCompletionClears := by
  unfold Obligations.ErrorCompletionClears
  refine ⟨by decide, fun s t hbusy ht herr => ?_⟩
  obtain ⟨e, n, rfl⟩ := engineTurn_eq_failWith hbusy ht herr
  have hshow := (s.failWith_shows e).withFreeCount n
  rw [hshow.err]
  refine ⟨⟨e, rfl⟩, (s.complete_untouched e.code {}).withFreeCount n, hshow, statusWord_done_noFlags e.code,
    fun k => State.piEntry_past _ k ?_⟩
  rw [hshow.piTable]
  exact Nat.zero_le k

end Sys2Proof.Machine
end
